-- ==== Sys2Proof/Word.lean ====
section
/-! DEFINITION. The machine's words and fields (00_scope.md R6, R8; 10_state.md R20, R24). -/

namespace Sys2Proof

/-- A 64-bit word: a memory word or the contents of an operating register (R20, R70). Bit 63 is the sign. -/
abbrev Word := BitVec 64

/-- A 16-bit parcel, one quarter of an instruction word (30_encoding.md R110). -/
abbrev Parcel := BitVec 16

/-- A 20-bit word address of the processor (20_memory.md R71). -/
abbrev Addr := BitVec 20

/-- A 4-bit designator: an X register number, or a small constant (R12, R21). -/
abbrev Reg := BitVec 4

/-- A 4-bit I/O channel number (10_state.md R46, R47). -/
abbrev Channel := BitVec 4

end Sys2Proof
end

