-- ==== Sys2Proof/Config.lean ====
section
/-! DEFINITION. What an implementation fixes: the parameters of 00_scope.md R6 and 92_eei_decisions.md with the spec's
defaults, and the free values, opaque constants without a body, about which nothing can be proved (log 3). -/

namespace Sys2Proof

/-- The two forms of the P stored by a field-limit or floating exit: `FIELD_LIMIT_SAVED_P` (60_exceptions.md R413 b, D11). -/
inductive SavedPForm where
  | pPlus1
  | p
  deriving DecidableEq, Repr

/-- The two readings of the operand of 0131: `XA_LOAD_FORM` (42_codes_01xx.md R244, D21). -/
inductive XaLoadForm where
  | bits12to5
  | bits7to0
  deriving DecidableEq, Repr

/-- How a context's run ended: the outcomes of `END_OF_RUN` (60_exceptions.md R443, D43). -/
inductive RunEnd where
  /-- The program executed 0333. -/
  | normal
  /-- A limit, an error exit, or an overflow. -/
  | fault
  /-- An asynchronous condition: the context is interrupted, not ended. -/
  | interrupted
  deriving DecidableEq, Repr

/-- `NPROC`, the number of processors (R6). -/
def Config.processors : Nat := 4

/-- `IWS_WORDS`, the length of the instruction word stack (R6). -/
def Config.iwsWords : Nat := 12

/-- `MEM_WORDS`, the number of words that exist (R6, R70, D7). -/
def Config.memWords : Nat := 262144

/-- `FIELD_UNIT`, the granule of RA and FL in words (R6, R36, R38). -/
def Config.fieldUnit : Nat := 256

/-- `XPKG_ALIGN`, the alignment of exchange packages in words (R6, R37). -/
def Config.packageAlign : Nat := 32

/-- `LINK_PRF_BIT`, the bit of a link that carries PRF (R290 d, D4, C7). DESIGN CHOICE of the spec, log 9. Unsafe. -/
def Config.linkPrfBit : Nat := 62

/-- `FIELD_LIMIT_SAVED_P` (R413 b, D11). DESIGN CHOICE of the spec, log 9. Unsafe. -/
def Config.fieldLimitSavedP : SavedPForm := .pPlus1

/-- `XA_LOAD_FORM` (R244, D21). DESIGN CHOICE of the spec, log 9. Unsafe. -/
def Config.xaLoadForm : XaLoadForm := .bits12to5

/-- `INDEF_MATCH_BITS`, how many leading bits mark an indefinite word (R165, D22). DESIGN CHOICE of the spec, log 9. Unsafe. -/
def Config.indefMatchBits : Nat := 12

/-- `END_OF_RUN`, asked of the XPW that the first exchange sequence to store a context stored, at that sequence's completion
(60_exceptions.md R443, D43): a fault for any of the bits 55 to 52, the normal end for bit 59 alone, an interruption for bits 58, 57, 56
alone. For the words that D43 does not class there is no answer. DESIGN CHOICE of the spec, log 42. Unsafe. -/
def Config.endOfRun (stored : BitVec 64) : Option RunEnd :=
  let flags := stored.extractLsb' 52 8
  if flags &&& 0x0F#8 ≠ 0 then some .fault
  else if flags = 0x80#8 then some .normal
  else if flags &&& 0x80#8 = 0 ∧ flags ≠ 0 then some .interrupted
  else none

/-- A word of which the spec says `any value`: the n-th drawn (logs 3, 12, 19 to 22, 24). Safe. -/
opaque Config.freeWord : Nat → BitVec 64

/-- The contents of the real time clock counter at the n-th draw (60_exceptions.md R437, D18, log 14). Safe. -/
opaque Config.freeClock : Nat → BitVec 20

/-- An open choice of two (93_implementation_defined.md U5, U7, U12; logs 15, 18, 20). Safe. -/
opaque Config.freeBit : Nat → Bool

/-- The quotient's scale in `fp_div`, of those by which it fits in a coefficient: how many bits of the quotient of the coefficients are
developed before it is truncated (40_arithmetic.md R176, U17, log 13). Safe. -/
opaque Config.fpDivScale : BitVec 64 → BitVec 64 → Nat

/-- The shift by which `fp_div` normalizes the truncated quotient, as far as it fits (R176, U17, log 13). Safe. -/
opaque Config.fpDivShift : BitVec 64 → BitVec 64 → Nat

/-- The sign of a quotient whose coefficient is zero, unless it overflows (R176, N15, log 13). Safe. -/
opaque Config.fpDivZeroSign : BitVec 64 → BitVec 64 → Bool

/-- The exponent of the quotient of a zero dividend (R176, N15, log 13). Safe. -/
opaque Config.fpDivZeroExponent : BitVec 64 → BitVec 64 → Int

end Sys2Proof
end

