-- ==== Sys2Proof/Syntax.lean ====
section
/-! DEFINITION. The instruction set: one constructor per row of the code table (30_encoding.md R120), in the table's order,
with the fields the row's encoding has. Fields the hardware ignores (R122) are no operands (log 35). -/

namespace Sys2Proof

/-- The 79 instructions (R120). `i`, `j`, `k` are 4-bit designators or 4-bit constants, `n` the 6-bit constant (R114),
`K` the 20-bit constant (R116). -/
inductive Instr where
  /-- Code 0000 (R201): Program error exit. -/
  | err00
  /-- Code 0001 (R202): Logical product of (Xj) and (Xk) to Xj. -/
  | and (j : Reg) (k : Reg)
  /-- Code 0002 (R203): Logical sum of (Xj) plus (Xk) to Xj. -/
  | or (j : Reg) (k : Reg)
  /-- Code 0003 (R204): Logical difference of (Xj) minus (Xk) to Xj. -/
  | xor (j : Reg) (k : Reg)
  /-- Code 0010 (R205): Copy (Xk) to Xj. -/
  | copy (j : Reg) (k : Reg)
  /-- Code 0011 (R206): Copy complement of (Xk) to Xj. -/
  | copyc (j : Reg) (k : Reg)
  /-- Code 0012 (R207): Shift (Xj) left by (Xk) or right if (Xk) is negative. -/
  | shl (j : Reg) (k : Reg)
  /-- Code 0013 (R208): Shift (Xj) right by (Xk) or left if (Xk) is negative. -/
  | shr (j : Reg) (k : Reg)
  /-- Code 0020 (R209): Floating DP sum of (Xj) plus (Xk) to Xj. -/
  | fdpadd (j : Reg) (k : Reg)
  /-- Code 0021 (R210): Floating DP difference of (Xj) minus (Xk) to Xj. -/
  | fdpsub (j : Reg) (k : Reg)
  /-- Code 0022 (R211): Floating divide of (Xj) by (Xk) to Xj. -/
  | fdiv (j : Reg) (k : Reg)
  /-- Code 0023 (R212): Population count of (Xk) to Xj. -/
  | pop (j : Reg) (k : Reg)
  /-- Code 0030 (R213): Floating DP product of (Xj) times (Xk) to Xj. -/
  | fdpmul (j : Reg) (k : Reg)
  /-- Code 0031 (R214): Integer product of (Xj) times (Xk) to Xj. -/
  | imul (j : Reg) (k : Reg)
  /-- Code 0032 (R215): Program error exit. -/
  | err0e
  /-- Code 0033 (R216): Pass. -/
  | pass
  /-- Code 0100 (R231): Transmit k to Xj. -/
  | setk (j : Reg) (k : Reg)
  /-- Code 0101 (R232): Transmit complement k to Xj. -/
  | setnk (j : Reg) (k : Reg)
  /-- Code 0102 (R233): Integer sum of (Xj) plus k to Xj. -/
  | addk (j : Reg) (k : Reg)
  /-- Code 0103 (R234): Integer difference of (Xj) minus k to Xj. -/
  | subk (j : Reg) (k : Reg)
  /-- Code 0110 (R235): Unpack coefficient of (Xj) to Xk. -/
  | unpc (j : Reg) (k : Reg)
  /-- Code 0111 (R236): Unpack exponent of (Xj) to Xk. -/
  | unpe (j : Reg) (k : Reg)
  /-- Code 0112 (R237): Pack coefficient Xk and exponent Xj to Xk. -/
  | pack (j : Reg) (k : Reg)
  /-- Code 0113 (R238): Integer difference 0 - (Xk) to Xj. -/
  | neg (j : Reg) (k : Reg)
  /-- Code 0120 (R239): Begin system call [MTF]. -/
  | bsc
  /-- Code 0121 (R240): End system call [MTF]. -/
  | esc
  /-- Code 0122 (R241): Block read input channel (Xj) to address (Xk) [MTF]. -/
  | chin (j : Reg) (k : Reg)
  /-- Code 0123 (R242): Block write output channel (Xj) from addr.(Xk) [MTF]. -/
  | chout (j : Reg) (k : Reg)
  /-- Code 0130 (R243): Read channel request to Xj [MTF]. -/
  | rcr (j : Reg)
  /-- Code 0131 (R244): Enter XA from Xk [MTF]. -/
  | lxa (k : Reg)
  /-- Code 0132 (R245): Program error exit. -/
  | err1e
  /-- Code 0133 (R246): Program error exit. -/
  | err1f
  /-- Code 0200 (R261): Store (Xj) data into memory at address K. -/
  | stk (j : Reg) (K : Addr)
  /-- Code 0201 (R262): Store (Xj) data into memory at address (Xk). -/
  | stx (j : Reg) (k : Reg)
  /-- Code 0202 (R263): Read/store: data at addr. K to Xj / (Xj) to addr. K. -/
  | rsk (j : Reg) (K : Addr)
  /-- Code 0203 (R264): Read/store: data at addr.(Xk) to Xj / (Xj) to addr.(Xk). -/
  | rsx (j : Reg) (k : Reg)
  /-- Code 0210 (R265): Read data at address K to Xj. -/
  | ldk (j : Reg) (K : Addr)
  /-- Code 0211 (R266): Read data at address (Xk) to Xj. -/
  | ldx (j : Reg) (k : Reg)
  /-- Code 0212 (R267): Read program at absolute address K to Xj. -/
  | rpk (j : Reg) (K : Addr)
  /-- Code 0213 (R268): Read program at absolute address (Xk) to Xj. -/
  | rpx (j : Reg) (k : Reg)
  /-- Code 0220 (R269): Read program at absolute address P + K to Xj. -/
  | rpp (j : Reg) (K : Addr)
  /-- Code 0221 (R270): Transmit P + K to Xj. -/
  | tpk (j : Reg) (K : Addr)
  /-- Code 0222 (R271): Transmit K to Xj. -/
  | tk (j : Reg) (K : Addr)
  /-- Code 0223 (R272): Transmit XA to Xj. -/
  | txa (j : Reg) (k : Reg)
  /-- Code 0230 (R273): Set interlock flags from Xk (IPF). -/
  | sil (k : Reg)
  /-- Code 0231 (R274): Clear interlock flags from Xk (IPF). -/
  | cil (k : Reg)
  /-- Code 0232 (R275): Read interlock register to Xj. -/
  | ril (j : Reg) (k : Reg)
  /-- Code 0233 (R276): Read internal clock to Xj. -/
  | rtc (j : Reg) (k : Reg)
  /-- Code 0300 (R291): Jump to P + K. -/
  | jp (K : Addr)
  /-- Code 0301 (R292): Set (Xj) = P and call subroutine at P + K. -/
  | callp (j : Reg) (K : Addr)
  /-- Code 0302 (R293): Jump to P + K if (Xj) in range. -/
  | jir (j : Reg) (K : Addr)
  /-- Code 0303 (R294): Jump to P + K if (Xj) not in range. -/
  | jnr (j : Reg) (K : Addr)
  /-- Code 0310 (R295): Jump to P + K if (Xj) is equal to zero. -/
  | jz (j : Reg) (K : Addr)
  /-- Code 0311 (R296): Jump to P + K if (Xj) is not equal to zero. -/
  | jnz (j : Reg) (K : Addr)
  /-- Code 0312 (R297): Jump to P + K if (Xj) is positive. -/
  | jpl (j : Reg) (K : Addr)
  /-- Code 0313 (R298): Jump to P + K if (Xj) is negative. -/
  | jng (j : Reg) (K : Addr)
  /-- Code 0320 (R299): Set (Xj) = P and call subroutine at K. -/
  | callk (j : Reg) (K : Addr)
  /-- Code 0321 (R300): Set (Xj) = P and call subroutine at (Xk). -/
  | callx (j : Reg) (k : Reg)
  /-- Code 0322 (R301): Set (Xj) = P & call lib. routine at addr. K [clear PRF]. -/
  | lcallk (j : Reg) (K : Addr)
  /-- Code 0323 (R302): Set (Xj) = P & call lib. rout. at addr.(Xk) [clear PRF]. -/
  | lcallx (j : Reg) (k : Reg)
  /-- Code 0330 (R303): Subroutine exit to (Xj) + k. -/
  | ret (j : Reg) (k : Reg)
  /-- Code 0331 (R304): Library exit to (Xj) + k [set/clear PRF]. -/
  | lret (j : Reg) (k : Reg)
  /-- Code 0332 (R305): Jump to K. -/
  | jk (K : Addr)
  /-- Code 0333 (R306): Exchange exit. -/
  | xj
  /-- Code 100X (R321): Save lower (Xj) for n bits. -/
  | save (j : Reg) (n : BitVec 6)
  /-- Code 101X (R322): Blank lower (Xj) for n bits. -/
  | blank (j : Reg) (n : BitVec 6)
  /-- Code 102X (R323): Left shift (Xj) by n bits. -/
  | roln (j : Reg) (n : BitVec 6)
  /-- Code 103X (R324): Right shift (Xj) by n bits. -/
  | sarn (j : Reg) (n : BitVec 6)
  /-- Code 11XX (R331): Integer sum of (Xj) plus K to Xi. -/
  | iaddk (i : Reg) (j : Reg) (K : Addr)
  /-- Code 12XX (R332): Integer sum of (Xj) plus (Xk) to Xi. -/
  | iadd (i : Reg) (j : Reg) (k : Reg)
  /-- Code 13XX (R333): Integer difference of (Xj) minus (Xk) to Xi. -/
  | isub (i : Reg) (j : Reg) (k : Reg)
  /-- Code 20XX (R334): Floating sum of (Xj) plus (Xk) to Xi. -/
  | fadd (i : Reg) (j : Reg) (k : Reg)
  /-- Code 21XX (R335): Floating difference of (Xj) minus (Xk) to Xi. -/
  | fsub (i : Reg) (j : Reg) (k : Reg)
  /-- Code 22XX (R336): Floating product of (Xj) times (Xk) to Xi. -/
  | fmul (i : Reg) (j : Reg) (k : Reg)
  /-- Code 23XX (R337): Branch backward i words if (Xj) < (Xk). -/
  | brb (i : Reg) (j : Reg) (k : Reg)
  /-- Code 30XX (R338): Read data at address (Xj) + K to Xi. -/
  | ldxk (i : Reg) (j : Reg) (K : Addr)
  /-- Code 31XX (R339): Read data at address (Xj) + Xk to Xi. -/
  | ldxx (i : Reg) (j : Reg) (k : Reg)
  /-- Code 32XX (R340): Store data at address (Xj) + K from Xi. -/
  | stxk (i : Reg) (j : Reg) (K : Addr)
  /-- Code 33XX (R341): Store data at address (Xj) + (Xk) from Xi. -/
  | stxx (i : Reg) (j : Reg) (k : Reg)
  deriving DecidableEq, Repr

end Sys2Proof
end

