-- ==== Sys2Proof/WellFormed.lean ====
section
/-! DEFINITION. Well-formedness: the length of an instruction in parcels and where in a word it may start
(30_encoding.md R112, R118, R121). The operands are bit fields of their exact widths, so no value of one is ill formed. -/

namespace Sys2Proof

/-- The length in parcels, fixed by the instruction code alone (R112); two for the codes R121 lists. -/
def Instr.parcels : Instr → Nat
  | .err00 => 1
  | .and _ _ => 1
  | .or _ _ => 1
  | .xor _ _ => 1
  | .copy _ _ => 1
  | .copyc _ _ => 1
  | .shl _ _ => 1
  | .shr _ _ => 1
  | .fdpadd _ _ => 1
  | .fdpsub _ _ => 1
  | .fdiv _ _ => 1
  | .pop _ _ => 1
  | .fdpmul _ _ => 1
  | .imul _ _ => 1
  | .err0e => 1
  | .pass => 1
  | .setk _ _ => 1
  | .setnk _ _ => 1
  | .addk _ _ => 1
  | .subk _ _ => 1
  | .unpc _ _ => 1
  | .unpe _ _ => 1
  | .pack _ _ => 1
  | .neg _ _ => 1
  | .bsc => 1
  | .esc => 1
  | .chin _ _ => 1
  | .chout _ _ => 1
  | .rcr _ => 1
  | .lxa _ => 1
  | .err1e => 1
  | .err1f => 1
  | .stk _ _ => 2
  | .stx _ _ => 1
  | .rsk _ _ => 2
  | .rsx _ _ => 1
  | .ldk _ _ => 2
  | .ldx _ _ => 1
  | .rpk _ _ => 2
  | .rpx _ _ => 1
  | .rpp _ _ => 2
  | .tpk _ _ => 2
  | .tk _ _ => 2
  | .txa _ _ => 1
  | .sil _ => 1
  | .cil _ => 1
  | .ril _ _ => 1
  | .rtc _ _ => 1
  | .jp _ => 2
  | .callp _ _ => 2
  | .jir _ _ => 2
  | .jnr _ _ => 2
  | .jz _ _ => 2
  | .jnz _ _ => 2
  | .jpl _ _ => 2
  | .jng _ _ => 2
  | .callk _ _ => 2
  | .callx _ _ => 1
  | .lcallk _ _ => 2
  | .lcallx _ _ => 1
  | .ret _ _ => 1
  | .lret _ _ => 1
  | .jk _ => 2
  | .xj => 1
  | .save _ _ => 1
  | .blank _ _ => 1
  | .roln _ _ => 1
  | .sarn _ _ => 1
  | .iaddk _ _ _ => 2
  | .iadd _ _ _ => 1
  | .isub _ _ _ => 1
  | .fadd _ _ _ => 1
  | .fsub _ _ _ => 1
  | .fmul _ _ _ => 1
  | .brb _ _ _ => 1
  | .ldxk _ _ _ => 2
  | .ldxx _ _ _ => 1
  | .stxk _ _ _ => 2
  | .stxx _ _ _ => 1

/-- The instruction, started at parcel `pp`, ends inside its word (R118): a 2-parcel instruction starts at parcel 0, 1 or 2. -/
def Instr.fitsAt (i : Instr) (pp : Fin 4) : Bool := pp.val + i.parcels ≤ 4

/-- A list of instructions is one of the allowed arrangements of a word (R118): it fills the four parcels exactly. -/
def fillsWord (is : List Instr) : Bool := (is.map Instr.parcels).sum = 4

end Sys2Proof
end

