-- ==== Sys2Proof/Decode.lean ====
section
/-! DEFINITION. Decoding and encoding (30_encoding.md R110 to R123). The decoder is total on any list of parcels and rejects
by name; the encoder writes zeros in the fields the hardware ignores (log 35). -/

namespace Sys2Proof

/-- Why a list of parcels holds no instruction. Every single parcel value is an instruction code (R117, R124), so only
missing parcels are refused. Safe. -/
inductive DecodeError where
  /-- No parcel is left. -/
  | noParcel
  /-- A 2-parcel code with no parcel of the same word after it (R118). -/
  | secondParcelMissing
  deriving DecidableEq, Repr

/-- The four parcels of a word in execution order: parcel 0 is bits 63:48 (R111, D1). -/
def parcelsOf (w : Word) : List Parcel :=
  [w.extractLsb' 48 16, w.extractLsb' 32 16, w.extractLsb' 16 16, w.extractLsb' 0 16]

/-- The word whose parcels are given in execution order (R111). -/
def wordOf (p0 p1 p2 p3 : Parcel) : Word := p0 ++ p1 ++ p2 ++ p3

/-- `p[15:8]`, the code of format F8 (R115). -/
def Parcel.code (p : Parcel) : BitVec 8 := p.extractLsb' 8 8

/-- `p[15:12]`, the code of format F4 (R113). -/
def Parcel.hi (p : Parcel) : BitVec 4 := p.extractLsb' 12 4

/-- `p[11:8]`, the i field (R113). -/
def Parcel.i (p : Parcel) : Reg := p.extractLsb' 8 4

/-- `p[7:4]`, the j field (R113 to R115). -/
def Parcel.j (p : Parcel) : Reg := p.extractLsb' 4 4

/-- `p[3:0]`, the k field (R113, R115). -/
def Parcel.k (p : Parcel) : Reg := p.extractLsb' 0 4

/-- n = p[9:8] : p[3:0] (R114). -/
def Parcel.n (p : Parcel) : BitVec 6 := p.extractLsb' 8 2 ++ p.extractLsb' 0 4

/-- K = k : second parcel (R116, D2). -/
def bigK (p q : Parcel) : Addr := p.k ++ q

/-- The 2-parcel codes (R121): the listed 8-bit codes, and the 4-bit codes 5, C and E. -/
def isTwoParcel (p : Parcel) : Bool :=
  if p.code.toNat < 0x40 then
    p.code.toNat ∈ [0x20, 0x22, 0x24, 0x26, 0x28, 0x29, 0x2A, 0x30, 0x31, 0x32, 0x33, 0x34, 0x35, 0x36, 0x37, 0x38, 0x3A, 0x3E]
  else p.hi.toNat ∈ [0x5, 0xC, 0xE]

/-- Codes 0000 to 0033 (hex 00 to 0F), by the low four bits of the code (R120). -/
def decode00xx (p _q : Parcel) : Instr :=
  match p.i.toNat with
  | 0x0 => .err00
  | 0x1 => .and p.j p.k
  | 0x2 => .or p.j p.k
  | 0x3 => .xor p.j p.k
  | 0x4 => .copy p.j p.k
  | 0x5 => .copyc p.j p.k
  | 0x6 => .shl p.j p.k
  | 0x7 => .shr p.j p.k
  | 0x8 => .fdpadd p.j p.k
  | 0x9 => .fdpsub p.j p.k
  | 0xA => .fdiv p.j p.k
  | 0xB => .pop p.j p.k
  | 0xC => .fdpmul p.j p.k
  | 0xD => .imul p.j p.k
  | 0xE => .err0e
  | _ => .pass

/-- Codes 0100 to 0133 (hex 10 to 1F), by the low four bits of the code (R120). -/
def decode01xx (p _q : Parcel) : Instr :=
  match p.i.toNat with
  | 0x0 => .setk p.j p.k
  | 0x1 => .setnk p.j p.k
  | 0x2 => .addk p.j p.k
  | 0x3 => .subk p.j p.k
  | 0x4 => .unpc p.j p.k
  | 0x5 => .unpe p.j p.k
  | 0x6 => .pack p.j p.k
  | 0x7 => .neg p.j p.k
  | 0x8 => .bsc
  | 0x9 => .esc
  | 0xA => .chin p.j p.k
  | 0xB => .chout p.j p.k
  | 0xC => .rcr p.j
  | 0xD => .lxa p.k
  | 0xE => .err1e
  | _ => .err1f

/-- Codes 0200 to 0233 (hex 20 to 2F), by the low four bits of the code (R120). -/
def decode02xx (p q : Parcel) : Instr :=
  match p.i.toNat with
  | 0x0 => .stk p.j (bigK p q)
  | 0x1 => .stx p.j p.k
  | 0x2 => .rsk p.j (bigK p q)
  | 0x3 => .rsx p.j p.k
  | 0x4 => .ldk p.j (bigK p q)
  | 0x5 => .ldx p.j p.k
  | 0x6 => .rpk p.j (bigK p q)
  | 0x7 => .rpx p.j p.k
  | 0x8 => .rpp p.j (bigK p q)
  | 0x9 => .tpk p.j (bigK p q)
  | 0xA => .tk p.j (bigK p q)
  | 0xB => .txa p.j p.k
  | 0xC => .sil p.k
  | 0xD => .cil p.k
  | 0xE => .ril p.j p.k
  | _ => .rtc p.j p.k

/-- Codes 0300 to 0333 (hex 30 to 3F), by the low four bits of the code (R120). -/
def decode03xx (p q : Parcel) : Instr :=
  match p.i.toNat with
  | 0x0 => .jp (bigK p q)
  | 0x1 => .callp p.j (bigK p q)
  | 0x2 => .jir p.j (bigK p q)
  | 0x3 => .jnr p.j (bigK p q)
  | 0x4 => .jz p.j (bigK p q)
  | 0x5 => .jnz p.j (bigK p q)
  | 0x6 => .jpl p.j (bigK p q)
  | 0x7 => .jng p.j (bigK p q)
  | 0x8 => .callk p.j (bigK p q)
  | 0x9 => .callx p.j p.k
  | 0xA => .lcallk p.j (bigK p q)
  | 0xB => .lcallx p.j p.k
  | 0xC => .ret p.j p.k
  | 0xD => .lret p.j p.k
  | 0xE => .jk (bigK p q)
  | _ => .xj

/-- Codes 100X to 103X (hex 40 to 4F), by `p[11:10]` (R114, R120). -/
def decodeSixBit (p : Parcel) : Instr :=
  match (p.extractLsb' 10 2).toNat with
  | 0 => .save p.j p.n
  | 1 => .blank p.j p.n
  | 2 => .roln p.j p.n
  | _ => .sarn p.j p.n

/-- The instruction whose first parcel is `p` and whose second, for a 2-parcel code, is `q` (R117, R120). -/
def decodeParcel (p q : Parcel) : Instr :=
  match p.hi.toNat with
  | 0x0 => decode00xx p q
  | 0x1 => decode01xx p q
  | 0x2 => decode02xx p q
  | 0x3 => decode03xx p q
  | 0x4 => decodeSixBit p
  | 0x5 => .iaddk p.i p.j (bigK p q)
  | 0x6 => .iadd p.i p.j p.k
  | 0x7 => .isub p.i p.j p.k
  | 0x8 => .fadd p.i p.j p.k
  | 0x9 => .fsub p.i p.j p.k
  | 0xA => .fmul p.i p.j p.k
  | 0xB => .brb p.i p.j p.k
  | 0xC => .ldxk p.i p.j (bigK p q)
  | 0xD => .ldxx p.i p.j p.k
  | 0xE => .stxk p.i p.j (bigK p q)
  | _ => .stxx p.i p.j p.k

/-- Decoding at the point of execution (R117): the instruction that a list of parcels begins with, and the parcels after it. -/
def decode : List Parcel → Except DecodeError (Instr × List Parcel)
  | [] => .error .noParcel
  | p :: rest =>
    if isTwoParcel p then
      match rest with
      | [] => .error .secondParcelMissing
      | q :: rest' => .ok (decodeParcel p q, rest')
    else .ok (decodeParcel p 0, rest)

/-- A parcel of format F8 (R115). -/
def f8 (code : BitVec 8) (j k : Reg) : Parcel := code ++ j ++ k

/-- The parcels of format F8K (R115, R116). -/
def f8K (code : BitVec 8) (j : Reg) (K : Addr) : List Parcel := [code ++ j ++ K.extractLsb' 16 4, K.extractLsb' 0 16]

/-- A parcel of format F6 (R114). -/
def f6 (code : BitVec 6) (j : Reg) (n : BitVec 6) : Parcel := code ++ n.extractLsb' 4 2 ++ j ++ n.extractLsb' 0 4

/-- A parcel of format F4 (R113). -/
def f4 (code : BitVec 4) (i j k : Reg) : Parcel := code ++ i ++ j ++ k

/-- The parcels of format F4K (R113, R116). -/
def f4K (code : BitVec 4) (i j : Reg) (K : Addr) : List Parcel := [code ++ i ++ j ++ K.extractLsb' 16 4, K.extractLsb' 0 16]

/-- The parcels of an instruction (R113 to R116, R120), zeros in the ignored fields. -/
def encode : Instr → List Parcel
  | .err00 => [f8 0x00#8 0 0]
  | .and j k => [f8 0x01#8 j k]
  | .or j k => [f8 0x02#8 j k]
  | .xor j k => [f8 0x03#8 j k]
  | .copy j k => [f8 0x04#8 j k]
  | .copyc j k => [f8 0x05#8 j k]
  | .shl j k => [f8 0x06#8 j k]
  | .shr j k => [f8 0x07#8 j k]
  | .fdpadd j k => [f8 0x08#8 j k]
  | .fdpsub j k => [f8 0x09#8 j k]
  | .fdiv j k => [f8 0x0A#8 j k]
  | .pop j k => [f8 0x0B#8 j k]
  | .fdpmul j k => [f8 0x0C#8 j k]
  | .imul j k => [f8 0x0D#8 j k]
  | .err0e => [f8 0x0E#8 0 0]
  | .pass => [f8 0x0F#8 0 0]
  | .setk j k => [f8 0x10#8 j k]
  | .setnk j k => [f8 0x11#8 j k]
  | .addk j k => [f8 0x12#8 j k]
  | .subk j k => [f8 0x13#8 j k]
  | .unpc j k => [f8 0x14#8 j k]
  | .unpe j k => [f8 0x15#8 j k]
  | .pack j k => [f8 0x16#8 j k]
  | .neg j k => [f8 0x17#8 j k]
  | .bsc => [f8 0x18#8 0 0]
  | .esc => [f8 0x19#8 0 0]
  | .chin j k => [f8 0x1A#8 j k]
  | .chout j k => [f8 0x1B#8 j k]
  | .rcr j => [f8 0x1C#8 j 0]
  | .lxa k => [f8 0x1D#8 0 k]
  | .err1e => [f8 0x1E#8 0 0]
  | .err1f => [f8 0x1F#8 0 0]
  | .stk j K => f8K 0x20#8 j K
  | .stx j k => [f8 0x21#8 j k]
  | .rsk j K => f8K 0x22#8 j K
  | .rsx j k => [f8 0x23#8 j k]
  | .ldk j K => f8K 0x24#8 j K
  | .ldx j k => [f8 0x25#8 j k]
  | .rpk j K => f8K 0x26#8 j K
  | .rpx j k => [f8 0x27#8 j k]
  | .rpp j K => f8K 0x28#8 j K
  | .tpk j K => f8K 0x29#8 j K
  | .tk j K => f8K 0x2A#8 j K
  | .txa j k => [f8 0x2B#8 j k]
  | .sil k => [f8 0x2C#8 0 k]
  | .cil k => [f8 0x2D#8 0 k]
  | .ril j k => [f8 0x2E#8 j k]
  | .rtc j k => [f8 0x2F#8 j k]
  | .jp K => f8K 0x30#8 0 K
  | .callp j K => f8K 0x31#8 j K
  | .jir j K => f8K 0x32#8 j K
  | .jnr j K => f8K 0x33#8 j K
  | .jz j K => f8K 0x34#8 j K
  | .jnz j K => f8K 0x35#8 j K
  | .jpl j K => f8K 0x36#8 j K
  | .jng j K => f8K 0x37#8 j K
  | .callk j K => f8K 0x38#8 j K
  | .callx j k => [f8 0x39#8 j k]
  | .lcallk j K => f8K 0x3A#8 j K
  | .lcallx j k => [f8 0x3B#8 j k]
  | .ret j k => [f8 0x3C#8 j k]
  | .lret j k => [f8 0x3D#8 j k]
  | .jk K => f8K 0x3E#8 0 K
  | .xj => [f8 0x3F#8 0 0]
  | .save j n => [f6 0x10#6 j n]
  | .blank j n => [f6 0x11#6 j n]
  | .roln j n => [f6 0x12#6 j n]
  | .sarn j n => [f6 0x13#6 j n]
  | .iaddk i j K => f4K 0x5#4 i j K
  | .iadd i j k => [f4 0x6#4 i j k]
  | .isub i j k => [f4 0x7#4 i j k]
  | .fadd i j k => [f4 0x8#4 i j k]
  | .fsub i j k => [f4 0x9#4 i j k]
  | .fmul i j k => [f4 0xA#4 i j k]
  | .brb i j k => [f4 0xB#4 i j k]
  | .ldxk i j K => f4K 0xC#4 i j K
  | .ldxx i j k => [f4 0xD#4 i j k]
  | .stxk i j K => f4K 0xE#4 i j K
  | .stxx i j k => [f4 0xF#4 i j k]

/-- The instruction of an opcode-table row whose `nbits` bits are `w`, numbered as the table numbers them: a 1-parcel row is
bits 15:0, a 2-parcel row has its first parcel in bits 31:16 and its second in bits 15:0 (30_encoding.md, opening; log 32). -/
def decodeTableWord (nbits w : Nat) : Option Instr :=
  let parcels : List Parcel :=
    if nbits ≤ 16 then [BitVec.ofNat 16 w, 0] else [BitVec.ofNat 16 (w / 2 ^ 16), BitVec.ofNat 16 w]
  match decode parcels with
  | .ok (i, _) => some i
  | .error _ => none

end Sys2Proof
end

