-- ==== Sys2Proof/Machine/State.lean ====
section
/-! DEFINITION. The machine's state as plain data (10_state.md, 60_exceptions.md sections 7 to 9), the reasons a step can
stop, and the state after dead start (R57, log 4). -/

namespace Sys2Proof.Machine

/-- Why the machine stops with a fault. -/
inductive Fault where
  /-- A reference, by the processor or by a channel, to the absolute address `a` at or beyond `MEM_WORDS` (20_memory.md R71,
  D7, U2, U25; log 7). Raised by the memory references of `Ops`, `Fetch`, `Channel` and by 0122 and 0123. Safe. -/
  | noSuchWord (a : Nat)
  deriving DecidableEq, Repr

/-- Why a step is refused. -/
inductive Refusal where
  /-- No meaning yet for the instruction; no arm of `exec` uses it. Safe. -/
  | notModelled (mnemonic : String)
  /-- A 2-parcel code in parcel 3 of a word (30_encoding.md R118, D16, U1; log 17). Raised by `fetch`. Safe. -/
  | twoParcelInFourthParcel
  /-- 0122 or 0123 names a channel path that is already transferring (R241, U15; log 26). Raised by `execChin`, `execChout`. Safe. -/
  | channelBusy
  /-- The schedule delivers channel data on a path with no block in progress, which the environment never does (R442 a, b;
  log 27). Raised by `deliver`. Safe. -/
  | noBlockInProgress
  deriving DecidableEq, Repr

/-- One listed word of memory: its absolute address and its contents. The word is the smallest addressable unit (R70, R72; log 6). -/
abbrev Cell := Nat × Word

/-- The common memory (R70): the words whose contents are not `Memory.unlisted`, by rising address. -/
abbrev Memory := List Cell

/-- What a word reads as that nothing has written since dead start (R57, D41). DESIGN CHOICE, log 5. Unsafe. -/
def Memory.unlisted : Word := 0

/-- A reference that this processor has issued and that has not reached memory (10_state.md R55): its absolute address; the X
register that the word goes to, for a load and a read/store; the word it writes, for a store and a read/store. -/
structure Ref where
  /-- The absolute address. -/
  addr : Nat
  /-- The X register that the word goes to. -/
  dest : Option Reg
  /-- The word that it writes. -/
  data : Option Word
  deriving DecidableEq, Repr

/-- The canonical form of a memory: addresses strictly rising and inside the memory, no entry equal to what an unlisted
address reads as. -/
abbrev Memory.wf (m : Memory) : Prop :=
  m.Pairwise (fun c d => c.1 < d.1) ∧ ∀ c ∈ m, c.2 ≠ Memory.unlisted ∧ c.1 < Config.memWords

/-- The exchange parameter word register but for its P field (10_state.md R30, R39). -/
structure Xpw where
  /-- Bit 63, monitor flag (R31). -/
  mtf : Bool
  /-- Bit 62, program reference flag (R32). -/
  prf : Bool
  /-- Bit 61, interlock flag (R33). -/
  ipf : Bool
  /-- Bit 60, floating-point interrupt flag (R34). -/
  ovf : Bool
  /-- Bits 59:52, condition flags (R35). -/
  cond : BitVec 8
  /-- Bits 51:40, reference address in units of 256 words (R36). -/
  ra : BitVec 12
  /-- Bits 39:32, exchange address in units of 32 words (R37). -/
  xa : BitVec 8
  /-- Bits 31:20, field length in units of 256 words (R38). -/
  fl : BitVec 12
  deriving DecidableEq, Repr

/-- A rank of the instruction address stack IAS and of the instruction word stack IWS (10_state.md R51): an address as P gives it,
and the word held for it. Without a word the fetch is in progress: memory has not been read yet (R52; log 15). -/
structure StackEntry where
  /-- The program address. -/
  addr : Addr
  /-- The word, once it has been read. -/
  word : Option Word
  deriving DecidableEq, Repr

/-- Which reference of an exchange sequence comes next (60_exceptions.md R414): the XPW, or an X register. -/
inductive ExchangeRef where
  | xpw
  | x (d : Reg)
  deriving DecidableEq, Repr

/-- An exchange sequence in progress (60_exceptions.md R412, R414). -/
structure ExchangeSequence where
  /-- XPW.XA as it was when the sequence began. -/
  package : BitVec 8
  /-- The XPW word that departs, with the condition flags and the resume address. -/
  out : Word
  /-- The next of the seventeen references. -/
  next : ExchangeRef
  deriving DecidableEq, Repr

/-- `CHAN_WIDTH`: a channel's word width (60_exceptions.md R432, D32; log 10). -/
inductive ChanWidth where
  | eight
  | twelve
  deriving DecidableEq, Repr

/-- One channel input path (10_state.md R47, 60_exceptions.md R430, R432). -/
structure InPath where
  /-- A block input is in progress. -/
  active : Bool
  /-- The absolute address the next assembled word goes to. -/
  addr : Addr
  /-- The width of the channel's words. -/
  width : ChanWidth
  /-- The assembly register: the bits received that make no full word yet, the first received first. -/
  bits : List Bool
  /-- The assembled words that the path has not written yet, each with its absolute address, the oldest first (R430, R441 b; log 45). -/
  waiting : List (Addr × Word)
  deriving DecidableEq, Repr

/-- One channel output path (10_state.md R47, 60_exceptions.md R431, R433, R436). -/
structure OutPath where
  /-- A block output is in progress. -/
  active : Bool
  /-- The absolute address the next word is read from. -/
  addr : Addr
  /-- The width of the channel's words. -/
  width : ChanWidth
  /-- The bits read from memory and not yet sent, the next to send first: of any number of memory words read ahead (R431). -/
  bits : List Bool
  /-- No word of the block has been sent: the record flag goes with the next one (R433). -/
  first : Bool
  /-- The parity status word (R436). -/
  parity : BitVec 12
  deriving DecidableEq, Repr

/-- The channel request mechanism (10_state.md R46, 60_exceptions.md R434). -/
structure ChannelRequest where
  /-- The channels with an unanswered request. -/
  pending : List Channel
  /-- The channel number on the channel request path. -/
  current : Option Channel
  /-- A processor has been interrupted for `current`, and no 0130 has released the mechanism. -/
  held : Bool
  deriving DecidableEq, Repr

/-- One of the processors other than the modelled one (R4, R6; log 1). -/
abbrev Other := Fin (Config.processors - 1)

/-- The two halves of a channel (R47). -/
inductive Half where
  | input
  | output
  deriving DecidableEq, Repr

/-- What the machine sends to the I/O equipment (60_exceptions.md R430 to R436; log 28). -/
inductive Signal where
  /-- Channel resume: an input word has been received (R430). -/
  | resume (c : Channel)
  /-- An output word, with or without the record flag (R431, R433). -/
  | word (c : Channel) (recordFlag : Bool) (v : BitVec 12)
  /-- The channel resume that says that a record flag has been acknowledged and a processor interrupted (R433; log 28). -/
  | acknowledge (c : Channel)
  /-- The parity status word at the end of a block output (R436). -/
  | parity (c : Channel) (v : BitVec 12)
  deriving DecidableEq, Repr

/-- The input/output section: the request mechanism, the other processors that it has flagged, each with the channel, and that have
not yet taken Condition(58) (R434; log 41), the sixteen channels, and the signals sent so far, newest first. -/
structure IoSection where
  req : ChannelRequest
  others : Vector (Option Channel) (Config.processors - 1)
  inPath : Vector InPath 16
  outPath : Vector OutPath 16
  wire : List Signal
  deriving DecidableEq, Repr

/-- One turn of the schedule: which agent moves next, and what it does (60_exceptions.md R441, R442; log 2). -/
inductive Turn where
  /-- The processor executes an instruction, whatever asynchronous cause is present (R418 b). -/
  | execute
  /-- The processor takes, of the asynchronous causes present, those named: channel request, time interval, system call (R418 c). -/
  | interrupt (io time sys : Bool)
  /-- The embedding system delivers the time interval event (R410). -/
  | timeInterval
  /-- The processor makes one of the seventeen references of an exchange sequence in progress (R414, R441 a; log 23). -/
  | reference
  /-- The oldest of the processor's references to the word `a` that wait reaches memory (10_state.md R55, 20_memory.md R90 to R92;
  log 30). -/
  | perform (a : Nat)
  /-- The load that waits for X[d] takes the word of the processor's own store that waits next before it for the same word, which
  that store makes visible to this processor alone (20_memory.md R90, R92; log 30). -/
  | forward (d : Reg)
  /-- The equipment sends a record flag on one half of a channel (R433, R442). -/
  | recordFlag (h : Half) (c : Channel)
  /-- The equipment delivers a word on an input path (R430, R442 a); an 8-bit channel uses its low 8 bits. -/
  | inWord (c : Channel) (v : BitVec 12)
  /-- An input path writes the oldest of its assembled words that wait to memory (R430, R441 b; log 45). -/
  | writeInput (c : Channel)
  /-- The equipment accepts a word from an output path (R431, R442 b). -/
  | outWord (c : Channel)
  /-- A block output reads the next memory word ahead of what it sends (R431, R441 c; log 44). -/
  | readAhead (c : Channel)
  /-- The request mechanism makes a pending channel current (R434). -/
  | selectRequest (c : Channel)
  /-- The request mechanism flags this processor, if its MTF is clear (R408, R434). -/
  | flagThis
  /-- The request mechanism flags another processor (R434). -/
  | flagOther (q : Other)
  /-- Another processor that the request mechanism has flagged takes Condition(58) (R408, R433). -/
  | otherTakes (q : Other)
  /-- Another processor in monitor mode executes 0130 (R435). -/
  | otherRcr (q : Other)
  /-- Another processor's store reaches memory (R441 a, 20_memory.md R92). -/
  | otherStore (q : Other) (a : Addr) (v : Word)
  /-- Another processor executes 0230 (R273). -/
  | otherSetIl (q : Other) (m : BitVec 20)
  /-- Another processor executes 0231 (R274). -/
  | otherClearIl (q : Other) (m : BitVec 20)
  /-- Another processor in monitor mode executes 0120 (R409). -/
  | otherBsc (q : Other)
  /-- Another processor in monitor mode executes 0121 (R409). -/
  | otherEsc (q : Other)
  /-- Another processor in monitor mode executes 0122 (R241). -/
  | otherChin (q : Other) (c : Channel) (a : Addr)
  /-- Another processor in monitor mode executes 0123 (R242). -/
  | otherChout (q : Other) (c : Channel) (a : Addr)
  deriving DecidableEq, Repr

/-- The state of the machine: one processor, what the four processors share, and the model's own fields. -/
structure State where
  /-- X[0] to X[15] (R20). -/
  x : Vector Word 16
  /-- The program address P (R24). -/
  p : Addr
  /-- The parcel pointer PP (R25). -/
  pp : Fin 4
  /-- The XPW register, P apart (R30). -/
  xpw : Xpw
  /-- The current instruction word (R53; log 16). -/
  ciw : Word
  /-- The instruction word stack and its addresses, the newest entry first (R51, R52; log 15). -/
  iws : List StackEntry
  /-- The storage address and storage word stacks: references issued that have not reached memory, the newest first (R55,
  20_memory.md R89 to R92; log 30). -/
  sws : List Ref
  /-- The X reservation flags: the registers whose data have not arrived (R54). -/
  xres : BitVec 16
  /-- The common memory (R70). -/
  mem : Memory
  /-- The interlock flag register IL (R43). -/
  il : BitVec 20
  /-- The system call flag SCF (R44). -/
  scf : Bool
  /-- The real time clock counter, as last read (R45; log 14). -/
  rtc : BitVec 20
  /-- The channels and the request mechanism (R46, R47). -/
  io : IoSection
  /-- The channel for which the request mechanism has flagged this processor, which has not yet taken Condition(58) (R408). -/
  ioFlag : Option Channel
  /-- The time interval event has been delivered and not yet taken (R410). -/
  timeFlag : Bool
  /-- The exchange sequence in progress (60_exceptions.md R412, R414, R441 a). -/
  exchanging : Option ExchangeSequence
  /-- The model's own: the XPW words stored by the exchange sequences completed so far, the newest first: what `END_OF_RUN` is asked
  of (R443; log 42). -/
  exits : List Word
  /-- The model's own: the schedule (log 2). -/
  script : List Turn
  /-- The model's own: how many free values have been drawn (log 3). -/
  draws : Nat
  deriving DecidableEq, Repr

/-- A meaning's answer. -/
abbrev Answer := Host.Outcome State Fault Refusal

/-- The XPW register at dead start: the spec states no bit of it (R57, D14). DESIGN CHOICE, log 4. Unsafe. -/
def Xpw.reset : Xpw := ⟨false, false, false, false, 0, 0, 0, 0⟩

/-- The channels at dead start: idle (R57, R451). DESIGN CHOICE, logs 4 and 10. Unsafe. -/
def IoSection.reset : IoSection where
  req := ⟨[], none, false⟩
  others := Vector.replicate (Config.processors - 1) none
  inPath := Vector.replicate 16 ⟨false, 0, .eight, [], []⟩
  outPath := Vector.replicate 16 ⟨false, 0, .eight, [], true, 0⟩
  wire := []

/-- The machine right after dead start (10_state.md R57, 70_reset_and_hazards.md R451). Stated: the X reservation flags are
clear; PP = 0; the instruction word stack is taken as empty. Every other value is a DESIGN CHOICE, logs 2 to 5, 10 and 42.
Unsafe. -/
def State.reset : State where
  x := Vector.replicate 16 0
  p := 0
  pp := 0
  xpw := Xpw.reset
  ciw := 0
  iws := []
  sws := []
  xres := 0
  mem := []
  il := 0
  scf := false
  rtc := 0
  io := IoSection.reset
  ioFlag := none
  timeFlag := false
  exchanging := none
  exits := []
  script := []
  draws := 0

end Sys2Proof.Machine
end

