-- ==== Sys2Proof/Machine/Arith.lean ====
section
/-! DEFINITION. Integer arithmetic, shifts, masks and population count (40_arithmetic.md R150 to R159, R177). -/

namespace Sys2Proof.Machine

/-- The magnitude of a ones' complement word (R150). -/
def magnitude (v : Word) : Nat := if v.msb then (~~~v).toNat else v.toNat

/-- `val1c`: the integer a ones' complement word stands for (R150). -/
def val1c (v : Word) : Int := if v.msb then -((~~~v).toNat : Int) else v.toNat

/-- `add1c`: the modified ones' complement sum, with end-around carry and a sum of all ones replaced by zero (R151). -/
def add1c (a b : Word) : Word :=
  let s := a.toNat + b.toNat
  let s := if s ≥ 2 ^ 64 then s - 2 ^ 64 + 1 else s
  let s := if s = 2 ^ 64 - 1 then 0 else s
  BitVec.ofNat 64 s

/-- `sub1c`: the complement of the subtrahend is added (R152). -/
def sub1c (a b : Word) : Word := add1c a (~~~b)

/-- `rotl64`, left circular shift (R155). -/
def rotl64 (v : Word) (n : Nat) : Word := v.rotateLeft n

/-- `sar64`, right shift end off with sign extension (R156). -/
def sar64 (v : Word) (n : Nat) : Word := v.sshiftRight n

/-- `mask_low`: ones in the low n bits (R158). -/
def maskLow (n : Nat) : Word := BitVec.ofNat 64 (2 ^ n - 1)

/-- `popcount`: the number of one bits (R159). -/
def popcount (v : Word) : Nat := (List.range 64).countP (fun b => v.getLsbD b)

/-- `shift_by`: left circular by a positive count, right with sign extension by the magnitude of a negative one (R157). A
magnitude above 63 has no stated result: the free word `free` (U3, D17; log 19). -/
def shiftBy (v c free : Word) : Word :=
  if magnitude c > 63 then free
  else if c.msb then sar64 v (magnitude c)
  else rotl64 v (magnitude c)

/-- `imul`: the low 64 bits of the product of two operands of 48 bits plus sign, complemented if the signs differ (R177). A
wider operand has no stated result: the free word `free` (U4, D24; log 20). A zero product of operands whose signs differ is
either zero, as `freeBit` says (U7; log 20). -/
def imul (a b free : Word) (freeBit : Bool) : Word :=
  if magnitude a < 2 ^ 48 ∧ magnitude b < 2 ^ 48 then
    let m := magnitude a * magnitude b
    let r := BitVec.ofNat 64 m
    if a.msb = b.msb then r
    else if m = 0 then (if freeBit then 0 else ~~~(0 : Word))
    else ~~~r
  else free

end Sys2Proof.Machine
end

