-- ==== Sys2Proof/Machine/Flags.lean ====
section
/-! DEFINITION. The condition flags and what is stored of them (10_state.md R35, 60_exceptions.md R401, R413, R415), and the
register tests (40_arithmetic.md R154, R164, R165, R167). There are no arithmetic condition codes (10_state.md R41). -/

namespace Sys2Proof.Machine

/-- The eight conditions by name (10_state.md R35, 60_exceptions.md R401). -/
inductive Cond where
  /-- 59, object program call: exchange exit (R403). -/
  | programCall
  /-- 58, I/O channel request (R408). -/
  | channelRequest
  /-- 57, time interval (R410). -/
  | timeInterval
  /-- 56, system call (R409). -/
  | systemCall
  /-- 55, data field limit (R404). -/
  | dataLimit
  /-- 54, program field limit (R406). -/
  | programLimit
  /-- 53, program error exit (R402). -/
  | errorExit
  /-- 52, overflow or indefinite (R407). -/
  | overflow
  deriving DecidableEq, Repr

/-- The bit of the XPW that is the condition's flag (R35). -/
def Cond.xpwBit : Cond → Nat
  | .programCall => 59
  | .channelRequest => 58
  | .timeInterval => 57
  | .systemCall => 56
  | .dataLimit => 55
  | .programLimit => 54
  | .errorExit => 53
  | .overflow => 52

/-- The condition's flag in the field of bits 59:52. -/
def Cond.flag (c : Cond) : BitVec 8 := BitVec.twoPow 8 (c.xpwBit - 52)

/-- The flags of the asynchronous conditions taken together at one boundary (60_exceptions.md R418 c). -/
def asyncFlags (io time sys : Bool) : BitVec 8 :=
  (if io then Cond.channelRequest.flag else 0) ||| (if time then Cond.timeInterval.flag else 0) |||
    (if sys then Cond.systemCall.flag else 0)

/-- The condition flags of the departing XPW: those raised; if flags had arrived set, every other flag is any value
(60_exceptions.md R415, D26, U13; log 24). -/
def storedFlags (arrived raised free : BitVec 8) : BitVec 8 := if arrived = 0 then raised else raised ||| free

/-- The resume address stored for a condition raised in the word at `p` (60_exceptions.md R413 a, b; log 9). -/
def savedP (c : Cond) (p : Addr) : Addr :=
  match c with
  | .programCall => p + 1
  | .errorExit => p + 1
  | .dataLimit => match Config.fieldLimitSavedP with | .pPlus1 => p + 1 | .p => p
  | .programLimit => match Config.fieldLimitSavedP with | .pPlus1 => p + 1 | .p => p
  | .overflow => match Config.fieldLimitSavedP with | .pPlus1 => p + 1 | .p => p
  | .channelRequest => p
  | .timeInterval => p
  | .systemCall => p

/-- `is_zero`: plus zero or minus zero (R154). -/
def isZero (v : Word) : Bool := v = 0 || v = ~~~(0 : Word)

/-- `is_neg`: the sign bit is set (R154). -/
def isNeg (v : Word) : Bool := v.getLsbD 63

/-- `oor`: the out-of-range flag is set, bits 63 and 62 disagree (R164). -/
def oor (w : Word) : Bool := w.getLsbD 63 != w.getLsbD 62

/-- The leading `INDEF_MATCH_BITS` bits are those of an indefinite word: 0011…1 or 1100…0 (R165, D22). -/
def indefinite (w : Word) : Bool :=
  let lead := w.toNat >>> (64 - Config.indefMatchBits)
  lead = 2 ^ (Config.indefMatchBits - 2) - 1 || lead = 2 ^ Config.indefMatchBits - 2 ^ (Config.indefMatchBits - 2)

/-- `in_range`, the test of 0302 and 0303 (R165). -/
def inRange (w : Word) : Bool := !(oor w || indefinite w)

/-- `normalized`: the highest bit of the coefficient's magnitude is set (R167). -/
def normalized (w : Word) : Bool := w.getLsbD 47 != w.getLsbD 63

end Sys2Proof.Machine
end

