-- ==== Sys2Proof/Machine/Float.lean ====
section
/-! DEFINITION. Floating point (40_arithmetic.md R160 to R176): the format, and the operations by the spec's reference reading
(R170 b, R173, R175; log 11). A `free` argument is the word from which the bits that the spec calls any value are taken
(R171, U19; log 12). -/

namespace Sys2Proof.Machine

/-- An unpacked number: sign, coefficient magnitude, exponent (R163). -/
structure FpNum where
  neg : Bool
  coef : Nat
  exp : Int
  deriving DecidableEq, Repr

/-- The integer exponent of the exponent field of a magnitude-form word: ones' complement with the highest bit complemented (R161, R163). -/
def exponentOf (field : BitVec 14) : Int :=
  let e14 := field ^^^ 0x2000#14
  if e14.msb then -((~~~e14).toNat : Int) else e14.toNat

/-- The exponent field of an exponent in -8191 .. 8191 (R161, R169). -/
def exponentField (e : Int) : BitVec 14 := if 0 ≤ e then BitVec.ofInt 14 (e + 0x2000) else BitVec.ofInt 14 (e + 0x1FFF)

/-- `fp_unpack` (R163). -/
def fpUnpack (w : Word) : FpNum :=
  let m := if w.msb then ~~~w else w
  ⟨w.msb, (m.extractLsb' 0 48).toNat, exponentOf (m.extractLsb' 48 14)⟩

/-- `fp_pack` (R169): the negative word is the complement of the positive one (R162). -/
def fpPack (neg : Bool) (coef : Nat) (e : Int) : Word :=
  let m : Word := (0 : BitVec 2) ++ exponentField e ++ BitVec.ofNat 48 coef
  if neg then ~~~m else m

/-- A word with the out-of-range flag set and every other bit free (R171 case 1). -/
def flagged (free : Word) : Word :=
  BitVec.ofBool (free.getLsbD 63) ++ BitVec.ofBool (!free.getLsbD 63) ++ free.extractLsb' 0 62

/-- An overflow: the twelve leading bits of the table of R165, every other bit free (R171 case 2). -/
def overflowWord (neg : Bool) (free : Word) : Word := (if neg then 0x800#12 else 0x7FF#12) ++ free.extractLsb' 0 52

/-- A result of sign, coefficient and exponent delivered: overflow, underflow to the all-zero word, or packed (R171 cases 2, 4). -/
def fpDeliver (neg : Bool) (coef : Nat) (e : Int) (free : Word) : Word :=
  if e > 8191 then overflowWord neg free else if e < -8191 then 0 else fpPack neg coef e

/-- The signed coefficient. -/
def FpNum.signed (a : FpNum) : Int := if a.neg then -(a.coef : Int) else a.coef

/-- The aligned 96-bit sum S of two unpacked numbers and the exponent of its lowest bit: the coefficient with the smaller
exponent is shifted down, truncating toward zero (R172, R173). -/
def alignedSum (a b : FpNum) : Int × Int :=
  let big := if a.exp ≥ b.exp then a else b
  let small := if a.exp ≥ b.exp then b else a
  let d := (big.exp - small.exp).toNat
  let low : Int := ((small.coef * 2 ^ 48 / 2 ^ d : Nat) : Int)
  (big.signed * 2 ^ 48 + (if small.neg then -low else low), big.exp - 48)

/-- A non-zero magnitude below 2^97 normalized to 96 bits, right one bit or left, the exponent corrected by the shift (R173). -/
def normalize96 (m : Nat) (e : Int) : Nat × Int :=
  if m ≥ 2 ^ 96 then (m / 2, e + 1) else (m * 2 ^ (95 - m.log2), e - ((95 - m.log2 : Nat) : Int))

/-- The upper half of the sum (20XX, 21XX), reference reading (R173). -/
def fpAddUpper (a b free : Word) : Word :=
  if oor a || oor b then flagged free
  else
    let s := alignedSum (fpUnpack a) (fpUnpack b)
    if s.1 = 0 then 0
    else
      let n := normalize96 s.1.natAbs s.2
      fpDeliver (s.1 < 0) (n.1 / 2 ^ 48) (n.2 + 48) free

/-- The lower half of the sum (0020, 0021), reference reading (R173). -/
def fpAddLower (a b free : Word) : Word :=
  if oor a || oor b then flagged free
  else
    let s := alignedSum (fpUnpack a) (fpUnpack b)
    if s.1 = 0 then 0
    else
      let n := normalize96 s.1.natAbs s.2
      fpDeliver (s.1 < 0) (n.1 % 2 ^ 48) n.2 free

/-- The 96-bit product of the coefficients after the single 1-bit normalizing shift, and its exponent (R174, R175). -/
def product96 (a b : FpNum) : Nat × Int :=
  let m := a.coef * b.coef
  if m < 2 ^ 95 then (m * 2, a.exp + b.exp - 1) else (m, a.exp + b.exp)

/-- The upper half of the product (22XX), reference reading (R175). Where a coefficient is zero and the exponent of the result exceeds
+8191, R336 and the prose of R175 give a zero and the procedure of R175 with R171 case 2 gives an overflow: the model's choice is the
overflow, which raises Condition(52) under OVF (DESIGN CHOICE, unsafe; log 11). -/
def fpMulUpper (a b free : Word) : Word :=
  if oor a || oor b then flagged free
  else
    let m := product96 (fpUnpack a) (fpUnpack b)
    fpDeliver (a.msb != b.msb) (m.1 / 2 ^ 48) (m.2 + 48) free

/-- The lower half of the product (0030), reference reading (R175). As in `fpMulUpper`, a product with a zero coefficient whose
exponent exceeds +8191 is an overflow (DESIGN CHOICE, unsafe; log 11). -/
def fpMulLower (a b free : Word) : Word :=
  if oor a || oor b then flagged free
  else
    let m := product96 (fpUnpack a) (fpUnpack b)
    fpDeliver (a.msb != b.msb) (m.1 % 2 ^ 48) m.2 free

/-- The largest scale by which the quotient of the coefficients `x` and `y`, truncated, fits in the 48 bits of a coefficient: the
largest k with x * 2^k / y below 2^48, that is, with x * 2^k at most 2^48 * y - 1 (R176; log 13). -/
def largestScale (x y : Nat) : Nat := ((2 ^ 48 * y - 1) / x).log2

/-- The quotient's coefficient before it is normalized, and its scale: the quotient of the coefficients, developed to a number of bits
that the spec leaves open and truncated, the remainder being discarded (R176, R211). Every scale whose quotient fits in 48 bits is
possible, for a dividend that is not normalized too; that the coefficient takes no more than its 48 bits is all that is assumed (N15;
log 13). -/
def quotientCoefficient (a b : Word) : Nat × Nat :=
  let x := (fpUnpack a).coef
  let y := (fpUnpack b).coef
  let k := Config.fpDivScale a b % (largestScale x y + 1)
  (x * 2 ^ k / y, k)

/-- `fp_div`: a truncated quotient of an open scaling, shifted left by an open number of places within 48 bits, whose exponent is treated
as that of every floating result (R171 cases 2, 4, R176). The sign is that of a quotient, but that of a truncated quotient whose
coefficient is zero is open where it does not overflow; the sign and the exponent of the quotient of a zero dividend are open (N15;
log 13). -/
def fpDiv (a b free : Word) : Word :=
  let q := quotientCoefficient a b
  let n := Config.fpDivShift a b % (48 - q.1.log2)
  let e := (fpUnpack a).exp - (fpUnpack b).exp - q.2 - n
  if (fpUnpack a).coef = 0 then fpDeliver (Config.fpDivZeroSign a b) 0 (Config.fpDivZeroExponent a b) free
  else fpDeliver (if q.1 = 0 ∧ e ≤ 8191 then Config.fpDivZeroSign a b else a.msb != b.msb) (q.1 * 2 ^ n) e free

/-- The quotient (0022): flagged when an operand is flagged or the divisor is not normalized, otherwise `fp_div` (R176, R211). -/
def fpQuotient (a b free : Word) : Word :=
  if oor a || oor b || !normalized b then flagged free else fpDiv a b free

/-- 0110: the coefficient as a 64-bit integer (42_codes_01xx.md R235). -/
def unpackCoefficient (w : Word) : Word := (if w.getLsbD 63 then BitVec.allOnes 16 else 0#16) ++ w.extractLsb' 0 48

/-- 0111: the exponent as a 64-bit integer (42_codes_01xx.md R236, C6). -/
def unpackExponent (w : Word) : Word :=
  if w.getLsbD 63 then (if w.getLsbD 61 then BitVec.allOnes 51 else 0#51) ++ ~~~w.extractLsb' 48 13
  else (if w.getLsbD 61 then 0#51 else BitVec.allOnes 51) ++ w.extractLsb' 48 13

/-- 0112: the packed word of a coefficient and an exponent operand (42_codes_01xx.md R237). An exponent operand that is not a
sign-extended 14-bit value gives any value (U8; log 21). -/
def packWord (exponent coefficient free : Word) : Word :=
  if (exponent.extractLsb' 0 14).signExtend 64 = exponent then
    let s := coefficient.getLsbD 63
    let field := exponent.extractLsb' 0 14 ^^^ 0x2000#14
    BitVec.ofBool s ++ BitVec.ofBool s ++ (if s then ~~~field else field) ++ coefficient.extractLsb' 0 48
  else free

end Sys2Proof.Machine
end

