-- ==== Sys2Proof/Machine/Ops.lean ====
section
/-! DEFINITION. The named operations over memory and registers, sequencing, and the exchange jump: the machine's only
exception entry, which is its return too (60_exceptions.md R400, R412, R417). -/

namespace Sys2Proof.Machine

/-- The word at an absolute address (20_memory.md R75). -/
def Memory.read : Memory → Nat → Word
  | [], _ => Memory.unlisted
  | c :: m, a => if c.1 = a then c.2 else Memory.read m a

/-- The memory without an entry for `a`. -/
def Memory.erase (m : Memory) (a : Nat) : Memory := m.filter (fun c => c.1 != a)

/-- The memory with an entry for `a` put in its place by rising address. -/
def Memory.insert : Memory → Nat → Word → Memory
  | [], a, v => [(a, v)]
  | c :: m, a, v => if a < c.1 then (a, v) :: c :: m else c :: Memory.insert m a v

/-- The whole word at `a` is replaced (20_memory.md R76); the canonical form is kept. -/
def Memory.write (m : Memory) (a : Nat) (v : Word) : Memory :=
  if v = Memory.unlisted then m.erase a else (m.erase a).insert a v

/-- What the processor whose waiting references are `w` reads at `a`: what the newest of those that write the word writes, otherwise
what is in memory (20_memory.md R90). -/
def Memory.view (m : Memory) : List Ref → Nat → Word
  | [], a => m.read a
  | r :: w, a => if r.addr = a then r.data.getD (Memory.view m w a) else Memory.view m w a

/-- The memory after a reference has reached it. -/
def Memory.put (m : Memory) (r : Ref) : Memory :=
  match r.data with
  | some v => m.write r.addr v
  | none => m

/-- The memory once all the waiting references `w` have reached it, the oldest first (R92). -/
def Memory.perform (m : Memory) : List Ref → Memory
  | [] => m
  | r :: w => (Memory.perform m w).put r

/-- The oldest of the waiting references to `a`, and those that are left (R90, R92). -/
def takeOldest (a : Nat) : List Ref → Option (Ref × List Ref)
  | [] => none
  | r :: w =>
    match takeOldest a w with
    | some q => some (q.1, r :: q.2)
    | none => if r.addr = a then some (r, w) else none

/-- The word that the load waiting for X[d] takes from the reference before it to the same word, if that one writes the word, and the
references that are left (R90, R92). -/
def takeForwarded (d : Reg) : List Ref → Option (Word × List Ref)
  | [] => none
  | r :: w =>
    if r.dest = some d then
      if r.data = none then ((w.find? (fun q => q.addr = r.addr)).bind (·.data)).map fun v => (v, w) else none
    else (takeForwarded d w).map fun q => (q.1, r :: q.2)

/-- `X[d]` (00_scope.md R10, R11). -/
def State.getX (s : State) (d : Reg) : Word := s.x[d.toNat]'d.isLt

/-- `X[d] <- v`. The data's arrival leaves the register's reservation flag clear (10_state.md R54). -/
def State.setX (s : State) (d : Reg) (v : Word) : State :=
  { s with x := s.x.set d.toNat v d.isLt, xres := s.xres &&& ~~~(BitVec.twoPow 16 d.toNat) }

/-- One free value has been drawn (log 3). -/
def State.drawn (s : State) : State := { s with draws := s.draws + 1 }

/-- The free word of the present draw (log 3). -/
def State.freeWord (s : State) : Word := Config.freeWord s.draws

/-- `next`, the sequential successor after an instruction of `len` parcels (10_state.md R27). -/
def State.advance (s : State) (len : Nat) : State :=
  if h : s.pp.val + len < 4 then { s with pp := ⟨s.pp.val + len, h⟩ } else { s with p := s.p + 1, pp := 0 }

/-- `jump(a)` (10_state.md R28). -/
def State.jump (s : State) (a : Addr) : State := { s with p := a, pp := 0 }

/-- The IAS is emptied and fetches in progress are discarded, so that every instruction word is fetched anew (10_state.md R52,
20_memory.md R96). -/
def State.clearIas (s : State) : State := { s with iws := [] }

/-- XPW.PRF is set or cleared (10_state.md R32). -/
def State.setPrf (s : State) (b : Bool) : State := { s with xpw := { s.xpw with prf := b } }

/-- XPW.XA is loaded (10_state.md R37). -/
def State.setXa (s : State) (xa : BitVec 8) : State := { s with xpw := { s.xpw with xa := xa } }

/-- The interlock register is replaced (10_state.md R43). -/
def State.setIl (s : State) (v : BitVec 20) : State := { s with il := v }

/-- The system call flag is replaced (10_state.md R44). -/
def State.setScf (s : State) (b : Bool) : State := { s with scf := b }

/-- The input/output section is replaced (10_state.md R46, R47). -/
def State.setIo (s : State) (io : IoSection) : State := { s with io := io }

/-- The clock is looked at: the counter's contents are a free value (60_exceptions.md R437, D18; log 14). -/
def State.readClock (s : State) : State := { s with rtc := Config.freeClock s.draws, draws := s.draws + 1 }

/-- The word at absolute address `a` as this processor reads it (20_memory.md R75, R90). -/
def State.view (s : State) (a : Nat) : Word := s.mem.view s.sws a

/-- A relative address relocated by RA: (RA * 256 + a) mod 2^20 (20_memory.md R80, R82). -/
def State.relocate (s : State) (a : Addr) : Nat := ((s.xpw.ra ++ 0#8) + a).toNat

/-- The absolute address of a program address: relocated only when PRF is set (20_memory.md R82). -/
def State.progAddr (s : State) (a : Addr) : Nat := if s.xpw.prf then s.relocate a else a.toNat

/-- The entry's fetch from absolute address `a` is in progress. -/
def State.awaits (s : State) (a : Nat) (e : StackEntry) : Bool := e.word.isNone && s.progAddr e.addr == a

/-- The word at `a` is about to be written. A fetch of it that is in progress has read memory before the write, or will after it: a
free choice (20_memory.md R95, U12; log 15). -/
def State.settle (s : State) (a : Nat) : State :=
  if s.iws.any (s.awaits a) then
    { s with
      iws := if Config.freeBit s.draws
        then s.iws.map fun e => if s.awaits a e then { e with word := some (s.view a) } else e
        else s.iws
      draws := s.draws + 1 }
  else s

/-- A word of memory is written by another agent (20_memory.md R76). -/
def State.poke (s : State) (a : Nat) (v : Word) : State := { s.settle a with mem := s.mem.write a v }

/-- A reference reaches memory: the word read goes to its register, and the word is written, in one step (20_memory.md R85, R86, R92). -/
def State.performRef (s : State) (r : Ref) : State :=
  { (match r.dest with
      | some d => s.setX d (s.mem.read r.addr)
      | none => s) with
    mem := s.mem.put r }

/-- The references `w` reach memory, the oldest first. -/
def State.performList (s : State) : List Ref → State
  | [] => s
  | r :: w => (State.performList s w).performRef r

/-- Every waiting reference reaches memory (20_memory.md R92). -/
def State.performAll (s : State) : State := State.performList { s with sws := [] } s.sws

/-- The oldest waiting reference to `a`, if there is one, reaches memory (20_memory.md R90, R92). -/
def State.perform (s : State) (a : Nat) : State :=
  match takeOldest a s.sws with
  | some q => { s with sws := q.2 }.performRef q.1
  | none => s

/-- The load that waits for X[d] takes the word that the processor's own waiting store before it writes (20_memory.md R90, R92). -/
def State.forward (s : State) (d : Reg) : State :=
  match takeForwarded d s.sws with
  | some q => { s with sws := q.2 }.setX d q.1
  | none => s

/-- The references to the word that X[d] waits for reach memory, the oldest first, until the register's data have arrived: at most
the given number (10_state.md R54, 20_memory.md R90). -/
def State.awaitReg (d : Reg) : Nat → State → State
  | 0, s => s
  | n + 1, s =>
    match s.sws.find? (fun r => r.dest = some d) with
    | none => s
    | some r => State.awaitReg d n (s.perform r.addr)

/-- The data of the registers `ds` arrive: an instruction that names them does not issue before (10_state.md R54,
70_reset_and_hazards.md R453, R463). -/
def State.await (s : State) (ds : List Reg) : State := ds.foldl (fun u d => State.awaitReg d s.sws.length u) s

/-- The sixteen X registers. -/
def allRegs : List Reg := (List.range 16).map (BitVec.ofNat 4)

/-- `all clear registers`: no register waits for data (20_memory.md R93). -/
def State.clearRegs (s : State) : State := s.await allRegs

/-- A reference waits, and the register that its word goes to is reserved (10_state.md R54, R55). -/
def State.wait (s : State) (r : Ref) : State :=
  { s with
    sws := r :: s.sws
    xres := match r.dest with
      | some d => s.xres ||| BitVec.twoPow 16 d.toNat
      | none => s.xres }

/-- This processor issues a reference to memory. It waits until the schedule has it reach memory; when the schedule is exhausted it
reaches memory at once, after those that wait (10_state.md R55, 20_memory.md R89 to R92; log 30). -/
def State.issue (s : State) (r : Ref) : State :=
  let t := if r.data.isSome then s.settle r.addr else s
  if s.script = [] then t.performAll.performRef r else t.wait r

/-- A reference of an exchange sequence reads the word at `a` and writes `v` to it, after the processor's earlier stores to that word
(20_memory.md R86, R90, R98). This is the write; what is read is `State.view`. -/
def State.swapWord (s : State) (a : Nat) (v : Word) : State :=
  { s with mem := s.mem.write a v, sws := s.sws.filter (fun r => r.addr != a) }

/-- The XPW as the exchange package holds it (10_state.md R30): 4, 8, 12, 8, 12 and 20 bits (C2). -/
def Xpw.pack (w : Xpw) (p : Addr) : Word :=
  BitVec.ofBool w.mtf ++ BitVec.ofBool w.prf ++ BitVec.ofBool w.ipf ++ BitVec.ofBool w.ovf ++ w.cond ++ w.ra ++ w.xa ++ w.fl ++ p

/-- The XPW that a word loads (10_state.md R30, R39; 60_exceptions.md R415). -/
def Xpw.unpack (w : Word) : Xpw where
  mtf := w.getLsbD 63
  prf := w.getLsbD 62
  ipf := w.getLsbD 61
  ovf := w.getLsbD 60
  cond := w.extractLsb' 52 8
  ra := w.extractLsb' 40 12
  xa := w.extractLsb' 32 8
  fl := w.extractLsb' 20 12

/-- The P field of an XPW word (10_state.md R39). -/
def Xpw.unpackP (w : Word) : Addr := w.extractLsb' 0 20

/-- The absolute address XA * 32 of the exchange package (10_state.md R37, R48). -/
def State.package (s : State) : Nat := s.xpw.xa.toNat * Config.packageAlign

/-- The XPW word that departs: the flags raised among the condition flags, the resume address as P (60_exceptions.md R412, R415). -/
def State.departingXpw (s : State) (raised : BitVec 8) (resume : Addr) : Word :=
  { s.xpw with cond := storedFlags s.xpw.cond raised (s.freeWord.extractLsb' 0 8) }.pack resume

/-- The first half of `exchange(resume)` (60_exceptions.md R412, steps 1 to 4): CIW and the IAS are cleared, the reservation flags
are clear, and the seventeen references are to be made, XPW first (R414). -/
def State.beginExchange (s : State) (raised : BitVec 8) (resume : Addr) : State :=
  { s with
    ciw := 0
    iws := []
    xres := 0
    exchanging := some ⟨s.xpw.xa, s.departingXpw raised resume, .xpw⟩
    draws := s.draws + 1 }

/-- The absolute address of the next reference of an exchange sequence (60_exceptions.md R414). -/
def ExchangeSequence.addr (e : ExchangeSequence) : Nat :=
  e.package.toNat * Config.packageAlign + match e.next with
    | .xpw => 16
    | .x d => d.toNat

/-- The reference that exchanges the XPW: the word that departs is stored, the arriving one is loaded, P with it (60_exceptions.md
R412, R414, R415). -/
def State.referenceXpw (s : State) (e : ExchangeSequence) : State :=
  { s.swapWord e.addr e.out with
    xpw := Xpw.unpack (s.view e.addr)
    p := Xpw.unpackP (s.view e.addr)
    pp := 0
    exchanging := some { e with next := .x 15 } }

/-- The reference that exchanges X[d]; with X[0] the sequence is complete (60_exceptions.md R412, R414). -/
def State.referenceX (s : State) (e : ExchangeSequence) (d : Reg) : State :=
  { s.swapWord e.addr (s.getX d) with
    x := s.x.set d.toNat (s.view e.addr) d.isLt
    exchanging := if d = 0 then none else some { e with next := .x (d - 1) }
    exits := if d = 0 then e.out :: s.exits else s.exits }

/-- One of the seventeen references of the exchange sequence in progress: register and word change places (60_exceptions.md R412,
R414; 20_memory.md R98). The XPW comes first, then X33 down to X00. -/
def State.reference (s : State) : State :=
  match s.exchanging with
  | none => s
  | some e =>
    match e.next with
    | .xpw => s.referenceXpw e
    | .x d => s.referenceX e d

/-- `n` references in a row. -/
def State.references : Nat → State → State
  | 0, s => s
  | n + 1, s => State.references n s.reference

/-- All the references that are left (60_exceptions.md R418 d). -/
def State.finishExchange (s : State) : State := State.references 17 s

/-- The schedule names single references of an exchange sequence as turns of their own (60_exceptions.md R441 a; log 23). -/
def State.singleReferences (s : State) : Bool := .reference ∈ s.script

/-- `exchange(resume)` (60_exceptions.md R412): the sixteen X registers and the XPW are swapped with the seventeen words of the
package, and the arriving program goes on at parcel 0 of its P (R416). This is taking an exception AND returning from one (R417).
The sequence begins when no register waits for data any more; stores may still wait (20_memory.md R93 c). When the schedule names single
references the sequence only begins here (log 23). -/
def State.exchange (s : State) (raised : BitVec 8) (resume : Addr) : State :=
  let t := s.clearRegs.beginExchange raised resume
  if s.singleReferences then t else t.finishExchange

/-- `raise Condition(b)` (60_exceptions.md R405). -/
def State.raise (s : State) (c : Cond) : Answer := .next (s.exchange c.flag (savedP c s.p))

/-- The condition 58 is taken: it waits no more, and the equipment is sent the channel resume that says that a processor has been
interrupted (60_exceptions.md R408, R433; log 28). Record flags on one channel, one on each half or a second before 0130 has released the
request, merge in `pending` (R434); whether each of them gets a channel resume of its own the spec does not say. One resume is sent for
all that merged: the model's choice (DESIGN CHOICE, unsafe for a claim about what the equipment sees; log 28). -/
def State.takeChannelRequest (s : State) : State :=
  match s.ioFlag with
  | none => s
  | some c => { s with ioFlag := none, io := { s.io with wire := .acknowledge c :: s.io.wire } }

/-- The asynchronous conditions named are taken together at a word boundary; the resume address is the next word to execute
(60_exceptions.md R413 c, R418 c). A condition taken is no longer pending; SCF, a level, stays (R409). -/
def State.takeAsync (s : State) (io time sys : Bool) : State :=
  { (if io then s.takeChannelRequest else s) with timeFlag := s.timeFlag && !time }.exchange (asyncFlags io time sys) s.p

/-- FL * 256 (10_state.md R38). -/
def State.fieldLength (s : State) : Nat := s.xpw.fl.toNat * Config.fieldUnit

/-- A reference to an absolute address: a fault where no word exists (20_memory.md R71, D7; log 7). -/
def State.atWord (s : State) (a : Nat) (k : Nat → State → Answer) : Answer :=
  if a < Config.memWords then k a s else .fault (.noSuchWord a)

/-- `DataAddr(e)` (20_memory.md R80): the limit test, which raises Condition(55) and aborts the reference, then relocation. -/
def State.dataRef (s : State) (a : Addr) (k : Nat → State → Answer) : Answer :=
  if a.toNat ≥ s.fieldLength then s.raise .dataLimit else s.atWord (s.relocate a) k

/-- `ProgAddr(e)` (20_memory.md R82): relocated and limited, raising Condition(54), only when PRF is set. -/
def State.progRef (s : State) (a : Addr) (k : Nat → State → Answer) : Answer :=
  if s.xpw.prf then
    if a.toNat ≥ s.fieldLength then s.raise .programLimit else s.atWord (s.relocate a) k
  else s.atWord a.toNat k

/-- A load's effect: a reference whose word goes to the register (43_codes_02xx.md R260 d; 20_memory.md R91). -/
def loadInto (d : Reg) (len : Nat) (a : Nat) (s : State) : Answer := .next ((s.issue ⟨a, some d, none⟩).advance len)

/-- A store's effect: a reference that writes the register (43_codes_02xx.md R260 d; 20_memory.md R91). -/
def storeFrom (d : Reg) (len : Nat) (a : Nat) (s : State) : Answer := .next ((s.issue ⟨a, none, some (s.getX d)⟩).advance len)

/-- A read/store's effect: one indivisible reference that does both (20_memory.md R86, R91). -/
def swapWith (d : Reg) (len : Nat) (a : Nat) (s : State) : Answer :=
  .next ((s.issue ⟨a, some d, some (s.getX d)⟩).advance len)

/-- A floating result delivered: written first, then Condition(52) if it is not in range while OVF is set (60_exceptions.md R407, D8). -/
def State.deliverFloat (s : State) (d : Reg) (r : Word) : Answer :=
  if s.xpw.ovf && !inRange r then (s.setX d r).raise .overflow else .next ((s.setX d r).advance 1)

end Sys2Proof.Machine
end

