-- ==== Sys2Proof/Machine/Operands.lean ====
section
/-! DEFINITION. The operand forms: immediates (30_encoding.md R125), address operands (20_memory.md R79), targets and links
of transfers (44_codes_03xx.md R290), and results with a copied designator bit (30_encoding.md R123). -/

namespace Sys2Proof.Machine

/-- The 4-bit constant k, zero-extended (R125). -/
def constK4 (k : Reg) : Word := k.setWidth 64

/-- The 20-bit constant K, zero-extended (R125). -/
def zextK (K : Addr) : Word := K.setWidth 64

/-- The 20-bit constant K, sign-extended (R125). -/
def sextK (K : Addr) : Word := K.signExtend 64

/-- P as a 64-bit operand. -/
def State.pWord (s : State) : Word := s.p.setWidth 64

/-- The low 20 bits of an adder result: an address (20_memory.md R79, D29) or a new P (44_codes_03xx.md R290 c, D25). -/
def low20 (v : Word) : Addr := v.extractLsb' 0 20

/-- The address operand (Xk) of 0201, 0203, 0211 and 0213: the low 20 bits of zero plus (Xk). For minus zero the source does
not settle whether the operand's own bits or the adder's zero are used: `free` chooses (43_codes_02xx.md R262, U5; log 18). -/
def addrOfX (v : Word) (free : Bool) : Addr :=
  if v = ~~~(0 : Word) && free then low20 v else low20 (add1c 0 v)

/-- The address operand K of 0200, 0202, 0210 and 0212 (43_codes_02xx.md R261). -/
def addrOfK (K : Addr) : Addr := low20 (add1c 0 (zextK K))

/-- The address operand (Xj) + K, K sign-extended, of 30XX and 32XX (46_codes_4bit.md R338, R340, D33). -/
def addrOfXK (v : Word) (K : Addr) : Addr := low20 (add1c v (sextK K))

/-- The address operand (Xj) + (Xk) of 31XX and 33XX (46_codes_4bit.md R339, R341). -/
def addrOfXX (v w : Word) : Addr := low20 (add1c v w)

/-- P + K with K sign-extended: the address of 0220, the value of 0221 and the target of 0302 to 0313 (R269, R270, R293). -/
def State.pPlusSext (s : State) (K : Addr) : Addr := low20 (add1c s.pWord (sextK K))

/-- P + K with K zero-extended: the target of 0300 and 0301 (R291, D34, C9). -/
def State.pPlusZext (s : State) (K : Addr) : Addr := low20 (add1c s.pWord (zextK K))

/-- The target K of 0320, 0322 and 0332 (R299, D27). -/
def targetK (K : Addr) : Addr := low20 (add1c 0 (zextK K))

/-- The target (Xk) of 0321 and 0323: minus zero gives 0 through the adder (R300). -/
def targetX (v : Word) : Addr := low20 (add1c 0 v)

/-- The target (Xj) + k of 0330 and 0331 (R303). -/
def targetXPlus (v : Word) (k : Reg) : Addr := low20 (add1c v (constK4 k))

/-- The link of a call: P, and PRF as it was before the instruction (R290 d, D4, C8, C20). -/
def State.link (s : State) : Word :=
  s.pWord ||| (if s.xpw.prf then BitVec.twoPow 64 Config.linkPrfBit else 0)

/-- PRF as a link carries it (R304, C7). -/
def prfOfLink (v : Word) : Bool := v.getLsbD Config.linkPrfBit

/-- A 20-bit value under 44 copies of the upper bit of the k designator (R123, D35). -/
def underCopies (k : Reg) (v : BitVec 20) : Word := (if k.getLsbD 3 then BitVec.allOnes 44 else 0#44) ++ v

/-- XA from the operand of 0131 (R244, D21; log 9). -/
def xaOperand (v : Word) : BitVec 8 :=
  match Config.xaLoadForm with
  | .bits12to5 => v.extractLsb' 5 8
  | .bits7to0 => v.extractLsb' 0 8

/-- The channel number of an operand: its low 4 bits (R241). -/
def channelOf (v : Word) : Channel := v.extractLsb' 0 4

end Sys2Proof.Machine
end

