-- ==== Sys2Proof/Machine/Channel.lean ====
section
/-! DEFINITION. The I/O channels, the channel request mechanism, and the turns of the schedule that are not the processor's
(60_exceptions.md R408 to R410, R430 to R442). -/

namespace Sys2Proof.Machine

/-- The number of bits of a channel word (R432). -/
def ChanWidth.bits : ChanWidth → Nat
  | .eight => 8
  | .twelve => 12

/-- The low `n` bits of a channel word, the highest-order first (R432). -/
def bitsOf (n : Nat) (v : BitVec 12) : List Bool := (List.range n).reverse.map v.getLsbD

/-- The bits of a memory word, bit 63 first (R432). -/
def bitsOfWord (w : Word) : List Bool := (List.range 64).reverse.map w.getLsbD

/-- The number whose binary digits are given, the highest first. -/
def natOfBits (bs : List Bool) : Nat := bs.foldl (fun n b => 2 * n + b.toNat) 0

/-- The memory word whose first bits, from bit 63 down, are given; what is missing is filled with zeros (R430, R432). -/
def wordOfBits (bs : List Bool) : Word := BitVec.ofNat 64 (natOfBits (bs.take 64) * 2 ^ (64 - bs.length))

/-- The input path of channel `c`. -/
def IoSection.inp (io : IoSection) (c : Channel) : InPath := io.inPath[c.toNat]'c.isLt

/-- The output path of channel `c`. -/
def IoSection.out (io : IoSection) (c : Channel) : OutPath := io.outPath[c.toNat]'c.isLt

/-- The input path of channel `c` is replaced. -/
def IoSection.setInp (io : IoSection) (c : Channel) (q : InPath) : IoSection :=
  { io with inPath := io.inPath.set c.toNat q c.isLt }

/-- The output path of channel `c` is replaced. -/
def IoSection.setOut (io : IoSection) (c : Channel) (q : OutPath) : IoSection :=
  { io with outPath := io.outPath.set c.toNat q c.isLt }

/-- A signal goes to the equipment. -/
def IoSection.send (io : IoSection) (g : Signal) : IoSection := { io with wire := g :: io.wire }

/-- `start_block_input(c, a)` (R241, R430): the path's assembly register starts empty. -/
def IoSection.startInput (io : IoSection) (c : Channel) (a : Addr) : IoSection :=
  io.setInp c { io.inp c with active := true, addr := a, bits := [] }

/-- `start_block_output(c, a)` (R242, R431): the first word will carry the record flag. -/
def IoSection.startOutput (io : IoSection) (c : Channel) (a : Addr) : IoSection :=
  io.setOut c { io.out c with active := true, addr := a, bits := [], first := true }

/-- 0130 releases the request mechanism: `pending <- pending - {current}; current <- none; held <- 0` (R434). With no current
request it is unchanged (R435). A processor that has been flagged and has not yet taken Condition(58) stays flagged: R408 calls the
request cleared by 0130, R434 says that the processor takes the condition; the model's choice (log 41). -/
def ChannelRequest.release (r : ChannelRequest) : ChannelRequest :=
  match r.current with
  | none => r
  | some c => ⟨r.pending.filter (· != c), none, false⟩

/-- `pending <- pending + {c}` (R434). `pending` is a set: a record flag on a channel that waits already, from its other half or a second
one, adds nothing, and shares the one channel resume of R433; that it gets none of its own is the model's choice (log 28). -/
def ChannelRequest.request (r : ChannelRequest) (c : Channel) : ChannelRequest :=
  { r with pending := if c ∈ r.pending then r.pending else c :: r.pending }

/-- A pending channel becomes current if none is (R434). -/
def ChannelRequest.select (r : ChannelRequest) (c : Channel) : ChannelRequest :=
  if r.current = none ∧ c ∈ r.pending then { r with current := some c } else r

/-- The mechanism flags a processor: it is held until the next 0130 (R434). -/
def IoSection.hold (io : IoSection) : IoSection := { io with req := { io.req with held := true } }

/-- Another processor has been flagged for a channel, or is so no more (R434). One that is flagged again before it has taken
Condition(58) for an earlier request, which an early 0130 has released, is flagged for the new channel alone: the model's choice where
R434 and R459 are silent (log 41). -/
def IoSection.setOther (io : IoSection) (q : Other) (c : Option Channel) : IoSection :=
  { io with others := io.others.set q.val c q.isLt }

/-- Another processor takes Condition(58), if it has been flagged; the equipment is sent the channel resume that says that a
processor has been interrupted (R408, R433; log 28). The spec speaks of the resume for a terminating record flag; that a record flag
which ended no block is answered too is the model's choice (log 28), and so is one resume for all the record flags of one request
(`State.takeChannelRequest`; log 28). -/
def IoSection.otherTakes (io : IoSection) (q : Other) : IoSection :=
  match io.others[q.val]'q.isLt with
  | none => io
  | some c => (io.setOther q none).send (.acknowledge c)

/-- The mechanism has a current request for which no processor has been interrupted (R434). -/
def ChannelRequest.waiting (r : ChannelRequest) : Bool := r.current.isSome && !r.held

/-- The bits given make a memory word, filled out with zeros where they are too few. It waits, with the path's address, which
advances, for the step of the path that writes it (R430, R432, R441 b; log 45). -/
def InPath.assemble (q : InPath) (bits : List Bool) : InPath :=
  { q with addr := q.addr + 1, bits := bits.drop 64, waiting := q.waiting ++ [(q.addr, wordOfBits bits)] }

/-- A channel word is added to the assembly register; 64 bits are an assembled word (R430, R432). -/
def InPath.receive (q : InPath) (v : BitVec 12) : InPath :=
  let bits := q.bits ++ bitsOf q.width.bits v
  if bits.length < 64 then { q with bits := bits } else q.assemble bits

/-- The block ends; a partly assembled word is filled out with zeros, and waits to be written (R430, R433). -/
def InPath.finish (q : InPath) : InPath :=
  { (if q.bits = [] then q else q.assemble q.bits) with active := false, bits := [] }

/-- An input path's own step: it writes the oldest of its assembled words that wait (R430, R441 b). When it does so, relative to
the references of processors and to the request of a record flag, is the schedule's choice (20_memory.md R99; log 45). -/
def writeInput (s : State) (c : Channel) : Answer :=
  match (s.io.inp c).waiting with
  | [] => .next s
  | w :: ws => s.atWord w.1.toNat fun a s => .next ((s.setIo (s.io.setInp c { s.io.inp c with waiting := ws })).poke a w.2)

/-- A word arrives on an input path: it is received and acknowledged (R430, R432). The path receives it only when it has written the
words assembled before, as the order of R430 says: until then the channel word waits, and the step is the path's, which writes one
of them (log 45). -/
def deliverInWord (s : State) (c : Channel) (v : BitVec 12) : Answer :=
  let q := s.io.inp c
  if q.active then
    if q.waiting = [] then .next (s.setIo ((s.io.send (.resume c)).setInp c (q.receive v)))
    else writeInput { s with script := .inWord c v :: s.script } c
  else .refused .noBlockInProgress

/-- A record flag ends a block input (R430, R433). -/
def endInput (s : State) (c : Channel) : State := s.setIo (s.io.setInp c (s.io.inp c).finish)

/-- The path with the next memory word read (R431, R432). -/
def OutPath.fill (q : OutPath) (w : Word) : OutPath := { q with bits := q.bits ++ bitsOfWord w, addr := q.addr + 1 }

/-- A block output reads a memory word ahead of what it sends. How many it reads ahead, and when, the spec leaves open: each is a turn
of the schedule (R431; log 44). -/
def readAhead (s : State) (c : Channel) : Answer :=
  let q := s.io.out c
  if q.active then s.atWord q.addr.toNat fun a s => .next (s.setIo (s.io.setOut c (q.fill (s.mem.read a)))) else .next s

/-- The equipment accepts a word from an output path (R431, R432, R433). Where the path has not read far enough ahead, it reads the
memory word at this moment; how far it has read ahead is the schedule's choice (log 44). -/
def deliverOutWord (s : State) (c : Channel) : Answer :=
  let q := s.io.out c
  let n := q.width.bits
  let emit := fun (q : OutPath) (s : State) =>
    Host.Outcome.next (s.setIo ((s.io.setOut c { q with bits := q.bits.drop n, first := false }).send
      (.word c q.first (BitVec.ofNat 12 (natOfBits (q.bits.take n))))))
  if q.active then
    if q.bits.length < n then
      s.atWord q.addr.toNat fun a s => emit (q.fill (s.mem.read a)) s
    else emit q s
  else .refused .noBlockInProgress

/-- A record flag ends a block output: the parity status word, all zeros since there are no parity errors, is sent (R431,
R436, U14). -/
def endOutput (s : State) (c : Channel) : State :=
  let q := s.io.out c
  s.setIo ((s.io.setOut c { q with active := false, bits := [], parity := 0 }).send (.parity c 0))

/-- A record flag on one half of a channel (R433): it ends that half's block, if one is in progress, and in any case
activates the request mechanism (R434). A word that a block input has assembled may still wait to be written (log 45). -/
def deliverRecordFlag (s : State) (h : Half) (c : Channel) : State :=
  let s' := s.setIo { s.io with req := s.io.req.request c }
  match h with
  | .input => if (s.io.inp c).active then endInput s' c else s'
  | .output => if (s.io.out c).active then endOutput s' c else s'

/-- Starting a block from another processor: as 0122 and 0123 (R241, R242). -/
def startBlock (s : State) (busy : Bool) (a : Addr) (io : IoSection) : Answer :=
  if busy then .refused .channelBusy else s.atWord a.toNat fun _ s => .next (s.setIo io)

/-- The request mechanism flags this processor for the current channel, if its MTF is clear (R408, R434). While an exchange sequence
is in progress it looks past this processor, whose next MTF is that of the arriving program (R418 d; log 29). A processor that is still
flagged for an earlier channel, whose request an early 0130 has released, is flagged for the new channel alone: one Condition(58) and one
channel resume then serve both record flags, and the equipment of the earlier channel gets no resume. The spec is silent on the case
(R434, R459); the model's choice (log 41). -/
def flagThis (s : State) : State :=
  if s.io.req.waiting && !s.xpw.mtf && s.exchanging.isNone
  then { s with io := s.io.hold, ioFlag := s.io.req.current } else s

/-- A turn of the schedule other than `execute` and `interrupt` (R441, R442; logs 1, 2). -/
def deliver (t : Turn) (s : State) : Answer :=
  match t with
  | .execute => .next s
  | .interrupt _ _ _ => .next s
  | .reference => .next s.reference
  | .perform a => .next (s.perform a)
  | .forward d => .next (s.forward d)
  | .timeInterval => .next { s with timeFlag := true }
  | .recordFlag h c => .next (deliverRecordFlag s h c)
  | .inWord c v => deliverInWord s c v
  | .writeInput c => writeInput s c
  | .outWord c => deliverOutWord s c
  | .readAhead c => readAhead s c
  | .selectRequest c => .next (s.setIo { s.io with req := s.io.req.select c })
  | .flagThis => .next (flagThis s)
  | .flagOther q => .next (if s.io.req.waiting then s.setIo (s.io.hold.setOther q s.io.req.current) else s)
  | .otherTakes q => .next (s.setIo (s.io.otherTakes q))
  | .otherRcr _ => .next (s.setIo { s.io with req := s.io.req.release })
  | .otherStore _ a v => s.atWord a.toNat fun a s => .next (s.poke a v)
  | .otherSetIl _ m => .next (s.setIl (s.il ||| m))
  | .otherClearIl _ m => .next (s.setIl (s.il &&& ~~~m))
  | .otherBsc _ => .next (s.setScf true)
  | .otherEsc _ => .next (s.setScf false)
  | .otherChin _ c a => startBlock s (s.io.inp c).active a (s.io.startInput c a)
  | .otherChout _ c a => startBlock s (s.io.out c).active a (s.io.startOutput c a)

/-- An asynchronous condition can be taken: the processor is at a word boundary, not in monitor mode, and makes no exchange sequence
(R413 c, R418 d, R420). -/
def State.interruptible (s : State) : Bool := s.pp = 0 && !s.xpw.mtf && s.exchanging.isNone

/-- Of the asynchronous causes present, those named are taken if there is one; otherwise nothing happens (R418 b, c). -/
def interruptTurn (io time sys : Bool) (s : State) : State :=
  let io := io && s.ioFlag.isSome
  let time := time && s.timeFlag
  let sys := sys && s.scf
  if s.interruptible && (io || time || sys) then s.takeAsync io time sys else s

/-- An asynchronous cause is present and can be taken. -/
def State.interruptPending (s : State) : Bool := s.interruptible && (s.ioFlag.isSome || s.timeFlag || s.scf)

end Sys2Proof.Machine
end

