-- ==== Sys2Proof/Machine/Fetch.lean ====
section
/-! DEFINITION. Instruction fetch and issue (20_memory.md R82, R83, R95; 30_encoding.md R117, R118). -/

namespace Sys2Proof.Machine

/-- The X registers that an instruction names, as source or destination: their data must have arrived before it issues (10_state.md R54,
70_reset_and_hazards.md R453, R463 a). -/
def namedRegisters : Instr → List Reg
  | .err00 => []
  | .and j k => [j, k]
  | .or j k => [j, k]
  | .xor j k => [j, k]
  | .copy j k => [j, k]
  | .copyc j k => [j, k]
  | .shl j k => [j, k]
  | .shr j k => [j, k]
  | .fdpadd j k => [j, k]
  | .fdpsub j k => [j, k]
  | .fdiv j k => [j, k]
  | .pop j k => [j, k]
  | .fdpmul j k => [j, k]
  | .imul j k => [j, k]
  | .err0e => []
  | .pass => []
  | .setk j _ => [j]
  | .setnk j _ => [j]
  | .addk j _ => [j]
  | .subk j _ => [j]
  | .unpc j k => [j, k]
  | .unpe j k => [j, k]
  | .pack j k => [j, k]
  | .neg j k => [j, k]
  | .bsc => []
  | .esc => []
  | .chin j k => [j, k]
  | .chout j k => [j, k]
  | .rcr j => [j]
  | .lxa k => [k]
  | .err1e => []
  | .err1f => []
  | .stk j _ => [j]
  | .stx j k => [j, k]
  | .rsk j _ => [j]
  | .rsx j k => [j, k]
  | .ldk j _ => [j]
  | .ldx j k => [j, k]
  | .rpk j _ => [j]
  | .rpx j k => [j, k]
  | .rpp j _ => [j]
  | .tpk j _ => [j]
  | .tk j _ => [j]
  | .txa j _ => [j]
  | .sil k => [k]
  | .cil k => [k]
  | .ril j _ => [j]
  | .rtc j _ => [j]
  | .jp _ => []
  | .callp j _ => [j]
  | .jir j _ => [j]
  | .jnr j _ => [j]
  | .jz j _ => [j]
  | .jnz j _ => [j]
  | .jpl j _ => [j]
  | .jng j _ => [j]
  | .callk j _ => [j]
  | .callx j k => [j, k]
  | .lcallk j _ => [j]
  | .lcallx j k => [j, k]
  | .ret j _ => [j]
  | .lret j _ => [j]
  | .jk _ => []
  | .xj => []
  | .save j _ => [j]
  | .blank j _ => [j]
  | .roln j _ => [j]
  | .sarn j _ => [j]
  | .iaddk i j _ => [i, j]
  | .iadd i j k => [i, j, k]
  | .isub i j k => [i, j, k]
  | .fadd i j k => [i, j, k]
  | .fsub i j k => [i, j, k]
  | .fmul i j k => [i, j, k]
  | .brb _ j k => [j, k]
  | .ldxk i j _ => [i, j]
  | .ldxx i j k => [i, j, k]
  | .stxk i j _ => [i, j]
  | .stxx i j k => [i, j, k]

/-- What fetching answers: an instruction to run and the state it runs in, or the step's whole answer. -/
inductive Fetched where
  | run (i : Instr) (s : State)
  | done (o : Answer)

/-- The instruction word at program address `a`: the copy in the IWS if the IAS holds the address and the word has been read, without
a memory reference; otherwise the word in memory (10_state.md R51, 20_memory.md R95; log 15). -/
def State.instructionWord (s : State) (a : Addr) : Word :=
  match s.iws.find? (fun e => e.addr = a) with
  | some ⟨_, some w⟩ => w
  | _ => s.view (s.progAddr a)

/-- An entry for an address that the IAS does not hold enters the stack, and the oldest beyond twelve is discarded (R51). -/
def enterStack (l : List StackEntry) (e : StackEntry) : List StackEntry :=
  if l.any (fun d => d.addr = e.addr) then l else (e :: l).take Config.iwsWords

/-- Execution arrives at the word at P: it enters CIW, and fetches are started up to two words ahead, which raise nothing
(10_state.md R51, R53; 20_memory.md R83; log 15). -/
def State.enterCiw (s : State) : State :=
  let w := s.instructionWord s.p
  let held := s.iws.map fun e => if e.addr = s.p then { e with word := some w } else e
  { s with
    ciw := w
    iws := enterStack (enterStack (enterStack held ⟨s.p, some w⟩) ⟨s.p + 1, none⟩) ⟨s.p + 2, none⟩ }

/-- The parcel at PP of CIW is issued, with its second parcel if it has one (30_encoding.md R117). A 2-parcel code in
parcel 3 is refused (R118). -/
def issue (s : State) : Fetched :=
  match decode ((parcelsOf s.ciw).drop s.pp.val) with
  | .ok (i, _) => .run i s
  | .error _ => .done (.refused .twoParcelInFourthParcel)

/-- Execution at (P, PP): at parcel 0 the word at P is fetched, limited and relocated if PRF is set (60_exceptions.md R406 a);
at parcels 1 to 3 it is in CIW (10_state.md R53; log 16). -/
def fetch (s : State) : Fetched :=
  if s.pp = 0 then
    if s.xpw.prf && s.p.toNat ≥ s.fieldLength then .done (s.raise .programLimit)
    else if s.progAddr s.p < Config.memWords then issue s.enterCiw
    else .done (.fault (.noSuchWord (s.progAddr s.p)))
  else issue s

/-- `s` with a word stored where the next fetch of parcel 0 reads, and nothing that would come before that fetch: the schedule is
exhausted, no exchange sequence is in progress, no asynchronous cause is present, every waiting reference has reached memory, and the
IAS does not hold its address (log 33). -/
def State.placeWord (s : State) (w : Word) : State :=
  { s.performAll with
    pp := 0
    mem := s.performAll.mem.write (s.progAddr s.p) w
    iws := s.iws.filter (fun e => e.addr != s.p)
    ioFlag := none
    timeFlag := false
    scf := if s.xpw.mtf then s.scf else false
    exchanging := none
    script := [] }

/-- The first word of a program that is one instruction of an opcode-table row, numbered as `decodeTableWord` reads it,
the parcels after it zero (log 33). -/
def tableWord (nbits w : Nat) : Word :=
  if nbits ≤ 16 then wordOf (BitVec.ofNat 16 w) 0 0 0
  else wordOf (BitVec.ofNat 16 (w / 2 ^ 16)) (BitVec.ofNat 16 w) 0 0

end Sys2Proof.Machine
end

