-- ==== Sys2Proof/Machine/Codes00xx.lean ====
section
/-! DEFINITION. Codes 0000 to 0033: logical, copy, shift, double-precision floating, population count, multiply, error exit, pass
(41_codes_00xx.md). -/

namespace Sys2Proof.Machine

/-- 0000, program error exit: Condition(53), in every mode (R201). -/
def execErr00 (s : State) : Answer :=
  s.raise .errorExit

/-- 0001, logical product (R202). -/
def execAnd (j : Reg) (k : Reg) (s : State) : Answer :=
  .next ((s.setX j (s.getX j &&& s.getX k)).advance 1)

/-- 0002, logical sum (R203). -/
def execOr (j : Reg) (k : Reg) (s : State) : Answer :=
  .next ((s.setX j (s.getX j ||| s.getX k)).advance 1)

/-- 0003, logical difference (R204). -/
def execXor (j : Reg) (k : Reg) (s : State) : Answer :=
  .next ((s.setX j (s.getX j ^^^ s.getX k)).advance 1)

/-- 0010, copy (R205). -/
def execCopy (j : Reg) (k : Reg) (s : State) : Answer :=
  .next ((s.setX j (s.getX k)).advance 1)

/-- 0011, copy complement (R206). -/
def execCopyc (j : Reg) (k : Reg) (s : State) : Answer :=
  .next ((s.setX j (~~~s.getX k)).advance 1)

/-- 0012, shift left by (Xk), right if it is negative (R207). -/
def execShl (j : Reg) (k : Reg) (s : State) : Answer :=
  .next ((s.drawn.setX j (shiftBy (s.getX j) (s.getX k) s.freeWord)).advance 1)

/-- 0013, shift right by (Xk), left if it is negative: the count is complemented (R208). -/
def execShr (j : Reg) (k : Reg) (s : State) : Answer :=
  .next ((s.drawn.setX j (shiftBy (s.getX j) (~~~s.getX k) s.freeWord)).advance 1)

/-- 0020, lower half of the floating sum (R209). -/
def execFdpadd (j : Reg) (k : Reg) (s : State) : Answer :=
  s.drawn.deliverFloat j (fpAddLower (s.getX j) (s.getX k) s.freeWord)

/-- 0021, lower half of the floating difference: (Xk) is complemented (R210). -/
def execFdpsub (j : Reg) (k : Reg) (s : State) : Answer :=
  s.drawn.deliverFloat j (fpAddLower (s.getX j) (~~~s.getX k) s.freeWord)

/-- 0022, floating quotient (R211). -/
def execFdiv (j : Reg) (k : Reg) (s : State) : Answer :=
  s.drawn.deliverFloat j (fpQuotient (s.getX j) (s.getX k) s.freeWord)

/-- 0023, population count (R212). -/
def execPop (j : Reg) (k : Reg) (s : State) : Answer :=
  .next ((s.setX j (BitVec.ofNat 64 (popcount (s.getX k)))).advance 1)

/-- 0030, lower half of the floating product (R213). -/
def execFdpmul (j : Reg) (k : Reg) (s : State) : Answer :=
  s.drawn.deliverFloat j (fpMulLower (s.getX j) (s.getX k) s.freeWord)

/-- 0031, integer product (R214). -/
def execImul (j : Reg) (k : Reg) (s : State) : Answer :=
  .next ((s.drawn.setX j (imul (s.getX j) (s.getX k) s.freeWord (Config.freeBit s.draws))).advance 1)

/-- 0032, program error exit, as 0000 (R215). -/
def execErr0e (s : State) : Answer :=
  s.raise .errorExit

/-- 0033, pass (R216). -/
def execPass (s : State) : Answer :=
  .next (s.advance 1)

end Sys2Proof.Machine
end

