-- ==== Sys2Proof/Machine/Codes01xx.lean ====
section
/-! DEFINITION. Codes 0100 to 0133: small constants, unpack and pack, negate, monitor-mode instructions, error exits
(42_codes_01xx.md). A monitor-mode instruction is a pass when MTF is clear (R230). -/

namespace Sys2Proof.Machine

/-- 0100, transmit k (R231). -/
def execSetk (j : Reg) (k : Reg) (s : State) : Answer :=
  .next ((s.setX j (constK4 k)).advance 1)

/-- 0101, transmit complement of k (R232). -/
def execSetnk (j : Reg) (k : Reg) (s : State) : Answer :=
  .next ((s.setX j (~~~constK4 k)).advance 1)

/-- 0102, integer sum with k (R233). -/
def execAddk (j : Reg) (k : Reg) (s : State) : Answer :=
  .next ((s.setX j (add1c (s.getX j) (constK4 k))).advance 1)

/-- 0103, integer difference with k (R234). -/
def execSubk (j : Reg) (k : Reg) (s : State) : Answer :=
  .next ((s.setX j (add1c (s.getX j) (~~~constK4 k))).advance 1)

/-- 0110, unpack coefficient of (Xj) to Xk (R235). -/
def execUnpc (j : Reg) (k : Reg) (s : State) : Answer :=
  .next ((s.setX k (unpackCoefficient (s.getX j))).advance 1)

/-- 0111, unpack exponent of (Xj) to Xk (R236). -/
def execUnpe (j : Reg) (k : Reg) (s : State) : Answer :=
  .next ((s.setX k (unpackExponent (s.getX j))).advance 1)

/-- 0112, pack coefficient (Xk) and exponent (Xj) to Xk (R237). -/
def execPack (j : Reg) (k : Reg) (s : State) : Answer :=
  .next ((s.drawn.setX k (packWord (s.getX j) (s.getX k) s.freeWord)).advance 1)

/-- 0113, integer difference 0 - (Xk) to Xj (R238). -/
def execNeg (j : Reg) (k : Reg) (s : State) : Answer :=
  .next ((s.setX j (add1c 0 (~~~s.getX k))).advance 1)

/-- 0120, begin system call [MTF] (R239). -/
def execBsc (s : State) : Answer :=
  .next ((if s.xpw.mtf then s.setScf true else s).advance 1)

/-- 0121, end system call [MTF] (R240). -/
def execEsc (s : State) : Answer :=
  .next ((if s.xpw.mtf then s.setScf false else s).advance 1)

/-- 0122, block input channel (Xj) to absolute address (Xk) [MTF] (R241). A path already transferring is
refused (U15; log 26); a start address beyond the memory is a fault (R241, R71). -/
def execChin (j : Reg) (k : Reg) (s : State) : Answer :=
  if s.xpw.mtf then
    let c := channelOf (s.getX j)
    if (s.io.inp c).active then .refused .channelBusy
    else s.atWord (low20 (s.getX k)).toNat fun _ s => .next ((s.setIo (s.io.startInput c (low20 (s.getX k)))).advance 1)
  else .next (s.advance 1)

/-- 0123, block output channel (Xj) from absolute address (Xk) [MTF] (R242). A path already transferring is
refused (U15; log 26); a start address beyond the memory is a fault (R241, R71). -/
def execChout (j : Reg) (k : Reg) (s : State) : Answer :=
  if s.xpw.mtf then
    let c := channelOf (s.getX j)
    if (s.io.out c).active then .refused .channelBusy
    else s.atWord (low20 (s.getX k)).toNat fun _ s => .next ((s.setIo (s.io.startOutput c (low20 (s.getX k)))).advance 1)
  else .next (s.advance 1)

/-- 0130, read channel request [MTF]: the current channel number, any value if there is none (U9; log 22), and the mechanism
is released; zero, and nothing else, when MTF is clear (R243, R230). If this processor is flagged and has not yet taken Condition(58),
it stays flagged: the model's choice between R408 and R434 (log 41). -/
def execRcr (j : Reg) (s : State) : Answer :=
  if s.xpw.mtf then
    let v : Word := match s.io.req.current with
      | some c => c.setWidth 64
      | none => s.freeWord
    .next (((s.drawn.setIo { s.io with req := s.io.req.release }).setX j v).advance 1)
  else .next ((s.setX j 0).advance 1)

/-- 0131, enter XA from (Xk) [MTF] (R244). -/
def execLxa (k : Reg) (s : State) : Answer :=
  .next ((if s.xpw.mtf then s.setXa (xaOperand (s.getX k)) else s).advance 1)

/-- 0132, program error exit, as 0000 (R245). -/
def execErr1e (s : State) : Answer :=
  s.raise .errorExit

/-- 0133, program error exit, as 0000 (R246). -/
def execErr1f (s : State) : Answer :=
  s.raise .errorExit

end Sys2Proof.Machine
end

