-- ==== Sys2Proof/Machine/Codes02xx.lean ====
section
/-! DEFINITION. Codes 0200 to 0233: store, read/store, read data, read program, transmit, interlock register, clock
(43_codes_02xx.md). -/

namespace Sys2Proof.Machine

/-- 0200, store (Xj) at address K (R261). -/
def execStk (j : Reg) (K : Addr) (s : State) : Answer :=
  s.dataRef (addrOfK K) (storeFrom j 2)

/-- 0201, store (Xj) at address (Xk) (R262). -/
def execStx (j : Reg) (k : Reg) (s : State) : Answer :=
  s.drawn.dataRef (addrOfX (s.getX k) (Config.freeBit s.draws)) (storeFrom j 1)

/-- 0202, read/store at address K (R263). -/
def execRsk (j : Reg) (K : Addr) (s : State) : Answer :=
  s.dataRef (addrOfK K) (swapWith j 2)

/-- 0203, read/store at address (Xk) (R264, C5). -/
def execRsx (j : Reg) (k : Reg) (s : State) : Answer :=
  s.drawn.dataRef (addrOfX (s.getX k) (Config.freeBit s.draws)) (swapWith j 1)

/-- 0210, read data at address K (R265). -/
def execLdk (j : Reg) (K : Addr) (s : State) : Answer :=
  s.dataRef (addrOfK K) (loadInto j 2)

/-- 0211, read data at address (Xk) (R266). -/
def execLdx (j : Reg) (k : Reg) (s : State) : Answer :=
  s.drawn.dataRef (addrOfX (s.getX k) (Config.freeBit s.draws)) (loadInto j 1)

/-- 0212, read program at address K (R267). -/
def execRpk (j : Reg) (K : Addr) (s : State) : Answer :=
  s.progRef (addrOfK K) (loadInto j 2)

/-- 0213, read program at address (Xk) (R268, C4). -/
def execRpx (j : Reg) (k : Reg) (s : State) : Answer :=
  s.drawn.progRef (addrOfX (s.getX k) (Config.freeBit s.draws)) (loadInto j 1)

/-- 0220, read program at address P + K (R269). -/
def execRpp (j : Reg) (K : Addr) (s : State) : Answer :=
  s.progRef (s.pPlusSext K) (loadInto j 2)

/-- 0221, transmit P + K: 20 bits, zeros above (R270). -/
def execTpk (j : Reg) (K : Addr) (s : State) : Answer :=
  .next ((s.setX j ((s.pPlusSext K).setWidth 64)).advance 2)

/-- 0222, transmit K, sign-extended (R271). -/
def execTk (j : Reg) (K : Addr) (s : State) : Answer :=
  .next ((s.setX j (sextK K)).advance 2)

/-- 0223, transmit XA * 32 (R272). -/
def execTxa (j : Reg) (k : Reg) (s : State) : Answer :=
  .next ((s.setX j (underCopies k (0#7 ++ s.xpw.xa ++ 0#5))).advance 1)

/-- 0230, set interlock flags [IPF] (R273). The access to IL takes place in the instruction's own step, before the references issued
after it and whether or not those issued before it have reached memory: the model's choice, the spec stating no order between the two
(20_memory.md R94; log 43). -/
def execSil (k : Reg) (s : State) : Answer :=
  .next ((if s.xpw.ipf then s.setIl (s.il ||| low20 (s.getX k)) else s).advance 1)

/-- 0231, clear interlock flags [IPF] (R274). The access to IL takes place in the instruction's own step, as that of 0230: the model's
choice (20_memory.md R94; log 43). -/
def execCil (k : Reg) (s : State) : Answer :=
  .next ((if s.xpw.ipf then s.setIl (s.il &&& ~~~low20 (s.getX k)) else s).advance 1)

/-- 0232, read the interlock register (R275). The access to IL takes place in the instruction's own step, as that of 0230: the model's
choice (20_memory.md R94; log 43). -/
def execRil (j : Reg) (k : Reg) (s : State) : Answer :=
  .next ((s.setX j (underCopies k s.il)).advance 1)

/-- 0233, read the clock (R276). -/
def execRtc (j : Reg) (k : Reg) (s : State) : Answer :=
  .next ((s.readClock.setX j (underCopies k s.readClock.rtc)).advance 1)

end Sys2Proof.Machine
end

