-- ==== Sys2Proof/Machine/Codes03xx.lean ====
section
/-! DEFINITION. Codes 0300 to 0333: jumps, conditional jumps, calls, library calls, exits, exchange exit (44_codes_03xx.md). -/

namespace Sys2Proof.Machine

/-- A conditional P-relative jump of two parcels (R290, R293 to R298). -/
def State.jumpIf (s : State) (c : Bool) (K : Addr) : Answer :=
  .next (if c then s.jump (s.pPlusSext K) else s.advance 2)

/-- 0300, jump to P + K, K zero-extended (R291). -/
def execJp (K : Addr) (s : State) : Answer :=
  .next (s.jump (s.pPlusZext K))

/-- 0301, call subroutine at P + K, K zero-extended (R292). -/
def execCallp (j : Reg) (K : Addr) (s : State) : Answer :=
  .next ((s.setX j s.link).jump (s.pPlusZext K))

/-- 0302, jump if (Xj) is in range (R293). -/
def execJir (j : Reg) (K : Addr) (s : State) : Answer :=
  s.jumpIf (inRange (s.getX j)) K

/-- 0303, jump if (Xj) is not in range (R294). -/
def execJnr (j : Reg) (K : Addr) (s : State) : Answer :=
  s.jumpIf (!inRange (s.getX j)) K

/-- 0310, jump if (Xj) is zero, plus or minus (R295). -/
def execJz (j : Reg) (K : Addr) (s : State) : Answer :=
  s.jumpIf (isZero (s.getX j)) K

/-- 0311, jump if (Xj) is not zero (R296). -/
def execJnz (j : Reg) (K : Addr) (s : State) : Answer :=
  s.jumpIf (!isZero (s.getX j)) K

/-- 0312, jump if (Xj) is positive (R297). -/
def execJpl (j : Reg) (K : Addr) (s : State) : Answer :=
  s.jumpIf (!isNeg (s.getX j)) K

/-- 0313, jump if (Xj) is negative (R298). -/
def execJng (j : Reg) (K : Addr) (s : State) : Answer :=
  s.jumpIf (isNeg (s.getX j)) K

/-- 0320, call subroutine at K (R299). -/
def execCallk (j : Reg) (K : Addr) (s : State) : Answer :=
  .next ((s.setX j s.link).jump (targetK K))

/-- 0321, call subroutine at (Xk): the target is read before the link is written (R300). -/
def execCallx (j : Reg) (k : Reg) (s : State) : Answer :=
  .next ((s.setX j s.link).jump (targetX (s.getX k)))

/-- 0322, call library routine at K: PRF and the IAS are cleared (R301). -/
def execLcallk (j : Reg) (K : Addr) (s : State) : Answer :=
  .next ((((s.setX j s.link).setPrf false).clearIas).jump (targetK K))

/-- 0323, call library routine at (Xk): PRF and the IAS are cleared (R302). -/
def execLcallx (j : Reg) (k : Reg) (s : State) : Answer :=
  .next ((((s.setX j s.link).setPrf false).clearIas).jump (targetX (s.getX k)))

/-- 0330, subroutine exit to (Xj) + k (R303). -/
def execRet (j : Reg) (k : Reg) (s : State) : Answer :=
  .next (s.jump (targetXPlus (s.getX j) k))

/-- 0331, library exit to (Xj) + k: PRF from the link, the IAS cleared (R304). -/
def execLret (j : Reg) (k : Reg) (s : State) : Answer :=
  .next (((s.setPrf (prfOfLink (s.getX j))).clearIas).jump (targetXPlus (s.getX j) k))

/-- 0332, jump to K (R305). -/
def execJk (K : Addr) (s : State) : Answer :=
  .next (s.jump (targetK K))

/-- 0333, exchange exit: Condition(59), in every mode (R306, R403). -/
def execXj (s : State) : Answer :=
  s.raise .programCall

end Sys2Proof.Machine
end

