-- ==== Sys2Proof/Machine/CodesSixBit.lean ====
section
/-! DEFINITION. Codes 100X to 103X: mask and shift by a 6-bit constant (45_codes_6bit.md). -/

namespace Sys2Proof.Machine

/-- 100X, save the lower n bits (R321). -/
def execSave (j : Reg) (n : BitVec 6) (s : State) : Answer :=
  .next ((s.setX j (s.getX j &&& maskLow n.toNat)).advance 1)

/-- 101X, blank the lower n bits (R322). -/
def execBlank (j : Reg) (n : BitVec 6) (s : State) : Answer :=
  .next ((s.setX j (s.getX j &&& ~~~maskLow n.toNat)).advance 1)

/-- 102X, left circular shift by n (R323). -/
def execRoln (j : Reg) (n : BitVec 6) (s : State) : Answer :=
  .next ((s.setX j (rotl64 (s.getX j) n.toNat)).advance 1)

/-- 103X, right shift by n with sign extension (R324). -/
def execSarn (j : Reg) (n : BitVec 6) (s : State) : Answer :=
  .next ((s.setX j (sar64 (s.getX j) n.toNat)).advance 1)

end Sys2Proof.Machine
end

