-- ==== Sys2Proof/Machine/CodesFourBit.lean ====
section
/-! DEFINITION. Codes 11XX to 33XX: three-register arithmetic, backward branch, indexed load and store (46_codes_4bit.md). -/

namespace Sys2Proof.Machine

/-- 11XX, integer sum of (Xj) and sign-extended K (R331). -/
def execIaddk (i : Reg) (j : Reg) (K : Addr) (s : State) : Answer :=
  .next ((s.setX i (add1c (s.getX j) (sextK K))).advance 2)

/-- 12XX, integer sum (R332). -/
def execIadd (i : Reg) (j : Reg) (k : Reg) (s : State) : Answer :=
  .next ((s.setX i (add1c (s.getX j) (s.getX k))).advance 1)

/-- 13XX, integer difference (R333). -/
def execIsub (i : Reg) (j : Reg) (k : Reg) (s : State) : Answer :=
  .next ((s.setX i (sub1c (s.getX j) (s.getX k))).advance 1)

/-- 20XX, upper half of the floating sum (R334). -/
def execFadd (i : Reg) (j : Reg) (k : Reg) (s : State) : Answer :=
  s.drawn.deliverFloat i (fpAddUpper (s.getX j) (s.getX k) s.freeWord)

/-- 21XX, upper half of the floating difference (R335). -/
def execFsub (i : Reg) (j : Reg) (k : Reg) (s : State) : Answer :=
  s.drawn.deliverFloat i (fpAddUpper (s.getX j) (~~~s.getX k) s.freeWord)

/-- 22XX, upper half of the floating product (R336). -/
def execFmul (i : Reg) (j : Reg) (k : Reg) (s : State) : Answer :=
  s.drawn.deliverFloat i (fpMulUpper (s.getX j) (s.getX k) s.freeWord)

/-- 23XX, branch backward i words if (Xj) < (Xk) (R337). -/
def execBrb (i : Reg) (j : Reg) (k : Reg) (s : State) : Answer :=
  .next (if isNeg (sub1c (s.getX j) (s.getX k)) then s.jump (s.p - i.setWidth 20) else s.advance 1)

/-- 30XX, read data at address (Xj) + K (R338). -/
def execLdxk (i : Reg) (j : Reg) (K : Addr) (s : State) : Answer :=
  s.dataRef (addrOfXK (s.getX j) K) (loadInto i 2)

/-- 31XX, read data at address (Xj) + (Xk) (R339). -/
def execLdxx (i : Reg) (j : Reg) (k : Reg) (s : State) : Answer :=
  s.dataRef (addrOfXX (s.getX j) (s.getX k)) (loadInto i 1)

/-- 32XX, store (Xi) at address (Xj) + K (R340). -/
def execStxk (i : Reg) (j : Reg) (K : Addr) (s : State) : Answer :=
  s.dataRef (addrOfXK (s.getX j) K) (storeFrom i 2)

/-- 33XX, store (Xi) at address (Xj) + (Xk) (R341). -/
def execStxx (i : Reg) (j : Reg) (k : Reg) (s : State) : Answer :=
  s.dataRef (addrOfXX (s.getX j) (s.getX k)) (storeFrom i 1)

end Sys2Proof.Machine
end

