-- ==== Sys2Proof/Machine/Dispatch.lean ====
section
/-! DEFINITION. The meaning of each instruction: one arm per constructor, each one direct call. -/

namespace Sys2Proof.Machine

def exec (i : Instr) (s : State) : Host.Outcome State Fault Refusal :=
  match i with
  | .err00 => Sys2Proof.Machine.execErr00 s
  | .and j k => Sys2Proof.Machine.execAnd j k s
  | .or j k => Sys2Proof.Machine.execOr j k s
  | .xor j k => Sys2Proof.Machine.execXor j k s
  | .copy j k => Sys2Proof.Machine.execCopy j k s
  | .copyc j k => Sys2Proof.Machine.execCopyc j k s
  | .shl j k => Sys2Proof.Machine.execShl j k s
  | .shr j k => Sys2Proof.Machine.execShr j k s
  | .fdpadd j k => Sys2Proof.Machine.execFdpadd j k s
  | .fdpsub j k => Sys2Proof.Machine.execFdpsub j k s
  | .fdiv j k => Sys2Proof.Machine.execFdiv j k s
  | .pop j k => Sys2Proof.Machine.execPop j k s
  | .fdpmul j k => Sys2Proof.Machine.execFdpmul j k s
  | .imul j k => Sys2Proof.Machine.execImul j k s
  | .err0e => Sys2Proof.Machine.execErr0e s
  | .pass => Sys2Proof.Machine.execPass s
  | .setk j k => Sys2Proof.Machine.execSetk j k s
  | .setnk j k => Sys2Proof.Machine.execSetnk j k s
  | .addk j k => Sys2Proof.Machine.execAddk j k s
  | .subk j k => Sys2Proof.Machine.execSubk j k s
  | .unpc j k => Sys2Proof.Machine.execUnpc j k s
  | .unpe j k => Sys2Proof.Machine.execUnpe j k s
  | .pack j k => Sys2Proof.Machine.execPack j k s
  | .neg j k => Sys2Proof.Machine.execNeg j k s
  | .bsc => Sys2Proof.Machine.execBsc s
  | .esc => Sys2Proof.Machine.execEsc s
  | .chin j k => Sys2Proof.Machine.execChin j k s
  | .chout j k => Sys2Proof.Machine.execChout j k s
  | .rcr j => Sys2Proof.Machine.execRcr j s
  | .lxa k => Sys2Proof.Machine.execLxa k s
  | .err1e => Sys2Proof.Machine.execErr1e s
  | .err1f => Sys2Proof.Machine.execErr1f s
  | .stk j K => Sys2Proof.Machine.execStk j K s
  | .stx j k => Sys2Proof.Machine.execStx j k s
  | .rsk j K => Sys2Proof.Machine.execRsk j K s
  | .rsx j k => Sys2Proof.Machine.execRsx j k s
  | .ldk j K => Sys2Proof.Machine.execLdk j K s
  | .ldx j k => Sys2Proof.Machine.execLdx j k s
  | .rpk j K => Sys2Proof.Machine.execRpk j K s
  | .rpx j k => Sys2Proof.Machine.execRpx j k s
  | .rpp j K => Sys2Proof.Machine.execRpp j K s
  | .tpk j K => Sys2Proof.Machine.execTpk j K s
  | .tk j K => Sys2Proof.Machine.execTk j K s
  | .txa j k => Sys2Proof.Machine.execTxa j k s
  | .sil k => Sys2Proof.Machine.execSil k s
  | .cil k => Sys2Proof.Machine.execCil k s
  | .ril j k => Sys2Proof.Machine.execRil j k s
  | .rtc j k => Sys2Proof.Machine.execRtc j k s
  | .jp K => Sys2Proof.Machine.execJp K s
  | .callp j K => Sys2Proof.Machine.execCallp j K s
  | .jir j K => Sys2Proof.Machine.execJir j K s
  | .jnr j K => Sys2Proof.Machine.execJnr j K s
  | .jz j K => Sys2Proof.Machine.execJz j K s
  | .jnz j K => Sys2Proof.Machine.execJnz j K s
  | .jpl j K => Sys2Proof.Machine.execJpl j K s
  | .jng j K => Sys2Proof.Machine.execJng j K s
  | .callk j K => Sys2Proof.Machine.execCallk j K s
  | .callx j k => Sys2Proof.Machine.execCallx j k s
  | .lcallk j K => Sys2Proof.Machine.execLcallk j K s
  | .lcallx j k => Sys2Proof.Machine.execLcallx j k s
  | .ret j k => Sys2Proof.Machine.execRet j k s
  | .lret j k => Sys2Proof.Machine.execLret j k s
  | .jk K => Sys2Proof.Machine.execJk K s
  | .xj => Sys2Proof.Machine.execXj s
  | .save j n => Sys2Proof.Machine.execSave j n s
  | .blank j n => Sys2Proof.Machine.execBlank j n s
  | .roln j n => Sys2Proof.Machine.execRoln j n s
  | .sarn j n => Sys2Proof.Machine.execSarn j n s
  | .iaddk ii j K => Sys2Proof.Machine.execIaddk ii j K s
  | .iadd ii j k => Sys2Proof.Machine.execIadd ii j k s
  | .isub ii j k => Sys2Proof.Machine.execIsub ii j k s
  | .fadd ii j k => Sys2Proof.Machine.execFadd ii j k s
  | .fsub ii j k => Sys2Proof.Machine.execFsub ii j k s
  | .fmul ii j k => Sys2Proof.Machine.execFmul ii j k s
  | .brb ii j k => Sys2Proof.Machine.execBrb ii j k s
  | .ldxk ii j K => Sys2Proof.Machine.execLdxk ii j K s
  | .ldxx ii j k => Sys2Proof.Machine.execLdxx ii j k s
  | .stxk ii j K => Sys2Proof.Machine.execStxk ii j K s
  | .stxx ii j k => Sys2Proof.Machine.execStxx ii j k s

end Sys2Proof.Machine
end

