-- ==== Sys2Proof/Machine/Step.lean ====
section
/-! DEFINITION. One step of the machine: the turn the schedule names (60_exceptions.md R441; log 2). -/

namespace Sys2Proof.Machine

/-- The processor's turn: what is left of an exchange sequence in progress, or one instruction fetched and executed (R441 a), once the
data of the registers that it names have arrived (R453, R463 a; log 30). -/
def cpuStep (s : State) : Answer :=
  if s.exchanging.isSome then .next s.finishExchange
  else match fetch s with
  | .run i s' => exec i (s'.await (namedRegisters i))
  | .done o => o

/-- One step. With the schedule exhausted every waiting reference reaches memory, and the processor takes every asynchronous condition
that is present at a word boundary, and otherwise executes (60_exceptions.md R409, R413 c, R418; logs 25, 30). -/
def step (s : State) : Host.Outcome State Fault Refusal :=
  match s.script with
  | [] => if s.interruptPending then .next (interruptTurn true true true s.performAll) else cpuStep s.performAll
  | .execute :: rest => cpuStep { s with script := rest }
  | .interrupt io time sys :: rest => .next (interruptTurn io time sys { s with script := rest })
  | t :: rest => deliver t { s with script := rest }

/-- `s` with the instruction of an opcode-table row stored where the next step fetches, so that the next step runs it (log 33). -/
def State.withFetchWord (s : State) (nbits w : Nat) : State := s.placeWord (tableWord nbits w)

end Sys2Proof.Machine
end

