-- ==== Sys2Proof/Safety.lean ====
section
/-! DEFINITION. The terms in which statements speak of the machine: what a step leaves as it was, where execution goes on,
what a store, an exchange and a legal state are. -/

namespace Sys2Proof.Machine

/-- Execution goes on after an instruction of `len` parcels: at the next parcel of the word, or at parcel 0 of the next word
(10_state.md R27). -/
def Follows (len : Nat) (s t : State) : Prop :=
  (s.pp.val + len < 4 → t.p = s.p ∧ t.pp.val = s.pp.val + len) ∧
  (4 ≤ s.pp.val + len → t.p = s.p + 1 ∧ t.pp.val = 0)

/-- Execution goes on at parcel 0 of word `a` (10_state.md R28). -/
def GoesTo (a : Addr) (t : State) : Prop := t.p = a ∧ t.pp.val = 0

/-- Every word of memory reads as before, and the references that wait to reach memory are as before. -/
def SameMemory (s t : State) : Prop := (∀ a, t.mem.read a = s.mem.read a) ∧ t.sws = s.sws

/-- Memory holds `v` at `a`, and every other word is as before; the references to other words that wait are as before, and none to `a`
waits (20_memory.md R86, R90). -/
structure SwappedAt (a : Nat) (v : Word) (s t : State) : Prop where
  word : t.mem.read a = v
  others : ∀ b, b ≠ a → t.mem.read b = s.mem.read b
  waits : t.sws = s.sws.filter (fun r => r.addr ≠ a)

/-- Every X register is as before. -/
def SameRegisters (s t : State) : Prop := (∀ r, t.getX r = s.getX r) ∧ t.xres = s.xres

/-- Register `d` holds `v` and is not reserved; every other X register is as before. -/
def WroteRegister (d : Reg) (v : Word) (s t : State) : Prop :=
  t.getX d = v ∧ (∀ r, r ≠ d → t.getX r = s.getX r) ∧ t.xres = s.xres &&& ~~~(BitVec.twoPow 16 d.toNat)

/-- The word that the newest of the references `w` to X[d], if there is one, finds when those before it have reached memory, no other
agent writing the word before (20_memory.md R90). -/
def Memory.arriving (m : Memory) (d : Reg) : List Ref → Option Word
  | [] => none
  | r :: w => if r.dest = some d then some (m.view w r.addr) else Memory.arriving m d w

/-- What X[d] holds as the program sees it: the word it waits for, if it waits for one, as memory is now; otherwise what it holds
(10_state.md R54, 20_memory.md R91). -/
def State.seen (s : State) (d : Reg) : Word := (s.mem.arriving d s.sws).getD (s.getX d)

/-- What all processors share, memory apart, and what waits to be delivered, is as before. -/
structure SameSystem (s t : State) : Prop where
  il : t.il = s.il
  scf : t.scf = s.scf
  rtc : t.rtc = s.rtc
  io : t.io = s.io
  ioFlag : t.ioFlag = s.ioFlag
  timeFlag : t.timeFlag = s.timeFlag
  script : t.script = s.script

/-- The current instruction word and the instruction word stack are as before. -/
def SameStack (s t : State) : Prop := t.ciw = s.ciw ∧ t.iws = s.iws

/-- The instruction word stack after the word at `a` was written: a fetch of that word that was in progress has read what stood there
before, or has not read yet; the rest is as before (20_memory.md R95, log 15). -/
def StackAfterWrite (a : Nat) (s t : State) : Prop :=
  t.ciw = s.ciw ∧ (t.iws = s.iws ∨
    t.iws = s.iws.map fun e => if e.word = none ∧ s.progAddr e.addr = a then { e with word := some (s.view a) } else e)

/-- No exchange sequence was begun, advanced or completed. -/
def SameSequence (s t : State) : Prop := t.exchanging = s.exchanging ∧ t.exits = s.exits

/-- Only X registers, and P and PP, may differ. -/
structure OnlyRegisters (s t : State) : Prop where
  xpw : t.xpw = s.xpw
  system : SameSystem s t
  stack : SameStack s t
  sequence : SameSequence s t
  memory : SameMemory s t

/-- An instruction of `len` parcels put `v` in register `d` and did nothing else. -/
structure Delivered (d : Reg) (v : Word) (len : Nat) (s t : State) : Prop where
  register : WroteRegister d v s t
  rest : OnlyRegisters s t
  next : Follows len s t

/-- An instruction of `len` parcels did nothing. -/
structure Passed (len : Nat) (s t : State) : Prop where
  registers : SameRegisters s t
  rest : OnlyRegisters s t
  next : Follows len s t

/-- The reference `r` reached memory: the word it found went to its register, if it has one, and the word it writes, if it writes one, is
in memory; every other register and every other word is as before (20_memory.md R85, R86, R92). -/
structure Performed (r : Ref) (s t : State) : Prop where
  loaded : ∀ d, r.dest = some d → WroteRegister d (s.mem.read r.addr) s t
  registers : r.dest = none → SameRegisters s t
  written : ∀ v, r.data = some v → t.mem.read r.addr = v
  others : ∀ b, (b ≠ r.addr ∨ r.data = none) → t.mem.read b = s.mem.read b

/-- The reference `r` waits, the newest of those that do, and the register it goes to is reserved; memory and the registers are as before
(10_state.md R54, R55; 20_memory.md R91). -/
structure Waits (r : Ref) (s t : State) : Prop where
  queue : t.sws = r :: s.sws
  memory : ∀ b, t.mem.read b = s.mem.read b
  registers : ∀ q, t.getX q = s.getX q
  reserved : ∀ d, r.dest = some d → t.xres = s.xres ||| BitVec.twoPow 16 d.toNat
  unreserved : r.dest = none → t.xres = s.xres

/-- An instruction of `len` parcels issued the reference `r` and did nothing else. With the schedule exhausted it reached memory, after
those that waited (`State.performAll`); with turns to come it waits (20_memory.md R90 to R92, log 30). A word written is, as far as the
stack is concerned, written now (`StackAfterWrite`). -/
structure Issued (r : Ref) (len : Nat) (s t : State) : Prop where
  performed : s.script = [] → Performed r s.performAll t ∧ t.sws = []
  waits : s.script ≠ [] → Waits r s t
  xpw : t.xpw = s.xpw
  system : SameSystem s t
  sequence : SameSequence s t
  stack : StackAfterWrite r.addr s t
  readOnly : r.data = none → SameStack s t
  next : Follows len s t

/-- The condition flags of a stored XPW: exactly those raised, or, when flags had arrived set, at least those raised
(60_exceptions.md R415). -/
def FlagsStored (arrived raised stored : BitVec 8) : Prop :=
  (arrived = 0 → stored = raised) ∧ stored &&& raised = raised

/-- `w` is the XPW of `s` as an exchange stores it, with the conditions `raised` and the resume address `resume`
(10_state.md R30, 60_exceptions.md R412, R415). -/
structure DepartsAs (s : State) (raised : BitVec 8) (resume : Addr) (w : Word) : Prop where
  mtf : w.getLsbD 63 = s.xpw.mtf
  prf : w.getLsbD 62 = s.xpw.prf
  ipf : w.getLsbD 61 = s.xpw.ipf
  ovf : w.getLsbD 60 = s.xpw.ovf
  cond : FlagsStored s.xpw.cond raised (w.extractLsb' 52 8)
  ra : w.extractLsb' 40 12 = s.xpw.ra
  xa : w.extractLsb' 32 8 = s.xpw.xa
  fl : w.extractLsb' 20 12 = s.xpw.fl
  p : w.extractLsb' 0 20 = resume

/-- The XPW of `t`, P included, is the word `w` (10_state.md R30, R39). -/
structure ArrivesAs (w : Word) (t : State) : Prop where
  mtf : t.xpw.mtf = w.getLsbD 63
  prf : t.xpw.prf = w.getLsbD 62
  ipf : t.xpw.ipf = w.getLsbD 61
  ovf : t.xpw.ovf = w.getLsbD 60
  cond : t.xpw.cond = w.extractLsb' 52 8
  ra : t.xpw.ra = w.extractLsb' 40 12
  xa : t.xpw.xa = w.extractLsb' 32 8
  fl : t.xpw.fl = w.extractLsb' 20 12
  p : t.p = w.extractLsb' 0 20
  pp : t.pp.val = 0

/-- From `s` to `t` one exchange jump was made, with the conditions `raised` and the resume address `resume`
(60_exceptions.md R412): the package at XA * 32 and the processor's context have changed places. -/
structure Exchanged (raised : BitVec 8) (resume : Addr) (s t : State) : Prop where
  xpwStored : DepartsAs s raised resume (t.mem.read (32 * s.xpw.xa.toNat + 16))
  registersStored : ∀ d : Reg, t.mem.read (32 * s.xpw.xa.toNat + d.toNat) = s.getX d
  otherWords : ∀ a, (a < 32 * s.xpw.xa.toNat ∨ 32 * s.xpw.xa.toNat + 16 < a) → t.mem.read a = s.mem.read a
  waiting : t.sws = s.sws.filter (fun r => r.addr < 32 * s.xpw.xa.toNat ∨ 32 * s.xpw.xa.toNat + 16 < r.addr)
  xpwLoaded : ArrivesAs (s.view (32 * s.xpw.xa.toNat + 16)) t
  registersLoaded : ∀ d : Reg, t.getX d = s.view (32 * s.xpw.xa.toNat + d.toNat)
  reservations : t.xres = 0
  stackEmpty : t.ciw = 0 ∧ t.iws = []
  complete : t.exchanging = none ∧ t.exits = t.mem.read (32 * s.xpw.xa.toNat + 16) :: s.exits
  system : SameSystem s t

/-- From `s` to `t` an exchange jump began, with the conditions `raised` and the resume address `resume`: none of its seventeen
references has been made (60_exceptions.md R412, R414). -/
structure Begun (raised : BitVec 8) (resume : Addr) (s t : State) : Prop where
  sequence : ∃ w, DepartsAs s raised resume w ∧ t.exchanging = some ⟨s.xpw.xa, w, .xpw⟩
  exits : t.exits = s.exits
  registers : ∀ r, t.getX r = s.getX r
  xpw : t.xpw = s.xpw
  place : t.p = s.p ∧ t.pp = s.pp
  memory : SameMemory s t
  reservations : t.xres = 0
  stackEmpty : t.ciw = 0 ∧ t.iws = []
  system : SameSystem s t

/-- Once the data of every register had arrived (`State.clearRegs`, 20_memory.md R93 c), an exchange jump was made from `s` to `t`; or
it began, where the schedule names single references (log 23). -/
def Exchanges (raised : BitVec 8) (resume : Addr) (s t : State) : Prop :=
  (.reference ∉ s.script → Exchanged raised resume s.clearRegs t) ∧ (.reference ∈ s.script → Begun raised resume s.clearRegs t)

/-- `n` steps in a row, each answering a next state, lead from `s` to `t`. -/
def Steps : Nat → State → State → Prop
  | 0, s, t => t = s
  | n + 1, s, t => ∃ u, step s = .next u ∧ Steps n u t

/-- The modes, RA and FL: what only an exchange changes (60_exceptions.md R425). -/
structure SameModes (s t : State) : Prop where
  mtf : t.xpw.mtf = s.xpw.mtf
  ipf : t.xpw.ipf = s.xpw.ipf
  ovf : t.xpw.ovf = s.xpw.ovf
  ra : t.xpw.ra = s.xpw.ra
  fl : t.xpw.fl = s.xpw.fl

/-- The absolute address `a` is in the program's data field: it is what some relative address below FL * 256 is relocated to
(20_memory.md R80). -/
def InField (s : State) (a : Nat) : Prop := ∃ r, r < 256 * s.xpw.fl.toNat ∧ a = (256 * s.xpw.ra.toNat + r) % 2 ^ 20

/-- The absolute address `a` is one of the seventeen words of the package at XA * 32 (10_state.md R48). -/
def InPackage (s : State) (a : Nat) : Prop := 32 * s.xpw.xa.toNat ≤ a ∧ a ≤ 32 * s.xpw.xa.toNat + 16

/-- The channel request mechanism is coherent: no channel waits twice, the current channel waits, and a processor is held only
for a current channel (60_exceptions.md R434). -/
structure ChannelRequest.Coherent (r : ChannelRequest) : Prop where
  once : r.pending.Nodup
  current : ∀ c, r.current = some c → c ∈ r.pending
  held : r.held = true → r.current.isSome = true

/-- The assembly register of an input path holds less than a word, and nothing when the path is idle; at most two assembled words wait to
be written, the last full word of a block and the one that its end filled out, so at most one while the register holds something
(60_exceptions.md R430). -/
structure InPath.Coherent (q : InPath) : Prop where
  partly : q.bits.length < 64
  idle : q.active = false → q.bits = []
  waits : q.waiting.length ≤ 2
  waitsOne : q.bits ≠ [] → q.waiting.length ≤ 1

/-- An output path holds nothing when it is idle; its parity status word is zero (60_exceptions.md R431, R436). -/
def OutPath.Coherent (q : OutPath) : Prop := (q.active = false → q.bits = []) ∧ q.parity = 0

/-- The legal states: what every step keeps. -/
structure Legal (s : State) : Prop where
  memory : s.mem.wf
  waiting : ∀ r ∈ s.sws, r.addr < Config.memWords
  reservations : ∀ d : Reg, s.xres.getLsbD d.toNat = true ↔ ∃ r ∈ s.sws, r.dest = some d
  destinations : (s.sws.filterMap (·.dest)).Nodup
  stackLength : s.iws.length ≤ Config.iwsWords
  stackAddresses : (s.iws.map (·.addr)).Nodup
  sequence : s.exchanging.isSome = true → s.iws = [] ∧ s.xres = 0
  request : s.io.req.Coherent
  input : ∀ c, (s.io.inp c).Coherent
  output : ∀ c, (s.io.out c).Coherent

/-- The value of a floating word whose out-of-range flag is clear, as a rational number (40_arithmetic.md R163). -/
def fpValue (w : Word) : ℚ :=
  let n := fpUnpack w
  (if n.neg then -1 else 1) * (n.coef : ℚ) * (2 : ℚ) ^ n.exp

/-- The fields of a parcel that the hardware reads: a mask with zeros in the fields R122 and R123 call ignored. -/
def Parcel.careMask (p : Parcel) : Parcel :=
  if p.code.toNat ∈ [0x00, 0x0E, 0x0F, 0x18, 0x19, 0x1E, 0x1F, 0x3F] then 0xFF00
  else if p.code.toNat = 0x1C then 0xFFF0
  else if p.code.toNat ∈ [0x1D, 0x2C, 0x2D, 0x30, 0x3E] then 0xFF0F
  else 0xFFFF

end Sys2Proof.Machine
end

