-- ==== Sys2Proof/Certificates/Slice0/Obligations.lean ====
section
/-! DEFINITION. The statements for the provers. Each docstring names the rules of spec/ it formalises, and, where a clause rests
on a choice of the model, the log entry. -/

open Sys2Proof Sys2Proof.Machine

/-! ### Reset, decoding, steps -/

/-- The state after dead start is legal, and its reservation flags are clear (R57, R451). That the flags are clear, that PP is 0
and that the stack is empty is stated by R57; that the channels are idle, that no request and no reference waits and that no
exchange sequence is in progress is the model's choice (log 4). -/
def Obligations.ResetIsLegal : Prop :=
  Legal State.reset ∧ State.reset.xres = 0 ∧ State.reset.pp.val = 0 ∧ State.reset.iws = []

/-- Words of R127 and of 95_test_vectors.md 2.1, written out bit by bit from R113 to R116, decode to the instructions they stand
for. -/
def Obligations.DecodesWords : Prop :=
  decode [0x013C] = .ok (.and 3 12, []) ∧
  decode [0x0FFF] = .ok (.pass, []) ∧
  decode [0x1059] = .ok (.setk 5 9, []) ∧
  decode [0x2A1F, 0xFFFC] = .ok (.tk 1 0xFFFFC, []) ∧
  decode [0x3420, 0x0005] = .ok (.jz 2 5, []) ∧
  decode [0x3F00] = .ok (.xj, []) ∧
  decode [0x4324] = .ok (.save 2 52, []) ∧
  decode [0x4F7A] = .ok (.sarn 7 58, []) ∧
  decode [0x544F, 0xFFFE] = .ok (.iaddk 4 4 0xFFFFE, []) ∧
  decode [0xB123] = .ok (.brb 1 2 3, []) ∧
  decode [0xF123] = .ok (.stxx 1 2 3, [])

/-- A step of the processor runs the instruction that stands at P and PP (R83, R117). At parcel 0 the word is the copy in the
instruction word stack if the address stack holds P and the word has been read (R51), otherwise the word in memory, at the relocated
address when PRF is set (R82), as this processor reads it (R90). It enters CIW, and the words up to two ahead enter the stack, their
fetches in progress; of an address not held before, the oldest entry beyond twelve is discarded (R51, log 15). At parcels 1 to 3 the
instruction is in CIW (R53, log 16). The processor's turn is the one named by the schedule, or any when the schedule is exhausted and
no asynchronous condition can be taken; waiting references have then reached memory (logs 2, 30). The instruction runs once the data of
the registers that it names, as source or destination, have arrived (R54, R453; `RegistersArrive`). Nothing else is added around `exec`. -/
def Obligations.StepRunsInstruction : Prop :=
  ∀ (s u : State) (i : Instr) (rest : List Parcel), s.exchanging = none →
    (s.script = [] ∧ s.interruptPending = false ∧ u = s.performAll) ∨
      (∃ ts, s.script = .execute :: ts ∧ u = { s with script := ts }) →
    (∀ (a : Nat) (w : Word), s.pp.val = 0 →
        a = (if s.xpw.prf then (256 * s.xpw.ra.toNat + s.p.toNat) % 2 ^ 20 else s.p.toNat) →
        (s.xpw.prf = true → s.p.toNat < 256 * s.xpw.fl.toNat) → a < 262144 →
        ((∃ e ∈ s.iws, e.addr = s.p ∧ e.word = some w ∧ ∀ d ∈ s.iws, d.addr = s.p → d = e) ∨
          ((∀ e ∈ s.iws, e.addr = s.p → e.word = none) ∧ w = s.view a)) →
        decode (parcelsOf w) = .ok (i, rest) →
        ∃ l, step s = exec i (State.await { u with ciw := w, iws := l } (namedRegisters i)) ∧
          (s.iws.length ≤ 12 → l.length ≤ 12) ∧ (∃ e ∈ l, e.addr = s.p + 2) ∧
          (∀ e ∈ l, e ∈ s.iws ∨ e = ⟨s.p, some w⟩ ∨ e = ⟨s.p + 1, none⟩ ∨ e = ⟨s.p + 2, none⟩) ∧
          ((∀ e ∈ s.iws, e.addr ≠ s.p ∧ e.addr ≠ s.p + 1 ∧ e.addr ≠ s.p + 2) →
            l = ⟨s.p + 2, none⟩ :: ⟨s.p + 1, none⟩ :: ⟨s.p, some w⟩ :: s.iws.take 9)) ∧
    (s.pp.val ≠ 0 → decode ((parcelsOf s.ciw).drop s.pp.val) = .ok (i, rest) → step s = exec i (u.await (namedRegisters i)))

/-- Decoding what the encoder wrote gives the instruction back, every operand at every value, and leaves the parcels after it
(R112 to R117, R120). -/
def Obligations.DecodeEncode : Prop :=
  ∀ (i : Instr) (rest : List Parcel), decode (encode i ++ rest) = .ok (i, rest)

/-- Every parcel value is an instruction, of the length R121 gives its code; and encoding it again differs only in the fields
that R122 calls ignored (R112, R120, R121, R122, R124). -/
def Obligations.EveryParcelIsAnInstruction : Prop :=
  ∀ (p q : Parcel) (rest : List Parcel), ∃ (i : Instr) (e : Parcel),
    decode (p :: q :: rest) = .ok (i, (p :: q :: rest).drop i.parcels) ∧
    e &&& Parcel.careMask p = p &&& Parcel.careMask p ∧
    ((i.parcels = 1 ∧ encode i = [e]) ∨ (i.parcels = 2 ∧ encode i = [e, q])) ∧
    (i.parcels = 2 ↔ p.code.toNat ∈ [0x20, 0x22, 0x24, 0x26, 0x28, 0x29, 0x2A, 0x30, 0x31, 0x32, 0x33, 0x34, 0x35, 0x36, 0x37,
      0x38, 0x3A, 0x3E] ∨ p.hi.toNat ∈ [0x5, 0xC, 0xE])

/-- A 2-parcel code (R121) in the fourth parcel of a word stops by name (R118, R454, log 17). -/
def Obligations.TwoParcelInFourthParcelRefused : Prop :=
  ∀ (s : State) (p0 p1 p2 p3 : Parcel), s.script = [] → s.exchanging = none → s.pp.val = 3 → s.ciw = wordOf p0 p1 p2 p3 →
    p3.code.toNat ∈ [0x20, 0x22, 0x24, 0x26, 0x28, 0x29, 0x2A, 0x30, 0x31, 0x32, 0x33, 0x34, 0x35, 0x36, 0x37, 0x38, 0x3A, 0x3E] ∨
      p3.hi.toNat ∈ [0x5, 0xC, 0xE] →
    step s = .refused .twoParcelInFourthParcel

/-- A store does not change what the instruction word stack holds (R95, R461). After 0200 has rewritten the word at a program address
`q`: if the address stack does not hold `q` the new word will be executed there; if it does, and the word has been read, the old copy;
and while its fetch is in progress, the one or the other (the model's choice where the spec would refuse it, log 15). Another
processor's store likewise. -/
def Obligations.RewrittenWordExecutes : Prop :=
  (∀ (j : Reg) (K q : Addr) (s t : State),
    (if s.xpw.prf then (256 * s.xpw.ra.toNat + q.toNat) % 2 ^ 20 else q.toNat) = (256 * s.xpw.ra.toNat + K.toNat) % 2 ^ 20 →
    K.toNat < 256 * s.xpw.fl.toNat → exec (.stk j K) s = .next t →
    ((∀ e ∈ s.iws, e.addr ≠ q) → t.instructionWord q = s.getX j) ∧
    (∀ e ∈ s.iws, e.addr = q → (∀ d ∈ s.iws, d.addr = q → d = e) →
      (∀ w, e.word = some w → t.instructionWord q = w) ∧
      (e.word = none → t.instructionWord q = s.getX j ∨ t.instructionWord q = s.view ((256 * s.xpw.ra.toNat + K.toNat) % 2 ^ 20)))) ∧
  ∀ (s : State) (o : Other) (b : Addr) (v : Word) (ts : List Turn), b.toNat < 262144 → s.script = .otherStore o b v :: ts →
    ∃ t, step s = .next t ∧ t.mem.read b.toNat = v ∧ (∀ a, a ≠ b.toNat → t.mem.read a = s.mem.read a) ∧ t.sws = s.sws ∧
      SameRegisters s t ∧ t.xpw = s.xpw ∧ t.p = s.p ∧ t.pp = s.pp ∧ StackAfterWrite b.toNat s t

/-- Every step keeps the legal states legal: the memory's canonical form, waiting references to words that exist, the reservation flags
set for exactly the registers that a waiting reference goes to, one reference each, at most twelve entries in the instruction word stack,
each address once, none of these and no reserved register while an exchange sequence is in progress, the request mechanism and the
channel paths coherent (R51, R52, R54, R55, R71, R416, R430, R431, R434, R436). -/
def Obligations.StepKeepsInvariant : Prop :=
  ∀ s t : State, Legal s → step s = .next t → Legal t

/-- Memories in canonical form that read alike are equal data (log 6). -/
def Obligations.MemoryIsCanonical : Prop :=
  ∀ m n : Memory, m.wf → n.wf → (∀ a, m.read a = n.read a) → m = n

/-- A reference waits until it reaches memory (R55, R92). At the turn `perform` the oldest waiting reference to the word reaches memory,
whatever waits for other words (R91): a load finds the word as memory then has it, a store writes it, and a read/store does both in one
step (R86); neither what the processor reads nor what its registers are to hold changes, if no register waits twice. Until a store is
performed it is visible to this processor alone (R90). With the schedule exhausted the processor moves in the state in which every
waiting reference has reached memory (`StepRunsInstruction`, log 30). -/
def Obligations.StoresReachMemory : Prop :=
  ∀ (s : State) (a : Nat) (ts : List Turn),
    (s.script = .perform a :: ts → ∃ t, step s = .next t ∧ (∀ b, t.view b = s.view b) ∧
      ((s.sws.filterMap (·.dest)).Nodup → ∀ d, t.seen d = s.seen d) ∧
      t.xpw = s.xpw ∧ t.p = s.p ∧ t.pp = s.pp ∧ SameStack s t ∧
      (∀ (r : Ref) (w w' : List Ref), s.sws = w ++ r :: w' → r.addr = a → (∀ q ∈ w', q.addr ≠ a) → Performed r s t ∧ t.sws = w ++ w') ∧
      ((∀ r ∈ s.sws, r.addr ≠ a) → t = { s with script := ts })) ∧
    (∀ b, s.performAll.mem.read b = s.view b ∧ s.performAll.view b = s.view b) ∧ s.performAll.sws = [] ∧
    ((s.sws.filterMap (·.dest)).Nodup → ∀ d, s.performAll.getX d = s.seen d)

/-- R54, R90, R91, R453: the registers that an instruction names hold, when it runs, what the program sees in them, and wait for nothing;
the references awaited for them reach memory, each word's in program order, and the others keep their order and may still wait. At the
turn `forward` a load takes the word of this processor's own waiting reference next before it to the same word, if that reference writes
the word, and if it does not nothing happens (log 30). At most one reference goes to each register (the premise, kept by every step:
`StepKeepsInvariant`). -/
def Obligations.RegistersArrive : Prop :=
  ∀ s : State, (s.sws.filterMap (·.dest)).Nodup →
    (∀ ds : List Reg,
      (∀ d ∈ ds, (s.await ds).getX d = s.seen d ∧ ∀ r ∈ (s.await ds).sws, r.dest ≠ some d) ∧
      (∀ d, (s.await ds).seen d = s.seen d) ∧ (∀ b, (s.await ds).view b = s.view b) ∧
      (∀ a, (∀ r ∈ s.sws, r.addr ≠ a) → (s.await ds).mem.read a = s.mem.read a) ∧ (s.await ds).sws.Sublist s.sws ∧
      (∀ (d : Reg) (w w' : List Ref) (r : Ref), s.sws = w ++ r :: w' → r.dest = some d → r.data = none →
        (∀ q ∈ w', q.addr ≠ r.addr) → s.seen d = s.mem.read r.addr)) ∧
    (∀ (d : Reg) (w w' w'' : List Ref) (r q : Ref) (ts : List Turn), s.script = .forward d :: ts →
      s.sws = w ++ r :: (w' ++ q :: w'') → r.dest = some d → r.data = none → q.addr = r.addr → (∀ p ∈ w', p.addr ≠ r.addr) →
      (∀ v, q.data = some v → ∃ t, step s = .next t ∧ WroteRegister d v s t ∧ t.sws = w ++ (w' ++ q :: w'') ∧ t.mem = s.mem ∧
        s.seen d = v ∧ t.xpw = s.xpw ∧ t.p = s.p ∧ t.pp = s.pp ∧ SameStack s t) ∧
      (q.data = none → step s = .next { s with script := ts }))

/-- R54, R90, R91, R453: what a processor sees of its own references is sequential execution, whatever still waits. An instruction that
runs once the data of the registers it names have arrived does what it does once every waiting reference has reached memory: it stops
where that stops, and otherwise the program sees the same in every register and in every word, and everything else but what waits is the
same. The premise is kept by every step (`StepKeepsInvariant`). -/
def Obligations.SequentialResults : Prop :=
  ∀ (i : Instr) (s : State), (s.sws.filterMap (·.dest)).Nodup →
    (∀ t, exec i (s.await (namedRegisters i)) = .next t → ∃ u, exec i s.performAll = .next u ∧
      (∀ d, t.seen d = u.seen d) ∧ (∀ a, t.view a = u.view a) ∧ t.xpw = u.xpw ∧ t.p = u.p ∧ t.pp = u.pp ∧
      SameStack u t ∧ SameSystem u t ∧ SameSequence u t) ∧
    (∀ f, exec i (s.await (namedRegisters i)) = .fault f → exec i s.performAll = .fault f) ∧
    (∀ r, exec i (s.await (namedRegisters i)) = .refused r → exec i s.performAll = .refused r)

/-! ### Arithmetic functions -/

/-- R151: the modified ones' complement sum. The end-around carry; a sum of all ones replaced by zero; minus zero operands behave
as zero; no overflow is detected; and, by R150, the sum is the integer sum wherever that is in range. -/
def Obligations.OnesComplementSum : Prop :=
  ∀ a b : Word,
    (let s := if a.toNat + b.toNat ≥ 2 ^ 64 then a.toNat + b.toNat - 2 ^ 64 + 1 else a.toNat + b.toNat
     (add1c a b).toNat = if s = 2 ^ 64 - 1 then 0 else s) ∧
    add1c a b ≠ BitVec.allOnes 64 ∧
    add1c a b = add1c b a ∧
    (b ≠ BitVec.allOnes 64 → add1c (BitVec.allOnes 64) b = b) ∧
    add1c (BitVec.allOnes 64) (BitVec.allOnes 64) = 0 ∧
    (-(2 ^ 63 - 1) ≤ val1c a + val1c b ∧ val1c a + val1c b ≤ 2 ^ 63 - 1 → val1c (add1c a b) = val1c a + val1c b) ∧
    add1c 0x7FFFFFFFFFFFFFFF 1 = 0x8000000000000000

/-- R152: subtraction complements the subtrahend and adds; the difference of equals is plus zero; and, by R150, the difference is
the integer difference wherever that is in range. -/
def Obligations.OnesComplementDifference : Prop :=
  ∀ a b : Word,
    sub1c a b = add1c a (~~~b) ∧ sub1c a a = 0 ∧ sub1c 0 5 = 0xFFFFFFFFFFFFFFFA ∧
    (-(2 ^ 63 - 1) ≤ val1c a - val1c b ∧ val1c a - val1c b ≤ 2 ^ 63 - 1 → val1c (sub1c a b) = val1c a - val1c b)

/-- R155 and R156: the left circular shift moves bit b to (b + n) mod 64; the right shift copies the sign, and on a ones'
complement number divides by 2^n truncating toward zero. A count of 0 changes nothing. -/
def Obligations.ShiftFunctions : Prop :=
  ∀ (v : Word) (n : Nat), n ≤ 63 →
    (∀ b, b < 64 → (rotl64 v n).getLsbD ((b + n) % 64) = v.getLsbD b) ∧
    (∀ b, b < 64 → (sar64 v n).getLsbD b = if b + n ≤ 63 then v.getLsbD (b + n) else v.getLsbD 63) ∧
    val1c (sar64 v n) = (val1c v).tdiv (2 ^ n) ∧ rotl64 v 0 = v ∧ sar64 v 0 = v

/-- R158 and R159: `mask_low` has ones in the low n bits and zeros above; `popcount` counts one bits: a word and its complement
have 64 together, the zero word alone has none and the all-ones word alone has 64, and setting a clear bit adds one. -/
def Obligations.MasksAndCounts : Prop :=
  (∀ n, n ≤ 63 → (∀ b, b < 64 → (maskLow n).getLsbD b = decide (b < n)) ∧ (maskLow n).toNat = 2 ^ n - 1) ∧
  (∀ v : Word, popcount v ≤ 64 ∧ popcount v + popcount (~~~v) = 64 ∧ (popcount v = 0 ↔ v = 0) ∧
    (popcount v = 64 ↔ v = BitVec.allOnes 64)) ∧
  ∀ (v : Word) (b : Nat), b < 64 → v.getLsbD b = false → popcount (v ||| BitVec.twoPow 64 b) = popcount v + 1

/-- R162, R163, R169: packing a sign, a coefficient and an exponent in range and unpacking gives them back; the word for minus x is
the complement of the word for x; the out-of-range flag is clear. -/
def Obligations.FloatingFormat : Prop :=
  ∀ (neg : Bool) (c : Nat) (e : Int), c < 2 ^ 48 → -8191 ≤ e → e ≤ 8191 →
    fpUnpack (fpPack neg c e) = ⟨neg, c, e⟩ ∧ fpPack (!neg) c e = ~~~(fpPack neg c e) ∧ oor (fpPack neg c e) = false

/-- R171 cases 2 and 4: a result whose exponent exceeds +8191 has the leading twelve bits of R165 and is out of range; one whose
exponent falls below -8191 is the all-zero word; any other is packed. -/
def Obligations.FloatingExtremes : Prop :=
  ∀ (neg : Bool) (c : Nat) (e : Int) (free : Word),
    (8191 < e → (fpDeliver neg c e free).extractLsb' 52 12 = (if neg then 0x800#12 else 0x7FF#12) ∧
      oor (fpDeliver neg c e free) = true) ∧
    (e < -8191 → fpDeliver neg c e free = 0) ∧
    (-8191 ≤ e → e ≤ 8191 → c < 2 ^ 48 → fpUnpack (fpDeliver neg c e free) = ⟨neg, c, e⟩)

/-- R171 case 1 and R176: a flagged operand makes every floating operation deliver a flagged word, and so does a divisor that is
not normalized. Otherwise the quotient is truncated, not rounded: its sign, coefficient and exponent are those of the quotient of the
coefficients, developed to some number of bits k, truncated, and shifted by some n, delivered as every floating result is (R171 cases 2
and 4, `FloatingExtremes`); k and n are open (log 13), and so is the sign of a coefficient that is zero, unless it overflows. The quotient
of a zero dividend has a zero coefficient, any sign and any exponent, which is delivered in the same way (log 13). -/
def Obligations.FlaggedOperands : Prop :=
  ∀ a b : Word,
    (oor a = true ∨ oor b = true → ∀ free : Word,
      oor (fpAddUpper a b free) = true ∧ oor (fpAddLower a b free) = true ∧ oor (fpMulUpper a b free) = true ∧
      oor (fpMulLower a b free) = true ∧ oor (fpQuotient a b free) = true) ∧
    (normalized b = false → ∀ free : Word, oor (fpQuotient a b free) = true) ∧
    (oor a = false → oor b = false → normalized b = true → (fpUnpack a).coef ≠ 0 → ∃ (k n : Nat) (z : Bool),
      (let q := (fpUnpack a).coef * 2 ^ k / (fpUnpack b).coef
       let e : Int := (fpUnpack a).exp - (fpUnpack b).exp - k - n
       q * 2 ^ n < 2 ^ 48 ∧ ∀ free : Word,
        fpQuotient a b free = fpDeliver (if q = 0 ∧ e ≤ 8191 then z else a.msb != b.msb) (q * 2 ^ n) e free)) ∧
    (oor a = false → oor b = false → normalized b = true → (fpUnpack a).coef = 0 → ∃ (z : Bool) (e : Int),
      ∀ free : Word, fpQuotient a b free = fpDeliver z 0 e free) ∧
    (∀ r : Word, oor r = true → inRange r = false)

/-- R168: for normalized numbers whose out-of-range flag is clear, the order of the values is the order of the words as integers.
The exponent minus zero is left out (the third and fourth premise): it stands for the same exponent as plus zero and lies below it
as a bit pattern, so R168 does not hold of it. -/
def Obligations.FloatingOrder : Prop :=
  ∀ a b : Word, oor a = false → oor b = false →
    (if a.msb then ~~~a else a).extractLsb' 48 14 ≠ 0x1FFF → (if b.msb then ~~~b else b).extractLsb' 48 14 ≠ 0x1FFF →
    normalized a = true → normalized b = true → (fpValue a < fpValue b ↔ val1c a < val1c b)

/-- R174, R175 (the spec's reference reading, log 11): the upper and the lower half of the product of normalized numbers are the
product with no loss of precision, and the upper half is normalized, when both halves' exponents are in range. -/
def Obligations.ProductExact : Prop :=
  ∀ a b free : Word, oor a = false → oor b = false → normalized a = true → normalized b = true →
    -8190 ≤ (fpUnpack a).exp + (fpUnpack b).exp → (fpUnpack a).exp + (fpUnpack b).exp ≤ 8143 →
    fpValue (fpMulUpper a b free) + fpValue (fpMulLower a b free) = fpValue a * fpValue b ∧
    normalized (fpMulUpper a b free) = true ∧
    (fpUnpack (fpMulLower a b free)).exp = (fpUnpack (fpMulUpper a b free)).exp - 48

/-- R172, R173 (the spec's reference reading, log 11): the upper and the lower half of a sum are the sum with no loss of precision
while the exponents differ by at most 47 (at 48 the one-bit right shift can drop a bit) and stay clear of the ends of the range; a zero
sum is the all-zero word in both halves; otherwise the upper half is normalized and the lower half's exponent is 48 less. -/
def Obligations.SumExact : Prop :=
  ∀ a b free : Word, oor a = false → oor b = false →
    -8000 ≤ (fpUnpack a).exp → (fpUnpack a).exp ≤ 8000 → -8000 ≤ (fpUnpack b).exp → (fpUnpack b).exp ≤ 8000 →
    (fpUnpack a).exp - (fpUnpack b).exp ≤ 47 → (fpUnpack b).exp - (fpUnpack a).exp ≤ 47 →
    fpValue (fpAddUpper a b free) + fpValue (fpAddLower a b free) = fpValue a + fpValue b ∧
    (fpValue a + fpValue b = 0 → fpAddUpper a b free = 0 ∧ fpAddLower a b free = 0) ∧
    (fpValue a + fpValue b ≠ 0 → normalized (fpAddUpper a b free) = true ∧
      (fpUnpack (fpAddLower a b free)).exp = (fpUnpack (fpAddUpper a b free)).exp - 48)

/-- R154 and R165: the register tests of the conditional jumps, by the leading bits of the word. The twelve bits of the indefinite
rows are the spec's default of `INDEF_MATCH_BITS` (log 9). -/
def Obligations.RegisterTests : Prop :=
  ∀ w : Word,
    (isZero w = true ↔ w = 0 ∨ w = BitVec.allOnes 64) ∧ (isNeg w = true ↔ w.getLsbD 63 = true) ∧
    (inRange w = false ↔ w.extractLsb' 62 2 = 1#2 ∨ w.extractLsb' 62 2 = 2#2 ∨ w.extractLsb' 52 12 = 0x3FF#12 ∨
      w.extractLsb' 52 12 = 0xC00#12) ∧
    (oor w = true ↔ w.getLsbD 63 ≠ w.getLsbD 62) ∧
    (normalized w = true ↔ 2 ^ 47 ≤ (fpUnpack w).coef)

/-! ### Instructions that only write a register -/

/-- 0001, 0002, 0003, 0010, 0011, 0023, 0033, 0100, 0101, 0222 (R202 to R206, R212, R216, R231, R232, R271): results and frame; 0033
does nothing. -/
def Obligations.LogicalAndCopyResults : Prop :=
  ∀ (j k : Reg) (K : Addr) (s : State),
    (∃ t, exec (.and j k) s = .next t ∧ Delivered j (s.getX j &&& s.getX k) 1 s t) ∧
    (∃ t, exec (.or j k) s = .next t ∧ Delivered j (s.getX j ||| s.getX k) 1 s t) ∧
    (∃ t, exec (.xor j k) s = .next t ∧ Delivered j (s.getX j ^^^ s.getX k) 1 s t) ∧
    (∃ t, exec (.copy j k) s = .next t ∧ Delivered j (s.getX k) 1 s t) ∧
    (∃ t, exec (.copyc j k) s = .next t ∧ Delivered j (~~~s.getX k) 1 s t) ∧
    (∃ t, exec (.pop j k) s = .next t ∧ Delivered j (BitVec.ofNat 64 (popcount (s.getX k))) 1 s t) ∧
    (∃ t, exec .pass s = .next t ∧ Passed 1 s t) ∧
    (∃ t, exec (.setk j k) s = .next t ∧ Delivered j (k.setWidth 64) 1 s t) ∧
    (∃ t, exec (.setnk j k) s = .next t ∧ Delivered j (~~~(k.setWidth 64)) 1 s t) ∧
    (∃ t, exec (.tk j K) s = .next t ∧ Delivered j (K.signExtend 64) 2 s t)

/-- 0102, 0103, 0113, 11XX, 12XX, 13XX (R233, R234, R238, R331 to R333): results and frame; 0113 complements any number but the two
zeros, of which it makes plus zero. -/
def Obligations.IntegerSumResults : Prop :=
  ∀ (i j k : Reg) (K : Addr) (s : State),
    (∃ t, exec (.addk j k) s = .next t ∧ Delivered j (add1c (s.getX j) (k.setWidth 64)) 1 s t) ∧
    (∃ t, exec (.subk j k) s = .next t ∧ Delivered j (sub1c (s.getX j) (k.setWidth 64)) 1 s t) ∧
    (∃ t, exec (.neg j k) s = .next t ∧
      Delivered j (if s.getX k = 0 ∨ s.getX k = BitVec.allOnes 64 then 0 else ~~~s.getX k) 1 s t) ∧
    (∃ t, exec (.iaddk i j K) s = .next t ∧ Delivered i (add1c (s.getX j) (K.signExtend 64)) 2 s t) ∧
    (∃ t, exec (.iadd i j k) s = .next t ∧ Delivered i (add1c (s.getX j) (s.getX k)) 1 s t) ∧
    (∃ t, exec (.isub i j k) s = .next t ∧ Delivered i (sub1c (s.getX j) (s.getX k)) 1 s t)

/-- 0012, 0013 (R207, R208, R157): a positive count in 0 .. 63 and a negative one of magnitude 0 .. 63; beyond 63 the instruction
completes with any value (log 19). -/
def Obligations.RegisterShiftResults : Prop :=
  ∀ (j k : Reg) (s : State),
    (∃ v t, exec (.shl j k) s = .next t ∧ Delivered j v 1 s t ∧
      ((s.getX k).msb = false → (s.getX k).toNat ≤ 63 → v = rotl64 (s.getX j) (s.getX k).toNat) ∧
      ((s.getX k).msb = true → (~~~s.getX k).toNat ≤ 63 → v = sar64 (s.getX j) (~~~s.getX k).toNat)) ∧
    (∃ v t, exec (.shr j k) s = .next t ∧ Delivered j v 1 s t ∧
      ((s.getX k).msb = false → (s.getX k).toNat ≤ 63 → v = sar64 (s.getX j) (s.getX k).toNat) ∧
      ((s.getX k).msb = true → (~~~s.getX k).toNat ≤ 63 → v = rotl64 (s.getX j) (~~~s.getX k).toNat))

/-- 100X, 101X, 102X, 103X (R320 to R324): every bit of the result, and the frame. -/
def Obligations.ConstantShiftResults : Prop :=
  ∀ (j : Reg) (n : BitVec 6) (s : State),
    (∃ v t, exec (.save j n) s = .next t ∧ Delivered j v 1 s t ∧
      ∀ b, b < 64 → v.getLsbD b = (decide (b < n.toNat) && (s.getX j).getLsbD b)) ∧
    (∃ v t, exec (.blank j n) s = .next t ∧ Delivered j v 1 s t ∧
      ∀ b, b < 64 → v.getLsbD b = (!decide (b < n.toNat) && (s.getX j).getLsbD b)) ∧
    (∃ v t, exec (.roln j n) s = .next t ∧ Delivered j v 1 s t ∧
      ∀ b, b < 64 → v.getLsbD ((b + n.toNat) % 64) = (s.getX j).getLsbD b) ∧
    (∃ v t, exec (.sarn j n) s = .next t ∧ Delivered j v 1 s t ∧
      ∀ b, b < 64 → v.getLsbD b = (s.getX j).getLsbD (min (b + n.toNat) 63))

/-- 0110, 0111 (R235, R236, R163): the bits of the results; as integers they are the signed coefficient and the exponent. -/
def Obligations.UnpackResults : Prop :=
  ∀ (j k : Reg) (s : State),
    (∃ v t, exec (.unpc j k) s = .next t ∧ Delivered k v 1 s t ∧
      (∀ b, b < 64 → v.getLsbD b = if b < 48 then (s.getX j).getLsbD b else (s.getX j).getLsbD 63) ∧
      val1c v = (fpUnpack (s.getX j)).signed) ∧
    (∃ v t, exec (.unpe j k) s = .next t ∧ Delivered k v 1 s t ∧
      (∀ b, b < 64 → v.getLsbD b =
        if b < 13 then (s.getX j).getLsbD (48 + b) ^^ (s.getX j).getLsbD 63
        else !((s.getX j).getLsbD 61 ^^ (s.getX j).getLsbD 63)) ∧
      val1c v = (fpUnpack (s.getX j)).exp)

/-- 0112 (R237): the bits of the packed word, when the exponent operand is a sign-extended 14-bit value; otherwise the instruction
completes with any value (U8, log 21). Packing what 0110 and 0111 unpacked gives the word back if its flag is clear. -/
def Obligations.PackResults : Prop :=
  (∀ (j k : Reg) (s : State), ∃ v t, exec (.pack j k) s = .next t ∧ Delivered k v 1 s t ∧
    ((∀ b, 14 ≤ b → b < 64 → (s.getX j).getLsbD b = (s.getX j).getLsbD 13) →
      (∀ b, b < 48 → v.getLsbD b = (s.getX k).getLsbD b) ∧
      (∀ b, b < 13 → v.getLsbD (48 + b) = ((s.getX j).getLsbD b ^^ (s.getX k).getLsbD 63)) ∧
      v.getLsbD 61 = !((s.getX j).getLsbD 13 ^^ (s.getX k).getLsbD 63) ∧
      v.getLsbD 62 = (s.getX k).getLsbD 63 ∧ v.getLsbD 63 = (s.getX k).getLsbD 63)) ∧
  ∀ w free : Word, oor w = false → packWord (unpackExponent w) (unpackCoefficient w) free = w

/-- 0031 (R177, R214): operands of 48 bits plus sign give the low 64 bits of the product, complemented if the signs differ, either
zero if that product is zero (U7, log 20); as integers it is the product while its magnitude is below 2^63. Wider operands
complete with any value (U4, log 20). -/
def Obligations.IntegerProductResult : Prop :=
  ∀ (j k : Reg) (s : State), ∃ v t, exec (.imul j k) s = .next t ∧ Delivered j v 1 s t ∧
    ((val1c (s.getX j)).natAbs < 2 ^ 48 → (val1c (s.getX k)).natAbs < 2 ^ 48 →
      (let m := (val1c (s.getX j)).natAbs * (val1c (s.getX k)).natAbs
       ((s.getX j).msb = (s.getX k).msb → v = BitVec.ofNat 64 m) ∧
       ((s.getX j).msb ≠ (s.getX k).msb → m ≠ 0 → v = ~~~(BitVec.ofNat 64 m)) ∧
       ((s.getX j).msb ≠ (s.getX k).msb → m = 0 → v = 0 ∨ v = BitVec.allOnes 64) ∧
       (m < 2 ^ 63 → val1c v = val1c (s.getX j) * val1c (s.getX k))))

/-- 0020, 0021, 0022, 0030, 20XX, 21XX, 22XX with OVF clear (R209 to R211, R213, R334 to R336): each delivers the result of its
function, for some value of what the spec leaves open in it (log 12), and does nothing else. The functions of sum and product are the spec's
reference reading, in which a product with a zero coefficient can overflow: the model's choice (log 11). -/
def Obligations.FloatingResults : Prop :=
  ∀ (i j k : Reg) (s : State), s.xpw.ovf = false →
    (∃ free t, exec (.fdpadd j k) s = .next t ∧ Delivered j (fpAddLower (s.getX j) (s.getX k) free) 1 s t) ∧
    (∃ free t, exec (.fdpsub j k) s = .next t ∧ Delivered j (fpAddLower (s.getX j) (~~~s.getX k) free) 1 s t) ∧
    (∃ free t, exec (.fdiv j k) s = .next t ∧ Delivered j (fpQuotient (s.getX j) (s.getX k) free) 1 s t) ∧
    (∃ free t, exec (.fdpmul j k) s = .next t ∧ Delivered j (fpMulLower (s.getX j) (s.getX k) free) 1 s t) ∧
    (∃ free t, exec (.fadd i j k) s = .next t ∧ Delivered i (fpAddUpper (s.getX j) (s.getX k) free) 1 s t) ∧
    (∃ free t, exec (.fsub i j k) s = .next t ∧ Delivered i (fpAddUpper (s.getX j) (~~~s.getX k) free) 1 s t) ∧
    (∃ free t, exec (.fmul i j k) s = .next t ∧ Delivered i (fpMulUpper (s.getX j) (s.getX k) free) 1 s t)

/-- The same seven with OVF set (R407, D8): a result in range is delivered; any other is written to its register and then raises
Condition(52), whose stored P is P + 1, the default of `FIELD_LIMIT_SAVED_P` (log 9). -/
def Obligations.FloatingTraps : Prop :=
  ∀ (i j k : Reg) (s : State), s.xpw.ovf = true →
    (let does := fun (n : Instr) (d : Reg) (r : Word → Word) => ∃ free t, exec n s = .next t ∧
        (inRange (r free) = true → Delivered d (r free) 1 s t) ∧
        (inRange (r free) = false → Exchanges 0x01#8 (s.p + 1) (s.setX d (r free)) t)
     does (.fdpadd j k) j (fpAddLower (s.getX j) (s.getX k)) ∧
     does (.fdpsub j k) j (fpAddLower (s.getX j) (~~~s.getX k)) ∧
     does (.fdiv j k) j (fpQuotient (s.getX j) (s.getX k)) ∧
     does (.fdpmul j k) j (fpMulLower (s.getX j) (s.getX k)) ∧
     does (.fadd i j k) i (fpAddUpper (s.getX j) (s.getX k)) ∧
     does (.fsub i j k) i (fpAddUpper (s.getX j) (~~~s.getX k)) ∧
     does (.fmul i j k) i (fpMulUpper (s.getX j) (s.getX k)))

/-! ### Memory references -/

/-- 0200, 0201, 32XX, 33XX (R261, R262, R340, R341, R79, R80): inside the field, and where a word exists, a reference is issued that writes
(X) at the relocated address, and nothing else changes (`Issued`); with turns of the schedule to come, it waits until it reaches memory
(R90 to R92, log 30). The address (Xk) of 0201 is not minus zero here (see `MinusZeroAddress`). -/
def Obligations.DataStores : Prop :=
  ∀ (i j k : Reg) (K : Addr) (s : State),
    (let ok := fun (a : Addr) => a.toNat < 256 * s.xpw.fl.toNat ∧ (256 * s.xpw.ra.toNat + a.toNat) % 2 ^ 20 < 262144
     let writes := fun (n : Instr) (len : Nat) (a : Addr) (r : Reg) => ∃ t, exec n s = .next t ∧
        Issued ⟨(256 * s.xpw.ra.toNat + a.toNat) % 2 ^ 20, none, some (s.getX r)⟩ len s t
     (ok K → writes (.stk j K) 2 K j) ∧
     (s.getX k ≠ BitVec.allOnes 64 → ok ((s.getX k).setWidth 20) → writes (.stx j k) 1 ((s.getX k).setWidth 20) j) ∧
     (ok ((add1c (s.getX j) (K.signExtend 64)).setWidth 20) →
        writes (.stxk i j K) 2 ((add1c (s.getX j) (K.signExtend 64)).setWidth 20) i) ∧
     (ok ((add1c (s.getX j) (s.getX k)).setWidth 20) →
        writes (.stxx i j k) 1 ((add1c (s.getX j) (s.getX k)).setWidth 20) i))

/-- 0210, 0211, 30XX, 31XX (R265, R266, R338, R339, R79, R80): inside the field, and where a word exists, a reference is issued that brings
the word at the relocated address to the register, and nothing else changes (`Issued`). With the schedule exhausted the register holds the
word, as this processor reads it (R90); with turns to come the register is reserved until the data arrive, and loads of different words
may be satisfied in either order (R54, R91, log 30). -/
def Obligations.DataLoads : Prop :=
  ∀ (i j k : Reg) (K : Addr) (s : State),
    (let ok := fun (a : Addr) => a.toNat < 256 * s.xpw.fl.toNat ∧ (256 * s.xpw.ra.toNat + a.toNat) % 2 ^ 20 < 262144
     let reads := fun (n : Instr) (len : Nat) (a : Addr) (r : Reg) => ∃ t, exec n s = .next t ∧
        Issued ⟨(256 * s.xpw.ra.toNat + a.toNat) % 2 ^ 20, some r, none⟩ len s t ∧
        (s.script = [] → t.getX r = s.view ((256 * s.xpw.ra.toNat + a.toNat) % 2 ^ 20))
     (ok K → reads (.ldk j K) 2 K j) ∧
     (s.getX k ≠ BitVec.allOnes 64 → ok ((s.getX k).setWidth 20) → reads (.ldx j k) 1 ((s.getX k).setWidth 20) j) ∧
     (ok ((add1c (s.getX j) (K.signExtend 64)).setWidth 20) →
        reads (.ldxk i j K) 2 ((add1c (s.getX j) (K.signExtend 64)).setWidth 20) i) ∧
     (ok ((add1c (s.getX j) (s.getX k)).setWidth 20) →
        reads (.ldxx i j k) 1 ((add1c (s.getX j) (s.getX k)).setWidth 20) i))

/-- 0202, 0203 (R263, R264, R86): inside the field, and where a word exists, one reference is issued that brings the word to the register
and writes what the register held, in one step when it reaches memory (`Issued`, `Performed`); with the schedule exhausted, at once. -/
def Obligations.ReadStores : Prop :=
  ∀ (j k : Reg) (K : Addr) (s : State),
    (let ok := fun (a : Addr) => a.toNat < 256 * s.xpw.fl.toNat ∧ (256 * s.xpw.ra.toNat + a.toNat) % 2 ^ 20 < 262144
     let swaps := fun (n : Instr) (len : Nat) (a : Addr) => ∃ t, exec n s = .next t ∧
        Issued ⟨(256 * s.xpw.ra.toNat + a.toNat) % 2 ^ 20, some j, some (s.getX j)⟩ len s t ∧
        (s.script = [] → t.getX j = s.view ((256 * s.xpw.ra.toNat + a.toNat) % 2 ^ 20))
     (ok K → swaps (.rsk j K) 2 K) ∧
     (s.getX k ≠ BitVec.allOnes 64 → ok ((s.getX k).setWidth 20) → swaps (.rsx j k) 1 ((s.getX k).setWidth 20)))

/-- 0212, 0213, 0220 (R267 to R269, R82): a reference is issued that brings a word to the register, absolute with PRF clear; relocated,
inside the field, with PRF set; nothing else changes (`Issued`). With the schedule exhausted the register holds the word. -/
def Obligations.ProgramReads : Prop :=
  ∀ (j k : Reg) (K : Addr) (s : State),
    (let ok := fun (a : Addr) => if s.xpw.prf
        then a.toNat < 256 * s.xpw.fl.toNat ∧ (256 * s.xpw.ra.toNat + a.toNat) % 2 ^ 20 < 262144
        else a.toNat < 262144
     let abs := fun (a : Addr) => if s.xpw.prf then (256 * s.xpw.ra.toNat + a.toNat) % 2 ^ 20 else a.toNat
     let reads := fun (n : Instr) (len : Nat) (a : Addr) => ∃ t, exec n s = .next t ∧ Issued ⟨abs a, some j, none⟩ len s t ∧
        (s.script = [] → t.getX j = s.view (abs a))
     (ok K → reads (.rpk j K) 2 K) ∧
     (s.getX k ≠ BitVec.allOnes 64 → ok ((s.getX k).setWidth 20) → reads (.rpx j k) 1 ((s.getX k).setWidth 20)) ∧
     (ok (s.pPlusSext K) → reads (.rpp j K) 2 (s.pPlusSext K)))

/-- 0201, 0203, 0211, 0213 with (Xk) minus zero (R262, U5, log 18): the reference is to relative address 0, or to 0xFFFFF, which every
limit excludes, and nothing else can happen. An empty field leaves the limit exit alone. With PRF clear 0213 reads word 0, or stops at
the word 0xFFFFF, which does not exist. The limit exits store P + 1, the default of `FIELD_LIMIT_SAVED_P` (log 9). -/
def Obligations.MinusZeroAddress : Prop :=
  ∀ (j k : Reg) (s : State), s.getX k = BitVec.allOnes 64 →
    (let a := 256 * s.xpw.ra.toNat
     let traps := fun (n : Instr) (f : BitVec 8) => ∃ t, exec n s = .next t ∧ Exchanges f (s.p + 1) s t
     let stops := fun (n : Instr) => exec n s = .fault (.noSuchWord a)
     (0 < s.xpw.fl.toNat → a < 262144 →
       (∃ t, exec (.stx j k) s = .next t ∧ (Issued ⟨a, none, some (s.getX j)⟩ 1 s t ∨ Exchanges 0x08#8 (s.p + 1) s t)) ∧
       (∃ t, exec (.rsx j k) s = .next t ∧ (Issued ⟨a, some j, some (s.getX j)⟩ 1 s t ∨ Exchanges 0x08#8 (s.p + 1) s t)) ∧
       (∃ t, exec (.ldx j k) s = .next t ∧ (Issued ⟨a, some j, none⟩ 1 s t ∨ Exchanges 0x08#8 (s.p + 1) s t)) ∧
       (s.xpw.prf = true → ∃ t, exec (.rpx j k) s = .next t ∧ (Issued ⟨a, some j, none⟩ 1 s t ∨ Exchanges 0x04#8 (s.p + 1) s t))) ∧
     (0 < s.xpw.fl.toNat → 262144 ≤ a →
       (stops (.stx j k) ∨ traps (.stx j k) 0x08#8) ∧ (stops (.rsx j k) ∨ traps (.rsx j k) 0x08#8) ∧
       (stops (.ldx j k) ∨ traps (.ldx j k) 0x08#8) ∧ (s.xpw.prf = true → stops (.rpx j k) ∨ traps (.rpx j k) 0x04#8)) ∧
     (s.xpw.fl.toNat = 0 →
       traps (.stx j k) 0x08#8 ∧ traps (.rsx j k) 0x08#8 ∧ traps (.ldx j k) 0x08#8 ∧
       (s.xpw.prf = true → traps (.rpx j k) 0x04#8)) ∧
     (s.xpw.prf = false →
       exec (.rpx j k) s = .fault (.noSuchWord 0xFFFFF) ∨ ∃ t, exec (.rpx j k) s = .next t ∧ Issued ⟨0, some j, none⟩ 1 s t))

/-- The ten data storage reference instructions (R80, R404): an address at or beyond FL * 256 raises Condition(55), in every mode,
and neither the register nor memory is written. The stored P is P + 1, the default of `FIELD_LIMIT_SAVED_P` (log 9). -/
def Obligations.DataLimitRaises : Prop :=
  ∀ (i j k : Reg) (K : Addr) (s : State),
    (let bad := fun (a : Addr) => 256 * s.xpw.fl.toNat ≤ a.toNat
     let traps := fun (n : Instr) => ∃ t, exec n s = .next t ∧ Exchanges 0x08#8 (s.p + 1) s t
     (bad K → traps (.stk j K) ∧ traps (.rsk j K) ∧ traps (.ldk j K)) ∧
     (s.getX k ≠ BitVec.allOnes 64 → bad ((s.getX k).setWidth 20) →
        traps (.stx j k) ∧ traps (.rsx j k) ∧ traps (.ldx j k)) ∧
     (bad ((add1c (s.getX j) (K.signExtend 64)).setWidth 20) → traps (.ldxk i j K) ∧ traps (.stxk i j K)) ∧
     (bad ((add1c (s.getX j) (s.getX k)).setWidth 20) → traps (.ldxx i j k) ∧ traps (.stxx i j k)))

/-- Program references (R82, R406): with PRF set, an address at or beyond FL * 256 raises Condition(54), for 0212, 0213, 0220 and
for the fetch of the word at P, before any parcel of it is executed. The stored P is P + 1 (log 9). -/
def Obligations.ProgramLimitRaises : Prop :=
  ∀ (j k : Reg) (K : Addr) (s : State), s.xpw.prf = true →
    (let bad := fun (a : Addr) => 256 * s.xpw.fl.toNat ≤ a.toNat
     let traps := fun (n : Instr) => ∃ t, exec n s = .next t ∧ Exchanges 0x04#8 (s.p + 1) s t
     (bad K → traps (.rpk j K)) ∧
     (s.getX k ≠ BitVec.allOnes 64 → bad ((s.getX k).setWidth 20) → traps (.rpx j k)) ∧
     (bad (s.pPlusSext K) → traps (.rpp j K)) ∧
     (bad s.p → s.pp.val = 0 → s.exchanging = none → s.script = [] → s.interruptPending = false →
        ∃ t, step s = .next t ∧ Exchanged 0x04#8 (s.p + 1) s.performAll t) ∧
     (∀ ts, bad s.p → s.pp.val = 0 → s.exchanging = none → s.script = .execute :: ts →
        ∃ t, step s = .next t ∧ Exchanges 0x04#8 (s.p + 1) { s with script := ts } t))

/-- A reference to a word that does not exist stops (R71, R241, D7, log 7): the ten data references, the three program references and
the fetch, relocated by RA with PRF set and absolute with PRF clear, and the start address of 0122 and 0123 in monitor mode. (Xk) of
0201, 0203, 0211 and 0213 is not minus zero here (see `MinusZeroAddress`). -/
def Obligations.MissingWordFaults : Prop :=
  ∀ (i j k : Reg) (K : Addr) (s : State),
    (let abs := fun (a : Addr) => (256 * s.xpw.ra.toNat + a.toNat) % 2 ^ 20
     let out := fun (a : Addr) => a.toNat < 256 * s.xpw.fl.toNat ∧ 262144 ≤ abs a
     let stops := fun (n : Instr) (a : Nat) => exec n s = .fault (.noSuchWord a)
     let fetches := s.pp.val = 0 ∧ s.exchanging = none ∧ ((s.script = [] ∧ s.interruptPending = false) ∨ s.script.head? = some .execute)
     let x : Addr := (s.getX k).setWidth 20
     let xK : Addr := (add1c (s.getX j) (K.signExtend 64)).setWidth 20
     let xx : Addr := (add1c (s.getX j) (s.getX k)).setWidth 20
     (out K → stops (.stk j K) (abs K) ∧ stops (.rsk j K) (abs K) ∧ stops (.ldk j K) (abs K)) ∧
     (s.getX k ≠ BitVec.allOnes 64 → out x → stops (.stx j k) (abs x) ∧ stops (.rsx j k) (abs x) ∧ stops (.ldx j k) (abs x)) ∧
     (out xK → stops (.ldxk i j K) (abs xK) ∧ stops (.stxk i j K) (abs xK)) ∧
     (out xx → stops (.ldxx i j k) (abs xx) ∧ stops (.stxx i j k) (abs xx)) ∧
     (s.xpw.prf = true →
       (out K → stops (.rpk j K) (abs K)) ∧ (s.getX k ≠ BitVec.allOnes 64 → out x → stops (.rpx j k) (abs x)) ∧
       (out (s.pPlusSext K) → stops (.rpp j K) (abs (s.pPlusSext K))) ∧
       (out s.p → fetches → step s = .fault (.noSuchWord (abs s.p)))) ∧
     (s.xpw.prf = false →
       (262144 ≤ K.toNat → stops (.rpk j K) K.toNat) ∧
       (s.getX k ≠ BitVec.allOnes 64 → 262144 ≤ x.toNat → stops (.rpx j k) x.toNat) ∧
       (262144 ≤ (s.pPlusSext K).toNat → stops (.rpp j K) (s.pPlusSext K).toNat) ∧
       (262144 ≤ s.p.toNat → fetches → step s = .fault (.noSuchWord s.p.toNat))) ∧
     (s.xpw.mtf = true → 262144 ≤ x.toNat →
       ((s.io.inp ((s.getX j).setWidth 4)).active = false → stops (.chin j k) x.toNat) ∧
       ((s.io.out ((s.getX j).setWidth 4)).active = false → stops (.chout j k) x.toNat)))

/-! ### Control transfers -/

/-- P + K (R290 c, R29, R270): with K sign-extended, a K in 0 .. 0x7FFFF is added modulo 2^20, and a K in 0x80000 .. 0xFFFFF
subtracts m = 0xFFFFF - K, in ones' complement below zero; with K zero-extended the sum is modulo 2^20. 0221 delivers the former
under 44 zeros. -/
def Obligations.PRelativeAddresses : Prop :=
  ∀ (j : Reg) (K : Addr) (s : State),
    (K.toNat < 2 ^ 19 → (s.pPlusSext K).toNat = (s.p.toNat + K.toNat) % 2 ^ 20) ∧
    (2 ^ 19 ≤ K.toNat → 2 ^ 20 - 1 - K.toNat ≤ s.p.toNat →
      (s.pPlusSext K).toNat = s.p.toNat - (2 ^ 20 - 1 - K.toNat)) ∧
    (2 ^ 19 ≤ K.toNat → s.p.toNat < 2 ^ 20 - 1 - K.toNat →
      (s.pPlusSext K).toNat = 2 ^ 20 - 1 - (2 ^ 20 - 1 - K.toNat - s.p.toNat)) ∧
    s.pPlusZext K = s.p + K ∧
    ∃ t, exec (.tpk j K) s = .next t ∧ Delivered j ((s.pPlusSext K).setWidth 64) 2 s t

/-- 0300, 0330, 0332 (R291, R303, R305): the target. 0302, 0303, 0310 to 0313 (R293 to R298): the jump to P + K if the test holds,
otherwise the next instruction. Nothing else changes. -/
def Obligations.Jumps : Prop :=
  ∀ (j k : Reg) (K : Addr) (s : State),
    (let goes := fun (n : Instr) (a : Addr) => ∃ t, exec n s = .next t ∧ GoesTo a t ∧ SameRegisters s t ∧ OnlyRegisters s t
     goes (.jp K) (s.p + K) ∧ goes (.jk K) K ∧ goes (.ret j k) ((add1c (s.getX j) (k.setWidth 64)).setWidth 20)) ∧
    (let does := fun (n : Instr) (c : Bool) => ∃ t, exec n s = .next t ∧
        (c = true → GoesTo (s.pPlusSext K) t ∧ SameRegisters s t ∧ OnlyRegisters s t) ∧ (c = false → Passed 2 s t)
     let w := s.getX j
     does (.jir j K) (inRange w) ∧ does (.jnr j K) (!inRange w) ∧
     does (.jz j K) (decide (w = 0 ∨ w = BitVec.allOnes 64)) ∧ does (.jnz j K) (decide (w ≠ 0 ∧ w ≠ BitVec.allOnes 64)) ∧
     does (.jpl j K) (!w.getLsbD 63) ∧ does (.jng j K) (w.getLsbD 63))

/-- 23XX (R337): back i words if the difference is negative, which, while the difference is in range, is when (Xj) < (Xk). -/
def Obligations.BackwardBranch : Prop :=
  ∀ (i j k : Reg) (s : State), ∃ t, exec (.brb i j k) s = .next t ∧
    ((sub1c (s.getX j) (s.getX k)).getLsbD 63 = true →
      GoesTo (s.p - i.setWidth 20) t ∧ SameRegisters s t ∧ OnlyRegisters s t) ∧
    ((sub1c (s.getX j) (s.getX k)).getLsbD 63 = false → Passed 1 s t) ∧
    (-(2 ^ 63 - 1) ≤ val1c (s.getX j) - val1c (s.getX k) → val1c (s.getX j) - val1c (s.getX k) ≤ 2 ^ 63 - 1 →
      ((sub1c (s.getX j) (s.getX k)).getLsbD 63 = true ↔ val1c (s.getX j) < val1c (s.getX k)))

/-- 0301, 0320, 0321 (R292, R299, R300, R290 d): the link is P, with PRF in bit 62 (the default of `LINK_PRF_BIT`, log 9) and zeros
elsewhere; the target is read before the link is written. -/
def Obligations.Calls : Prop :=
  ∀ (j k : Reg) (K : Addr) (s : State),
    (let link : Word := s.p.setWidth 64 ||| (if s.xpw.prf then 0x4000000000000000 else 0)
     let calls := fun (n : Instr) (a : Addr) => ∃ t, exec n s = .next t ∧ GoesTo a t ∧ WroteRegister j link s t ∧ OnlyRegisters s t
     calls (.callp j K) (s.p + K) ∧ calls (.callk j K) K ∧
     calls (.callx j k) (if s.getX k = BitVec.allOnes 64 then 0 else (s.getX k).setWidth 20))

/-- 0322, 0323, 0331 (R301, R302, R304, R52): PRF is cleared, or loaded from bit 62 of the link; the stack is emptied. A library
call and the exit from it with k = 1 come back to the word after the call with PRF as it was. -/
def Obligations.LibraryCallsAndExit : Prop :=
  ∀ (j k : Reg) (K : Addr) (s : State),
    (let link : Word := s.p.setWidth 64 ||| (if s.xpw.prf then 0x4000000000000000 else 0)
     let cleared : State := { s with xpw := { s.xpw with prf := false }, iws := [] }
     let calls := fun (n : Instr) (a : Addr) => ∃ t, exec n s = .next t ∧ GoesTo a t ∧ WroteRegister j link s t ∧ OnlyRegisters cleared t
     calls (.lcallk j K) K ∧
     calls (.lcallx j k) (if s.getX k = BitVec.allOnes 64 then 0 else (s.getX k).setWidth 20)) ∧
    (∃ t, exec (.lret j k) s = .next t ∧ GoesTo ((add1c (s.getX j) (k.setWidth 64)).setWidth 20) t ∧ SameRegisters s t ∧
      OnlyRegisters { s with xpw := { s.xpw with prf := (s.getX j).getLsbD 62 }, iws := [] } t) ∧
    (∀ t u, exec (.lcallk j K) s = .next t → exec (.lret j 1) t = .next u → u.p = s.p + 1 ∧ u.xpw = s.xpw)

/-! ### Modes, exchanges, shared state -/

/-- 0000, 0032, 0132, 0133 raise Condition(53) and 0333 raises Condition(59), in every mode (R201, R215, R245, R246, R306, R402,
R403): one exchange, with P + 1 as the resume address (R413 a); it only begins here if the schedule names single references
(`ExchangeInSteps`, log 23). -/
def Obligations.ExitInstructions : Prop :=
  ∀ s : State,
    (∃ t, exec .err00 s = .next t ∧ Exchanges 0x02#8 (s.p + 1) s t) ∧
    (∃ t, exec .err0e s = .next t ∧ Exchanges 0x02#8 (s.p + 1) s t) ∧
    (∃ t, exec .err1e s = .next t ∧ Exchanges 0x02#8 (s.p + 1) s t) ∧
    (∃ t, exec .err1f s = .next t ∧ Exchanges 0x02#8 (s.p + 1) s t) ∧
    (∃ t, exec .xj s = .next t ∧ Exchanges 0x80#8 (s.p + 1) s t)

/-- R230: with MTF clear the monitor-mode instructions are passes, and 0130 enters zeros. -/
def Obligations.MonitorInstructionsPass : Prop :=
  ∀ (j k : Reg) (s : State), s.xpw.mtf = false →
    (∃ t, exec .bsc s = .next t ∧ Passed 1 s t) ∧ (∃ t, exec .esc s = .next t ∧ Passed 1 s t) ∧
    (∃ t, exec (.chin j k) s = .next t ∧ Passed 1 s t) ∧ (∃ t, exec (.chout j k) s = .next t ∧ Passed 1 s t) ∧
    (∃ t, exec (.lxa k) s = .next t ∧ Passed 1 s t) ∧ (∃ t, exec (.rcr j) s = .next t ∧ Delivered j 0 1 s t)

/-- 0120, 0121, 0122, 0123 in monitor mode (R239 to R242): the system call flag is set, is cleared, and nothing else changes; the path of
channel (Xj)[3:0] starts, empty, at the absolute address (Xk)[19:0], the output path with its record flag still to send, and nothing
else changes. A path already transferring is refused (U15, log 26). -/
def Obligations.SystemCallsAndChannelStarts : Prop :=
  ∀ (j k : Reg) (c : Channel) (s : State), s.xpw.mtf = true → c = (s.getX j).setWidth 4 →
    (∃ t, exec .bsc s = .next t ∧ Passed 1 { s with scf := true } t) ∧
    (∃ t, exec .esc s = .next t ∧ Passed 1 { s with scf := false } t) ∧
    (let a : Addr := (s.getX k).setWidth 20
     ((s.io.inp c).active = false → a.toNat < 262144 → ∃ t, exec (.chin j k) s = .next t ∧
        Passed 1 { s with io := s.io.setInp c { s.io.inp c with active := true, addr := a, bits := [] } } t) ∧
     ((s.io.out c).active = false → a.toNat < 262144 → ∃ t, exec (.chout j k) s = .next t ∧
        Passed 1 { s with io := s.io.setOut c { s.io.out c with active := true, addr := a, bits := [], first := true } } t) ∧
     ((s.io.inp c).active = true → exec (.chin j k) s = .refused .channelBusy) ∧
     ((s.io.out c).active = true → exec (.chout j k) s = .refused .channelBusy))

/-- 0130 in monitor mode (R243, R434, R435): the current channel's number; the mechanism is released, the channel waits no more.
With no current request any value is delivered and the mechanism is unchanged (U9, log 22). A processor flagged for the request that
has not yet taken Condition(58) stays flagged: the model's choice between R408 and R434 (log 41). -/
def Obligations.ReadChannelRequest : Prop :=
  ∀ (j : Reg) (s : State), s.xpw.mtf = true →
    (∀ c, s.io.req.current = some c → ∃ t, exec (.rcr j) s = .next t ∧
      Delivered j (c.setWidth 64) 1
        { s with io := { s.io with req := ⟨s.io.req.pending.filter (fun d => d != c), none, false⟩ } } t) ∧
    (s.io.req.current = none → ∃ v t, exec (.rcr j) s = .next t ∧ Delivered j v 1 s t)

/-- 0131 in monitor mode, and 0223 (R244, R272, R123): XA is loaded from bits 12:5 (the default of `XA_LOAD_FORM`, log 9) and
delivered as the address XA * 32 under 44 copies of the upper bit of k; 0131 of what 0223 delivered restores XA. -/
def Obligations.ExchangeAddressInstructions : Prop :=
  ∀ (j k : Reg) (s : State),
    (s.xpw.mtf = true → ∃ t, exec (.lxa k) s = .next t ∧
      Passed 1 { s with xpw := { s.xpw with xa := (s.getX k).extractLsb' 5 8 } } t) ∧
    (∃ v t, exec (.txa j k) s = .next t ∧ Delivered j v 1 s t ∧ v.extractLsb' 5 8 = s.xpw.xa ∧
      (v.setWidth 20).toNat = 32 * s.xpw.xa.toNat ∧ ∀ b, 20 ≤ b → b < 64 → v.getLsbD b = k.getLsbD 3) ∧
    (∀ t u, s.xpw.mtf = true → exec (.txa j k) s = .next t → exec (.lxa j) t = .next u → u.xpw = s.xpw)

/-- 0230, 0231, 0232, 0233 (R273 to R276, R427, R123): with IPF the named bits of the interlock register are set, are cleared;
without it both are passes, whatever MTF is; the register and the clock are read in every mode, under 44 copies of the upper bit
of k. The clock's value is any (log 14). -/
def Obligations.InterlockAndClock : Prop :=
  ∀ (j k : Reg) (s : State),
    (s.xpw.ipf = true →
      (∃ t, exec (.sil k) s = .next t ∧ Passed 1 { s with il := s.il ||| (s.getX k).setWidth 20 } t) ∧
      (∃ t, exec (.cil k) s = .next t ∧ Passed 1 { s with il := s.il &&& ~~~((s.getX k).setWidth 20) } t)) ∧
    (s.xpw.ipf = false →
      (∃ t, exec (.sil k) s = .next t ∧ Passed 1 s t) ∧ (∃ t, exec (.cil k) s = .next t ∧ Passed 1 s t)) ∧
    (∃ v t, exec (.ril j k) s = .next t ∧ Delivered j v 1 s t ∧ v.setWidth 20 = s.il ∧
      ∀ b, 20 ≤ b → b < 64 → v.getLsbD b = k.getLsbD 3) ∧
    (∃ v t, exec (.rtc j k) s = .next t ∧ Delivered j v 1 { s with rtc := v.setWidth 20 } t ∧
      ∀ b, 20 ≤ b → b < 64 → v.getLsbD b = k.getLsbD 3)

/-- R417, R422: two contexts that exchange through one package alternate. If the arriving context carries the same XA, the second
0333 brings back the registers, the modes, RA, XA and FL of the first, at the word after its 0333, and puts the other context's
registers back in the package; memory outside the package is untouched throughout. The first context's registers, and memory, are taken
once the data of every register have arrived (`State.clearRegs`, R93 c). The schedule lets each sequence run as a whole (log 23). -/
def Obligations.ExchangeTwiceResumes : Prop :=
  ∀ s t u : State, Turn.reference ∉ s.script → exec .xj s = .next t → t.xpw.xa = s.xpw.xa → exec .xj t = .next u →
    (∀ d, u.getX d = s.clearRegs.getX d) ∧ u.p = s.p + 1 ∧ u.pp.val = 0 ∧
    SameModes s u ∧ u.xpw.prf = s.xpw.prf ∧ u.xpw.xa = s.xpw.xa ∧ (s.xpw.cond = 0 → u.xpw.cond = 0x80#8) ∧
    (∀ d : Reg, u.mem.read (32 * s.xpw.xa.toNat + d.toNat) = s.view (32 * s.xpw.xa.toNat + d.toNat)) ∧
    (∀ a, ¬ InPackage s a → u.mem.read a = s.clearRegs.mem.read a ∧ u.view a = s.view a) ∧ SameSystem s u

/-- R412, R414, R441 a: an exchange sequence is seventeen references, each of which the schedule can name as a step of its own: the XPW
first, then X33 down to X00, each swapped with its word of the package in one step, and between two of them any other agent may move.
Seventeen in a row are the whole exchange; without a turn of another agent the rest runs to its end, and no asynchronous condition is
taken before (R418 d). -/
def Obligations.ExchangeInSteps : Prop :=
  (∀ (s : State) (e : ExchangeSequence) (ts : List Turn), s.exchanging = some e → s.script = .reference :: ts →
    ∃ t, step s = .next t ∧ SameStack s t ∧ t.script = ts ∧ t.io = s.io ∧ t.il = s.il ∧ t.scf = s.scf ∧
      (e.next = .xpw → SwappedAt (32 * e.package.toNat + 16) e.out s t ∧ ArrivesAs (s.view (32 * e.package.toNat + 16)) t ∧
        SameRegisters s t ∧ t.exchanging = some { e with next := .x 15 } ∧ t.exits = s.exits) ∧
      ∀ d, e.next = .x d → SwappedAt (32 * e.package.toNat + d.toNat) (s.getX d) s t ∧
        t.getX d = s.view (32 * e.package.toNat + d.toNat) ∧ (∀ r, r ≠ d → t.getX r = s.getX r) ∧
        t.xpw = s.xpw ∧ t.p = s.p ∧ t.pp = s.pp ∧
        (d.toNat ≠ 0 → t.exchanging = some { e with next := .x (d - 1) } ∧ t.exits = s.exits) ∧
        (d.toNat = 0 → t.exchanging = none ∧ t.exits = e.out :: s.exits)) ∧
  (∀ (s t : State) (raised : BitVec 8) (resume : Addr) (ts : List Turn), Begun raised resume s t →
    (t.script = List.replicate 17 .reference ++ ts → ∃ u, Steps 17 t u ∧ Exchanged raised resume { s with script := ts } u) ∧
    (t.script = .execute :: ts → ∃ u, step t = .next u ∧ Exchanged raised resume { s with script := ts } u) ∧
    (t.script = [] → ∃ u, step t = .next u ∧ Exchanged raised resume s.performAll u) ∧
    (∀ io time sys, t.script = .interrupt io time sys :: ts → step t = .next { t with script := ts }))

/-- R443 a, D43 (the spec's default of `END_OF_RUN`, log 42): a step completes at most one exchange sequence; the XPW that the sequence
stored says how the run of the context it stored ended, when that context had arrived with its condition flags clear: normally for
Condition(59), in a fault for Conditions(55) to (52), and interrupted, not ended, for Conditions(58) to (56). -/
def Obligations.RunEnds : Prop :=
  (∀ s t : State, step s = .next t → t.exits = s.exits ∨ ∃ w, t.exits = w :: s.exits) ∧
  ∀ (s t : State) (raised : BitVec 8) (resume : Addr), Exchanged raised resume s t → s.xpw.cond = 0 →
    ∃ w, t.exits = w :: s.exits ∧ t.mem.read (32 * s.xpw.xa.toNat + 16) = w ∧
      (raised = 0x80#8 → Config.endOfRun w = some .normal) ∧
      (raised &&& 0x0F#8 ≠ 0 → Config.endOfRun w = some .fault) ∧
      (raised &&& 0x8F#8 = 0 → raised ≠ 0 → Config.endOfRun w = some .interrupted)

/-- R425: MTF, IPF, OVF, RA and FL change only when an exchange sequence loads an XPW, that is, they come from the word that stood at
XA * 32 + 16, whose MTF decides the arriving mode. PRF changes besides only by 0322 and 0323, to 0, and by 0331, to bit 62 of (Xj);
XA besides only by 0131, in monitor mode. -/
def Obligations.ModesChangeOnlyByExchange : Prop :=
  (∀ s t : State, step s = .next t → SameModes s t ∨
    (s.exchanging = none ∧ t.xpw = Xpw.unpack (s.view (32 * s.xpw.xa.toNat + 16))) ∨
    ∃ e, s.exchanging = some e ∧ e.next = .xpw ∧ t.xpw = Xpw.unpack (s.view (32 * e.package.toNat + 16))) ∧
  (∀ (i : Instr) (s t : State), exec i s = .next t →
    (t.xpw.prf = s.xpw.prf ∨ t.xpw = Xpw.unpack (s.view (32 * s.xpw.xa.toNat + 16)) ∨
      (t.xpw.prf = false ∧ ((∃ j K, i = .lcallk j K) ∨ ∃ j k, i = .lcallx j k)) ∨
      ∃ j k, i = .lret j k ∧ t.xpw.prf = (s.getX j).getLsbD 62) ∧
    (t.xpw.xa = s.xpw.xa ∨ t.xpw = Xpw.unpack (s.view (32 * s.xpw.xa.toNat + 16)) ∨ (s.xpw.mtf = true ∧ ∃ k, i = .lxa k)))

/-- R58, R424, R427: no instruction run with MTF clear changes the system call flag, a channel or the request mechanism; none run
with IPF clear changes the interlock register; none changes what waits to be delivered. -/
def Obligations.PrivilegedState : Prop :=
  ∀ (i : Instr) (s t : State), exec i s = .next t →
    (s.xpw.mtf = false → t.scf = s.scf ∧ t.io = s.io) ∧ (s.xpw.ipf = false → t.il = s.il) ∧
    t.ioFlag = s.ioFlag ∧ t.timeFlag = s.timeFlag ∧ t.script = s.script

/-- R424, R80, R412: an instruction changes no word outside the field of its own RA and FL, but for the seventeen words of the
package at XA * 32, and those only by an exchange: neither in what the processor reads, nor in memory, where else only references that
were waiting before it may arrive (R92, log 30). -/
def Obligations.WritesStayInField : Prop :=
  ∀ (i : Instr) (s t : State) (a : Nat), exec i s = .next t →
    (let own := (InField s a ∧ a < 262144) ∨ (InPackage s a ∧ t.xpw = Xpw.unpack (s.view (32 * s.xpw.xa.toNat + 16)))
     (t.view a ≠ s.view a → own) ∧ (t.mem.read a ≠ s.mem.read a → own ∨ ∃ r ∈ s.sws, r.addr = a))

/-- R408 to R410, R413 c, R418, R420, R433: at a word boundary, with MTF clear and no exchange sequence in progress, the conditions that
are present and named by the turn are taken together in one exchange with the resume address P, all of them when the schedule is
exhausted (log 25); those taken no longer wait, the others still do, SCF stays, and the equipment is sent the channel resume that says
that a processor has been interrupted (log 28). In monitor mode, inside a word and during an exchange sequence none is taken. -/
def Obligations.AsynchronousConditions : Prop :=
  ∀ (s : State) (io time sys : Bool) (ts : List Turn),
    (let taken := fun (io : Bool) => if io then match s.ioFlag with
        | some c => { s.io with wire := .acknowledge c :: s.io.wire }
        | none => s.io else s.io
     let flags := fun (io time sys : Bool) =>
        (if io && s.ioFlag.isSome then 0x40#8 else 0) ||| (if time && s.timeFlag then 0x20#8 else 0) |||
          (if sys && s.scf then 0x10#8 else 0)
     let present := fun (io time sys : Bool) => io && s.ioFlag.isSome || time && s.timeFlag || sys && s.scf
     let boundary := s.pp.val = 0 ∧ s.xpw.mtf = false ∧ s.exchanging = none
     (s.script = .interrupt io time sys :: ts →
      (boundary → present io time sys = true → ∃ t, step s = .next t ∧ Exchanges (flags io time sys) s.p
          { s with script := ts, ioFlag := if io then none else s.ioFlag, timeFlag := s.timeFlag && !time, io := taken io } t) ∧
      (¬ boundary ∨ present io time sys = false → step s = .next { s with script := ts })) ∧
     (s.script = [] →
      (boundary → present true true true = true → ∃ t, step s = .next t ∧ Exchanged (flags true true true) s.p
          { s.performAll with ioFlag := none, timeFlag := false, io := taken true } t) ∧
      (¬ boundary ∨ present true true true = false → step s = cpuStep s.performAll)))

/-- R430, R432, R433, R441 b: a word arriving on an active input path is packed from bit 63 down and acknowledged, and memory stays; 64
bits are an assembled word, which waits with the path's address, which advances. The path's own step writes the oldest waiting word and
does nothing else, or stops where memory has no such word; while one waits, an arriving word waits too, and the step is the path's
(R430's order; log 45). A record flag ends the block, what is left, with zeros below, waits to be written, and the channel waits for the
request mechanism. When the words are written is the schedule's choice (20_memory.md R99, log 45). -/
def Obligations.ChannelInput : Prop :=
  ∀ (s : State) (c : Channel) (v : BitVec 12) (ts : List Turn),
    (let q := s.io.inp c
     (s.script = .inWord c v :: ts → q.active = true →
      (q.waiting ≠ [] → step s = step { s with script := .writeInput c :: .inWord c v :: ts }) ∧
      (q.waiting = [] → ∃ r : InPath,
        step s = .next { s with script := ts, io := { s.io.setInp c r with wire := .resume c :: s.io.wire } } ∧
        (let n := match q.width with | .eight => 8 | .twelve => 12
         let stream := q.bits ++ (List.range n).map (fun i => v.getLsbD (n - 1 - i))
         (stream.length < 64 → r = { q with bits := stream }) ∧
         (64 ≤ stream.length → ∃ w : Word, r = { q with bits := stream.drop 64, addr := q.addr + 1, waiting := [(q.addr, w)] } ∧
           ∀ i, i < 64 → w.getLsbD (63 - i) = stream.getD i false)))) ∧
     (s.script = .writeInput c :: ts →
      (q.waiting = [] → step s = .next { s with script := ts }) ∧
      (∀ a w ws, q.waiting = (a, w) :: ws →
        (262144 ≤ a.toNat → step s = .fault (.noSuchWord a.toNat)) ∧
        (a.toNat < 262144 → ∃ t, step s = .next t ∧ t.mem.read a.toNat = w ∧
          (∀ b, b ≠ a.toNat → t.mem.read b = s.mem.read b) ∧ t.sws = s.sws ∧ StackAfterWrite a.toNat s t ∧
          SameRegisters s t ∧ t.xpw = s.xpw ∧ t.p = s.p ∧ t.pp = s.pp ∧ SameSequence s t ∧
          SameSystem { s with script := ts, io := s.io.setInp c { q with waiting := ws } } t))) ∧
     (s.script = .recordFlag .input c :: ts → q.active = true → ∃ (r : InPath) (l : List Channel),
      step s = .next { s with script := ts, io := { s.io.setInp c r with req := { s.io.req with pending := l } } } ∧
      (∀ d, d ∈ l ↔ d = c ∨ d ∈ s.io.req.pending) ∧
      (q.bits = [] → r = { q with active := false }) ∧
      (q.bits ≠ [] → ∃ w : Word,
        r = { q with active := false, bits := [], addr := q.addr + 1, waiting := q.waiting ++ [(q.addr, w)] } ∧
        ∀ i, i < 64 → w.getLsbD (63 - i) = q.bits.getD i false)))

/-- R408, R431 to R434, R436: an active output path sends its words from bit 63 down, the first with the record flag, reading memory
when too few bits are left, and ahead of that when the schedule says so (log 44); a record flag ends the block with a zero parity status
word; a record flag on a half with no block in progress makes the channel wait for the request mechanism, and does nothing else. The
mechanism makes one waiting channel current, and flags one processor, this one only with MTF clear (and, log 29, with no exchange sequence
in progress), and no other until 0130; a processor that is still flagged for an earlier channel is flagged for the new one alone (log 41);
the flagged processor, when it takes Condition(58), has one channel resume sent, whatever the record flag ended and however many record
flags made the request (log 28). -/
def Obligations.ChannelOutputAndRequests : Prop :=
  ∀ (s : State) (c : Channel) (q : Other) (ts : List Turn),
    (s.script = .outWord c :: ts → (s.io.out c).active = true → (s.io.out c).addr.toNat < 262144 →
      ∃ t, step s = .next t ∧ SameMemory s t ∧ (∀ d, t.getX d = s.getX d) ∧ t.xpw = s.xpw ∧ (t.io.out c).first = false ∧
        (let n := match (s.io.out c).width with | .eight => 8 | .twelve => 12
         let short := decide ((s.io.out c).bits.length < n)
         let stream := if short then (s.io.out c).bits ++
           (List.range 64).map (fun i => (s.mem.read (s.io.out c).addr.toNat).getLsbD (63 - i)) else (s.io.out c).bits
         (t.io.out c).bits = stream.drop n ∧
         (t.io.out c).addr = (if short then (s.io.out c).addr + 1 else (s.io.out c).addr) ∧
         ∃ v : BitVec 12, t.io.wire = .word c (s.io.out c).first v :: s.io.wire ∧
           ∀ i, i < n → v.getLsbD (n - 1 - i) = stream.getD i false)) ∧
    (s.script = .readAhead c :: ts →
      ((s.io.out c).active = true → (s.io.out c).addr.toNat < 262144 → step s = .next { s with
        script := ts, io := s.io.setOut c { s.io.out c with
          bits := (s.io.out c).bits ++ (List.range 64).map (fun i => (s.mem.read (s.io.out c).addr.toNat).getLsbD (63 - i))
          addr := (s.io.out c).addr + 1 } }) ∧
      ((s.io.out c).active = false → step s = .next { s with script := ts })) ∧
    (s.script = .recordFlag .output c :: ts → (s.io.out c).active = true →
      ∃ t, step s = .next t ∧ SameMemory s t ∧ (t.io.out c).active = false ∧ c ∈ t.io.req.pending ∧
        t.io.wire = .parity c 0 :: s.io.wire) ∧
    (∀ h : Half, s.script = .recordFlag h c :: ts →
      (match h with | .input => (s.io.inp c).active | .output => (s.io.out c).active) = false →
      ∃ l, step s = .next { s with script := ts, io := { s.io with req := { s.io.req with pending := l } } } ∧
        ∀ d, d ∈ l ↔ d = c ∨ d ∈ s.io.req.pending) ∧
    (s.script = .selectRequest c :: ts → s.io.req.current = none → c ∈ s.io.req.pending →
      step s = .next { s with script := ts, io := { s.io with req := { s.io.req with current := some c } } }) ∧
    (let free := s.io.req.current = some c ∧ s.io.req.held = false
     let busy := s.io.req.current = none ∨ s.io.req.held = true
     let held : IoSection := { s.io with req := { s.io.req with held := true } }
     (s.script = .flagThis :: ts →
       (free → s.xpw.mtf = false → s.exchanging = none → step s = .next { s with script := ts, ioFlag := some c, io := held }) ∧
       (busy ∨ s.xpw.mtf = true ∨ s.exchanging ≠ none → step s = .next { s with script := ts })) ∧
     (s.script = .flagOther q :: ts →
       (free → step s = .next { s with script := ts, io := { held with others := s.io.others.set q.val (some c) q.isLt } }) ∧
       (busy → step s = .next { s with script := ts }))) ∧
    (s.script = .otherTakes q :: ts →
      (s.io.others[q.val]'q.isLt = some c → step s = .next { s with
        script := ts, io := { s.io with others := s.io.others.set q.val none q.isLt, wire := .acknowledge c :: s.io.wire } }) ∧
      (s.io.others[q.val]'q.isLt = none → step s = .next { s with script := ts })) ∧
    (s.script = .otherRcr q :: ts →
      (s.io.req.current = some c → step s = .next { s with
        script := ts, io := { s.io with req := ⟨s.io.req.pending.filter (fun d => d != c), none, false⟩ } }) ∧
      (s.io.req.current = none → step s = .next { s with script := ts }))
end

