-- ==== Sys2Proof/Laws/State.lean ====
section
/-! SUPPORT. One lemma per field per update of State, so that no proof unfolds a record update. -/

namespace Sys2Proof.Machine

variable (s : State)

@[simp] theorem State.setX_x (d : Reg) (v : Word) : (s.setX d v).x = s.x.set d.toNat v d.isLt := rfl
@[simp] theorem State.setX_p (d : Reg) (v : Word) : (s.setX d v).p = s.p := rfl
@[simp] theorem State.setX_pp (d : Reg) (v : Word) : (s.setX d v).pp = s.pp := rfl
@[simp] theorem State.setX_xpw (d : Reg) (v : Word) : (s.setX d v).xpw = s.xpw := rfl
@[simp] theorem State.setX_ciw (d : Reg) (v : Word) : (s.setX d v).ciw = s.ciw := rfl
@[simp] theorem State.setX_iws (d : Reg) (v : Word) : (s.setX d v).iws = s.iws := rfl
@[simp] theorem State.setX_sws (d : Reg) (v : Word) : (s.setX d v).sws = s.sws := rfl
@[simp] theorem State.setX_xres (d : Reg) (v : Word) : (s.setX d v).xres = s.xres &&& ~~~(BitVec.twoPow 16 d.toNat) := rfl
@[simp] theorem State.setX_mem (d : Reg) (v : Word) : (s.setX d v).mem = s.mem := rfl
@[simp] theorem State.setX_il (d : Reg) (v : Word) : (s.setX d v).il = s.il := rfl
@[simp] theorem State.setX_scf (d : Reg) (v : Word) : (s.setX d v).scf = s.scf := rfl
@[simp] theorem State.setX_rtc (d : Reg) (v : Word) : (s.setX d v).rtc = s.rtc := rfl
@[simp] theorem State.setX_io (d : Reg) (v : Word) : (s.setX d v).io = s.io := rfl
@[simp] theorem State.setX_ioFlag (d : Reg) (v : Word) : (s.setX d v).ioFlag = s.ioFlag := rfl
@[simp] theorem State.setX_timeFlag (d : Reg) (v : Word) : (s.setX d v).timeFlag = s.timeFlag := rfl
@[simp] theorem State.setX_exchanging (d : Reg) (v : Word) : (s.setX d v).exchanging = s.exchanging := rfl
@[simp] theorem State.setX_exits (d : Reg) (v : Word) : (s.setX d v).exits = s.exits := rfl
@[simp] theorem State.setX_script (d : Reg) (v : Word) : (s.setX d v).script = s.script := rfl
@[simp] theorem State.setX_draws (d : Reg) (v : Word) : (s.setX d v).draws = s.draws := rfl

@[simp] theorem State.drawn_x : (s.drawn).x = s.x := rfl
@[simp] theorem State.drawn_p : (s.drawn).p = s.p := rfl
@[simp] theorem State.drawn_pp : (s.drawn).pp = s.pp := rfl
@[simp] theorem State.drawn_xpw : (s.drawn).xpw = s.xpw := rfl
@[simp] theorem State.drawn_ciw : (s.drawn).ciw = s.ciw := rfl
@[simp] theorem State.drawn_iws : (s.drawn).iws = s.iws := rfl
@[simp] theorem State.drawn_sws : (s.drawn).sws = s.sws := rfl
@[simp] theorem State.drawn_xres : (s.drawn).xres = s.xres := rfl
@[simp] theorem State.drawn_mem : (s.drawn).mem = s.mem := rfl
@[simp] theorem State.drawn_il : (s.drawn).il = s.il := rfl
@[simp] theorem State.drawn_scf : (s.drawn).scf = s.scf := rfl
@[simp] theorem State.drawn_rtc : (s.drawn).rtc = s.rtc := rfl
@[simp] theorem State.drawn_io : (s.drawn).io = s.io := rfl
@[simp] theorem State.drawn_ioFlag : (s.drawn).ioFlag = s.ioFlag := rfl
@[simp] theorem State.drawn_timeFlag : (s.drawn).timeFlag = s.timeFlag := rfl
@[simp] theorem State.drawn_exchanging : (s.drawn).exchanging = s.exchanging := rfl
@[simp] theorem State.drawn_exits : (s.drawn).exits = s.exits := rfl
@[simp] theorem State.drawn_script : (s.drawn).script = s.script := rfl
@[simp] theorem State.drawn_draws : (s.drawn).draws = s.draws + 1 := rfl

@[simp] theorem State.advance_x (n : Nat) : (s.advance n).x = s.x := by unfold State.advance; split <;> rfl
@[simp] theorem State.advance_xpw (n : Nat) : (s.advance n).xpw = s.xpw := by unfold State.advance; split <;> rfl
@[simp] theorem State.advance_ciw (n : Nat) : (s.advance n).ciw = s.ciw := by unfold State.advance; split <;> rfl
@[simp] theorem State.advance_iws (n : Nat) : (s.advance n).iws = s.iws := by unfold State.advance; split <;> rfl
@[simp] theorem State.advance_sws (n : Nat) : (s.advance n).sws = s.sws := by unfold State.advance; split <;> rfl
@[simp] theorem State.advance_xres (n : Nat) : (s.advance n).xres = s.xres := by unfold State.advance; split <;> rfl
@[simp] theorem State.advance_mem (n : Nat) : (s.advance n).mem = s.mem := by unfold State.advance; split <;> rfl
@[simp] theorem State.advance_il (n : Nat) : (s.advance n).il = s.il := by unfold State.advance; split <;> rfl
@[simp] theorem State.advance_scf (n : Nat) : (s.advance n).scf = s.scf := by unfold State.advance; split <;> rfl
@[simp] theorem State.advance_rtc (n : Nat) : (s.advance n).rtc = s.rtc := by unfold State.advance; split <;> rfl
@[simp] theorem State.advance_io (n : Nat) : (s.advance n).io = s.io := by unfold State.advance; split <;> rfl
@[simp] theorem State.advance_ioFlag (n : Nat) : (s.advance n).ioFlag = s.ioFlag := by unfold State.advance; split <;> rfl
@[simp] theorem State.advance_timeFlag (n : Nat) : (s.advance n).timeFlag = s.timeFlag := by unfold State.advance; split <;> rfl
@[simp] theorem State.advance_exchanging (n : Nat) : (s.advance n).exchanging = s.exchanging := by unfold State.advance; split <;> rfl
@[simp] theorem State.advance_exits (n : Nat) : (s.advance n).exits = s.exits := by unfold State.advance; split <;> rfl
@[simp] theorem State.advance_script (n : Nat) : (s.advance n).script = s.script := by unfold State.advance; split <;> rfl
@[simp] theorem State.advance_draws (n : Nat) : (s.advance n).draws = s.draws := by unfold State.advance; split <;> rfl

@[simp] theorem State.jump_x (a : Addr) : (s.jump a).x = s.x := rfl
@[simp] theorem State.jump_p (a : Addr) : (s.jump a).p = a := rfl
@[simp] theorem State.jump_pp (a : Addr) : (s.jump a).pp = 0 := rfl
@[simp] theorem State.jump_xpw (a : Addr) : (s.jump a).xpw = s.xpw := rfl
@[simp] theorem State.jump_ciw (a : Addr) : (s.jump a).ciw = s.ciw := rfl
@[simp] theorem State.jump_iws (a : Addr) : (s.jump a).iws = s.iws := rfl
@[simp] theorem State.jump_sws (a : Addr) : (s.jump a).sws = s.sws := rfl
@[simp] theorem State.jump_xres (a : Addr) : (s.jump a).xres = s.xres := rfl
@[simp] theorem State.jump_mem (a : Addr) : (s.jump a).mem = s.mem := rfl
@[simp] theorem State.jump_il (a : Addr) : (s.jump a).il = s.il := rfl
@[simp] theorem State.jump_scf (a : Addr) : (s.jump a).scf = s.scf := rfl
@[simp] theorem State.jump_rtc (a : Addr) : (s.jump a).rtc = s.rtc := rfl
@[simp] theorem State.jump_io (a : Addr) : (s.jump a).io = s.io := rfl
@[simp] theorem State.jump_ioFlag (a : Addr) : (s.jump a).ioFlag = s.ioFlag := rfl
@[simp] theorem State.jump_timeFlag (a : Addr) : (s.jump a).timeFlag = s.timeFlag := rfl
@[simp] theorem State.jump_exchanging (a : Addr) : (s.jump a).exchanging = s.exchanging := rfl
@[simp] theorem State.jump_exits (a : Addr) : (s.jump a).exits = s.exits := rfl
@[simp] theorem State.jump_script (a : Addr) : (s.jump a).script = s.script := rfl
@[simp] theorem State.jump_draws (a : Addr) : (s.jump a).draws = s.draws := rfl

@[simp] theorem State.clearIas_x : (s.clearIas).x = s.x := rfl
@[simp] theorem State.clearIas_p : (s.clearIas).p = s.p := rfl
@[simp] theorem State.clearIas_pp : (s.clearIas).pp = s.pp := rfl
@[simp] theorem State.clearIas_xpw : (s.clearIas).xpw = s.xpw := rfl
@[simp] theorem State.clearIas_ciw : (s.clearIas).ciw = s.ciw := rfl
@[simp] theorem State.clearIas_iws : (s.clearIas).iws = [] := rfl
@[simp] theorem State.clearIas_sws : (s.clearIas).sws = s.sws := rfl
@[simp] theorem State.clearIas_xres : (s.clearIas).xres = s.xres := rfl
@[simp] theorem State.clearIas_mem : (s.clearIas).mem = s.mem := rfl
@[simp] theorem State.clearIas_il : (s.clearIas).il = s.il := rfl
@[simp] theorem State.clearIas_scf : (s.clearIas).scf = s.scf := rfl
@[simp] theorem State.clearIas_rtc : (s.clearIas).rtc = s.rtc := rfl
@[simp] theorem State.clearIas_io : (s.clearIas).io = s.io := rfl
@[simp] theorem State.clearIas_ioFlag : (s.clearIas).ioFlag = s.ioFlag := rfl
@[simp] theorem State.clearIas_timeFlag : (s.clearIas).timeFlag = s.timeFlag := rfl
@[simp] theorem State.clearIas_exchanging : (s.clearIas).exchanging = s.exchanging := rfl
@[simp] theorem State.clearIas_exits : (s.clearIas).exits = s.exits := rfl
@[simp] theorem State.clearIas_script : (s.clearIas).script = s.script := rfl
@[simp] theorem State.clearIas_draws : (s.clearIas).draws = s.draws := rfl

@[simp] theorem State.setPrf_x (v : Bool) : (s.setPrf v).x = s.x := rfl
@[simp] theorem State.setPrf_p (v : Bool) : (s.setPrf v).p = s.p := rfl
@[simp] theorem State.setPrf_pp (v : Bool) : (s.setPrf v).pp = s.pp := rfl
@[simp] theorem State.setPrf_xpw (v : Bool) : (s.setPrf v).xpw = { s.xpw with prf := v } := rfl
@[simp] theorem State.setPrf_ciw (v : Bool) : (s.setPrf v).ciw = s.ciw := rfl
@[simp] theorem State.setPrf_iws (v : Bool) : (s.setPrf v).iws = s.iws := rfl
@[simp] theorem State.setPrf_sws (v : Bool) : (s.setPrf v).sws = s.sws := rfl
@[simp] theorem State.setPrf_xres (v : Bool) : (s.setPrf v).xres = s.xres := rfl
@[simp] theorem State.setPrf_mem (v : Bool) : (s.setPrf v).mem = s.mem := rfl
@[simp] theorem State.setPrf_il (v : Bool) : (s.setPrf v).il = s.il := rfl
@[simp] theorem State.setPrf_scf (v : Bool) : (s.setPrf v).scf = s.scf := rfl
@[simp] theorem State.setPrf_rtc (v : Bool) : (s.setPrf v).rtc = s.rtc := rfl
@[simp] theorem State.setPrf_io (v : Bool) : (s.setPrf v).io = s.io := rfl
@[simp] theorem State.setPrf_ioFlag (v : Bool) : (s.setPrf v).ioFlag = s.ioFlag := rfl
@[simp] theorem State.setPrf_timeFlag (v : Bool) : (s.setPrf v).timeFlag = s.timeFlag := rfl
@[simp] theorem State.setPrf_exchanging (v : Bool) : (s.setPrf v).exchanging = s.exchanging := rfl
@[simp] theorem State.setPrf_exits (v : Bool) : (s.setPrf v).exits = s.exits := rfl
@[simp] theorem State.setPrf_script (v : Bool) : (s.setPrf v).script = s.script := rfl
@[simp] theorem State.setPrf_draws (v : Bool) : (s.setPrf v).draws = s.draws := rfl

@[simp] theorem State.setXa_x (v : BitVec 8) : (s.setXa v).x = s.x := rfl
@[simp] theorem State.setXa_p (v : BitVec 8) : (s.setXa v).p = s.p := rfl
@[simp] theorem State.setXa_pp (v : BitVec 8) : (s.setXa v).pp = s.pp := rfl
@[simp] theorem State.setXa_xpw (v : BitVec 8) : (s.setXa v).xpw = { s.xpw with xa := v } := rfl
@[simp] theorem State.setXa_ciw (v : BitVec 8) : (s.setXa v).ciw = s.ciw := rfl
@[simp] theorem State.setXa_iws (v : BitVec 8) : (s.setXa v).iws = s.iws := rfl
@[simp] theorem State.setXa_sws (v : BitVec 8) : (s.setXa v).sws = s.sws := rfl
@[simp] theorem State.setXa_xres (v : BitVec 8) : (s.setXa v).xres = s.xres := rfl
@[simp] theorem State.setXa_mem (v : BitVec 8) : (s.setXa v).mem = s.mem := rfl
@[simp] theorem State.setXa_il (v : BitVec 8) : (s.setXa v).il = s.il := rfl
@[simp] theorem State.setXa_scf (v : BitVec 8) : (s.setXa v).scf = s.scf := rfl
@[simp] theorem State.setXa_rtc (v : BitVec 8) : (s.setXa v).rtc = s.rtc := rfl
@[simp] theorem State.setXa_io (v : BitVec 8) : (s.setXa v).io = s.io := rfl
@[simp] theorem State.setXa_ioFlag (v : BitVec 8) : (s.setXa v).ioFlag = s.ioFlag := rfl
@[simp] theorem State.setXa_timeFlag (v : BitVec 8) : (s.setXa v).timeFlag = s.timeFlag := rfl
@[simp] theorem State.setXa_exchanging (v : BitVec 8) : (s.setXa v).exchanging = s.exchanging := rfl
@[simp] theorem State.setXa_exits (v : BitVec 8) : (s.setXa v).exits = s.exits := rfl
@[simp] theorem State.setXa_script (v : BitVec 8) : (s.setXa v).script = s.script := rfl
@[simp] theorem State.setXa_draws (v : BitVec 8) : (s.setXa v).draws = s.draws := rfl

@[simp] theorem State.setIl_x (v : BitVec 20) : (s.setIl v).x = s.x := rfl
@[simp] theorem State.setIl_p (v : BitVec 20) : (s.setIl v).p = s.p := rfl
@[simp] theorem State.setIl_pp (v : BitVec 20) : (s.setIl v).pp = s.pp := rfl
@[simp] theorem State.setIl_xpw (v : BitVec 20) : (s.setIl v).xpw = s.xpw := rfl
@[simp] theorem State.setIl_ciw (v : BitVec 20) : (s.setIl v).ciw = s.ciw := rfl
@[simp] theorem State.setIl_iws (v : BitVec 20) : (s.setIl v).iws = s.iws := rfl
@[simp] theorem State.setIl_sws (v : BitVec 20) : (s.setIl v).sws = s.sws := rfl
@[simp] theorem State.setIl_xres (v : BitVec 20) : (s.setIl v).xres = s.xres := rfl
@[simp] theorem State.setIl_mem (v : BitVec 20) : (s.setIl v).mem = s.mem := rfl
@[simp] theorem State.setIl_il (v : BitVec 20) : (s.setIl v).il = v := rfl
@[simp] theorem State.setIl_scf (v : BitVec 20) : (s.setIl v).scf = s.scf := rfl
@[simp] theorem State.setIl_rtc (v : BitVec 20) : (s.setIl v).rtc = s.rtc := rfl
@[simp] theorem State.setIl_io (v : BitVec 20) : (s.setIl v).io = s.io := rfl
@[simp] theorem State.setIl_ioFlag (v : BitVec 20) : (s.setIl v).ioFlag = s.ioFlag := rfl
@[simp] theorem State.setIl_timeFlag (v : BitVec 20) : (s.setIl v).timeFlag = s.timeFlag := rfl
@[simp] theorem State.setIl_exchanging (v : BitVec 20) : (s.setIl v).exchanging = s.exchanging := rfl
@[simp] theorem State.setIl_exits (v : BitVec 20) : (s.setIl v).exits = s.exits := rfl
@[simp] theorem State.setIl_script (v : BitVec 20) : (s.setIl v).script = s.script := rfl
@[simp] theorem State.setIl_draws (v : BitVec 20) : (s.setIl v).draws = s.draws := rfl

@[simp] theorem State.setScf_x (v : Bool) : (s.setScf v).x = s.x := rfl
@[simp] theorem State.setScf_p (v : Bool) : (s.setScf v).p = s.p := rfl
@[simp] theorem State.setScf_pp (v : Bool) : (s.setScf v).pp = s.pp := rfl
@[simp] theorem State.setScf_xpw (v : Bool) : (s.setScf v).xpw = s.xpw := rfl
@[simp] theorem State.setScf_ciw (v : Bool) : (s.setScf v).ciw = s.ciw := rfl
@[simp] theorem State.setScf_iws (v : Bool) : (s.setScf v).iws = s.iws := rfl
@[simp] theorem State.setScf_sws (v : Bool) : (s.setScf v).sws = s.sws := rfl
@[simp] theorem State.setScf_xres (v : Bool) : (s.setScf v).xres = s.xres := rfl
@[simp] theorem State.setScf_mem (v : Bool) : (s.setScf v).mem = s.mem := rfl
@[simp] theorem State.setScf_il (v : Bool) : (s.setScf v).il = s.il := rfl
@[simp] theorem State.setScf_scf (v : Bool) : (s.setScf v).scf = v := rfl
@[simp] theorem State.setScf_rtc (v : Bool) : (s.setScf v).rtc = s.rtc := rfl
@[simp] theorem State.setScf_io (v : Bool) : (s.setScf v).io = s.io := rfl
@[simp] theorem State.setScf_ioFlag (v : Bool) : (s.setScf v).ioFlag = s.ioFlag := rfl
@[simp] theorem State.setScf_timeFlag (v : Bool) : (s.setScf v).timeFlag = s.timeFlag := rfl
@[simp] theorem State.setScf_exchanging (v : Bool) : (s.setScf v).exchanging = s.exchanging := rfl
@[simp] theorem State.setScf_exits (v : Bool) : (s.setScf v).exits = s.exits := rfl
@[simp] theorem State.setScf_script (v : Bool) : (s.setScf v).script = s.script := rfl
@[simp] theorem State.setScf_draws (v : Bool) : (s.setScf v).draws = s.draws := rfl

@[simp] theorem State.setIo_x (q : IoSection) : (s.setIo q).x = s.x := rfl
@[simp] theorem State.setIo_p (q : IoSection) : (s.setIo q).p = s.p := rfl
@[simp] theorem State.setIo_pp (q : IoSection) : (s.setIo q).pp = s.pp := rfl
@[simp] theorem State.setIo_xpw (q : IoSection) : (s.setIo q).xpw = s.xpw := rfl
@[simp] theorem State.setIo_ciw (q : IoSection) : (s.setIo q).ciw = s.ciw := rfl
@[simp] theorem State.setIo_iws (q : IoSection) : (s.setIo q).iws = s.iws := rfl
@[simp] theorem State.setIo_sws (q : IoSection) : (s.setIo q).sws = s.sws := rfl
@[simp] theorem State.setIo_xres (q : IoSection) : (s.setIo q).xres = s.xres := rfl
@[simp] theorem State.setIo_mem (q : IoSection) : (s.setIo q).mem = s.mem := rfl
@[simp] theorem State.setIo_il (q : IoSection) : (s.setIo q).il = s.il := rfl
@[simp] theorem State.setIo_scf (q : IoSection) : (s.setIo q).scf = s.scf := rfl
@[simp] theorem State.setIo_rtc (q : IoSection) : (s.setIo q).rtc = s.rtc := rfl
@[simp] theorem State.setIo_io (q : IoSection) : (s.setIo q).io = q := rfl
@[simp] theorem State.setIo_ioFlag (q : IoSection) : (s.setIo q).ioFlag = s.ioFlag := rfl
@[simp] theorem State.setIo_timeFlag (q : IoSection) : (s.setIo q).timeFlag = s.timeFlag := rfl
@[simp] theorem State.setIo_exchanging (q : IoSection) : (s.setIo q).exchanging = s.exchanging := rfl
@[simp] theorem State.setIo_exits (q : IoSection) : (s.setIo q).exits = s.exits := rfl
@[simp] theorem State.setIo_script (q : IoSection) : (s.setIo q).script = s.script := rfl
@[simp] theorem State.setIo_draws (q : IoSection) : (s.setIo q).draws = s.draws := rfl

@[simp] theorem State.readClock_x : (s.readClock).x = s.x := rfl
@[simp] theorem State.readClock_p : (s.readClock).p = s.p := rfl
@[simp] theorem State.readClock_pp : (s.readClock).pp = s.pp := rfl
@[simp] theorem State.readClock_xpw : (s.readClock).xpw = s.xpw := rfl
@[simp] theorem State.readClock_ciw : (s.readClock).ciw = s.ciw := rfl
@[simp] theorem State.readClock_iws : (s.readClock).iws = s.iws := rfl
@[simp] theorem State.readClock_sws : (s.readClock).sws = s.sws := rfl
@[simp] theorem State.readClock_xres : (s.readClock).xres = s.xres := rfl
@[simp] theorem State.readClock_mem : (s.readClock).mem = s.mem := rfl
@[simp] theorem State.readClock_il : (s.readClock).il = s.il := rfl
@[simp] theorem State.readClock_scf : (s.readClock).scf = s.scf := rfl
@[simp] theorem State.readClock_rtc : (s.readClock).rtc = Config.freeClock s.draws := rfl
@[simp] theorem State.readClock_io : (s.readClock).io = s.io := rfl
@[simp] theorem State.readClock_ioFlag : (s.readClock).ioFlag = s.ioFlag := rfl
@[simp] theorem State.readClock_timeFlag : (s.readClock).timeFlag = s.timeFlag := rfl
@[simp] theorem State.readClock_exchanging : (s.readClock).exchanging = s.exchanging := rfl
@[simp] theorem State.readClock_exits : (s.readClock).exits = s.exits := rfl
@[simp] theorem State.readClock_script : (s.readClock).script = s.script := rfl
@[simp] theorem State.readClock_draws : (s.readClock).draws = s.draws + 1 := rfl

@[simp] theorem State.settle_x (a : Nat) : (s.settle a).x = s.x := by unfold State.settle; split <;> rfl
@[simp] theorem State.settle_p (a : Nat) : (s.settle a).p = s.p := by unfold State.settle; split <;> rfl
@[simp] theorem State.settle_pp (a : Nat) : (s.settle a).pp = s.pp := by unfold State.settle; split <;> rfl
@[simp] theorem State.settle_xpw (a : Nat) : (s.settle a).xpw = s.xpw := by unfold State.settle; split <;> rfl
@[simp] theorem State.settle_ciw (a : Nat) : (s.settle a).ciw = s.ciw := by unfold State.settle; split <;> rfl
@[simp] theorem State.settle_sws (a : Nat) : (s.settle a).sws = s.sws := by unfold State.settle; split <;> rfl
@[simp] theorem State.settle_xres (a : Nat) : (s.settle a).xres = s.xres := by unfold State.settle; split <;> rfl
@[simp] theorem State.settle_mem (a : Nat) : (s.settle a).mem = s.mem := by unfold State.settle; split <;> rfl
@[simp] theorem State.settle_il (a : Nat) : (s.settle a).il = s.il := by unfold State.settle; split <;> rfl
@[simp] theorem State.settle_scf (a : Nat) : (s.settle a).scf = s.scf := by unfold State.settle; split <;> rfl
@[simp] theorem State.settle_rtc (a : Nat) : (s.settle a).rtc = s.rtc := by unfold State.settle; split <;> rfl
@[simp] theorem State.settle_io (a : Nat) : (s.settle a).io = s.io := by unfold State.settle; split <;> rfl
@[simp] theorem State.settle_ioFlag (a : Nat) : (s.settle a).ioFlag = s.ioFlag := by unfold State.settle; split <;> rfl
@[simp] theorem State.settle_timeFlag (a : Nat) : (s.settle a).timeFlag = s.timeFlag := by unfold State.settle; split <;> rfl
@[simp] theorem State.settle_exchanging (a : Nat) : (s.settle a).exchanging = s.exchanging := by unfold State.settle; split <;> rfl
@[simp] theorem State.settle_exits (a : Nat) : (s.settle a).exits = s.exits := by unfold State.settle; split <;> rfl
@[simp] theorem State.settle_script (a : Nat) : (s.settle a).script = s.script := by unfold State.settle; split <;> rfl

@[simp] theorem State.poke_x (a : Nat) (v : Word) : (s.poke a v).x = s.x := s.settle_x a
@[simp] theorem State.poke_p (a : Nat) (v : Word) : (s.poke a v).p = s.p := s.settle_p a
@[simp] theorem State.poke_pp (a : Nat) (v : Word) : (s.poke a v).pp = s.pp := s.settle_pp a
@[simp] theorem State.poke_xpw (a : Nat) (v : Word) : (s.poke a v).xpw = s.xpw := s.settle_xpw a
@[simp] theorem State.poke_ciw (a : Nat) (v : Word) : (s.poke a v).ciw = s.ciw := s.settle_ciw a
@[simp] theorem State.poke_iws (a : Nat) (v : Word) : (s.poke a v).iws = (s.settle a).iws := rfl
@[simp] theorem State.poke_sws (a : Nat) (v : Word) : (s.poke a v).sws = s.sws := s.settle_sws a
@[simp] theorem State.poke_xres (a : Nat) (v : Word) : (s.poke a v).xres = s.xres := s.settle_xres a
@[simp] theorem State.poke_mem (a : Nat) (v : Word) : (s.poke a v).mem = s.mem.write a v := rfl
@[simp] theorem State.poke_il (a : Nat) (v : Word) : (s.poke a v).il = s.il := s.settle_il a
@[simp] theorem State.poke_scf (a : Nat) (v : Word) : (s.poke a v).scf = s.scf := s.settle_scf a
@[simp] theorem State.poke_rtc (a : Nat) (v : Word) : (s.poke a v).rtc = s.rtc := s.settle_rtc a
@[simp] theorem State.poke_io (a : Nat) (v : Word) : (s.poke a v).io = s.io := s.settle_io a
@[simp] theorem State.poke_ioFlag (a : Nat) (v : Word) : (s.poke a v).ioFlag = s.ioFlag := s.settle_ioFlag a
@[simp] theorem State.poke_timeFlag (a : Nat) (v : Word) : (s.poke a v).timeFlag = s.timeFlag := s.settle_timeFlag a
@[simp] theorem State.poke_exchanging (a : Nat) (v : Word) : (s.poke a v).exchanging = s.exchanging := s.settle_exchanging a
@[simp] theorem State.poke_exits (a : Nat) (v : Word) : (s.poke a v).exits = s.exits := s.settle_exits a
@[simp] theorem State.poke_script (a : Nat) (v : Word) : (s.poke a v).script = s.script := s.settle_script a
@[simp] theorem State.poke_draws (a : Nat) (v : Word) : (s.poke a v).draws = (s.settle a).draws := rfl

@[simp] theorem State.performRef_p (r : Ref) : (s.performRef r).p = s.p := by unfold State.performRef; cases r.dest <;> rfl
@[simp] theorem State.performRef_pp (r : Ref) : (s.performRef r).pp = s.pp := by unfold State.performRef; cases r.dest <;> rfl
@[simp] theorem State.performRef_xpw (r : Ref) : (s.performRef r).xpw = s.xpw := by unfold State.performRef; cases r.dest <;> rfl
@[simp] theorem State.performRef_ciw (r : Ref) : (s.performRef r).ciw = s.ciw := by unfold State.performRef; cases r.dest <;> rfl
@[simp] theorem State.performRef_iws (r : Ref) : (s.performRef r).iws = s.iws := by unfold State.performRef; cases r.dest <;> rfl
@[simp] theorem State.performRef_sws (r : Ref) : (s.performRef r).sws = s.sws := by unfold State.performRef; cases r.dest <;> rfl
@[simp] theorem State.performRef_mem (r : Ref) : (s.performRef r).mem = s.mem.put r := rfl
@[simp] theorem State.performRef_il (r : Ref) : (s.performRef r).il = s.il := by unfold State.performRef; cases r.dest <;> rfl
@[simp] theorem State.performRef_scf (r : Ref) : (s.performRef r).scf = s.scf := by unfold State.performRef; cases r.dest <;> rfl
@[simp] theorem State.performRef_rtc (r : Ref) : (s.performRef r).rtc = s.rtc := by unfold State.performRef; cases r.dest <;> rfl
@[simp] theorem State.performRef_io (r : Ref) : (s.performRef r).io = s.io := by unfold State.performRef; cases r.dest <;> rfl
@[simp] theorem State.performRef_ioFlag (r : Ref) : (s.performRef r).ioFlag = s.ioFlag := by unfold State.performRef; cases r.dest <;> rfl
@[simp] theorem State.performRef_timeFlag (r : Ref) : (s.performRef r).timeFlag = s.timeFlag := by unfold State.performRef; cases r.dest <;> rfl
@[simp] theorem State.performRef_exchanging (r : Ref) : (s.performRef r).exchanging = s.exchanging := by unfold State.performRef; cases r.dest <;> rfl
@[simp] theorem State.performRef_exits (r : Ref) : (s.performRef r).exits = s.exits := by unfold State.performRef; cases r.dest <;> rfl
@[simp] theorem State.performRef_script (r : Ref) : (s.performRef r).script = s.script := by unfold State.performRef; cases r.dest <;> rfl
@[simp] theorem State.performRef_draws (r : Ref) : (s.performRef r).draws = s.draws := by unfold State.performRef; cases r.dest <;> rfl

@[simp] theorem State.performList_p (w : List Ref) : (s.performList w).p = s.p := by
  induction w with
  | nil => rfl
  | cons r w ih => simp [State.performList, ih]
@[simp] theorem State.performList_pp (w : List Ref) : (s.performList w).pp = s.pp := by
  induction w with
  | nil => rfl
  | cons r w ih => simp [State.performList, ih]
@[simp] theorem State.performList_xpw (w : List Ref) : (s.performList w).xpw = s.xpw := by
  induction w with
  | nil => rfl
  | cons r w ih => simp [State.performList, ih]
@[simp] theorem State.performList_ciw (w : List Ref) : (s.performList w).ciw = s.ciw := by
  induction w with
  | nil => rfl
  | cons r w ih => simp [State.performList, ih]
@[simp] theorem State.performList_iws (w : List Ref) : (s.performList w).iws = s.iws := by
  induction w with
  | nil => rfl
  | cons r w ih => simp [State.performList, ih]
@[simp] theorem State.performList_sws (w : List Ref) : (s.performList w).sws = s.sws := by
  induction w with
  | nil => rfl
  | cons r w ih => simp [State.performList, ih]
@[simp] theorem State.performList_mem (w : List Ref) : (s.performList w).mem = s.mem.perform w := by
  induction w with
  | nil => rfl
  | cons r w ih => simp [State.performList, Memory.perform, ih]
@[simp] theorem State.performList_il (w : List Ref) : (s.performList w).il = s.il := by
  induction w with
  | nil => rfl
  | cons r w ih => simp [State.performList, ih]
@[simp] theorem State.performList_scf (w : List Ref) : (s.performList w).scf = s.scf := by
  induction w with
  | nil => rfl
  | cons r w ih => simp [State.performList, ih]
@[simp] theorem State.performList_rtc (w : List Ref) : (s.performList w).rtc = s.rtc := by
  induction w with
  | nil => rfl
  | cons r w ih => simp [State.performList, ih]
@[simp] theorem State.performList_io (w : List Ref) : (s.performList w).io = s.io := by
  induction w with
  | nil => rfl
  | cons r w ih => simp [State.performList, ih]
@[simp] theorem State.performList_ioFlag (w : List Ref) : (s.performList w).ioFlag = s.ioFlag := by
  induction w with
  | nil => rfl
  | cons r w ih => simp [State.performList, ih]
@[simp] theorem State.performList_timeFlag (w : List Ref) : (s.performList w).timeFlag = s.timeFlag := by
  induction w with
  | nil => rfl
  | cons r w ih => simp [State.performList, ih]
@[simp] theorem State.performList_exchanging (w : List Ref) : (s.performList w).exchanging = s.exchanging := by
  induction w with
  | nil => rfl
  | cons r w ih => simp [State.performList, ih]
@[simp] theorem State.performList_exits (w : List Ref) : (s.performList w).exits = s.exits := by
  induction w with
  | nil => rfl
  | cons r w ih => simp [State.performList, ih]
@[simp] theorem State.performList_script (w : List Ref) : (s.performList w).script = s.script := by
  induction w with
  | nil => rfl
  | cons r w ih => simp [State.performList, ih]
@[simp] theorem State.performList_draws (w : List Ref) : (s.performList w).draws = s.draws := by
  induction w with
  | nil => rfl
  | cons r w ih => simp [State.performList, ih]

@[simp] theorem State.performAll_p : (s.performAll).p = s.p := by simp [State.performAll]
@[simp] theorem State.performAll_pp : (s.performAll).pp = s.pp := by simp [State.performAll]
@[simp] theorem State.performAll_xpw : (s.performAll).xpw = s.xpw := by simp [State.performAll]
@[simp] theorem State.performAll_ciw : (s.performAll).ciw = s.ciw := by simp [State.performAll]
@[simp] theorem State.performAll_iws : (s.performAll).iws = s.iws := by simp [State.performAll]
@[simp] theorem State.performAll_sws : (s.performAll).sws = [] := by simp [State.performAll]
@[simp] theorem State.performAll_mem : (s.performAll).mem = s.mem.perform s.sws := by simp [State.performAll]
@[simp] theorem State.performAll_il : (s.performAll).il = s.il := by simp [State.performAll]
@[simp] theorem State.performAll_scf : (s.performAll).scf = s.scf := by simp [State.performAll]
@[simp] theorem State.performAll_rtc : (s.performAll).rtc = s.rtc := by simp [State.performAll]
@[simp] theorem State.performAll_io : (s.performAll).io = s.io := by simp [State.performAll]
@[simp] theorem State.performAll_ioFlag : (s.performAll).ioFlag = s.ioFlag := by simp [State.performAll]
@[simp] theorem State.performAll_timeFlag : (s.performAll).timeFlag = s.timeFlag := by simp [State.performAll]
@[simp] theorem State.performAll_exchanging : (s.performAll).exchanging = s.exchanging := by simp [State.performAll]
@[simp] theorem State.performAll_exits : (s.performAll).exits = s.exits := by simp [State.performAll]
@[simp] theorem State.performAll_script : (s.performAll).script = s.script := by simp [State.performAll]
@[simp] theorem State.performAll_draws : (s.performAll).draws = s.draws := by simp [State.performAll]

@[simp] theorem State.perform_p (a : Nat) : (s.perform a).p = s.p := by unfold State.perform; split <;> simp
@[simp] theorem State.perform_pp (a : Nat) : (s.perform a).pp = s.pp := by unfold State.perform; split <;> simp
@[simp] theorem State.perform_xpw (a : Nat) : (s.perform a).xpw = s.xpw := by unfold State.perform; split <;> simp
@[simp] theorem State.perform_ciw (a : Nat) : (s.perform a).ciw = s.ciw := by unfold State.perform; split <;> simp
@[simp] theorem State.perform_iws (a : Nat) : (s.perform a).iws = s.iws := by unfold State.perform; split <;> simp
@[simp] theorem State.perform_il (a : Nat) : (s.perform a).il = s.il := by unfold State.perform; split <;> simp
@[simp] theorem State.perform_scf (a : Nat) : (s.perform a).scf = s.scf := by unfold State.perform; split <;> simp
@[simp] theorem State.perform_rtc (a : Nat) : (s.perform a).rtc = s.rtc := by unfold State.perform; split <;> simp
@[simp] theorem State.perform_io (a : Nat) : (s.perform a).io = s.io := by unfold State.perform; split <;> simp
@[simp] theorem State.perform_ioFlag (a : Nat) : (s.perform a).ioFlag = s.ioFlag := by unfold State.perform; split <;> simp
@[simp] theorem State.perform_timeFlag (a : Nat) : (s.perform a).timeFlag = s.timeFlag := by unfold State.perform; split <;> simp
@[simp] theorem State.perform_exchanging (a : Nat) : (s.perform a).exchanging = s.exchanging := by unfold State.perform; split <;> simp
@[simp] theorem State.perform_exits (a : Nat) : (s.perform a).exits = s.exits := by unfold State.perform; split <;> simp
@[simp] theorem State.perform_script (a : Nat) : (s.perform a).script = s.script := by unfold State.perform; split <;> simp
@[simp] theorem State.perform_draws (a : Nat) : (s.perform a).draws = s.draws := by unfold State.perform; split <;> simp

@[simp] theorem State.forward_p (d : Reg) : (s.forward d).p = s.p := by unfold State.forward; split <;> simp
@[simp] theorem State.forward_pp (d : Reg) : (s.forward d).pp = s.pp := by unfold State.forward; split <;> simp
@[simp] theorem State.forward_xpw (d : Reg) : (s.forward d).xpw = s.xpw := by unfold State.forward; split <;> simp
@[simp] theorem State.forward_ciw (d : Reg) : (s.forward d).ciw = s.ciw := by unfold State.forward; split <;> simp
@[simp] theorem State.forward_iws (d : Reg) : (s.forward d).iws = s.iws := by unfold State.forward; split <;> simp
@[simp] theorem State.forward_mem (d : Reg) : (s.forward d).mem = s.mem := by unfold State.forward; split <;> simp
@[simp] theorem State.forward_il (d : Reg) : (s.forward d).il = s.il := by unfold State.forward; split <;> simp
@[simp] theorem State.forward_scf (d : Reg) : (s.forward d).scf = s.scf := by unfold State.forward; split <;> simp
@[simp] theorem State.forward_rtc (d : Reg) : (s.forward d).rtc = s.rtc := by unfold State.forward; split <;> simp
@[simp] theorem State.forward_io (d : Reg) : (s.forward d).io = s.io := by unfold State.forward; split <;> simp
@[simp] theorem State.forward_ioFlag (d : Reg) : (s.forward d).ioFlag = s.ioFlag := by unfold State.forward; split <;> simp
@[simp] theorem State.forward_timeFlag (d : Reg) : (s.forward d).timeFlag = s.timeFlag := by unfold State.forward; split <;> simp
@[simp] theorem State.forward_exchanging (d : Reg) : (s.forward d).exchanging = s.exchanging := by unfold State.forward; split <;> simp
@[simp] theorem State.forward_exits (d : Reg) : (s.forward d).exits = s.exits := by unfold State.forward; split <;> simp
@[simp] theorem State.forward_script (d : Reg) : (s.forward d).script = s.script := by unfold State.forward; split <;> simp
@[simp] theorem State.forward_draws (d : Reg) : (s.forward d).draws = s.draws := by unfold State.forward; split <;> simp

/-- Awaiting a register keeps what every reference that reaches memory keeps. -/
theorem State.awaitReg_induction {P : State → Prop} (h : ∀ u a, P u → P (u.perform a)) (d : Reg) (n : Nat) {s : State} (hs : P s) :
    P (State.awaitReg d n s) := by
  induction n generalizing s with
  | zero => exact hs
  | succ n ih =>
    unfold State.awaitReg
    split
    · exact hs
    · exact ih (h s _ hs)

/-- Awaiting registers keeps what every reference that reaches memory keeps. -/
theorem State.await_induction {P : State → Prop} (h : ∀ u a, P u → P (u.perform a)) (ds : List Reg) {s : State} (hs : P s) :
    P (s.await ds) := by
  unfold State.await
  generalize s.sws.length = n
  induction ds generalizing s with
  | nil => exact hs
  | cons d ds ih => exact ih (State.awaitReg_induction h d _ hs)

@[simp] theorem State.awaitReg_p (d : Reg) (n : Nat) : (State.awaitReg d n s).p = s.p := 
  State.awaitReg_induction (P := fun u => u.p = s.p) (fun _ _ h => by simpa using h) d n rfl
@[simp] theorem State.awaitReg_pp (d : Reg) (n : Nat) : (State.awaitReg d n s).pp = s.pp := 
  State.awaitReg_induction (P := fun u => u.pp = s.pp) (fun _ _ h => by simpa using h) d n rfl
@[simp] theorem State.awaitReg_xpw (d : Reg) (n : Nat) : (State.awaitReg d n s).xpw = s.xpw := 
  State.awaitReg_induction (P := fun u => u.xpw = s.xpw) (fun _ _ h => by simpa using h) d n rfl
@[simp] theorem State.awaitReg_ciw (d : Reg) (n : Nat) : (State.awaitReg d n s).ciw = s.ciw := 
  State.awaitReg_induction (P := fun u => u.ciw = s.ciw) (fun _ _ h => by simpa using h) d n rfl
@[simp] theorem State.awaitReg_iws (d : Reg) (n : Nat) : (State.awaitReg d n s).iws = s.iws := 
  State.awaitReg_induction (P := fun u => u.iws = s.iws) (fun _ _ h => by simpa using h) d n rfl
@[simp] theorem State.awaitReg_il (d : Reg) (n : Nat) : (State.awaitReg d n s).il = s.il := 
  State.awaitReg_induction (P := fun u => u.il = s.il) (fun _ _ h => by simpa using h) d n rfl
@[simp] theorem State.awaitReg_scf (d : Reg) (n : Nat) : (State.awaitReg d n s).scf = s.scf := 
  State.awaitReg_induction (P := fun u => u.scf = s.scf) (fun _ _ h => by simpa using h) d n rfl
@[simp] theorem State.awaitReg_rtc (d : Reg) (n : Nat) : (State.awaitReg d n s).rtc = s.rtc := 
  State.awaitReg_induction (P := fun u => u.rtc = s.rtc) (fun _ _ h => by simpa using h) d n rfl
@[simp] theorem State.awaitReg_io (d : Reg) (n : Nat) : (State.awaitReg d n s).io = s.io := 
  State.awaitReg_induction (P := fun u => u.io = s.io) (fun _ _ h => by simpa using h) d n rfl
@[simp] theorem State.awaitReg_ioFlag (d : Reg) (n : Nat) : (State.awaitReg d n s).ioFlag = s.ioFlag := 
  State.awaitReg_induction (P := fun u => u.ioFlag = s.ioFlag) (fun _ _ h => by simpa using h) d n rfl
@[simp] theorem State.awaitReg_timeFlag (d : Reg) (n : Nat) : (State.awaitReg d n s).timeFlag = s.timeFlag := 
  State.awaitReg_induction (P := fun u => u.timeFlag = s.timeFlag) (fun _ _ h => by simpa using h) d n rfl
@[simp] theorem State.awaitReg_exchanging (d : Reg) (n : Nat) : (State.awaitReg d n s).exchanging = s.exchanging := 
  State.awaitReg_induction (P := fun u => u.exchanging = s.exchanging) (fun _ _ h => by simpa using h) d n rfl
@[simp] theorem State.awaitReg_exits (d : Reg) (n : Nat) : (State.awaitReg d n s).exits = s.exits := 
  State.awaitReg_induction (P := fun u => u.exits = s.exits) (fun _ _ h => by simpa using h) d n rfl
@[simp] theorem State.awaitReg_script (d : Reg) (n : Nat) : (State.awaitReg d n s).script = s.script := 
  State.awaitReg_induction (P := fun u => u.script = s.script) (fun _ _ h => by simpa using h) d n rfl
@[simp] theorem State.awaitReg_draws (d : Reg) (n : Nat) : (State.awaitReg d n s).draws = s.draws := 
  State.awaitReg_induction (P := fun u => u.draws = s.draws) (fun _ _ h => by simpa using h) d n rfl

@[simp] theorem State.await_p (ds : List Reg) : (s.await ds).p = s.p := 
  State.await_induction (P := fun u => u.p = s.p) (fun _ _ h => by simpa using h) _ rfl
@[simp] theorem State.await_pp (ds : List Reg) : (s.await ds).pp = s.pp := 
  State.await_induction (P := fun u => u.pp = s.pp) (fun _ _ h => by simpa using h) _ rfl
@[simp] theorem State.await_xpw (ds : List Reg) : (s.await ds).xpw = s.xpw := 
  State.await_induction (P := fun u => u.xpw = s.xpw) (fun _ _ h => by simpa using h) _ rfl
@[simp] theorem State.await_ciw (ds : List Reg) : (s.await ds).ciw = s.ciw := 
  State.await_induction (P := fun u => u.ciw = s.ciw) (fun _ _ h => by simpa using h) _ rfl
@[simp] theorem State.await_iws (ds : List Reg) : (s.await ds).iws = s.iws := 
  State.await_induction (P := fun u => u.iws = s.iws) (fun _ _ h => by simpa using h) _ rfl
@[simp] theorem State.await_il (ds : List Reg) : (s.await ds).il = s.il := 
  State.await_induction (P := fun u => u.il = s.il) (fun _ _ h => by simpa using h) _ rfl
@[simp] theorem State.await_scf (ds : List Reg) : (s.await ds).scf = s.scf := 
  State.await_induction (P := fun u => u.scf = s.scf) (fun _ _ h => by simpa using h) _ rfl
@[simp] theorem State.await_rtc (ds : List Reg) : (s.await ds).rtc = s.rtc := 
  State.await_induction (P := fun u => u.rtc = s.rtc) (fun _ _ h => by simpa using h) _ rfl
@[simp] theorem State.await_io (ds : List Reg) : (s.await ds).io = s.io := 
  State.await_induction (P := fun u => u.io = s.io) (fun _ _ h => by simpa using h) _ rfl
@[simp] theorem State.await_ioFlag (ds : List Reg) : (s.await ds).ioFlag = s.ioFlag := 
  State.await_induction (P := fun u => u.ioFlag = s.ioFlag) (fun _ _ h => by simpa using h) _ rfl
@[simp] theorem State.await_timeFlag (ds : List Reg) : (s.await ds).timeFlag = s.timeFlag := 
  State.await_induction (P := fun u => u.timeFlag = s.timeFlag) (fun _ _ h => by simpa using h) _ rfl
@[simp] theorem State.await_exchanging (ds : List Reg) : (s.await ds).exchanging = s.exchanging := 
  State.await_induction (P := fun u => u.exchanging = s.exchanging) (fun _ _ h => by simpa using h) _ rfl
@[simp] theorem State.await_exits (ds : List Reg) : (s.await ds).exits = s.exits := 
  State.await_induction (P := fun u => u.exits = s.exits) (fun _ _ h => by simpa using h) _ rfl
@[simp] theorem State.await_script (ds : List Reg) : (s.await ds).script = s.script := 
  State.await_induction (P := fun u => u.script = s.script) (fun _ _ h => by simpa using h) _ rfl
@[simp] theorem State.await_draws (ds : List Reg) : (s.await ds).draws = s.draws := 
  State.await_induction (P := fun u => u.draws = s.draws) (fun _ _ h => by simpa using h) _ rfl

@[simp] theorem State.clearRegs_p : (s.clearRegs).p = s.p := 
  State.await_induction (P := fun u => u.p = s.p) (fun _ _ h => by simpa using h) _ rfl
@[simp] theorem State.clearRegs_pp : (s.clearRegs).pp = s.pp := 
  State.await_induction (P := fun u => u.pp = s.pp) (fun _ _ h => by simpa using h) _ rfl
@[simp] theorem State.clearRegs_xpw : (s.clearRegs).xpw = s.xpw := 
  State.await_induction (P := fun u => u.xpw = s.xpw) (fun _ _ h => by simpa using h) _ rfl
@[simp] theorem State.clearRegs_ciw : (s.clearRegs).ciw = s.ciw := 
  State.await_induction (P := fun u => u.ciw = s.ciw) (fun _ _ h => by simpa using h) _ rfl
@[simp] theorem State.clearRegs_iws : (s.clearRegs).iws = s.iws := 
  State.await_induction (P := fun u => u.iws = s.iws) (fun _ _ h => by simpa using h) _ rfl
@[simp] theorem State.clearRegs_il : (s.clearRegs).il = s.il := 
  State.await_induction (P := fun u => u.il = s.il) (fun _ _ h => by simpa using h) _ rfl
@[simp] theorem State.clearRegs_scf : (s.clearRegs).scf = s.scf := 
  State.await_induction (P := fun u => u.scf = s.scf) (fun _ _ h => by simpa using h) _ rfl
@[simp] theorem State.clearRegs_rtc : (s.clearRegs).rtc = s.rtc := 
  State.await_induction (P := fun u => u.rtc = s.rtc) (fun _ _ h => by simpa using h) _ rfl
@[simp] theorem State.clearRegs_io : (s.clearRegs).io = s.io := 
  State.await_induction (P := fun u => u.io = s.io) (fun _ _ h => by simpa using h) _ rfl
@[simp] theorem State.clearRegs_ioFlag : (s.clearRegs).ioFlag = s.ioFlag := 
  State.await_induction (P := fun u => u.ioFlag = s.ioFlag) (fun _ _ h => by simpa using h) _ rfl
@[simp] theorem State.clearRegs_timeFlag : (s.clearRegs).timeFlag = s.timeFlag := 
  State.await_induction (P := fun u => u.timeFlag = s.timeFlag) (fun _ _ h => by simpa using h) _ rfl
@[simp] theorem State.clearRegs_exchanging : (s.clearRegs).exchanging = s.exchanging := 
  State.await_induction (P := fun u => u.exchanging = s.exchanging) (fun _ _ h => by simpa using h) _ rfl
@[simp] theorem State.clearRegs_exits : (s.clearRegs).exits = s.exits := 
  State.await_induction (P := fun u => u.exits = s.exits) (fun _ _ h => by simpa using h) _ rfl
@[simp] theorem State.clearRegs_script : (s.clearRegs).script = s.script := 
  State.await_induction (P := fun u => u.script = s.script) (fun _ _ h => by simpa using h) _ rfl
@[simp] theorem State.clearRegs_draws : (s.clearRegs).draws = s.draws := 
  State.await_induction (P := fun u => u.draws = s.draws) (fun _ _ h => by simpa using h) _ rfl

@[simp] theorem State.wait_x (r : Ref) : (s.wait r).x = s.x := rfl
@[simp] theorem State.wait_p (r : Ref) : (s.wait r).p = s.p := rfl
@[simp] theorem State.wait_pp (r : Ref) : (s.wait r).pp = s.pp := rfl
@[simp] theorem State.wait_xpw (r : Ref) : (s.wait r).xpw = s.xpw := rfl
@[simp] theorem State.wait_ciw (r : Ref) : (s.wait r).ciw = s.ciw := rfl
@[simp] theorem State.wait_iws (r : Ref) : (s.wait r).iws = s.iws := rfl
@[simp] theorem State.wait_sws (r : Ref) : (s.wait r).sws = r :: s.sws := rfl
@[simp] theorem State.wait_mem (r : Ref) : (s.wait r).mem = s.mem := rfl
@[simp] theorem State.wait_il (r : Ref) : (s.wait r).il = s.il := rfl
@[simp] theorem State.wait_scf (r : Ref) : (s.wait r).scf = s.scf := rfl
@[simp] theorem State.wait_rtc (r : Ref) : (s.wait r).rtc = s.rtc := rfl
@[simp] theorem State.wait_io (r : Ref) : (s.wait r).io = s.io := rfl
@[simp] theorem State.wait_ioFlag (r : Ref) : (s.wait r).ioFlag = s.ioFlag := rfl
@[simp] theorem State.wait_timeFlag (r : Ref) : (s.wait r).timeFlag = s.timeFlag := rfl
@[simp] theorem State.wait_exchanging (r : Ref) : (s.wait r).exchanging = s.exchanging := rfl
@[simp] theorem State.wait_exits (r : Ref) : (s.wait r).exits = s.exits := rfl
@[simp] theorem State.wait_script (r : Ref) : (s.wait r).script = s.script := rfl
@[simp] theorem State.wait_draws (r : Ref) : (s.wait r).draws = s.draws := rfl

@[simp] theorem State.issue_p (r : Ref) : (s.issue r).p = s.p := by unfold State.issue; dsimp only; split <;> split <;> simp
@[simp] theorem State.issue_pp (r : Ref) : (s.issue r).pp = s.pp := by unfold State.issue; dsimp only; split <;> split <;> simp
@[simp] theorem State.issue_xpw (r : Ref) : (s.issue r).xpw = s.xpw := by unfold State.issue; dsimp only; split <;> split <;> simp
@[simp] theorem State.issue_ciw (r : Ref) : (s.issue r).ciw = s.ciw := by unfold State.issue; dsimp only; split <;> split <;> simp
@[simp] theorem State.issue_iws (r : Ref) : (s.issue r).iws = (if r.data.isSome then s.settle r.addr else s).iws := by unfold State.issue; dsimp only; split <;> simp
@[simp] theorem State.issue_il (r : Ref) : (s.issue r).il = s.il := by unfold State.issue; dsimp only; split <;> split <;> simp
@[simp] theorem State.issue_scf (r : Ref) : (s.issue r).scf = s.scf := by unfold State.issue; dsimp only; split <;> split <;> simp
@[simp] theorem State.issue_rtc (r : Ref) : (s.issue r).rtc = s.rtc := by unfold State.issue; dsimp only; split <;> split <;> simp
@[simp] theorem State.issue_io (r : Ref) : (s.issue r).io = s.io := by unfold State.issue; dsimp only; split <;> split <;> simp
@[simp] theorem State.issue_ioFlag (r : Ref) : (s.issue r).ioFlag = s.ioFlag := by unfold State.issue; dsimp only; split <;> split <;> simp
@[simp] theorem State.issue_timeFlag (r : Ref) : (s.issue r).timeFlag = s.timeFlag := by unfold State.issue; dsimp only; split <;> split <;> simp
@[simp] theorem State.issue_exchanging (r : Ref) : (s.issue r).exchanging = s.exchanging := by unfold State.issue; dsimp only; split <;> split <;> simp
@[simp] theorem State.issue_exits (r : Ref) : (s.issue r).exits = s.exits := by unfold State.issue; dsimp only; split <;> split <;> simp
@[simp] theorem State.issue_script (r : Ref) : (s.issue r).script = s.script := by unfold State.issue; dsimp only; split <;> split <;> simp
@[simp] theorem State.issue_draws (r : Ref) : (s.issue r).draws = (if r.data.isSome then s.settle r.addr else s).draws := by unfold State.issue; dsimp only; split <;> simp

@[simp] theorem State.swapWord_x (a : Nat) (v : Word) : (s.swapWord a v).x = s.x := rfl
@[simp] theorem State.swapWord_p (a : Nat) (v : Word) : (s.swapWord a v).p = s.p := rfl
@[simp] theorem State.swapWord_pp (a : Nat) (v : Word) : (s.swapWord a v).pp = s.pp := rfl
@[simp] theorem State.swapWord_xpw (a : Nat) (v : Word) : (s.swapWord a v).xpw = s.xpw := rfl
@[simp] theorem State.swapWord_ciw (a : Nat) (v : Word) : (s.swapWord a v).ciw = s.ciw := rfl
@[simp] theorem State.swapWord_iws (a : Nat) (v : Word) : (s.swapWord a v).iws = s.iws := rfl
@[simp] theorem State.swapWord_sws (a : Nat) (v : Word) : (s.swapWord a v).sws = s.sws.filter (fun r => r.addr != a) := rfl
@[simp] theorem State.swapWord_xres (a : Nat) (v : Word) : (s.swapWord a v).xres = s.xres := rfl
@[simp] theorem State.swapWord_mem (a : Nat) (v : Word) : (s.swapWord a v).mem = s.mem.write a v := rfl
@[simp] theorem State.swapWord_il (a : Nat) (v : Word) : (s.swapWord a v).il = s.il := rfl
@[simp] theorem State.swapWord_scf (a : Nat) (v : Word) : (s.swapWord a v).scf = s.scf := rfl
@[simp] theorem State.swapWord_rtc (a : Nat) (v : Word) : (s.swapWord a v).rtc = s.rtc := rfl
@[simp] theorem State.swapWord_io (a : Nat) (v : Word) : (s.swapWord a v).io = s.io := rfl
@[simp] theorem State.swapWord_ioFlag (a : Nat) (v : Word) : (s.swapWord a v).ioFlag = s.ioFlag := rfl
@[simp] theorem State.swapWord_timeFlag (a : Nat) (v : Word) : (s.swapWord a v).timeFlag = s.timeFlag := rfl
@[simp] theorem State.swapWord_exchanging (a : Nat) (v : Word) : (s.swapWord a v).exchanging = s.exchanging := rfl
@[simp] theorem State.swapWord_exits (a : Nat) (v : Word) : (s.swapWord a v).exits = s.exits := rfl
@[simp] theorem State.swapWord_script (a : Nat) (v : Word) : (s.swapWord a v).script = s.script := rfl
@[simp] theorem State.swapWord_draws (a : Nat) (v : Word) : (s.swapWord a v).draws = s.draws := rfl

@[simp] theorem State.beginExchange_x (f : BitVec 8) (q : Addr) : (s.beginExchange f q).x = s.x := rfl
@[simp] theorem State.beginExchange_p (f : BitVec 8) (q : Addr) : (s.beginExchange f q).p = s.p := rfl
@[simp] theorem State.beginExchange_pp (f : BitVec 8) (q : Addr) : (s.beginExchange f q).pp = s.pp := rfl
@[simp] theorem State.beginExchange_xpw (f : BitVec 8) (q : Addr) : (s.beginExchange f q).xpw = s.xpw := rfl
@[simp] theorem State.beginExchange_ciw (f : BitVec 8) (q : Addr) : (s.beginExchange f q).ciw = 0 := rfl
@[simp] theorem State.beginExchange_iws (f : BitVec 8) (q : Addr) : (s.beginExchange f q).iws = [] := rfl
@[simp] theorem State.beginExchange_sws (f : BitVec 8) (q : Addr) : (s.beginExchange f q).sws = s.sws := rfl
@[simp] theorem State.beginExchange_xres (f : BitVec 8) (q : Addr) : (s.beginExchange f q).xres = 0 := rfl
@[simp] theorem State.beginExchange_mem (f : BitVec 8) (q : Addr) : (s.beginExchange f q).mem = s.mem := rfl
@[simp] theorem State.beginExchange_il (f : BitVec 8) (q : Addr) : (s.beginExchange f q).il = s.il := rfl
@[simp] theorem State.beginExchange_scf (f : BitVec 8) (q : Addr) : (s.beginExchange f q).scf = s.scf := rfl
@[simp] theorem State.beginExchange_rtc (f : BitVec 8) (q : Addr) : (s.beginExchange f q).rtc = s.rtc := rfl
@[simp] theorem State.beginExchange_io (f : BitVec 8) (q : Addr) : (s.beginExchange f q).io = s.io := rfl
@[simp] theorem State.beginExchange_ioFlag (f : BitVec 8) (q : Addr) : (s.beginExchange f q).ioFlag = s.ioFlag := rfl
@[simp] theorem State.beginExchange_timeFlag (f : BitVec 8) (q : Addr) : (s.beginExchange f q).timeFlag = s.timeFlag := rfl
@[simp] theorem State.beginExchange_exchanging (f : BitVec 8) (q : Addr) : (s.beginExchange f q).exchanging = some ⟨s.xpw.xa, s.departingXpw f q, .xpw⟩ := rfl
@[simp] theorem State.beginExchange_exits (f : BitVec 8) (q : Addr) : (s.beginExchange f q).exits = s.exits := rfl
@[simp] theorem State.beginExchange_script (f : BitVec 8) (q : Addr) : (s.beginExchange f q).script = s.script := rfl
@[simp] theorem State.beginExchange_draws (f : BitVec 8) (q : Addr) : (s.beginExchange f q).draws = s.draws + 1 := rfl

@[simp] theorem State.referenceXpw_x (e : ExchangeSequence) : (s.referenceXpw e).x = s.x := rfl
@[simp] theorem State.referenceXpw_p (e : ExchangeSequence) : (s.referenceXpw e).p = Xpw.unpackP (s.view e.addr) := rfl
@[simp] theorem State.referenceXpw_pp (e : ExchangeSequence) : (s.referenceXpw e).pp = 0 := rfl
@[simp] theorem State.referenceXpw_xpw (e : ExchangeSequence) : (s.referenceXpw e).xpw = Xpw.unpack (s.view e.addr) := rfl
@[simp] theorem State.referenceXpw_ciw (e : ExchangeSequence) : (s.referenceXpw e).ciw = s.ciw := rfl
@[simp] theorem State.referenceXpw_iws (e : ExchangeSequence) : (s.referenceXpw e).iws = s.iws := rfl
@[simp] theorem State.referenceXpw_sws (e : ExchangeSequence) : (s.referenceXpw e).sws = s.sws.filter (fun r => r.addr != e.addr) := rfl
@[simp] theorem State.referenceXpw_xres (e : ExchangeSequence) : (s.referenceXpw e).xres = s.xres := rfl
@[simp] theorem State.referenceXpw_mem (e : ExchangeSequence) : (s.referenceXpw e).mem = s.mem.write e.addr e.out := rfl
@[simp] theorem State.referenceXpw_il (e : ExchangeSequence) : (s.referenceXpw e).il = s.il := rfl
@[simp] theorem State.referenceXpw_scf (e : ExchangeSequence) : (s.referenceXpw e).scf = s.scf := rfl
@[simp] theorem State.referenceXpw_rtc (e : ExchangeSequence) : (s.referenceXpw e).rtc = s.rtc := rfl
@[simp] theorem State.referenceXpw_io (e : ExchangeSequence) : (s.referenceXpw e).io = s.io := rfl
@[simp] theorem State.referenceXpw_ioFlag (e : ExchangeSequence) : (s.referenceXpw e).ioFlag = s.ioFlag := rfl
@[simp] theorem State.referenceXpw_timeFlag (e : ExchangeSequence) : (s.referenceXpw e).timeFlag = s.timeFlag := rfl
@[simp] theorem State.referenceXpw_exchanging (e : ExchangeSequence) : (s.referenceXpw e).exchanging = some { e with next := .x 15 } := rfl
@[simp] theorem State.referenceXpw_exits (e : ExchangeSequence) : (s.referenceXpw e).exits = s.exits := rfl
@[simp] theorem State.referenceXpw_script (e : ExchangeSequence) : (s.referenceXpw e).script = s.script := rfl
@[simp] theorem State.referenceXpw_draws (e : ExchangeSequence) : (s.referenceXpw e).draws = s.draws := rfl

@[simp] theorem State.referenceX_x (e : ExchangeSequence) (d : Reg) : (s.referenceX e d).x = s.x.set d.toNat (s.view e.addr) d.isLt := rfl
@[simp] theorem State.referenceX_p (e : ExchangeSequence) (d : Reg) : (s.referenceX e d).p = s.p := rfl
@[simp] theorem State.referenceX_pp (e : ExchangeSequence) (d : Reg) : (s.referenceX e d).pp = s.pp := rfl
@[simp] theorem State.referenceX_xpw (e : ExchangeSequence) (d : Reg) : (s.referenceX e d).xpw = s.xpw := rfl
@[simp] theorem State.referenceX_ciw (e : ExchangeSequence) (d : Reg) : (s.referenceX e d).ciw = s.ciw := rfl
@[simp] theorem State.referenceX_iws (e : ExchangeSequence) (d : Reg) : (s.referenceX e d).iws = s.iws := rfl
@[simp] theorem State.referenceX_sws (e : ExchangeSequence) (d : Reg) : (s.referenceX e d).sws = s.sws.filter (fun r => r.addr != e.addr) := rfl
@[simp] theorem State.referenceX_xres (e : ExchangeSequence) (d : Reg) : (s.referenceX e d).xres = s.xres := rfl
@[simp] theorem State.referenceX_mem (e : ExchangeSequence) (d : Reg) : (s.referenceX e d).mem = s.mem.write e.addr (s.getX d) := rfl
@[simp] theorem State.referenceX_il (e : ExchangeSequence) (d : Reg) : (s.referenceX e d).il = s.il := rfl
@[simp] theorem State.referenceX_scf (e : ExchangeSequence) (d : Reg) : (s.referenceX e d).scf = s.scf := rfl
@[simp] theorem State.referenceX_rtc (e : ExchangeSequence) (d : Reg) : (s.referenceX e d).rtc = s.rtc := rfl
@[simp] theorem State.referenceX_io (e : ExchangeSequence) (d : Reg) : (s.referenceX e d).io = s.io := rfl
@[simp] theorem State.referenceX_ioFlag (e : ExchangeSequence) (d : Reg) : (s.referenceX e d).ioFlag = s.ioFlag := rfl
@[simp] theorem State.referenceX_timeFlag (e : ExchangeSequence) (d : Reg) : (s.referenceX e d).timeFlag = s.timeFlag := rfl
@[simp] theorem State.referenceX_exchanging (e : ExchangeSequence) (d : Reg) : (s.referenceX e d).exchanging = if d = 0 then none else some { e with next := .x (d - 1) } := rfl
@[simp] theorem State.referenceX_exits (e : ExchangeSequence) (d : Reg) : (s.referenceX e d).exits = if d = 0 then e.out :: s.exits else s.exits := rfl
@[simp] theorem State.referenceX_script (e : ExchangeSequence) (d : Reg) : (s.referenceX e d).script = s.script := rfl
@[simp] theorem State.referenceX_draws (e : ExchangeSequence) (d : Reg) : (s.referenceX e d).draws = s.draws := rfl

@[simp] theorem State.enterCiw_x : (s.enterCiw).x = s.x := rfl
@[simp] theorem State.enterCiw_p : (s.enterCiw).p = s.p := rfl
@[simp] theorem State.enterCiw_pp : (s.enterCiw).pp = s.pp := rfl
@[simp] theorem State.enterCiw_xpw : (s.enterCiw).xpw = s.xpw := rfl
@[simp] theorem State.enterCiw_ciw : (s.enterCiw).ciw = s.instructionWord s.p := rfl
@[simp] theorem State.enterCiw_sws : (s.enterCiw).sws = s.sws := rfl
@[simp] theorem State.enterCiw_xres : (s.enterCiw).xres = s.xres := rfl
@[simp] theorem State.enterCiw_mem : (s.enterCiw).mem = s.mem := rfl
@[simp] theorem State.enterCiw_il : (s.enterCiw).il = s.il := rfl
@[simp] theorem State.enterCiw_scf : (s.enterCiw).scf = s.scf := rfl
@[simp] theorem State.enterCiw_rtc : (s.enterCiw).rtc = s.rtc := rfl
@[simp] theorem State.enterCiw_io : (s.enterCiw).io = s.io := rfl
@[simp] theorem State.enterCiw_ioFlag : (s.enterCiw).ioFlag = s.ioFlag := rfl
@[simp] theorem State.enterCiw_timeFlag : (s.enterCiw).timeFlag = s.timeFlag := rfl
@[simp] theorem State.enterCiw_exchanging : (s.enterCiw).exchanging = s.exchanging := rfl
@[simp] theorem State.enterCiw_exits : (s.enterCiw).exits = s.exits := rfl
@[simp] theorem State.enterCiw_script : (s.enterCiw).script = s.script := rfl
@[simp] theorem State.enterCiw_draws : (s.enterCiw).draws = s.draws := rfl

@[simp] theorem State.takeChannelRequest_x : (s.takeChannelRequest).x = s.x := by unfold State.takeChannelRequest; split <;> simp_all
@[simp] theorem State.takeChannelRequest_p : (s.takeChannelRequest).p = s.p := by unfold State.takeChannelRequest; split <;> simp_all
@[simp] theorem State.takeChannelRequest_pp : (s.takeChannelRequest).pp = s.pp := by unfold State.takeChannelRequest; split <;> simp_all
@[simp] theorem State.takeChannelRequest_xpw : (s.takeChannelRequest).xpw = s.xpw := by unfold State.takeChannelRequest; split <;> simp_all
@[simp] theorem State.takeChannelRequest_ciw : (s.takeChannelRequest).ciw = s.ciw := by unfold State.takeChannelRequest; split <;> simp_all
@[simp] theorem State.takeChannelRequest_iws : (s.takeChannelRequest).iws = s.iws := by unfold State.takeChannelRequest; split <;> simp_all
@[simp] theorem State.takeChannelRequest_sws : (s.takeChannelRequest).sws = s.sws := by unfold State.takeChannelRequest; split <;> simp_all
@[simp] theorem State.takeChannelRequest_xres : (s.takeChannelRequest).xres = s.xres := by unfold State.takeChannelRequest; split <;> simp_all
@[simp] theorem State.takeChannelRequest_mem : (s.takeChannelRequest).mem = s.mem := by unfold State.takeChannelRequest; split <;> simp_all
@[simp] theorem State.takeChannelRequest_il : (s.takeChannelRequest).il = s.il := by unfold State.takeChannelRequest; split <;> simp_all
@[simp] theorem State.takeChannelRequest_scf : (s.takeChannelRequest).scf = s.scf := by unfold State.takeChannelRequest; split <;> simp_all
@[simp] theorem State.takeChannelRequest_rtc : (s.takeChannelRequest).rtc = s.rtc := by unfold State.takeChannelRequest; split <;> simp_all
@[simp] theorem State.takeChannelRequest_ioFlag : (s.takeChannelRequest).ioFlag = none := by unfold State.takeChannelRequest; split <;> simp_all
@[simp] theorem State.takeChannelRequest_timeFlag : (s.takeChannelRequest).timeFlag = s.timeFlag := by unfold State.takeChannelRequest; split <;> simp_all
@[simp] theorem State.takeChannelRequest_exchanging : (s.takeChannelRequest).exchanging = s.exchanging := by unfold State.takeChannelRequest; split <;> simp_all
@[simp] theorem State.takeChannelRequest_exits : (s.takeChannelRequest).exits = s.exits := by unfold State.takeChannelRequest; split <;> simp_all
@[simp] theorem State.takeChannelRequest_script : (s.takeChannelRequest).script = s.script := by unfold State.takeChannelRequest; split <;> simp_all
@[simp] theorem State.takeChannelRequest_draws : (s.takeChannelRequest).draws = s.draws := by unfold State.takeChannelRequest; split <;> simp_all

/-- Inside the word P stays. -/
theorem State.advance_of_lt {n : Nat} (h : s.pp.val + n < 4) : (s.advance n).p = s.p ∧ (s.advance n).pp.val = s.pp.val + n := by
  simp [State.advance, h]

/-- After the last parcel P is advanced. -/
theorem State.advance_of_ge {n : Nat} (h : 4 ≤ s.pp.val + n) : (s.advance n).p = s.p + 1 ∧ (s.advance n).pp.val = 0 := by
  simp [State.advance, Nat.not_lt.mpr h]

/-- The sequential successor, as statements speak of it. -/
theorem State.advance_follows (n : Nat) : Follows n s (s.advance n) :=
  ⟨s.advance_of_lt, s.advance_of_ge⟩

/-- The successor of a state that agrees on P and PP. -/
theorem Follows.of_eq {n : Nat} {s u : State} (hp : u.p = s.p) (hq : u.pp = s.pp) : Follows n s (u.advance n) := by
  have h := u.advance_follows n
  unfold Follows at *
  rw [hp, hq] at h
  exact h

/-- A transfer, as statements speak of it. -/
theorem State.jump_goesTo (a : Addr) : GoesTo a (s.jump a) := ⟨rfl, rfl⟩

@[simp] theorem State.drawn_getX (g : Reg) : (s.drawn).getX g = s.getX g := rfl
@[simp] theorem State.advance_getX (n : Nat) (g : Reg) : (s.advance n).getX g = s.getX g := by simp only [State.getX, State.advance_x]
@[simp] theorem State.jump_getX (a : Addr) (g : Reg) : (s.jump a).getX g = s.getX g := rfl
@[simp] theorem State.clearIas_getX (g : Reg) : (s.clearIas).getX g = s.getX g := rfl
@[simp] theorem State.setPrf_getX (v : Bool) (g : Reg) : (s.setPrf v).getX g = s.getX g := rfl
@[simp] theorem State.setXa_getX (v : BitVec 8) (g : Reg) : (s.setXa v).getX g = s.getX g := rfl
@[simp] theorem State.setIl_getX (v : BitVec 20) (g : Reg) : (s.setIl v).getX g = s.getX g := rfl
@[simp] theorem State.setScf_getX (v : Bool) (g : Reg) : (s.setScf v).getX g = s.getX g := rfl
@[simp] theorem State.setIo_getX (q : IoSection) (g : Reg) : (s.setIo q).getX g = s.getX g := rfl
@[simp] theorem State.readClock_getX (g : Reg) : (s.readClock).getX g = s.getX g := rfl
@[simp] theorem State.settle_getX (a : Nat) (g : Reg) : (s.settle a).getX g = s.getX g := by simp only [State.getX, State.settle_x]
@[simp] theorem State.poke_getX (a : Nat) (v : Word) (g : Reg) : (s.poke a v).getX g = s.getX g := by simp only [State.getX, State.poke_x]
@[simp] theorem State.wait_getX (r : Ref) (g : Reg) : (s.wait r).getX g = s.getX g := rfl
@[simp] theorem State.swapWord_getX (a : Nat) (v : Word) (g : Reg) : (s.swapWord a v).getX g = s.getX g := rfl
@[simp] theorem State.beginExchange_getX (f : BitVec 8) (q : Addr) (g : Reg) : (s.beginExchange f q).getX g = s.getX g := rfl
@[simp] theorem State.referenceXpw_getX (e : ExchangeSequence) (g : Reg) : (s.referenceXpw e).getX g = s.getX g := rfl
@[simp] theorem State.enterCiw_getX (g : Reg) : (s.enterCiw).getX g = s.getX g := rfl
@[simp] theorem State.takeChannelRequest_getX (g : Reg) : (s.takeChannelRequest).getX g = s.getX g := by simp only [State.getX, State.takeChannelRequest_x]

@[simp] theorem State.setX_view (d : Reg) (v : Word) (b : Nat) : (s.setX d v).view b = s.view b := rfl
@[simp] theorem State.drawn_view (b : Nat) : (s.drawn).view b = s.view b := rfl
@[simp] theorem State.advance_view (n : Nat) (b : Nat) : (s.advance n).view b = s.view b := by simp only [State.view, State.advance_mem, State.advance_sws]
@[simp] theorem State.jump_view (a : Addr) (b : Nat) : (s.jump a).view b = s.view b := rfl
@[simp] theorem State.clearIas_view (b : Nat) : (s.clearIas).view b = s.view b := rfl
@[simp] theorem State.setPrf_view (v : Bool) (b : Nat) : (s.setPrf v).view b = s.view b := rfl
@[simp] theorem State.setXa_view (v : BitVec 8) (b : Nat) : (s.setXa v).view b = s.view b := rfl
@[simp] theorem State.setIl_view (v : BitVec 20) (b : Nat) : (s.setIl v).view b = s.view b := rfl
@[simp] theorem State.setScf_view (v : Bool) (b : Nat) : (s.setScf v).view b = s.view b := rfl
@[simp] theorem State.setIo_view (q : IoSection) (b : Nat) : (s.setIo q).view b = s.view b := rfl
@[simp] theorem State.readClock_view (b : Nat) : (s.readClock).view b = s.view b := rfl
@[simp] theorem State.settle_view (a : Nat) (b : Nat) : (s.settle a).view b = s.view b := by simp only [State.view, State.settle_mem, State.settle_sws]
@[simp] theorem State.beginExchange_view (f : BitVec 8) (q : Addr) (b : Nat) : (s.beginExchange f q).view b = s.view b := rfl
@[simp] theorem State.enterCiw_view (b : Nat) : (s.enterCiw).view b = s.view b := rfl
@[simp] theorem State.takeChannelRequest_view (b : Nat) : (s.takeChannelRequest).view b = s.view b := by simp only [State.view, State.takeChannelRequest_mem, State.takeChannelRequest_sws]

@[simp] theorem State.setX_getX_self (d : Reg) (v : Word) : (s.setX d v).getX d = v := by
  simp [State.getX]

/-- Writing one register leaves every other. -/
theorem State.setX_getX_ne {d r : Reg} (v : Word) (h : r ≠ d) : (s.setX d v).getX r = s.getX r := by
  have h2 : d.toNat ≠ r.toNat := fun e => h (BitVec.eq_of_toNat_eq e.symm)
  simp [State.getX, h2]

/-- Two states with the same sixteen registers by designator have the same register file. -/
theorem State.x_ext {s t : State} (h : ∀ r, t.getX r = s.getX r) : t.x = s.x := by
  apply Vector.ext
  intro i hi
  simpa [State.getX, Nat.mod_eq_of_lt hi] using h (BitVec.ofNat 4 i)

end Sys2Proof.Machine
end

