-- ==== Sys2Proof/Laws/Memory.lean ====
section
/-! SUPPORT. The laws of memory: a read after a write, and the canonical form every operation keeps (log 6). -/

namespace Sys2Proof.Machine

theorem Memory.read_of_forall_ne {m : Memory} {a : Nat} (h : ∀ c ∈ m, c.1 ≠ a) : Memory.read m a = Memory.unlisted := by
  induction m with
  | nil => rfl
  | cons c m ih =>
    simp only [List.mem_cons, forall_eq_or_imp] at h
    simp [Memory.read, h.1, ih h.2]

theorem Memory.read_erase_self (m : Memory) (a : Nat) : (m.erase a).read a = Memory.unlisted := by
  apply Memory.read_of_forall_ne
  intro c hc
  simpa using (List.mem_filter.mp hc).2

theorem Memory.read_erase_ne (m : Memory) {a b : Nat} (h : b ≠ a) : (m.erase a).read b = m.read b := by
  induction m with
  | nil => rfl
  | cons c m ih =>
    unfold Memory.erase at *
    rw [List.filter_cons]
    by_cases hc : c.1 = a
    · have : c.1 ≠ b := fun e => h (e.symm.trans hc)
      simpa [hc, Memory.read, this, h.symm] using ih
    · simp [hc, Memory.read, ih]

theorem Memory.read_insert_self {m : Memory} {a : Nat} (h : ∀ c ∈ m, c.1 ≠ a) (v : Word) : (m.insert a v).read a = v := by
  induction m with
  | nil => simp [Memory.insert, Memory.read]
  | cons c m ih =>
    simp only [List.mem_cons, forall_eq_or_imp] at h
    unfold Memory.insert
    split
    · simp [Memory.read]
    · simp [Memory.read, h.1, ih h.2]

theorem Memory.read_insert_ne (m : Memory) {a b : Nat} (v : Word) (h : b ≠ a) : (m.insert a v).read b = m.read b := by
  induction m with
  | nil => simp [Memory.insert, Memory.read, h.symm]
  | cons c m ih =>
    unfold Memory.insert
    split
    · simp [Memory.read, h.symm]
    · simp [Memory.read, ih]

/-- A read after a write to the same word gives the value written. -/
@[simp] theorem Memory.read_write_self (m : Memory) (a : Nat) (v : Word) : (m.write a v).read a = v := by
  unfold Memory.write
  split
  · rename_i h; rw [Memory.read_erase_self, h]
  · exact Memory.read_insert_self (fun c hc => by simpa using (List.mem_filter.mp hc).2) v

/-- A write leaves every other word. -/
theorem Memory.read_write_ne (m : Memory) {a b : Nat} (v : Word) (h : b ≠ a) : (m.write a v).read b = m.read b := by
  unfold Memory.write
  split
  · exact m.read_erase_ne h
  · rw [Memory.read_insert_ne _ _ h, m.read_erase_ne h]

/-- What a word reads as after a write. -/
theorem Memory.read_write (m : Memory) (a b : Nat) (v : Word) :
    (m.write a v).read b = if b = a then v else m.read b := by
  split
  · rename_i h; rw [h, Memory.read_write_self]
  · rename_i h; exact m.read_write_ne v h

/-- A reference that only reads leaves memory. -/
theorem Memory.put_of_none {m : Memory} {r : Ref} (h : r.data = none) : m.put r = m := by simp [Memory.put, h]

/-- What a word reads as after a reference has reached memory. -/
theorem Memory.read_put (m : Memory) (r : Ref) (a : Nat) :
    (m.put r).read a = if r.addr = a then r.data.getD (m.read a) else m.read a := by
  unfold Memory.put
  split
  · rename_i v h
    rw [Memory.read_write, h]
    simp [eq_comm]
  · rename_i h
    simp [h]

/-- References that have reached memory leave there what the processor read before. -/
@[simp] theorem Memory.read_perform (m : Memory) (w : List Ref) (a : Nat) : (m.perform w).read a = m.view w a := by
  induction w with
  | nil => rfl
  | cons r w ih => simp only [Memory.perform, Memory.view, Memory.read_put, ih]

/-- A word to which no reference waits reads as memory has it. -/
theorem Memory.view_of_forall_ne {m : Memory} {w : List Ref} {a : Nat} (h : ∀ r ∈ w, r.addr ≠ a) : m.view w a = m.read a := by
  induction w with
  | nil => rfl
  | cons r w ih =>
    simp only [List.mem_cons, forall_eq_or_imp] at h
    simp [Memory.view, h.1, ih h.2]

/-- Leaving waiting references to one word out leaves what is read elsewhere. -/
theorem Memory.view_filter (m : Memory) (w : List Ref) {a b : Nat} (h : b ≠ a) :
    m.view (w.filter (fun r => r.addr != a)) b = m.view w b := by
  induction w with
  | nil => rfl
  | cons r w ih =>
    by_cases hc : r.addr = a
    · simp [hc, Memory.view, h.symm, ih]
    · simp [hc, Memory.view, ih]

/-- A write to memory leaves what is read elsewhere. -/
theorem Memory.view_write_ne (m : Memory) (w : List Ref) {a b : Nat} (v : Word) (h : b ≠ a) :
    (m.write a v).view w b = m.view w b := by
  induction w with
  | nil => exact m.read_write_ne v h
  | cons r w ih => simp [Memory.view, ih]

/-- A reference reaching memory leaves what is read elsewhere. -/
theorem Memory.view_put_ne (m : Memory) (r : Ref) (w : List Ref) {b : Nat} (h : b ≠ r.addr) : (m.put r).view w b = m.view w b := by
  unfold Memory.put
  split
  · exact Memory.view_write_ne m w _ h
  · rfl

/-- The oldest of the waiting references to a word reaching memory changes nothing that is read. -/
theorem Memory.view_put (m : Memory) (new : List Ref) {r : Ref} {old : List Ref} (h : ∀ q ∈ old, q.addr ≠ r.addr) (b : Nat) :
    (m.put r).view (new ++ old) b = m.view (new ++ r :: old) b := by
  induction new with
  | nil =>
    rw [List.nil_append, List.nil_append, Memory.view]
    split
    · rename_i e
      subst e
      rw [Memory.view_of_forall_ne h, Memory.view_of_forall_ne h, Memory.read_put, if_pos rfl]
    · rename_i e
      exact Memory.view_put_ne m r old (Ne.symm e)
  | cons q new ih => simp [Memory.view, ih]

/-- A waiting load changes nothing that is read. -/
theorem Memory.view_of_load (m : Memory) (new : List Ref) {r : Ref} (h : r.data = none) (old : List Ref) (b : Nat) :
    m.view (new ++ r :: old) b = m.view (new ++ old) b := by
  induction new with
  | nil => simp [Memory.view, h]
  | cons q new ih => simp [Memory.view, ih]

/-- There is an oldest reference to a word unless there is none. -/
theorem takeOldest_eq_none {a : Nat} {w : List Ref} : takeOldest a w = none ↔ ∀ r ∈ w, r.addr ≠ a := by
  induction w with
  | nil => simp [takeOldest]
  | cons r w ih =>
    unfold takeOldest
    cases hr : takeOldest a w with
    | some q =>
      have := (not_congr ih).mp (by rw [hr]; simp)
      simp only [List.mem_cons, forall_eq_or_imp, reduceCtorEq, false_iff]
      exact fun h => this h.2
    | none =>
      have := ih.mp hr
      by_cases hc : r.addr = a
      · simp [hc]
      · simpa [hc] using this

/-- Everything that taking the oldest reference to a word out can do. -/
theorem takeOldest_eq_some {a : Nat} {w w' : List Ref} {r : Ref} : takeOldest a w = some (r, w') ↔
    ∃ new old, w = new ++ r :: old ∧ w' = new ++ old ∧ r.addr = a ∧ ∀ q ∈ old, q.addr ≠ a := by
  constructor
  · intro h
    induction w generalizing w' with
    | nil => simp [takeOldest] at h
    | cons c w ih =>
      unfold takeOldest at h
      cases hr : takeOldest a w with
      | some q =>
        rw [hr] at h
        simp only [Option.some.injEq, Prod.mk.injEq] at h
        obtain ⟨h1, rfl⟩ := h
        obtain ⟨new, old, e1, e2, e3, e4⟩ := ih (w' := q.2) (by rw [hr, ← h1])
        exact ⟨c :: new, old, by simp [e1], by simp [e2], e3, e4⟩
      | none =>
        rw [hr] at h
        by_cases hc : c.addr = a
        · simp only [hc, if_true, Option.some.injEq, Prod.mk.injEq] at h
          obtain ⟨rfl, rfl⟩ := h
          exact ⟨[], w, rfl, rfl, hc, takeOldest_eq_none.mp hr⟩
        · simp [hc] at h
  · rintro ⟨new, old, rfl, rfl, h1, h2⟩
    induction new with
    | nil => simp [takeOldest, takeOldest_eq_none.mpr h2, h1]
    | cons c new ih => simp [takeOldest, ih]

/-- The word of the first of the references to a word, if it writes it, is what is read. -/
theorem Memory.view_of_find {m : Memory} {w : List Ref} {a : Nat} {v : Word}
    (h : (w.find? (fun q => q.addr = a)).bind (·.data) = some v) : m.view w a = v := by
  induction w with
  | nil => simp at h
  | cons r w ih =>
    rw [List.find?_cons] at h
    by_cases hc : r.addr = a
    · simp only [hc, decide_true, Option.bind_some] at h
      simp [Memory.view, hc, h]
    · simp only [hc, decide_false] at h
      simp [Memory.view, hc, ih h]

/-- Everything that forwarding can do: the newest load for the register is taken out, and its word is what is read before it. -/
theorem takeForwarded_some {d : Reg} {w w' : List Ref} {v : Word} (h : takeForwarded d w = some (v, w')) :
    ∃ new r old, w = new ++ r :: old ∧ w' = new ++ old ∧ r.dest = some d ∧ r.data = none ∧ (∀ q ∈ new, q.dest ≠ some d) ∧
      ∀ m : Memory, m.view old r.addr = v := by
  induction w generalizing w' with
  | nil => simp [takeForwarded] at h
  | cons r w ih =>
    unfold takeForwarded at h
    by_cases hd : r.dest = some d
    · rw [if_pos hd] at h
      by_cases hn : r.data = none
      · rw [if_pos hn, Option.map_eq_some_iff] at h
        obtain ⟨u, hu, e⟩ := h
        cases e
        exact ⟨[], r, w, rfl, rfl, hd, hn, by simp, fun m => Memory.view_of_find hu⟩
      · simp [hn] at h
    · rw [if_neg hd, Option.map_eq_some_iff] at h
      obtain ⟨q, hq, e⟩ := h
      cases e
      obtain ⟨new, p, old, e1, e2, e3, e4, e5, e6⟩ := ih (w' := q.2) (by rw [hq])
      exact ⟨r :: new, p, old, by simp [e1], by simp [e2], e3, e4, by simpa [hd] using e5, e6⟩

/-- Everything that one reference reaching memory can do. -/
theorem State.perform_cases (s : State) (a : Nat) :
    ((∀ r ∈ s.sws, r.addr ≠ a) ∧ s.perform a = s) ∨
    ∃ new r old, s.sws = new ++ r :: old ∧ r.addr = a ∧ (∀ q ∈ old, q.addr ≠ a) ∧
      s.perform a = { s with sws := new ++ old }.performRef r := by
  unfold State.perform
  cases h : takeOldest a s.sws with
  | none => exact .inl ⟨takeOldest_eq_none.mp h, rfl⟩
  | some q =>
    obtain ⟨new, old, e1, e2, e3, e4⟩ := takeOldest_eq_some.mp h
    exact .inr ⟨new, q.1, old, e1, e3, e4, by dsimp only; rw [e2]⟩

/-- Everything that forwarding can do to the state. -/
theorem State.forward_cases (s : State) (d : Reg) :
    s.forward d = s ∨
    ∃ new r old, s.sws = new ++ r :: old ∧ r.dest = some d ∧ r.data = none ∧ (∀ q ∈ new, q.dest ≠ some d) ∧
      s.forward d = { s with sws := new ++ old }.setX d (s.mem.view old r.addr) := by
  unfold State.forward
  cases h : takeForwarded d s.sws with
  | none => exact .inl rfl
  | some q =>
    obtain ⟨new, r, old, e1, e2, e3, e4, e5, e6⟩ := takeForwarded_some h
    exact .inr ⟨new, r, old, e1, e3, e4, e5, by dsimp only; rw [e2, e6]⟩

/-- References reaching memory change nothing that the processor reads. -/
@[simp] theorem State.performAll_view (s : State) (a : Nat) : s.performAll.view a = s.view a := by
  simp [State.view, Memory.view]

/-- One reference reaching memory changes nothing that the processor reads. -/
@[simp] theorem State.perform_view (s : State) (a b : Nat) : (s.perform a).view b = s.view b := by
  rcases s.perform_cases a with ⟨_, e⟩ | ⟨new, r, old, h1, rfl, h2, e⟩ <;> rw [e]
  simp only [State.view, State.performRef_mem, State.performRef_sws, h1, Memory.view_put _ _ h2]

/-- Forwarding changes nothing that the processor reads. -/
@[simp] theorem State.forward_view (s : State) (d : Reg) (b : Nat) : (s.forward d).view b = s.view b := by
  rcases s.forward_cases d with e | ⟨new, r, old, h1, -, h2, -, e⟩ <;> rw [e]
  simp only [State.view, State.setX_mem, State.setX_sws, h1, Memory.view_of_load _ _ h2]

/-- Awaiting registers changes nothing that the processor reads. -/
@[simp] theorem State.await_view (s : State) (ds : List Reg) (b : Nat) : (s.await ds).view b = s.view b :=
  State.await_induction (P := fun u => u.view b = s.view b) (fun u a h => by rw [State.perform_view, h]) ds rfl

@[simp] theorem State.clearRegs_view (s : State) (b : Nat) : s.clearRegs.view b = s.view b := s.await_view _ b

/-- States whose memory reads alike and whose waiting references are the same read alike. -/
theorem State.view_eq {s t : State} (hm : ∀ a, t.mem.read a = s.mem.read a) (hs : t.sws = s.sws) (a : Nat) : t.view a = s.view a := by
  unfold State.view
  rw [hs]
  generalize s.sws = w
  induction w with
  | nil => exact hm a
  | cons c w ih => simp [Memory.view, ih]

/-- With no reference waiting, all of them reaching memory is no change. -/
theorem State.performAll_of_nil {s : State} (h : s.sws = []) : s.performAll = s := by
  unfold State.performAll
  rw [h, State.performList, ← h]

/-- With no register waiting, awaiting registers is no change. -/
theorem State.await_of_none {s : State} (ds : List Reg) (h : ∀ r ∈ s.sws, r.dest = none) : s.await ds = s := by
  have key : ∀ d n, State.awaitReg d n s = s := by
    intro d n
    cases n with
    | zero => rfl
    | succ n =>
      have : s.sws.find? (fun r => r.dest = some d) = none := by
        rw [List.find?_eq_none]
        intro r hr
        simp [h r hr]
      rw [State.awaitReg, this]
  unfold State.await
  generalize s.sws.length = n
  induction ds with
  | nil => rfl
  | cons d ds ih => rw [List.foldl_cons, key, ih]

/-- What is left of the waiting references after one has reached memory was among them, in the same order. -/
theorem State.perform_sublist (s : State) (a : Nat) : (s.perform a).sws.Sublist s.sws := by
  rcases s.perform_cases a with ⟨_, e⟩ | ⟨new, r, old, h1, rfl, h2, e⟩ <;> rw [e]
  rw [State.performRef_sws, h1]
  exact (List.sublist_cons_self r old).append_left new

/-- What is left of the waiting references after registers have been awaited was among them, in the same order. -/
theorem State.await_sublist (s : State) (ds : List Reg) : (s.await ds).sws.Sublist s.sws :=
  State.await_induction (P := fun u => u.sws.Sublist s.sws) (fun u a h => (u.perform_sublist a).trans h) ds (.refl _)

/-- A reference reaching memory leaves the words to which none waits. -/
theorem State.perform_read (s : State) (a : Nat) {b : Nat} (h : ∀ r ∈ s.sws, r.addr ≠ b) :
    (s.perform a).mem.read b = s.mem.read b := by
  rcases s.perform_cases a with ⟨_, e⟩ | ⟨new, r, old, h1, rfl, h2, e⟩ <;> rw [e]
  rw [State.performRef_mem, Memory.read_put, if_neg (h r (by simp [h1]))]

/-- Awaiting registers leaves the words to which no reference waits. -/
theorem State.await_read (s : State) (ds : List Reg) {b : Nat} (h : ∀ r ∈ s.sws, r.addr ≠ b) :
    (s.await ds).mem.read b = s.mem.read b :=
  (State.await_induction (P := fun u => (∀ r ∈ u.sws, r.addr ≠ b) ∧ u.mem.read b = s.mem.read b)
    (fun u a g => ⟨fun r hr => g.1 r ((u.perform_sublist a).subset hr), (u.perform_read a g.1).trans g.2⟩) ds ⟨h, rfl⟩).2

/-- A register that has been awaited waits no more. -/
theorem State.awaitReg_done (d : Reg) (n : Nat) (s : State) (h : s.sws.length ≤ n) :
    ∀ r ∈ (State.awaitReg d n s).sws, r.dest ≠ some d := by
  induction n generalizing s with
  | zero => simp [State.awaitReg, List.eq_nil_of_length_eq_zero (Nat.le_zero.mp h)]
  | succ n ih =>
    unfold State.awaitReg
    split
    · rename_i e
      simpa using e
    · rename_i r e
      refine ih _ ?_
      rcases s.perform_cases r.addr with ⟨g, _⟩ | ⟨new, q, old, h1, _, _, g⟩
      · exact absurd rfl (g r (List.mem_of_find?_eq_some e))
      · rw [g, State.performRef_sws]
        rw [h1] at h
        simp at h ⊢
        omega

/-- The registers that have been awaited wait no more. -/
theorem State.await_done (s : State) (ds : List Reg) : ∀ d ∈ ds, ∀ r ∈ (s.await ds).sws, r.dest ≠ some d := by
  have key : ∀ n (u : State), u.sws.length ≤ n →
      (ds.foldl (fun u d => State.awaitReg d n u) u).sws.Sublist u.sws ∧
        ∀ d ∈ ds, ∀ r ∈ (ds.foldl (fun u d => State.awaitReg d n u) u).sws, r.dest ≠ some d := by
    intro n
    induction ds with
    | nil => exact fun u _ => ⟨.refl _, by simp⟩
    | cons e ds ih =>
      intro u hu
      have hs : (State.awaitReg e n u).sws.Sublist u.sws :=
        State.awaitReg_induction (P := fun v => v.sws.Sublist u.sws) (fun v a h => (v.perform_sublist a).trans h) e n (.refl _)
      obtain ⟨h1, h2⟩ := ih (State.awaitReg e n u) (hs.length_le.trans hu)
      refine ⟨h1.trans hs, fun d hd r hr => ?_⟩
      rcases List.mem_cons.mp hd with rfl | hd
      · exact State.awaitReg_done d n u hu r (h1.subset hr)
      · exact h2 d hd r hr
  exact (key _ s le_rfl).2

/-- After all registers have been awaited none waits. -/
theorem State.clearRegs_done (s : State) : ∀ r ∈ s.clearRegs.sws, r.dest = none := by
  intro r hr
  cases hd : r.dest with
  | none => rfl
  | some d =>
    refine absurd hd (s.await_done allRegs d ?_ r hr)
    exact List.mem_map.mpr ⟨d.toNat, List.mem_range.mpr d.isLt, by simp⟩

theorem Memory.erase_wf {m : Memory} (h : m.wf) (a : Nat) : (m.erase a).wf :=
  ⟨h.1.filter _, fun c hc => h.2 c (List.mem_filter.mp hc).1⟩

theorem Memory.mem_insert {m : Memory} {a : Nat} {v : Word} {c : Cell} :
    c ∈ m.insert a v ↔ c = (a, v) ∨ c ∈ m := by
  induction m with
  | nil => simp [Memory.insert]
  | cons d m ih =>
    unfold Memory.insert
    split
    · simp
    · simp only [List.mem_cons, ih]; tauto

theorem Memory.insert_wf {m : Memory} (h : m.wf) {a : Nat} {v : Word} (ha : ∀ c ∈ m, c.1 ≠ a) (hv : v ≠ Memory.unlisted)
    (hm : a < Config.memWords) : (m.insert a v).wf := by
  refine ⟨?_, fun c hc => ?_⟩
  · have h1 := h.1
    clear h
    induction m with
    | nil => simp [Memory.insert]
    | cons d m ih =>
      simp only [List.mem_cons, forall_eq_or_imp] at ha
      obtain ⟨hd, hp⟩ := List.pairwise_cons.mp h1
      unfold Memory.insert
      split
      · rename_i hlt
        refine List.pairwise_cons.mpr ⟨?_, h1⟩
        intro c hc
        rcases List.mem_cons.mp hc with rfl | hc
        · exact hlt
        · exact hlt.trans (hd c hc)
      · rename_i hlt
        refine List.pairwise_cons.mpr ⟨?_, ih ha.2 hp⟩
        intro c hc
        rcases Memory.mem_insert.mp hc with rfl | hc
        · exact lt_of_le_of_ne (Nat.not_lt.mp hlt) ha.1
        · exact hd c hc
  · rcases Memory.mem_insert.mp hc with rfl | hc
    · exact ⟨hv, hm⟩
    · exact h.2 c hc

/-- A write keeps the canonical form. -/
theorem Memory.write_wf {m : Memory} (h : m.wf) {a : Nat} (v : Word) (ha : a < Config.memWords) : (m.write a v).wf := by
  unfold Memory.write
  split
  · exact Memory.erase_wf h a
  · exact Memory.insert_wf (Memory.erase_wf h a) (fun c hc => by simpa using (List.mem_filter.mp hc).2) ‹_› ha

/-- A reference reaching memory keeps the canonical form. -/
theorem Memory.put_wf {m : Memory} (h : m.wf) {r : Ref} (hr : r.addr < Config.memWords) : (m.put r).wf := by
  unfold Memory.put
  split
  · exact Memory.write_wf h _ hr
  · exact h

/-- References reaching memory keep the canonical form. -/
theorem Memory.perform_wf {m : Memory} (h : m.wf) {w : List Ref} (hw : ∀ r ∈ w, r.addr < Config.memWords) : (m.perform w).wf := by
  induction w with
  | nil => exact h
  | cons r w ih =>
    simp only [List.mem_cons, forall_eq_or_imp] at hw
    exact Memory.put_wf (ih hw.2) hw.1

/-- The memory at reset has the canonical form. -/
theorem Memory.reset_wf : State.reset.mem.wf := ⟨List.Pairwise.nil, by simp [State.reset]⟩

end Sys2Proof.Machine
end

