-- ==== Sys2Proof/Laws/Channel.lean ====
section
/-! SUPPORT. What the channels make of bits, and what they do with memory. -/

namespace Sys2Proof.Machine

/-- The number that a list of binary digits stands for, digit by digit. -/
theorem natOfBits_testBit (bs : List Bool) (i : Nat) (hi : i < bs.length) :
    (natOfBits bs).testBit (bs.length - 1 - i) = bs.getD i false := by
  have key : ∀ (bs : List Bool) (n i : Nat), (bs.foldl (fun n b => 2 * n + b.toNat) n).testBit i =
      if i < bs.length then bs.getD (bs.length - 1 - i) false else n.testBit (i - bs.length) := by
    intro bs
    induction bs with
    | nil => intro n i; simp
    | cons b bs ih =>
      intro n i
      rw [List.foldl_cons, ih, List.length_cons]
      by_cases h : i < bs.length
      · rw [if_pos h, if_pos (by omega), show bs.length + 1 - 1 - i = (bs.length - 1 - i) + 1 by omega, List.getD_cons_succ]
      · by_cases h2 : i = bs.length
        · subst h2
          rw [if_neg h, if_pos (by omega), Nat.sub_self, show bs.length + 1 - 1 - bs.length = 0 by omega, List.getD_cons_zero,
            Nat.testBit_zero]
          cases b <;> simp [Nat.add_mod]
        · rw [if_neg h, if_neg (by omega), show i - bs.length = (i - (bs.length + 1)) + 1 by omega, Nat.testBit_succ]
          congr 1
          (cases b <;> simp); omega
  rw [natOfBits, key, if_pos (by omega)]
  congr 1
  omega

theorem natOfBits_lt (bs : List Bool) : natOfBits bs < 2 ^ bs.length := by
  have key : ∀ (bs : List Bool) (n : Nat), bs.foldl (fun n b => 2 * n + b.toNat) n < (n + 1) * 2 ^ bs.length := by
    intro bs
    induction bs with
    | nil => intro n; simp
    | cons b bs ih =>
      intro n
      have h := ih (2 * n + b.toNat)
      have hb : 2 * n + b.toNat + 1 ≤ 2 * (n + 1) := by
        (cases b <;> simp); omega
      calc _ < (2 * n + b.toNat + 1) * 2 ^ bs.length := h
        _ ≤ 2 * (n + 1) * 2 ^ bs.length := Nat.mul_le_mul_right _ hb
        _ = (n + 1) * 2 ^ (b :: bs).length := by rw [List.length_cons, Nat.pow_succ]; ring
  simpa [natOfBits] using key bs 0

/-- A memory word made of bits, bit by bit from bit 63 down. -/
theorem wordOfBits_getLsbD (bs : List Bool) (i : Nat) (hi : i < 64) : (wordOfBits bs).getLsbD (63 - i) = bs.getD i false := by
  have hl : (bs.take 64).length = min 64 bs.length := List.length_take
  rw [wordOfBits, BitVec.getLsbD_ofNat, decide_eq_true (by omega), Bool.true_and, Nat.testBit_mul_two_pow]
  by_cases h : i < bs.length
  · have e := natOfBits_testBit (bs.take 64) i (by omega)
    rw [decide_eq_true (by omega), Bool.true_and, show 63 - i - (64 - bs.length) = (bs.take 64).length - 1 - i by omega, e]
    simp [List.getD, hi]
  · rw [decide_eq_false (by omega), Bool.false_and]
    simp [List.getD, List.getElem?_eq_none (Nat.le_of_not_lt h)]

/-- A channel word made of bits, bit by bit from its highest down. -/
theorem channelWord_getLsbD (bs : List Bool) (n : Nat) (hn : n ≤ 12) (hb : n ≤ bs.length) (i : Nat) (hi : i < n) :
    (BitVec.ofNat 12 (natOfBits (bs.take n))).getLsbD (n - 1 - i) = bs.getD i false := by
  have hl : (bs.take n).length = n := by rw [List.length_take]; omega
  have e := natOfBits_testBit (bs.take n) i (by omega)
  rw [hl] at e
  rw [BitVec.getLsbD_ofNat, decide_eq_true (by omega), Bool.true_and, e]
  simp [List.getD, hi]

theorem bitsOf_eq (n : Nat) (v : BitVec 12) : bitsOf n v = (List.range n).map fun i => v.getLsbD (n - 1 - i) := by
  apply List.ext_getElem
  · simp [bitsOf]
  · intro i h1 h2
    simp [bitsOf]

theorem bitsOfWord_eq (w : Word) : bitsOfWord w = (List.range 64).map fun i => w.getLsbD (63 - i) := by
  apply List.ext_getElem
  · simp [bitsOfWord]
  · intro i h1 h2
    simp [bitsOfWord]

@[simp] theorem bitsOf_length (n : Nat) (v : BitVec 12) : (bitsOf n v).length = n := by simp [bitsOf]

@[simp] theorem bitsOfWord_length (w : Word) : (bitsOfWord w).length = 64 := by simp [bitsOfWord]

/-- Replacing a path is seen on that path alone. -/
theorem IoSection.inp_setInp (io : IoSection) (c d : Channel) (q : InPath) :
    (io.setInp c q).inp d = if d = c then q else io.inp d := by
  unfold IoSection.setInp IoSection.inp
  dsimp only
  rw [Vector.getElem_set]
  simp only [← BitVec.toNat_inj, eq_comm]

theorem IoSection.out_setOut (io : IoSection) (c d : Channel) (q : OutPath) :
    (io.setOut c q).out d = if d = c then q else io.out d := by
  unfold IoSection.setOut IoSection.out
  dsimp only
  rw [Vector.getElem_set]
  simp only [← BitVec.toNat_inj, eq_comm]

@[simp] theorem IoSection.out_setInp (io : IoSection) (c d : Channel) (q : InPath) : (io.setInp c q).out d = io.out d := rfl
@[simp] theorem IoSection.inp_setOut (io : IoSection) (c d : Channel) (q : OutPath) : (io.setOut c q).inp d = io.inp d := rfl
@[simp] theorem IoSection.req_setInp (io : IoSection) (c : Channel) (q : InPath) : (io.setInp c q).req = io.req := rfl
@[simp] theorem IoSection.req_setOut (io : IoSection) (c : Channel) (q : OutPath) : (io.setOut c q).req = io.req := rfl
@[simp] theorem IoSection.inp_send (io : IoSection) (g : Signal) (c : Channel) : (io.send g).inp c = io.inp c := rfl
@[simp] theorem IoSection.out_send (io : IoSection) (g : Signal) (c : Channel) : (io.send g).out c = io.out c := rfl
@[simp] theorem IoSection.req_send (io : IoSection) (g : Signal) : (io.send g).req = io.req := rfl

/-- What a step of an input path can do: nothing where no assembled word waits, a fault where memory has no such word, or the write of
the oldest (R430, R441 b). -/
theorem writeInput_cases (s : State) (c : Channel) :
    ((s.io.inp c).waiting = [] ∧ writeInput s c = .next s) ∨
    ∃ a w ws, (s.io.inp c).waiting = (a, w) :: ws ∧
      ((Config.memWords ≤ a.toNat ∧ writeInput s c = .fault (.noSuchWord a.toNat)) ∨
       (a.toNat < Config.memWords ∧
        writeInput s c = .next ((s.setIo (s.io.setInp c { s.io.inp c with waiting := ws })).poke a.toNat w))) := by
  unfold writeInput State.atWord
  rcases h : (s.io.inp c).waiting with _ | ⟨⟨a, w⟩, ws⟩
  · exact .inl ⟨rfl, rfl⟩
  · refine .inr ⟨a, w, ws, rfl, ?_⟩
    by_cases ha : a.toNat < Config.memWords
    · exact .inr ⟨ha, if_pos ha⟩
    · exact .inl ⟨Nat.not_lt.mp ha, if_neg ha⟩

/-- What the arrival of a channel word on an active input path can do: it is received, or it waits while the path writes (R430). -/
theorem deliverInWord_cases (s : State) (c : Channel) (v : BitVec 12) (h : (s.io.inp c).active = true) :
    ((s.io.inp c).waiting = [] ∧
      deliverInWord s c v = .next (s.setIo ((s.io.send (.resume c)).setInp c ((s.io.inp c).receive v)))) ∨
    ((s.io.inp c).waiting ≠ [] ∧ deliverInWord s c v = writeInput { s with script := .inWord c v :: s.script } c) := by
  unfold deliverInWord
  dsimp only
  rw [if_pos h]
  by_cases hw : (s.io.inp c).waiting = []
  · exact .inl ⟨hw, if_pos hw⟩
  · exact .inr ⟨hw, if_neg hw⟩

theorem ChanWidth.bits_le (w : ChanWidth) : w.bits ≤ 12 := by cases w <;> decide

/-- Receiving on an active path with nothing waiting keeps the path coherent. -/
theorem InPath.receive_coherent {q : InPath} (h : q.Coherent) (ha : q.active = true) (hw : q.waiting = []) (v : BitVec 12) :
    (q.receive v).Coherent := by
  have := q.width.bits_le
  have := h.partly
  unfold InPath.receive
  dsimp only
  split
  · exact ⟨‹_›, by simp [ha], by simp [hw], by simp [hw]⟩
  · unfold InPath.assemble
    exact ⟨by simp; omega, by simp [ha], by simp [hw], by simp [hw]⟩

/-- The end of a block keeps the path coherent. -/
theorem InPath.finish_coherent {q : InPath} (h : q.Coherent) : q.finish.Coherent := by
  unfold InPath.finish
  split
  · exact ⟨by simp, by simp, h.waits, by simp⟩
  · exact ⟨by simp, by simp, by simpa [InPath.assemble] using h.waitsOne ‹_›, by simp⟩

/-- The write of an assembled word keeps the path coherent. -/
theorem InPath.written_coherent {q : InPath} (h : q.Coherent) {w : Addr × Word} {ws : List (Addr × Word)} (e : q.waiting = w :: ws) :
    { q with waiting := ws }.Coherent := by
  have h1 := h.waits
  have h2 := h.waitsOne
  rw [e, List.length_cons] at h1 h2
  exact ⟨h.partly, h.idle, by dsimp only; omega, fun g => by have := h2 g; dsimp only; omega⟩

/-- A request is pending once it has been made, and those made before still are. -/
theorem ChannelRequest.mem_request (r : ChannelRequest) (c d : Channel) : d ∈ (r.request c).pending ↔ d = c ∨ d ∈ r.pending := by
  unfold ChannelRequest.request
  dsimp only
  split
  · exact ⟨.inr, fun h => h.elim (fun e => e ▸ ‹_›) id⟩
  · exact List.mem_cons

end Sys2Proof.Machine
end

