-- ==== Sys2Proof/Laws/Decode.lean ====
section
/-! SUPPORT. The fields of an encoded parcel (30_encoding.md R113 to R116). -/

namespace Sys2Proof

theorem f8_code (c : BitVec 8) (j k : Reg) : Parcel.code (f8 c j k) = c := by
  unfold Parcel.code f8
  apply BitVec.eq_of_getLsbD_eq
  intro b hb
  simp only [BitVec.getLsbD_extractLsb', BitVec.getLsbD_append, hb, decide_true, Bool.true_and]
  repeat' split
  all_goals first | omega | (congr 1; omega)

theorem f8_hi (c : BitVec 8) (j k : Reg) : Parcel.hi (f8 c j k) = c.extractLsb' 4 4 := by
  unfold Parcel.hi f8
  apply BitVec.eq_of_getLsbD_eq
  intro b hb
  simp only [BitVec.getLsbD_extractLsb', BitVec.getLsbD_append, hb, decide_true, Bool.true_and]
  repeat' split
  all_goals first | omega | (congr 1; omega)

theorem f8_i (c : BitVec 8) (j k : Reg) : Parcel.i (f8 c j k) = c.extractLsb' 0 4 := by
  unfold Parcel.i f8
  apply BitVec.eq_of_getLsbD_eq
  intro b hb
  simp only [BitVec.getLsbD_extractLsb', BitVec.getLsbD_append, hb, decide_true, Bool.true_and]
  repeat' split
  all_goals first | omega | (congr 1; omega)

theorem f8_j (c : BitVec 8) (j k : Reg) : Parcel.j (f8 c j k) = j := by
  unfold Parcel.j f8
  apply BitVec.eq_of_getLsbD_eq
  intro b hb
  simp only [BitVec.getLsbD_extractLsb', BitVec.getLsbD_append, hb, decide_true, Bool.true_and]
  repeat' split
  all_goals first | omega | (congr 1; omega)

theorem f8_k (c : BitVec 8) (j k : Reg) : Parcel.k (f8 c j k) = k := by
  unfold Parcel.k f8
  apply BitVec.eq_of_getLsbD_eq
  intro b hb
  simp only [BitVec.getLsbD_extractLsb', BitVec.getLsbD_append, hb, decide_true, Bool.true_and]
  repeat' split
  all_goals first | omega | (congr 1; omega)

theorem f6_hi (c : BitVec 6) (j : Reg) (n : BitVec 6) : Parcel.hi (f6 c j n) = c.extractLsb' 2 4 := by
  unfold Parcel.hi f6
  apply BitVec.eq_of_getLsbD_eq
  intro b hb
  simp only [BitVec.getLsbD_extractLsb', BitVec.getLsbD_append, hb, decide_true, Bool.true_and]
  repeat' split
  all_goals first | omega | (congr 1; omega)

theorem f6_low (c : BitVec 6) (j : Reg) (n : BitVec 6) : (f6 c j n).extractLsb' 10 2 = c.extractLsb' 0 2 := by
  unfold f6
  apply BitVec.eq_of_getLsbD_eq
  intro b hb
  simp only [BitVec.getLsbD_extractLsb', BitVec.getLsbD_append, hb, decide_true, Bool.true_and]
  repeat' split
  all_goals first | omega | (congr 1; omega)

theorem f6_j (c : BitVec 6) (j : Reg) (n : BitVec 6) : Parcel.j (f6 c j n) = j := by
  unfold Parcel.j f6
  apply BitVec.eq_of_getLsbD_eq
  intro b hb
  simp only [BitVec.getLsbD_extractLsb', BitVec.getLsbD_append, hb, decide_true, Bool.true_and]
  repeat' split
  all_goals first | omega | (congr 1; omega)

theorem f6_n (c : BitVec 6) (j : Reg) (n : BitVec 6) : Parcel.n (f6 c j n) = n := by
  unfold Parcel.n f6
  apply BitVec.eq_of_getLsbD_eq
  intro b hb
  simp only [BitVec.getLsbD_append, BitVec.getLsbD_extractLsb']
  repeat' split
  all_goals
    have e : ∀ (x : Bool) {m n : Nat}, m < n → (decide (m < n) && x) = x := fun x _ _ h => by simp [h]
    repeat rw [e _ (by omega)]
    first | omega | (congr 1; omega)

theorem f4_hi (c : BitVec 4) (i j k : Reg) : Parcel.hi (f4 c i j k) = c := by
  unfold Parcel.hi f4
  apply BitVec.eq_of_getLsbD_eq
  intro b hb
  simp only [BitVec.getLsbD_extractLsb', BitVec.getLsbD_append, hb, decide_true, Bool.true_and]
  repeat' split
  all_goals first | omega | (congr 1; omega)

theorem f4_i (c : BitVec 4) (i j k : Reg) : Parcel.i (f4 c i j k) = i := by
  unfold Parcel.i f4
  apply BitVec.eq_of_getLsbD_eq
  intro b hb
  simp only [BitVec.getLsbD_extractLsb', BitVec.getLsbD_append, hb, decide_true, Bool.true_and]
  repeat' split
  all_goals first | omega | (congr 1; omega)

theorem f4_j (c : BitVec 4) (i j k : Reg) : Parcel.j (f4 c i j k) = j := by
  unfold Parcel.j f4
  apply BitVec.eq_of_getLsbD_eq
  intro b hb
  simp only [BitVec.getLsbD_extractLsb', BitVec.getLsbD_append, hb, decide_true, Bool.true_and]
  repeat' split
  all_goals first | omega | (congr 1; omega)

theorem f4_k (c : BitVec 4) (i j k : Reg) : Parcel.k (f4 c i j k) = k := by
  unfold Parcel.k f4
  apply BitVec.eq_of_getLsbD_eq
  intro b hb
  simp only [BitVec.getLsbD_extractLsb', BitVec.getLsbD_append, hb, decide_true, Bool.true_and]
  repeat' split
  all_goals first | omega | (congr 1; omega)

theorem bigK_halves (p : Parcel) (K : Addr) (h : Parcel.k p = K.extractLsb' 16 4) : bigK p (K.extractLsb' 0 16) = K := by
  unfold bigK
  rw [h]
  apply BitVec.eq_of_getLsbD_eq
  intro b hb
  simp only [BitVec.getLsbD_append, BitVec.getLsbD_extractLsb']
  repeat' split
  all_goals
    have e : ∀ (x : Bool) {m n : Nat}, m < n → (decide (m < n) && x) = x := fun x _ _ h => by simp [h]
    repeat rw [e _ (by omega)]
    first | omega | (congr 1; omega)

/-- The upper eight bits of a parcel are its upper four bits and its i field. -/
theorem Parcel.code_toNat (p : Parcel) : (Parcel.code p).toNat = 16 * (Parcel.hi p).toNat + (Parcel.i p).toNat := by
  have := p.isLt
  simp only [Parcel.code, Parcel.hi, Parcel.i, BitVec.extractLsb'_toNat, Nat.shiftRight_eq_div_pow]
  omega

/-- The code of a format F4 parcel. -/
theorem f4_code (c : BitVec 4) (i j k : Reg) : (Parcel.code (f4 c i j k)).toNat = 16 * c.toNat + i.toNat := by
  rw [Parcel.code_toNat, f4_hi, f4_i]

/-- The code of a format F6 parcel lies above those of format F8. -/
theorem f6_code_ge (c : BitVec 6) (j : Reg) (n : BitVec 6) (h : 16 ≤ c.toNat) : 0x40 ≤ (Parcel.code (f6 c j n)).toNat := by
  have := c.isLt
  rw [Parcel.code_toNat, f6_hi]
  simp only [BitVec.extractLsb'_toNat, Nat.shiftRight_eq_div_pow]
  omega

/-- The two parcels of format F8K. -/
theorem f8K_eq (c : BitVec 8) (j : Reg) (K : Addr) : f8K c j K = [f8 c j (K.extractLsb' 16 4), K.extractLsb' 0 16] := rfl

/-- The two parcels of format F4K. -/
theorem f4K_eq (c : BitVec 4) (i j : Reg) (K : Addr) : f4K c i j K = [f4 c i j (K.extractLsb' 16 4), K.extractLsb' 0 16] := rfl

end Sys2Proof
end

