-- ==== Sys2Proof/Laws/Ops.lean ====
section
/-! SUPPORT. One lemma per shared operation, saying once everything it can do. -/

namespace Sys2Proof.Machine

variable {s : State}

/-- What a state and one that differs from it in the count of draws alone have in common. -/
structure Twin (s u : State) : Prop where
  x : u.x = s.x
  xres : u.xres = s.xres
  p : u.p = s.p
  pp : u.pp = s.pp
  xpw : u.xpw = s.xpw
  mem : u.mem = s.mem
  sws : u.sws = s.sws
  system : SameSystem s u
  stack : SameStack s u
  sequence : SameSequence s u

theorem Twin.refl (s : State) : Twin s s :=
  ⟨rfl, rfl, rfl, rfl, rfl, rfl, rfl, ⟨rfl, rfl, rfl, rfl, rfl, rfl, rfl⟩, ⟨rfl, rfl⟩, ⟨rfl, rfl⟩⟩

theorem Twin.drawn (s : State) : Twin s s.drawn :=
  ⟨rfl, rfl, rfl, rfl, rfl, rfl, rfl, ⟨rfl, rfl, rfl, rfl, rfl, rfl, rfl⟩, ⟨rfl, rfl⟩, ⟨rfl, rfl⟩⟩

theorem Twin.getX {u : State} (h : Twin s u) (r : Reg) : u.getX r = s.getX r := by simp only [State.getX, h.x]

theorem Twin.view {u : State} (h : Twin s u) (a : Nat) : u.view a = s.view a := by simp only [State.view, h.mem, h.sws]

theorem Twin.progAddr {u : State} (h : Twin s u) (a : Addr) : u.progAddr a = s.progAddr a := by
  simp only [State.progAddr, State.relocate, h.xpw]

theorem SameSystem.advance {u : State} (h : SameSystem s u) (n : Nat) : SameSystem s (u.advance n) :=
  ⟨by simp [h.il], by simp [h.scf], by simp [h.rtc], by simp [h.io], by simp [h.ioFlag], by simp [h.timeFlag], by simp [h.script]⟩

theorem SameSystem.trans {u t : State} (h : SameSystem s u) (g : SameSystem u t) : SameSystem s t :=
  ⟨g.il.trans h.il, g.scf.trans h.scf, g.rtc.trans h.rtc, g.io.trans h.io, g.ioFlag.trans h.ioFlag, g.timeFlag.trans h.timeFlag,
    g.script.trans h.script⟩

theorem sameSystem_setX (s : State) (d : Reg) (v : Word) : SameSystem s (s.setX d v) := ⟨rfl, rfl, rfl, rfl, rfl, rfl, rfl⟩

theorem sameSystem_issue (s : State) (r : Ref) : SameSystem s (s.issue r) :=
  ⟨by simp, by simp, by simp, by simp, by simp, by simp, by simp⟩

theorem wroteRegister_setX {u : State} (h : Twin s u) (d : Reg) (v : Word) (n : Nat) :
    WroteRegister d v s ((u.setX d v).advance n) :=
  ⟨by simp, fun r hr => by simp [State.setX_getX_ne _ _ hr, h.getX], by simp [h.xres]⟩

/-- Writing a register and going on. -/
theorem delivered_setX {u : State} (h : Twin s u) (d : Reg) (v : Word) (n : Nat) :
    Delivered d v n s ((u.setX d v).advance n) where
  register := wroteRegister_setX h d v n
  rest := ⟨by simp [h.xpw], (h.system.trans (sameSystem_setX u d v)).advance n, by simp [SameStack, h.stack.1, h.stack.2],
    by simp [SameSequence, h.sequence.1, h.sequence.2], by simp [SameMemory, h.mem, h.sws]⟩
  next := Follows.of_eq (by simp [h.p]) (by simp [h.pp])

/-- Going on without doing anything. -/
theorem passed_advance {u : State} (h : Twin s u) (n : Nat) : Passed n s (u.advance n) where
  registers := ⟨fun r => by simp [h.getX], by simp [h.xres]⟩
  rest := ⟨by simp [h.xpw], h.system.advance n, by simp [SameStack, h.stack.1, h.stack.2],
    by simp [SameSequence, h.sequence.1, h.sequence.2], by simp [SameMemory, h.mem, h.sws]⟩
  next := Follows.of_eq h.p h.pp

/-- What settling the fetches of a word can do to the stack. -/
theorem State.settle_iws (s : State) (a : Nat) : (s.settle a).iws = s.iws ∨
    (s.settle a).iws = s.iws.map fun e => if s.awaits a e then { e with word := some (s.view a) } else e := by
  unfold State.settle
  split
  · cases Config.freeBit s.draws <;> simp
  · exact .inl rfl

/-- With an empty stack there is nothing to settle. -/
theorem State.settle_of_nil {s : State} {a : Nat} (h : s.iws = []) : s.settle a = s := by simp [State.settle, h]

theorem State.awaits_iff (s : State) (a : Nat) (e : StackEntry) :
    (s.awaits a e = true) = (e.word = none ∧ s.progAddr e.addr = a) := by
  simp [State.awaits]

/-- A write to a word, as statements speak of what the stack holds. -/
theorem stackAfterWrite_of {s u t : State} (h : Twin s u) {a : Nat} (hc : t.ciw = s.ciw) (hi : t.iws = (u.settle a).iws) :
    StackAfterWrite a s t := by
  refine ⟨hc, ?_⟩
  rcases u.settle_iws a with e | e
  · exact .inl (by rw [hi, e, h.stack.2])
  · refine .inr ?_
    rw [hi, e, h.stack.2]
    simp only [State.awaits_iff, h.progAddr, h.view]

/-- Everything that a reference reaching memory does. -/
theorem State.performRef_performed (s : State) (r : Ref) : Performed r s (s.performRef r) where
  loaded := fun d h => by
    unfold State.performRef
    rw [h]
    exact ⟨State.setX_getX_self s d _, fun q hq => State.setX_getX_ne s _ hq, rfl⟩
  registers := fun h => by
    unfold State.performRef
    rw [h]
    exact ⟨fun _ => rfl, rfl⟩
  written := fun v h => by simp [Memory.read_put, h]
  others := fun b h => by
    rw [State.performRef_mem, Memory.read_put]
    split
    · rename_i e
      rcases h with h | h
      · exact absurd e.symm h
      · simp [h]
    · rfl

/-- Everything that a reference does when it waits. -/
theorem State.wait_waits (s : State) (r : Ref) : Waits r s (s.wait r) where
  queue := rfl
  memory := fun _ => rfl
  registers := fun _ => rfl
  reserved := fun d h => by simp [State.wait, h]
  unreserved := fun h => by simp [State.wait, h]

/-- What a write may do to the stack does not matter to the references that reach memory. -/
theorem State.performList_congr {s u : State} (hx : u.x = s.x) (hr : u.xres = s.xres) (hm : u.mem = s.mem) (w : List Ref) :
    (u.performList w).x = (s.performList w).x ∧ (u.performList w).xres = (s.performList w).xres := by
  induction w with
  | nil => exact ⟨hx, hr⟩
  | cons r w ih =>
    simp only [State.performList, State.performRef]
    cases r.dest <;> simp [ih.1, ih.2, hm]

/-- Issuing a reference and going on. -/
theorem issued_issue {u : State} (h : Twin s u) (r : Ref) (n : Nat) : Issued r n s ((u.issue r).advance n) where
  performed := fun hs => by
    have hu : u.script = [] := by rw [h.system.script, hs]
    generalize hv : (if r.data.isSome then u.settle r.addr else u) = v
    have e : u.issue r = v.performAll.performRef r := by simp [State.issue, hu, hv]
    have hx : v.x = s.x := by rw [← hv, ← h.x]; split <;> simp
    have hr : v.xres = s.xres := by rw [← hv, ← h.xres]; split <;> simp
    have hm : v.mem = s.mem := by rw [← hv, ← h.mem]; split <;> simp
    have hw : v.sws = s.sws := by rw [← hv, ← h.sws]; split <;> simp
    have c := State.performList_congr (s := { s with sws := [] }) (u := { v with sws := [] }) hx hr hm s.sws
    have cx : ∀ q, v.performAll.getX q = s.performAll.getX q := fun q => by
      simp only [State.getX, State.performAll, hw, c.1]
    have cr : v.performAll.xres = s.performAll.xres := by simp only [State.performAll, hw, c.2]
    have g := v.performAll.performRef_performed r
    refine ⟨⟨fun d hd => ?_, fun hd => ?_, fun w hd => ?_, fun b hb => ?_⟩, by simp [e]⟩
    · have := g.loaded d hd
      rw [e]
      exact ⟨by simpa [hm, hw] using this.1, fun q hq => by simpa [cx] using this.2.1 q hq, by simpa [cr] using this.2.2⟩
    · have := g.registers hd
      rw [e]
      exact ⟨fun q => by simpa [cx] using this.1 q, by simpa [cr] using this.2⟩
    · rw [e]
      simpa using g.written w hd
    · rw [e]
      simpa [hm, hw] using g.others b hb
  waits := fun hs => by
    have hu : u.script ≠ [] := by rwa [h.system.script]
    generalize hv : (if r.data.isSome then u.settle r.addr else u) = v
    have e : u.issue r = v.wait r := by simp [State.issue, hu, hv]
    have hr : v.xres = s.xres := by rw [← hv, ← h.xres]; split <;> simp
    have hx : ∀ q, v.getX q = s.getX q := fun q => by rw [← hv, ← h.getX]; split <;> simp
    have hm : v.mem = s.mem := by rw [← hv, ← h.mem]; split <;> simp
    have hw : v.sws = s.sws := by rw [← hv, ← h.sws]; split <;> simp
    have g := v.wait_waits r
    rw [e]
    exact ⟨by simp [hw], fun b => by simp [hm], fun q => by simp [hx], fun d hd => by simpa [hr] using g.reserved d hd,
      fun hd => by simpa [hr] using g.unreserved hd⟩
  xpw := by simp [h.xpw]
  system := (h.system.trans (sameSystem_issue u r)).advance n
  sequence := by simp [SameSequence, h.sequence.1, h.sequence.2]
  stack := by
    cases hd : r.data.isSome with
    | true => exact stackAfterWrite_of h (by simp [h.stack.1]) (by simp [hd])
    | false => exact ⟨by simp [h.stack.1], .inl (by simp [hd, h.stack.2])⟩
  readOnly := fun hd => ⟨by simp [h.stack.1], by simp [hd, h.stack.2]⟩
  next := Follows.of_eq (by simp [h.p]) (by simp [h.pp])

/-- What the processor reads after a reference has been issued, whether it waits or not. -/
theorem State.issue_view (s : State) (r : Ref) (a : Nat) :
    (s.issue r).view a = if r.addr = a then r.data.getD (s.view a) else s.view a := by
  unfold State.issue
  generalize hv : (if r.data.isSome then s.settle r.addr else s) = v
  have hm : v.mem = s.mem := by rw [← hv]; split <;> simp
  have hw : v.sws = s.sws := by rw [← hv]; split <;> simp
  dsimp only
  split
  · simp [State.view, Memory.view, Memory.read_put, hm, hw]
  · simp [State.view, Memory.view, State.wait, hm, hw]

/-- The package's absolute address. -/
theorem State.package_eq (s : State) : s.package = 32 * s.xpw.xa.toNat := by
  simp [State.package, Config.packageAlign, Nat.mul_comm]

/-- The package lies inside the memory. -/
theorem State.package_lt (s : State) : s.package + 17 ≤ Config.memWords := by
  have := s.xpw.xa.isLt
  simp only [State.package, Config.packageAlign, Config.memWords]
  omega

/-- The fields of an XPW word as the exchange stores it. -/
theorem Xpw.pack_fields (w : Xpw) (p : Addr) :
    (w.pack p).getLsbD 63 = w.mtf ∧ (w.pack p).getLsbD 62 = w.prf ∧ (w.pack p).getLsbD 61 = w.ipf ∧
    (w.pack p).getLsbD 60 = w.ovf ∧ (w.pack p).extractLsb' 52 8 = w.cond ∧ (w.pack p).extractLsb' 40 12 = w.ra ∧
    (w.pack p).extractLsb' 32 8 = w.xa ∧ (w.pack p).extractLsb' 20 12 = w.fl ∧ (w.pack p).extractLsb' 0 20 = p := by
  refine ⟨?_, ?_, ?_, ?_, ?_, ?_, ?_, ?_, ?_⟩
  on_goal 1 => simp only [Xpw.pack, BitVec.getLsbD_append]; simp
  on_goal 1 => simp only [Xpw.pack, BitVec.getLsbD_append]; simp
  on_goal 1 => simp only [Xpw.pack, BitVec.getLsbD_append]; simp
  on_goal 1 => simp only [Xpw.pack, BitVec.getLsbD_append]; simp
  all_goals
    apply BitVec.eq_of_getLsbD_eq
    intro i hi
    simp only [Xpw.pack, BitVec.getLsbD_extractLsb', BitVec.getLsbD_append, hi, decide_true, Bool.true_and]
    repeat' split
    all_goals first | omega | (congr 1; omega)

/-- Loading what was packed gives it back. -/
@[simp] theorem Xpw.unpack_pack (w : Xpw) (p : Addr) : Xpw.unpack (w.pack p) = w := by
  obtain ⟨h1, h2, h3, h4, h5, h6, h7, h8, -⟩ := w.pack_fields p
  simp only [Xpw.unpack, h1, h2, h3, h4, h5, h6, h7, h8]

@[simp] theorem Xpw.unpackP_pack (w : Xpw) (p : Addr) : Xpw.unpackP (w.pack p) = p := (w.pack_fields p).2.2.2.2.2.2.2.2

theorem storedFlags_stored (arrived raised free : BitVec 8) : FlagsStored arrived raised (storedFlags arrived raised free) := by
  unfold FlagsStored storedFlags
  split
  · simp_all
  · refine ⟨fun h => absurd h ‹_›, ?_⟩
    ext i hi
    simp only [BitVec.getElem_and, BitVec.getElem_or]
    cases raised[i] <;> simp

/-- The word that departs. -/
theorem State.departs (s : State) (f : BitVec 8) (r : Addr) : DepartsAs s f r (s.departingXpw f r) := by
  obtain ⟨h1, h2, h3, h4, h5, h6, h7, h8, h9⟩ :=
    Xpw.pack_fields { s.xpw with cond := storedFlags s.xpw.cond f (s.freeWord.extractLsb' 0 8) } r
  exact ⟨h1, h2, h3, h4, by rw [show s.departingXpw f r = Xpw.pack _ r from rfl, h5]; exact storedFlags_stored _ _ _, h6, h7, h8, h9⟩

/-- The address of a reference of the sequence. -/
theorem ExchangeSequence.addr_x (e : ExchangeSequence) {d : Reg} (h : e.next = .x d) :
    e.addr = e.package.toNat * Config.packageAlign + d.toNat := by simp [ExchangeSequence.addr, h]

/-- A reference of the sequence reads inside the memory. -/
theorem ExchangeSequence.addr_lt (e : ExchangeSequence) : e.addr < Config.memWords := by
  have := e.package.isLt
  have h : e.addr ≤ e.package.toNat * Config.packageAlign + 16 := by
    unfold ExchangeSequence.addr
    split
    · exact le_refl _
    · rename_i d _
      have : d.toNat < 16 := d.isLt
      omega
  simp only [Config.packageAlign, Config.memWords] at *
  omega

theorem State.reference_of_none {s : State} (h : s.exchanging = none) : s.reference = s := by
  unfold State.reference; rw [h]

theorem State.reference_of_xpw {s : State} {e : ExchangeSequence} (h : s.exchanging = some e) (hn : e.next = .xpw) :
    s.reference = s.referenceXpw e := by
  unfold State.reference; rw [h]; dsimp only; rw [hn]

theorem State.reference_of_x {s : State} {e : ExchangeSequence} {d : Reg} (h : s.exchanging = some e) (hn : e.next = .x d) :
    s.reference = s.referenceX e d := by
  unfold State.reference; rw [h]; dsimp only; rw [hn]

/-- Everything that one reference of an exchange sequence can do. -/
theorem State.reference_cases (s : State) :
    (s.exchanging = none ∧ s.reference = s) ∨
    (∃ e, s.exchanging = some e ∧ e.next = .xpw ∧ s.reference = s.referenceXpw e) ∨
    (∃ e d, s.exchanging = some e ∧ e.next = .x d ∧ s.reference = s.referenceX e d) := by
  cases h : s.exchanging with
  | none => exact .inl ⟨rfl, State.reference_of_none h⟩
  | some e =>
    cases hn : e.next with
    | xpw => exact .inr (.inl ⟨e, rfl, hn, State.reference_of_xpw h hn⟩)
    | x d => exact .inr (.inr ⟨e, d, rfl, hn, State.reference_of_x h hn⟩)

/-- What every reference keeps holds after any number of them. -/
theorem State.references_induction {P : State → Prop} (h : ∀ u, P u → P u.reference) (n : Nat) (s : State) (hs : P s) :
    P (State.references n s) := by
  induction n generalizing s with
  | zero => exact hs
  | succ n ih => exact ih _ (h s hs)

/-- What the sequence does to the X registers numbered up to `d`, which are left to exchange: each changes places with its word of
the package. -/
structure RegistersSwapped (e : ExchangeSequence) (d : Nat) (s t : State) : Prop where
  stored : ∀ r : Reg, r.toNat ≤ d → t.mem.read (e.package.toNat * Config.packageAlign + r.toNat) = s.getX r
  loaded : ∀ r : Reg, r.toNat ≤ d → t.getX r = s.view (e.package.toNat * Config.packageAlign + r.toNat)
  kept : ∀ r : Reg, d < r.toNat → t.getX r = s.getX r
  others : ∀ a, (a < e.package.toNat * Config.packageAlign ∨ e.package.toNat * Config.packageAlign + d < a) →
    t.mem.read a = s.mem.read a
  waiting : t.sws =
    s.sws.filter (fun r => r.addr < e.package.toNat * Config.packageAlign ∨ e.package.toNat * Config.packageAlign + d < r.addr)
  complete : t.exchanging = none ∧ t.exits = e.out :: s.exits
  xpw : t.xpw = s.xpw ∧ t.p = s.p ∧ t.pp = s.pp ∧ t.xres = s.xres
  stack : SameStack s t
  system : SameSystem s t

/-- The sequence from X[d] on. -/
theorem State.references_registers (n : Nat) (hn : n < 16) (s : State) (e : ExchangeSequence) (h : s.exchanging = some e)
    (hx : e.next = .x (BitVec.ofNat 4 n)) (m : Nat) : RegistersSwapped e n s (State.references (n + 1 + m) s) := by
  induction n generalizing s e with
  | zero =>
    have e1 : State.references (0 + 1 + m) s = s.referenceX e 0#4 := by
      rw [Nat.add_comm 0 1, Nat.add_assoc, Nat.zero_add, Nat.add_comm 1 m, State.references, State.reference_of_x h hx]
      exact State.references_induction (P := fun u => u = s.referenceX e 0#4)
        (fun u hu => by rw [hu]; exact State.reference_of_none (by simp)) m _ rfl
    have ha := e.addr_x hx
    rw [e1]
    refine ⟨fun r hr => ?_, fun r hr => ?_, fun r hr => ?_, fun a hb => ?_, ?_, ⟨by simp, by simp⟩, ⟨rfl, rfl, rfl, rfl⟩,
      ⟨rfl, rfl⟩, ⟨rfl, rfl, rfl, rfl, rfl, rfl, rfl⟩⟩
    · obtain rfl : r = 0#4 := BitVec.eq_of_toNat_eq (by simpa using hr)
      rw [State.referenceX_mem, ha]
      simp
    · obtain rfl : r = 0#4 := BitVec.eq_of_toNat_eq (by simpa using hr)
      simp [State.getX, ha]
    · simp only [State.getX, State.referenceX_x]
      exact Vector.getElem_set_ne _ _ (by simp; omega)
    · rw [State.referenceX_mem, Memory.read_write_ne _ _ (by rw [ha]; simp; omega)]
    · rw [State.referenceX_sws, ha]
      apply List.filter_congr
      intro c _
      simp only [bne, beq_eq_decide, ← decide_not, BitVec.toNat_ofNat]
      apply decide_eq_decide.mpr
      omega
  | succ n ih =>
    have hd : (BitVec.ofNat 4 (n + 1)).toNat = n + 1 := by simp; omega
    have hne : BitVec.ofNat 4 (n + 1) ≠ 0 := fun c => by
      have := congrArg BitVec.toNat c
      rw [hd] at this
      simp at this
    have hp : BitVec.ofNat 4 (n + 1) - 1 = BitVec.ofNat 4 n := by
      apply BitVec.eq_of_toNat_eq
      simp; omega
    have ha := e.addr_x hx
    rw [hd] at ha
    have e1 : State.references (n + 1 + 1 + m) s = State.references (n + 1 + m) (s.referenceX e (BitVec.ofNat 4 (n + 1))) := by
      rw [show n + 1 + 1 + m = (n + 1 + m) + 1 by omega, State.references, State.reference_of_x h hx]
    rw [e1]
    obtain ⟨g1, g2, g3, g4, g5, g6, g7, g8, g9⟩ := ih (by omega) (s.referenceX e (BitVec.ofNat 4 (n + 1)))
      { e with next := .x (BitVec.ofNat 4 n) } (by rw [State.referenceX_exchanging, if_neg hne, hp]) rfl
    have g : RegistersSwapped e n (s.referenceX e (BitVec.ofNat 4 (n + 1)))
        (State.references (n + 1 + m) (s.referenceX e (BitVec.ofNat 4 (n + 1)))) := ⟨g1, g2, g3, g4, g5, g6, g7, g8, g9⟩
    have hm : ∀ a, a ≠ e.addr → (s.referenceX e (BitVec.ofNat 4 (n + 1))).mem.read a = s.mem.read a := fun a h => by
      rw [State.referenceX_mem, Memory.read_write_ne _ _ h]
    have hv : ∀ a, a ≠ e.addr → (s.referenceX e (BitVec.ofNat 4 (n + 1))).view a = s.view a := fun a h => by
      unfold State.view
      rw [State.referenceX_mem, State.referenceX_sws, Memory.view_filter _ _ h, Memory.view_write_ne _ _ _ h]
    have hg : ∀ r : Reg, r.toNat ≠ n + 1 → (s.referenceX e (BitVec.ofNat 4 (n + 1))).getX r = s.getX r := fun r h => by
      simp only [State.getX, State.referenceX_x]
      exact Vector.getElem_set_ne _ _ (by rw [hd]; omega)
    refine ⟨fun r hr => ?_, fun r hr => ?_, fun r hr => ?_, fun a hb => ?_, ?_, ⟨g.complete.1, ?_⟩, ?_, ?_, ?_⟩
    · by_cases hr2 : r.toNat = n + 1
      · obtain rfl : r = BitVec.ofNat 4 (n + 1) := BitVec.eq_of_toNat_eq (hr2.trans hd.symm)
        rw [g.others _ (by rw [hd]; simp), State.referenceX_mem, hd, ha, Memory.read_write_self]
      · rw [g.stored r (by omega), hg r hr2]
    · by_cases hr2 : r.toNat = n + 1
      · obtain rfl : r = BitVec.ofNat 4 (n + 1) := BitVec.eq_of_toNat_eq (hr2.trans hd.symm)
        rw [g.kept _ (by omega)]
        simp [State.getX, ha, hd]
      · rw [g.loaded r (by omega), hv _ (by rw [ha]; omega)]
    · rw [g.kept r (by omega), hg r (by omega)]
    · rw [g.others a (by omega), hm a (by rw [ha]; omega)]
    · rw [g.waiting, State.referenceX_sws, List.filter_filter, ha]
      apply List.filter_congr
      intro c _
      simp only [bne, beq_eq_decide, ← decide_not, ← Bool.decide_and]
      apply decide_eq_decide.mpr
      omega
    · rw [g.complete.2, State.referenceX_exits, if_neg hne]
    · simpa using g.xpw
    · exact ⟨g.stack.1, g.stack.2⟩
    · exact SameSystem.trans (u := s.referenceX e (BitVec.ofNat 4 (n + 1))) ⟨rfl, rfl, rfl, rfl, rfl, rfl, rfl⟩ g.system

/-- Beginning an exchange. -/
theorem State.beginExchange_begun (s : State) (f : BitVec 8) (r : Addr) : Begun f r s (s.beginExchange f r) where
  sequence := ⟨_, s.departs f r, rfl⟩
  exits := rfl
  registers := fun _ => rfl
  xpw := rfl
  place := ⟨rfl, rfl⟩
  memory := ⟨fun _ => rfl, rfl⟩
  reservations := rfl
  stackEmpty := ⟨rfl, rfl⟩
  system := ⟨rfl, rfl, rfl, rfl, rfl, rfl, rfl⟩

/-- Taking an exception, and returning from one: the whole sequence after its beginning. -/
theorem State.finish_exchanged {s t : State} {f : BitVec 8} {r : Addr} (h : Begun f r s t) (m : Nat) :
    Exchanged f r s (State.references (17 + m) t) := by
  obtain ⟨w, hw, he⟩ := h.sequence
  rw [Nat.add_comm 17 m, State.references, State.reference_of_xpw he rfl]
  have ht : ∀ a, t.view a = s.view a := State.view_eq h.memory.1 h.memory.2
  have g := State.references_registers 15 (by omega) (t.referenceXpw ⟨s.xpw.xa, w, .xpw⟩) ⟨s.xpw.xa, w, .x 15⟩ rfl rfl m
  rw [show 15 + 1 + m = m + 16 by omega] at g
  have ha : (⟨s.xpw.xa, w, .xpw⟩ : ExchangeSequence).addr = 32 * s.xpw.xa.toNat + 16 := by
    simp [ExchangeSequence.addr, Config.packageAlign, Nat.mul_comm]
  have hk : s.xpw.xa.toNat * Config.packageAlign = 32 * s.xpw.xa.toNat := by simp [Config.packageAlign, Nat.mul_comm]
  have hm : (t.referenceXpw ⟨s.xpw.xa, w, .xpw⟩).mem.read (32 * s.xpw.xa.toNat + 16) = w := by
    rw [State.referenceXpw_mem, ha, Memory.read_write_self]
  have hx := g.xpw
  simp only [State.referenceXpw_xpw, State.referenceXpw_p, State.referenceXpw_pp, State.referenceXpw_xres, ha, ht] at hx
  obtain ⟨hx1, hx2, hx3, hx4⟩ := hx
  obtain ⟨g1, g2, g3, g4, g5, ⟨g6, g7⟩, -, ⟨g8, g9⟩, g10⟩ := g
  simp only [hk] at g1 g2 g3 g4 g5
  have hs : (State.references (m + 16) (t.referenceXpw ⟨s.xpw.xa, w, .xpw⟩)).mem.read (32 * s.xpw.xa.toNat + 16) = w := by
    rw [g4 _ (by omega), hm]
  refine ⟨by rw [hs]; exact hw, fun d => ?_, fun a hb => ?_, ?_, ?_, fun d => ?_, ?_, ⟨?_, ?_⟩, ⟨g6, ?_⟩, ?_⟩
  · have : d.toNat < 16 := d.isLt
    rw [g1 d (by omega)]
    exact h.registers d
  · rw [g4 a (by omega), State.referenceXpw_mem, ha, Memory.read_write_ne _ _ (by omega)]
    exact h.memory.1 a
  · rw [g5, State.referenceXpw_sws, ha, List.filter_filter, h.memory.2]
    apply List.filter_congr
    intro c _
    simp only [bne, beq_eq_decide, ← decide_not, ← Bool.decide_and]
    apply decide_eq_decide.mpr
    omega
  · constructor <;> (first | rw [hx1] | rw [hx2] | rw [hx3]) <;> rfl
  · have : d.toNat < 16 := d.isLt
    rw [g2 d (by omega)]
    have hne : 32 * s.xpw.xa.toNat + d.toNat ≠ 32 * s.xpw.xa.toNat + 16 := by omega
    rw [← ht]
    unfold State.view
    rw [State.referenceXpw_mem, State.referenceXpw_sws, ha, Memory.view_filter _ _ hne, Memory.view_write_ne _ _ _ hne]
  · rw [hx4]; exact h.reservations
  · rw [g8]; exact h.stackEmpty.1
  · rw [g9]; exact h.stackEmpty.2
  · rw [hs, g7]; simp [h.exits]
  · exact (h.system.trans (u := t) (t := t.referenceXpw ⟨s.xpw.xa, w, .xpw⟩) ⟨rfl, rfl, rfl, rfl, rfl, rfl, rfl⟩).trans g10

/-- Taking an exception, and returning from one. -/
theorem State.exchange_exchanges (s : State) (f : BitVec 8) (r : Addr) : Exchanges f r s (s.exchange f r) := by
  unfold State.exchange State.singleReferences
  by_cases h : .reference ∈ s.script
  · simpa [Exchanges, h] using s.clearRegs.beginExchange_begun f r
  · simpa [Exchanges, h, State.finishExchange] using State.finish_exchanged (s.clearRegs.beginExchange_begun f r) 0

/-- Twins stay twins when a reference reaches memory. -/
theorem Twin.perform {u : State} (h : Twin s u) (a : Nat) : Twin (s.perform a) (u.perform a) := by
  obtain ⟨h1, h2, h3, h4, h5, h6, h7, h8, h9, h10⟩ := h
  have e : ∀ q : Ref × List Ref,
      ({ u with sws := q.2 }.performRef q.1).x = ({ s with sws := q.2 }.performRef q.1).x ∧
      ({ u with sws := q.2 }.performRef q.1).xres = ({ s with sws := q.2 }.performRef q.1).xres := fun q => by
    unfold State.performRef
    cases q.1.dest <;> simp [h1, h2, h6]
  refine ⟨?_, ?_, by simp [h3], by simp [h4], by simp [h5], ?_, ?_, ⟨?_, ?_, ?_, ?_, ?_, ?_, ?_⟩, ⟨?_, ?_⟩, ⟨?_, ?_⟩⟩
  · unfold State.perform
    rw [h7]
    split
    · exact (e _).1
    · exact h1
  · unfold State.perform
    rw [h7]
    split
    · exact (e _).2
    · exact h2
  · unfold State.perform
    rw [h7]
    split
    · simp [h6]
    · exact h6
  · unfold State.perform
    rw [h7]
    split
    · simp
    · exact h7
  all_goals simp [h8.il, h8.scf, h8.rtc, h8.io, h8.ioFlag, h8.timeFlag, h8.script, h9.1, h9.2, h10.1, h10.2]

/-- Twins stay twins when registers are awaited. -/
theorem Twin.await {u : State} (h : Twin s u) (ds : List Reg) : Twin (s.await ds) (u.await ds) := by
  have key : ∀ d n (s u : State), Twin s u → Twin (State.awaitReg d n s) (State.awaitReg d n u) := by
    intro d n
    induction n with
    | zero => exact fun s u h => h
    | succ n ih =>
      intro s u h
      unfold State.awaitReg
      rw [h.sws]
      split
      · exact h
      · exact ih _ _ (h.perform _)
  unfold State.await
  rw [h.sws]
  generalize s.sws.length = n
  induction ds generalizing s u with
  | nil => exact h
  | cons d ds ih => exact ih (key d n s u h)

/-- What is an exchange for a state is one for its twin. -/
theorem Twin.exchanged {u t : State} (h : Twin s u) {f : BitVec 8} {r : Addr} (g : Exchanged f r u t) : Exchanged f r s t := by
  obtain ⟨g1, g2, g3, g4, g5, g6, g7, g8, g9, g10⟩ := g
  have hc : u.xpw.cond = s.xpw.cond := by rw [h.xpw]
  simp only [h.xpw, h.view, h.mem, h.sws, h.getX, h.sequence.2] at *
  exact ⟨⟨by rw [g1.mtf, h.xpw], by rw [g1.prf, h.xpw], by rw [g1.ipf, h.xpw], by rw [g1.ovf, h.xpw], by simpa [h.xpw] using g1.cond,
    by rw [g1.ra, h.xpw], by rw [g1.xa, h.xpw], by rw [g1.fl, h.xpw], g1.p⟩, g2, g3, g4, g5, g6, g7, g8, g9, h.system.trans g10⟩

/-- What is the beginning of an exchange for a state is one for its twin. -/
theorem Twin.begun {u t : State} (h : Twin s u) {f : BitVec 8} {r : Addr} (g : Begun f r u t) : Begun f r s t := by
  obtain ⟨⟨w, g1, g0⟩, g2, g3, g4, g5, g6, g7, g8, g9⟩ := g
  refine ⟨⟨w, ⟨by rw [g1.mtf, h.xpw], by rw [g1.prf, h.xpw], by rw [g1.ipf, h.xpw], by rw [g1.ovf, h.xpw], by simpa [h.xpw] using g1.cond,
    by rw [g1.ra, h.xpw], by rw [g1.xa, h.xpw], by rw [g1.fl, h.xpw], g1.p⟩, by rw [g0, h.xpw]⟩, ?_, ?_, ?_, ?_, ?_, g7, g8,
    h.system.trans g9⟩
  · rw [g2, h.sequence.2]
  · exact fun r => by rw [g3, h.getX]
  · rw [g4, h.xpw]
  · rw [g5.1, g5.2, h.p, h.pp]
    exact ⟨rfl, rfl⟩
  · exact ⟨fun a => by rw [g6.1, h.mem], by rw [g6.2, h.sws]⟩

/-- Taking an exception after a draw. -/
theorem exchanges_exchange {u : State} (h : Twin s u) (f : BitVec 8) (r : Addr) : Exchanges f r s (u.exchange f r) := by
  have g := u.exchange_exchanges f r
  refine ⟨fun hs => (h.await allRegs).exchanged (g.1 ?_), fun hs => (h.await allRegs).begun (g.2 ?_)⟩
  · rwa [h.system.script]
  · rwa [h.system.script]

/-- Raising a condition is one exchange. -/
theorem State.raise_eq (s : State) (c : Cond) : s.raise c = .next (s.exchange c.flag (savedP c s.p)) := rfl

/-- Every condition that an instruction raises stores P + 1. -/
theorem savedP_sync (p : Addr) : savedP .programCall p = p + 1 ∧ savedP .errorExit p = p + 1 ∧ savedP .dataLimit p = p + 1 ∧
    savedP .programLimit p = p + 1 ∧ savedP .overflow p = p + 1 := ⟨rfl, rfl, rfl, rfl, rfl⟩

/-- A relocated address. -/
theorem State.relocate_eq (s : State) (a : Addr) : s.relocate a = (256 * s.xpw.ra.toNat + a.toNat) % 2 ^ 20 := by
  have e : (s.xpw.ra ++ (0 : BitVec 8)).toNat = 256 * s.xpw.ra.toNat := by
    have := s.xpw.ra.isLt
    rw [BitVec.toNat_append]
    simp [Nat.shiftLeft_eq, Nat.mul_comm]
  unfold State.relocate
  rw [BitVec.toNat_add]
  congr 1
  rw [← e]
  rfl

/-- A reference to a word that exists. -/
theorem State.atWord_of_lt {a : Nat} {k : Nat → State → Answer} (h : a < Config.memWords) : s.atWord a k = k a s := if_pos h

/-- A reference to a word that does not exist. -/
theorem State.atWord_of_ge {a : Nat} {k : Nat → State → Answer} (h : Config.memWords ≤ a) :
    s.atWord a k = .fault (.noSuchWord a) := if_neg (Nat.not_lt.mpr h)

/-- A data reference beyond the field. -/
theorem State.dataRef_of_ge {a : Addr} {k : Nat → State → Answer} (h : 256 * s.xpw.fl.toNat ≤ a.toNat) :
    s.dataRef a k = s.raise .dataLimit := by
  unfold State.dataRef State.fieldLength Config.fieldUnit
  rw [if_pos (by omega)]

/-- A data reference inside the field, to a word that exists. -/
theorem State.dataRef_of_lt {a : Addr} {k : Nat → State → Answer} (h : a.toNat < 256 * s.xpw.fl.toNat)
    (hm : (256 * s.xpw.ra.toNat + a.toNat) % 2 ^ 20 < Config.memWords) :
    s.dataRef a k = k ((256 * s.xpw.ra.toNat + a.toNat) % 2 ^ 20) s := by
  unfold State.dataRef State.fieldLength Config.fieldUnit
  rw [if_neg (by omega), s.relocate_eq, State.atWord_of_lt hm]

/-- Everything a data reference can do. -/
theorem State.dataRef_cases (s : State) (a : Addr) (k : Nat → State → Answer) :
    (256 * s.xpw.fl.toNat ≤ a.toNat ∧ s.dataRef a k = s.raise .dataLimit) ∨
    (a.toNat < 256 * s.xpw.fl.toNat ∧ s.relocate a < Config.memWords ∧ s.dataRef a k = k (s.relocate a) s) ∨
    (∃ f, s.dataRef a k = .fault f) := by
  by_cases h : a.toNat < 256 * s.xpw.fl.toNat
  · by_cases hm : s.relocate a < Config.memWords
    · refine .inr (.inl ⟨h, hm, ?_⟩)
      rw [State.relocate_eq] at hm ⊢
      exact State.dataRef_of_lt h hm
    · refine .inr (.inr ⟨.noSuchWord (s.relocate a), ?_⟩)
      unfold State.dataRef State.fieldLength Config.fieldUnit
      rw [if_neg (by omega), State.atWord_of_ge (Nat.not_lt.mp hm)]
  · exact .inl ⟨Nat.not_lt.mp h, State.dataRef_of_ge (Nat.not_lt.mp h)⟩

/-- A program reference beyond the field while PRF is set. -/
theorem State.progRef_of_ge {a : Addr} {k : Nat → State → Answer} (hp : s.xpw.prf = true)
    (h : 256 * s.xpw.fl.toNat ≤ a.toNat) : s.progRef a k = s.raise .programLimit := by
  unfold State.progRef State.fieldLength Config.fieldUnit
  rw [if_pos hp, if_pos (by omega)]

/-- A program reference inside the field while PRF is set. -/
theorem State.progRef_of_lt {a : Addr} {k : Nat → State → Answer} (hp : s.xpw.prf = true)
    (h : a.toNat < 256 * s.xpw.fl.toNat) (hm : (256 * s.xpw.ra.toNat + a.toNat) % 2 ^ 20 < Config.memWords) :
    s.progRef a k = k ((256 * s.xpw.ra.toNat + a.toNat) % 2 ^ 20) s := by
  unfold State.progRef State.fieldLength Config.fieldUnit
  rw [if_pos hp, if_neg (by omega), s.relocate_eq, State.atWord_of_lt hm]

/-- An absolute program reference. -/
theorem State.progRef_absolute {a : Addr} {k : Nat → State → Answer} (hp : s.xpw.prf = false)
    (hm : a.toNat < Config.memWords) : s.progRef a k = k a.toNat s := by
  unfold State.progRef
  rw [if_neg (by simp [hp]), State.atWord_of_lt hm]

/-- Everything a program reference can do. -/
theorem State.progRef_cases (s : State) (a : Addr) (k : Nat → State → Answer) :
    s.progRef a k = s.raise .programLimit ∨ (∃ b, b < Config.memWords ∧ s.progRef a k = k b s) ∨ (∃ f, s.progRef a k = .fault f) := by
  unfold State.progRef State.atWord
  split_ifs with h1 h2 h3 h4
  · exact .inl rfl
  · exact .inr (.inl ⟨_, h3, rfl⟩)
  · exact .inr (.inr ⟨_, rfl⟩)
  · exact .inr (.inl ⟨_, h4, rfl⟩)
  · exact .inr (.inr ⟨_, rfl⟩)

/-- A floating result that raises nothing. -/
theorem State.deliverFloat_next {d : Reg} {r : Word} (h : s.xpw.ovf = false ∨ inRange r = true) :
    s.deliverFloat d r = .next ((s.setX d r).advance 1) := by
  unfold State.deliverFloat
  rw [if_neg]
  rcases h with h | h <;> simp [h]

/-- A floating result that raises Condition(52). -/
theorem State.deliverFloat_raise {d : Reg} {r : Word} (h : s.xpw.ovf = true) (hr : inRange r = false) :
    s.deliverFloat d r = (s.setX d r).raise .overflow := by
  unfold State.deliverFloat
  rw [if_pos (by simp [h, hr])]

/-- Everything delivering a floating result can do. -/
theorem State.deliverFloat_cases (s : State) (d : Reg) (r : Word) :
    (s.xpw.ovf = true ∧ inRange r = false ∧ s.deliverFloat d r = (s.setX d r).raise .overflow) ∨
    s.deliverFloat d r = .next ((s.setX d r).advance 1) := by
  by_cases h : s.xpw.ovf = true ∧ inRange r = false
  · exact .inl ⟨h.1, h.2, State.deliverFloat_raise h.1 h.2⟩
  · refine .inr (State.deliverFloat_next ?_)
    cases h1 : s.xpw.ovf <;> cases h2 : inRange r <;> simp_all

end Sys2Proof.Machine
end

