-- ==== Sys2Proof/Laws/Fetch.lean ====
section
/-! SUPPORT. What fetching can do, and what it does to the instruction word stack. -/

namespace Sys2Proof.Machine

/-- Entering the stack can only leave it, or put the entry in front of what is kept of it. -/
theorem enterStack_cases (l : List StackEntry) (e : StackEntry) :
    ((∃ d ∈ l, d.addr = e.addr) ∧ enterStack l e = l) ∨
    ((∀ d ∈ l, d.addr ≠ e.addr) ∧ enterStack l e = e :: l.take 11) := by
  unfold enterStack
  by_cases h : ∃ d ∈ l, d.addr = e.addr
  · exact .inl ⟨h, if_pos (by simpa using h)⟩
  · refine .inr ⟨fun d hd c => h ⟨d, hd, c⟩, ?_⟩
    rw [if_neg (by simpa using h)]
    rfl

/-- The stack stays within twelve entries. -/
theorem enterStack_length {l : List StackEntry} (h : l.length ≤ Config.iwsWords) (e : StackEntry) :
    (enterStack l e).length ≤ Config.iwsWords := by
  rcases enterStack_cases l e with ⟨_, q⟩ | ⟨_, q⟩ <;> rw [q]
  · exact h
  · simp [Config.iwsWords]

/-- No address is held twice. -/
theorem enterStack_nodup {l : List StackEntry} (h : (l.map (·.addr)).Nodup) (e : StackEntry) :
    ((enterStack l e).map (·.addr)).Nodup := by
  rcases enterStack_cases l e with ⟨_, q⟩ | ⟨n, q⟩ <;> rw [q]
  · exact h
  · rw [List.map_cons, List.nodup_cons]
    refine ⟨fun c => ?_, (List.Sublist.map _ (List.take_sublist 11 l)).nodup h⟩
    obtain ⟨d, hd, q⟩ := List.mem_map.mp c
    exact n d (List.mem_of_mem_take hd) q

/-- What the stack holds was there, or is the entry. -/
theorem mem_enterStack {l : List StackEntry} {e d : StackEntry} (h : d ∈ enterStack l e) : d ∈ l ∨ d = e := by
  rcases enterStack_cases l e with ⟨_, q⟩ | ⟨_, q⟩ <;> rw [q] at h
  · exact .inl h
  · rcases List.mem_cons.mp h with h | h
    · exact .inr h
    · exact .inl (List.mem_of_mem_take h)

/-- The address entered is held. -/
theorem enterStack_holds (l : List StackEntry) (e : StackEntry) : ∃ d ∈ enterStack l e, d.addr = e.addr := by
  rcases enterStack_cases l e with ⟨⟨d, hd, q⟩, r⟩ | ⟨_, r⟩ <;> rw [r]
  · exact ⟨d, hd, q⟩
  · exact ⟨e, List.mem_cons_self .., rfl⟩

/-- The stack after execution has arrived at the word at P. -/
theorem State.enterCiw_iws (s : State) : s.enterCiw.iws =
    enterStack (enterStack (enterStack
      (s.iws.map fun e => if e.addr = s.p then { e with word := some (s.instructionWord s.p) } else e)
      ⟨s.p, some (s.instructionWord s.p)⟩) ⟨s.p + 1, none⟩) ⟨s.p + 2, none⟩ := rfl

/-- The stack stays within twelve entries. -/
theorem State.enterCiw_length (s : State) (h : s.iws.length ≤ Config.iwsWords) : s.enterCiw.iws.length ≤ Config.iwsWords :=
  enterStack_length (enterStack_length (enterStack_length (by simpa using h) _) _) _

/-- No address is held twice. -/
theorem State.enterCiw_nodup (s : State) (h : (s.iws.map (·.addr)).Nodup) : (s.enterCiw.iws.map (·.addr)).Nodup := by
  refine enterStack_nodup (enterStack_nodup (enterStack_nodup ?_ _) _) _
  rw [List.map_map]
  convert h using 2
  funext e
  simp only [Function.comp]
  split <;> rfl

/-- The word at an address that the IAS does not hold comes from memory. -/
theorem State.instructionWord_of_absent {s : State} {a : Addr} (h : ∀ e ∈ s.iws, e.addr ≠ a) :
    s.instructionWord a = s.view (s.progAddr a) := by
  have : s.iws.find? (fun e => e.addr = a) = none := by simpa using h
  unfold State.instructionWord
  rw [this]

/-- The word at an address that the IAS holds once is the copy, if it has been read, and otherwise comes from memory. -/
theorem State.instructionWord_of_held {s : State} {a : Addr} {e : StackEntry} (h : e ∈ s.iws) (ha : e.addr = a)
    (hu : ∀ d ∈ s.iws, d.addr = a → d = e) : s.instructionWord a = e.word.getD (s.view (s.progAddr a)) := by
  have : s.iws.find? (fun e => e.addr = a) = some e := by
    cases hf : s.iws.find? (fun e => e.addr = a) with
    | none => exact absurd ha (by simpa using List.find?_eq_none.mp hf e h)
    | some d => rw [hu d (List.mem_of_find?_eq_some hf) (by simpa using List.find?_some hf)]
  unfold State.instructionWord
  rw [this]
  obtain ⟨b, w⟩ := e
  cases w <;> rfl

/-- Four parcels of a word always begin with an instruction. -/
theorem decode_parcelsOf (w : Word) : ∃ i rest, decode (parcelsOf w) = .ok (i, rest) := by
  unfold parcelsOf decode
  dsimp only
  split <;> exact ⟨_, _, rfl⟩

/-- Everything that fetching can do: run an instruction in the state it found or in the one with the word at P in CIW; raise
Condition(54); or stop. -/
theorem fetch_cases (s : State) :
    (∃ i u, fetch s = .run i u ∧ ((s.pp ≠ 0 ∧ u = s) ∨ (s.pp = 0 ∧ u = s.enterCiw))) ∨
    fetch s = .done (s.raise .programLimit) ∨ (∃ f, fetch s = .done (.fault f)) ∨ ∃ r, fetch s = .done (.refused r) := by
  have key : ∀ u, (∃ i, issue u = .run i u) ∨ ∃ r, issue u = .done (.refused r) := by
    intro u
    unfold issue
    split
    · exact .inl ⟨_, rfl⟩
    · exact .inr ⟨_, rfl⟩
  unfold fetch
  split_ifs with h1 h2 h3
  · exact .inr (.inl rfl)
  · rcases key s.enterCiw with ⟨i, h⟩ | ⟨r, h⟩
    · exact .inl ⟨i, _, h, .inr ⟨h1, rfl⟩⟩
    · exact .inr (.inr (.inr ⟨r, h⟩))
  · exact .inr (.inr (.inl ⟨_, rfl⟩))
  · rcases key s with ⟨i, h⟩ | ⟨r, h⟩
    · exact .inl ⟨i, _, h, .inl ⟨h1, rfl⟩⟩
    · exact .inr (.inr (.inr ⟨r, h⟩))

end Sys2Proof.Machine
end

