-- ==== Sys2Proof/Laws/PerInstr.lean ====
section
/-! SUPPORT. What holds of every instruction as syntax, one lemma per constructor. -/

namespace Sys2Proof

/-- The encoder writes as many parcels as the instruction has (30_encoding.md R112, R121). -/
def Laws.EncodeLength.Statement (i : Instr) : Prop := (encode i).length = i.parcels

theorem Laws.EncodeLength.err00 : Laws.EncodeLength.Statement (.err00) := rfl
theorem Laws.EncodeLength.and (j : Reg) (k : Reg) : Laws.EncodeLength.Statement (.and j k) := rfl
theorem Laws.EncodeLength.or (j : Reg) (k : Reg) : Laws.EncodeLength.Statement (.or j k) := rfl
theorem Laws.EncodeLength.xor (j : Reg) (k : Reg) : Laws.EncodeLength.Statement (.xor j k) := rfl
theorem Laws.EncodeLength.copy (j : Reg) (k : Reg) : Laws.EncodeLength.Statement (.copy j k) := rfl
theorem Laws.EncodeLength.copyc (j : Reg) (k : Reg) : Laws.EncodeLength.Statement (.copyc j k) := rfl
theorem Laws.EncodeLength.shl (j : Reg) (k : Reg) : Laws.EncodeLength.Statement (.shl j k) := rfl
theorem Laws.EncodeLength.shr (j : Reg) (k : Reg) : Laws.EncodeLength.Statement (.shr j k) := rfl
theorem Laws.EncodeLength.fdpadd (j : Reg) (k : Reg) : Laws.EncodeLength.Statement (.fdpadd j k) := rfl
theorem Laws.EncodeLength.fdpsub (j : Reg) (k : Reg) : Laws.EncodeLength.Statement (.fdpsub j k) := rfl
theorem Laws.EncodeLength.fdiv (j : Reg) (k : Reg) : Laws.EncodeLength.Statement (.fdiv j k) := rfl
theorem Laws.EncodeLength.pop (j : Reg) (k : Reg) : Laws.EncodeLength.Statement (.pop j k) := rfl
theorem Laws.EncodeLength.fdpmul (j : Reg) (k : Reg) : Laws.EncodeLength.Statement (.fdpmul j k) := rfl
theorem Laws.EncodeLength.imul (j : Reg) (k : Reg) : Laws.EncodeLength.Statement (.imul j k) := rfl
theorem Laws.EncodeLength.err0e : Laws.EncodeLength.Statement (.err0e) := rfl
theorem Laws.EncodeLength.pass : Laws.EncodeLength.Statement (.pass) := rfl
theorem Laws.EncodeLength.setk (j : Reg) (k : Reg) : Laws.EncodeLength.Statement (.setk j k) := rfl
theorem Laws.EncodeLength.setnk (j : Reg) (k : Reg) : Laws.EncodeLength.Statement (.setnk j k) := rfl
theorem Laws.EncodeLength.addk (j : Reg) (k : Reg) : Laws.EncodeLength.Statement (.addk j k) := rfl
theorem Laws.EncodeLength.subk (j : Reg) (k : Reg) : Laws.EncodeLength.Statement (.subk j k) := rfl
theorem Laws.EncodeLength.unpc (j : Reg) (k : Reg) : Laws.EncodeLength.Statement (.unpc j k) := rfl
theorem Laws.EncodeLength.unpe (j : Reg) (k : Reg) : Laws.EncodeLength.Statement (.unpe j k) := rfl
theorem Laws.EncodeLength.pack (j : Reg) (k : Reg) : Laws.EncodeLength.Statement (.pack j k) := rfl
theorem Laws.EncodeLength.neg (j : Reg) (k : Reg) : Laws.EncodeLength.Statement (.neg j k) := rfl
theorem Laws.EncodeLength.bsc : Laws.EncodeLength.Statement (.bsc) := rfl
theorem Laws.EncodeLength.esc : Laws.EncodeLength.Statement (.esc) := rfl
theorem Laws.EncodeLength.chin (j : Reg) (k : Reg) : Laws.EncodeLength.Statement (.chin j k) := rfl
theorem Laws.EncodeLength.chout (j : Reg) (k : Reg) : Laws.EncodeLength.Statement (.chout j k) := rfl
theorem Laws.EncodeLength.rcr (j : Reg) : Laws.EncodeLength.Statement (.rcr j) := rfl
theorem Laws.EncodeLength.lxa (k : Reg) : Laws.EncodeLength.Statement (.lxa k) := rfl
theorem Laws.EncodeLength.err1e : Laws.EncodeLength.Statement (.err1e) := rfl
theorem Laws.EncodeLength.err1f : Laws.EncodeLength.Statement (.err1f) := rfl
theorem Laws.EncodeLength.stk (j : Reg) (K : Addr) : Laws.EncodeLength.Statement (.stk j K) := rfl
theorem Laws.EncodeLength.stx (j : Reg) (k : Reg) : Laws.EncodeLength.Statement (.stx j k) := rfl
theorem Laws.EncodeLength.rsk (j : Reg) (K : Addr) : Laws.EncodeLength.Statement (.rsk j K) := rfl
theorem Laws.EncodeLength.rsx (j : Reg) (k : Reg) : Laws.EncodeLength.Statement (.rsx j k) := rfl
theorem Laws.EncodeLength.ldk (j : Reg) (K : Addr) : Laws.EncodeLength.Statement (.ldk j K) := rfl
theorem Laws.EncodeLength.ldx (j : Reg) (k : Reg) : Laws.EncodeLength.Statement (.ldx j k) := rfl
theorem Laws.EncodeLength.rpk (j : Reg) (K : Addr) : Laws.EncodeLength.Statement (.rpk j K) := rfl
theorem Laws.EncodeLength.rpx (j : Reg) (k : Reg) : Laws.EncodeLength.Statement (.rpx j k) := rfl
theorem Laws.EncodeLength.rpp (j : Reg) (K : Addr) : Laws.EncodeLength.Statement (.rpp j K) := rfl
theorem Laws.EncodeLength.tpk (j : Reg) (K : Addr) : Laws.EncodeLength.Statement (.tpk j K) := rfl
theorem Laws.EncodeLength.tk (j : Reg) (K : Addr) : Laws.EncodeLength.Statement (.tk j K) := rfl
theorem Laws.EncodeLength.txa (j : Reg) (k : Reg) : Laws.EncodeLength.Statement (.txa j k) := rfl
theorem Laws.EncodeLength.sil (k : Reg) : Laws.EncodeLength.Statement (.sil k) := rfl
theorem Laws.EncodeLength.cil (k : Reg) : Laws.EncodeLength.Statement (.cil k) := rfl
theorem Laws.EncodeLength.ril (j : Reg) (k : Reg) : Laws.EncodeLength.Statement (.ril j k) := rfl
theorem Laws.EncodeLength.rtc (j : Reg) (k : Reg) : Laws.EncodeLength.Statement (.rtc j k) := rfl
theorem Laws.EncodeLength.jp (K : Addr) : Laws.EncodeLength.Statement (.jp K) := rfl
theorem Laws.EncodeLength.callp (j : Reg) (K : Addr) : Laws.EncodeLength.Statement (.callp j K) := rfl
theorem Laws.EncodeLength.jir (j : Reg) (K : Addr) : Laws.EncodeLength.Statement (.jir j K) := rfl
theorem Laws.EncodeLength.jnr (j : Reg) (K : Addr) : Laws.EncodeLength.Statement (.jnr j K) := rfl
theorem Laws.EncodeLength.jz (j : Reg) (K : Addr) : Laws.EncodeLength.Statement (.jz j K) := rfl
theorem Laws.EncodeLength.jnz (j : Reg) (K : Addr) : Laws.EncodeLength.Statement (.jnz j K) := rfl
theorem Laws.EncodeLength.jpl (j : Reg) (K : Addr) : Laws.EncodeLength.Statement (.jpl j K) := rfl
theorem Laws.EncodeLength.jng (j : Reg) (K : Addr) : Laws.EncodeLength.Statement (.jng j K) := rfl
theorem Laws.EncodeLength.callk (j : Reg) (K : Addr) : Laws.EncodeLength.Statement (.callk j K) := rfl
theorem Laws.EncodeLength.callx (j : Reg) (k : Reg) : Laws.EncodeLength.Statement (.callx j k) := rfl
theorem Laws.EncodeLength.lcallk (j : Reg) (K : Addr) : Laws.EncodeLength.Statement (.lcallk j K) := rfl
theorem Laws.EncodeLength.lcallx (j : Reg) (k : Reg) : Laws.EncodeLength.Statement (.lcallx j k) := rfl
theorem Laws.EncodeLength.ret (j : Reg) (k : Reg) : Laws.EncodeLength.Statement (.ret j k) := rfl
theorem Laws.EncodeLength.lret (j : Reg) (k : Reg) : Laws.EncodeLength.Statement (.lret j k) := rfl
theorem Laws.EncodeLength.jk (K : Addr) : Laws.EncodeLength.Statement (.jk K) := rfl
theorem Laws.EncodeLength.xj : Laws.EncodeLength.Statement (.xj) := rfl
theorem Laws.EncodeLength.save (j : Reg) (n : BitVec 6) : Laws.EncodeLength.Statement (.save j n) := rfl
theorem Laws.EncodeLength.blank (j : Reg) (n : BitVec 6) : Laws.EncodeLength.Statement (.blank j n) := rfl
theorem Laws.EncodeLength.roln (j : Reg) (n : BitVec 6) : Laws.EncodeLength.Statement (.roln j n) := rfl
theorem Laws.EncodeLength.sarn (j : Reg) (n : BitVec 6) : Laws.EncodeLength.Statement (.sarn j n) := rfl
theorem Laws.EncodeLength.iaddk (i : Reg) (j : Reg) (K : Addr) : Laws.EncodeLength.Statement (.iaddk i j K) := rfl
theorem Laws.EncodeLength.iadd (i : Reg) (j : Reg) (k : Reg) : Laws.EncodeLength.Statement (.iadd i j k) := rfl
theorem Laws.EncodeLength.isub (i : Reg) (j : Reg) (k : Reg) : Laws.EncodeLength.Statement (.isub i j k) := rfl
theorem Laws.EncodeLength.fadd (i : Reg) (j : Reg) (k : Reg) : Laws.EncodeLength.Statement (.fadd i j k) := rfl
theorem Laws.EncodeLength.fsub (i : Reg) (j : Reg) (k : Reg) : Laws.EncodeLength.Statement (.fsub i j k) := rfl
theorem Laws.EncodeLength.fmul (i : Reg) (j : Reg) (k : Reg) : Laws.EncodeLength.Statement (.fmul i j k) := rfl
theorem Laws.EncodeLength.brb (i : Reg) (j : Reg) (k : Reg) : Laws.EncodeLength.Statement (.brb i j k) := rfl
theorem Laws.EncodeLength.ldxk (i : Reg) (j : Reg) (K : Addr) : Laws.EncodeLength.Statement (.ldxk i j K) := rfl
theorem Laws.EncodeLength.ldxx (i : Reg) (j : Reg) (k : Reg) : Laws.EncodeLength.Statement (.ldxx i j k) := rfl
theorem Laws.EncodeLength.stxk (i : Reg) (j : Reg) (K : Addr) : Laws.EncodeLength.Statement (.stxk i j K) := rfl
theorem Laws.EncodeLength.stxx (i : Reg) (j : Reg) (k : Reg) : Laws.EncodeLength.Statement (.stxx i j k) := rfl

end Sys2Proof
end

