-- ==== Sys2Proof/Tests/Slice0.lean ====
section
/-! SUPPORT. Small tests. Expected values are the spec's: the worked examples S1 to S15 and the vectors of 95_test_vectors.md
section 2, or words written out from the encoding tables of 30_encoding.md. The last section shows that the hypotheses of each
statement can be met, clause by clause, at the ends of their ranges. -/

namespace Sys2Proof.Machine.Tests

/-! ### Well-formedness (30_encoding.md R118) -/

theorem test_refuses_two_parcels_at_three : (Instr.stk 1 0x10).fitsAt 3 = false ∧ (Instr.stk 1 0x10).fitsAt 2 = true := by decide
theorem test_one_parcel_fits_at_three : Instr.pass.fitsAt 3 = true := by decide
theorem test_refuses_five_parcels : fillsWord [.jp 5, .pass, .jp 5] = false := by decide
theorem test_refuses_three_parcels : fillsWord [.jp 5, .pass] = false := by decide
theorem test_arrangements : fillsWord [.pass, .pass, .pass, .pass] = true ∧ fillsWord [.jp 5, .jp 5] = true ∧
    fillsWord [.pass, .jp 5, .pass] = true ∧ fillsWord [.pass, .pass, .jp 5] = true ∧ fillsWord [.jp 5, .pass, .pass] = true := by decide
theorem test_missing_second_parcel : decode [0x2010] = .error .secondParcelMissing := rfl
theorem test_no_parcel : decode [] = .error .noParcel := rfl

/-! ### Decoding, a word of each row (30_encoding.md R113 to R116, R120; 95_test_vectors.md 2.1) -/

theorem decodes_err00 : decode [0x00FF] = .ok (.err00, []) ∧ encode (.err00) = [0x0000] := ⟨rfl, rfl⟩
theorem decodes_and : decode [0x013C] = .ok (.and 3 12, []) ∧ encode (.and 3 12) = [0x013C] := ⟨rfl, rfl⟩
theorem decodes_or : decode [0x0212] = .ok (.or 1 2, []) ∧ encode (.or 1 2) = [0x0212] := ⟨rfl, rfl⟩
theorem decodes_xor : decode [0x0344] = .ok (.xor 4 4, []) ∧ encode (.xor 4 4) = [0x0344] := ⟨rfl, rfl⟩
theorem decodes_copy : decode [0x0456] = .ok (.copy 5 6, []) ∧ encode (.copy 5 6) = [0x0456] := ⟨rfl, rfl⟩
theorem decodes_copyc : decode [0x0512] = .ok (.copyc 1 2, []) ∧ encode (.copyc 1 2) = [0x0512] := ⟨rfl, rfl⟩
theorem decodes_shl : decode [0x0612] = .ok (.shl 1 2, []) ∧ encode (.shl 1 2) = [0x0612] := ⟨rfl, rfl⟩
theorem decodes_shr : decode [0x0712] = .ok (.shr 1 2, []) ∧ encode (.shr 1 2) = [0x0712] := ⟨rfl, rfl⟩
theorem decodes_fdpadd : decode [0x0889] = .ok (.fdpadd 8 9, []) ∧ encode (.fdpadd 8 9) = [0x0889] := ⟨rfl, rfl⟩
theorem decodes_fdpsub : decode [0x099A] = .ok (.fdpsub 9 10, []) ∧ encode (.fdpsub 9 10) = [0x099A] := ⟨rfl, rfl⟩
theorem decodes_fdiv : decode [0x0A12] = .ok (.fdiv 1 2, []) ∧ encode (.fdiv 1 2) = [0x0A12] := ⟨rfl, rfl⟩
theorem decodes_pop : decode [0x0BCB] = .ok (.pop 12 11, []) ∧ encode (.pop 12 11) = [0x0BCB] := ⟨rfl, rfl⟩
theorem decodes_fdpmul : decode [0x0CDE] = .ok (.fdpmul 13 14, []) ∧ encode (.fdpmul 13 14) = [0x0CDE] := ⟨rfl, rfl⟩
theorem decodes_imul : decode [0x0DF1] = .ok (.imul 15 1, []) ∧ encode (.imul 15 1) = [0x0DF1] := ⟨rfl, rfl⟩
theorem decodes_err0e : decode [0x0E12] = .ok (.err0e, []) ∧ encode (.err0e) = [0x0E00] := ⟨rfl, rfl⟩
theorem decodes_pass : decode [0x0FFF] = .ok (.pass, []) ∧ encode (.pass) = [0x0F00] := ⟨rfl, rfl⟩
theorem decodes_setk : decode [0x1059] = .ok (.setk 5 9, []) ∧ encode (.setk 5 9) = [0x1059] := ⟨rfl, rfl⟩
theorem decodes_setnk : decode [0x1159] = .ok (.setnk 5 9, []) ∧ encode (.setnk 5 9) = [0x1159] := ⟨rfl, rfl⟩
theorem decodes_addk : decode [0x1221] = .ok (.addk 2 1, []) ∧ encode (.addk 2 1) = [0x1221] := ⟨rfl, rfl⟩
theorem decodes_subk : decode [0x1331] = .ok (.subk 3 1, []) ∧ encode (.subk 3 1) = [0x1331] := ⟨rfl, rfl⟩
theorem decodes_unpc : decode [0x1412] = .ok (.unpc 1 2, []) ∧ encode (.unpc 1 2) = [0x1412] := ⟨rfl, rfl⟩
theorem decodes_unpe : decode [0x1512] = .ok (.unpe 1 2, []) ∧ encode (.unpe 1 2) = [0x1512] := ⟨rfl, rfl⟩
theorem decodes_pack : decode [0x1612] = .ok (.pack 1 2, []) ∧ encode (.pack 1 2) = [0x1612] := ⟨rfl, rfl⟩
theorem decodes_neg : decode [0x1712] = .ok (.neg 1 2, []) ∧ encode (.neg 1 2) = [0x1712] := ⟨rfl, rfl⟩
theorem decodes_bsc : decode [0x1834] = .ok (.bsc, []) ∧ encode (.bsc) = [0x1800] := ⟨rfl, rfl⟩
theorem decodes_esc : decode [0x1956] = .ok (.esc, []) ∧ encode (.esc) = [0x1900] := ⟨rfl, rfl⟩
theorem decodes_chin : decode [0x1A12] = .ok (.chin 1 2, []) ∧ encode (.chin 1 2) = [0x1A12] := ⟨rfl, rfl⟩
theorem decodes_chout : decode [0x1B34] = .ok (.chout 3 4, []) ∧ encode (.chout 3 4) = [0x1B34] := ⟨rfl, rfl⟩
theorem decodes_rcr : decode [0x1C1F] = .ok (.rcr 1, []) ∧ encode (.rcr 1) = [0x1C10] := ⟨rfl, rfl⟩
theorem decodes_lxa : decode [0x1DF2] = .ok (.lxa 2, []) ∧ encode (.lxa 2) = [0x1D02] := ⟨rfl, rfl⟩
theorem decodes_err1e : decode [0x1E78] = .ok (.err1e, []) ∧ encode (.err1e) = [0x1E00] := ⟨rfl, rfl⟩
theorem decodes_err1f : decode [0x1FFF] = .ok (.err1f, []) ∧ encode (.err1f) = [0x1F00] := ⟨rfl, rfl⟩
theorem decodes_stk : decode [0x2010, 0x0010] = .ok (.stk 1 0x00010, []) ∧ encode (.stk 1 0x00010) = [0x2010, 0x0010] := ⟨rfl, rfl⟩
theorem decodes_stx : decode [0x2112] = .ok (.stx 1 2, []) ∧ encode (.stx 1 2) = [0x2112] := ⟨rfl, rfl⟩
theorem decodes_rsk : decode [0x2210, 0x0020] = .ok (.rsk 1 0x00020, []) ∧ encode (.rsk 1 0x00020) = [0x2210, 0x0020] := ⟨rfl, rfl⟩
theorem decodes_rsx : decode [0x2367] = .ok (.rsx 6 7, []) ∧ encode (.rsx 6 7) = [0x2367] := ⟨rfl, rfl⟩
theorem decodes_ldk : decode [0x2410, 0x0123] = .ok (.ldk 1 0x00123, []) ∧ encode (.ldk 1 0x00123) = [0x2410, 0x0123] := ⟨rfl, rfl⟩
theorem decodes_ldx : decode [0x2578] = .ok (.ldx 7 8, []) ∧ encode (.ldx 7 8) = [0x2578] := ⟨rfl, rfl⟩
theorem decodes_rpk : decode [0x2618, 0x0040] = .ok (.rpk 1 0x80040, []) ∧ encode (.rpk 1 0x80040) = [0x2618, 0x0040] := ⟨rfl, rfl⟩
theorem decodes_rpx : decode [0x2791] = .ok (.rpx 9 1, []) ∧ encode (.rpx 9 1) = [0x2791] := ⟨rfl, rfl⟩
theorem decodes_rpp : decode [0x2810, 0x0003] = .ok (.rpp 1 3, []) ∧ encode (.rpp 1 3) = [0x2810, 0x0003] := ⟨rfl, rfl⟩
theorem decodes_tpk : decode [0x2910, 0x0010] = .ok (.tpk 1 0x00010, []) ∧ encode (.tpk 1 0x00010) = [0x2910, 0x0010] := ⟨rfl, rfl⟩
theorem decodes_tk : decode [0x2A1F, 0xFFFC] = .ok (.tk 1 0xFFFFC, []) ∧ encode (.tk 1 0xFFFFC) = [0x2A1F, 0xFFFC] := ⟨rfl, rfl⟩
theorem decodes_txa : decode [0x2B18] = .ok (.txa 1 8, []) ∧ encode (.txa 1 8) = [0x2B18] := ⟨rfl, rfl⟩
theorem decodes_sil : decode [0x2C92] = .ok (.sil 2, []) ∧ encode (.sil 2) = [0x2C02] := ⟨rfl, rfl⟩
theorem decodes_cil : decode [0x2DA2] = .ok (.cil 2, []) ∧ encode (.cil 2) = [0x2D02] := ⟨rfl, rfl⟩
theorem decodes_ril : decode [0x2E18] = .ok (.ril 1 8, []) ∧ encode (.ril 1 8) = [0x2E18] := ⟨rfl, rfl⟩
theorem decodes_rtc : decode [0x2F17] = .ok (.rtc 1 7, []) ∧ encode (.rtc 1 7) = [0x2F17] := ⟨rfl, rfl⟩
theorem decodes_jp : decode [0x305F, 0xFFFD] = .ok (.jp 0xFFFFD, []) ∧ encode (.jp 0xFFFFD) = [0x300F, 0xFFFD] := ⟨rfl, rfl⟩
theorem decodes_callp : decode [0x31F0, 0x0020] = .ok (.callp 15 0x00020, []) ∧ encode (.callp 15 0x00020) = [0x31F0, 0x0020] := ⟨rfl, rfl⟩
theorem decodes_jir : decode [0x3210, 0x0004] = .ok (.jir 1 4, []) ∧ encode (.jir 1 4) = [0x3210, 0x0004] := ⟨rfl, rfl⟩
theorem decodes_jnr : decode [0x331F, 0xFFFE] = .ok (.jnr 1 0xFFFFE, []) ∧ encode (.jnr 1 0xFFFFE) = [0x331F, 0xFFFE] := ⟨rfl, rfl⟩
theorem decodes_jz : decode [0x3420, 0x0005] = .ok (.jz 2 5, []) ∧ encode (.jz 2 5) = [0x3420, 0x0005] := ⟨rfl, rfl⟩
theorem decodes_jnz : decode [0x351F, 0xFFFE] = .ok (.jnz 1 0xFFFFE, []) ∧ encode (.jnz 1 0xFFFFE) = [0x351F, 0xFFFE] := ⟨rfl, rfl⟩
theorem decodes_jpl : decode [0x3630, 0x0001] = .ok (.jpl 3 1, []) ∧ encode (.jpl 3 1) = [0x3630, 0x0001] := ⟨rfl, rfl⟩
theorem decodes_jng : decode [0x3730, 0x0002] = .ok (.jng 3 2, []) ∧ encode (.jng 3 2) = [0x3730, 0x0002] := ⟨rfl, rfl⟩
theorem decodes_callk : decode [0x38E0, 0x0500] = .ok (.callk 14 0x00500, []) ∧ encode (.callk 14 0x00500) = [0x38E0, 0x0500] := ⟨rfl, rfl⟩
theorem decodes_callx : decode [0x39F2] = .ok (.callx 15 2, []) ∧ encode (.callx 15 2) = [0x39F2] := ⟨rfl, rfl⟩
theorem decodes_lcallk : decode [0x3AF0, 0x4000] = .ok (.lcallk 15 0x04000, []) ∧ encode (.lcallk 15 0x04000) = [0x3AF0, 0x4000] := ⟨rfl, rfl⟩
theorem decodes_lcallx : decode [0x3BF3] = .ok (.lcallx 15 3, []) ∧ encode (.lcallx 15 3) = [0x3BF3] := ⟨rfl, rfl⟩
theorem decodes_ret : decode [0x3CF1] = .ok (.ret 15 1, []) ∧ encode (.ret 15 1) = [0x3CF1] := ⟨rfl, rfl⟩
theorem decodes_lret : decode [0x3DF1] = .ok (.lret 15 1, []) ∧ encode (.lret 15 1) = [0x3DF1] := ⟨rfl, rfl⟩
theorem decodes_jk : decode [0x3EA2, 0x0400] = .ok (.jk 0x20400, []) ∧ encode (.jk 0x20400) = [0x3E02, 0x0400] := ⟨rfl, rfl⟩
theorem decodes_xj : decode [0x3FAB] = .ok (.xj, []) ∧ encode (.xj) = [0x3F00] := ⟨rfl, rfl⟩
theorem decodes_save : decode [0x4324] = .ok (.save 2 52, []) ∧ encode (.save 2 52) = [0x4324] := ⟨rfl, rfl⟩
theorem decodes_blank : decode [0x4428] = .ok (.blank 2 8, []) ∧ encode (.blank 2 8) = [0x4428] := ⟨rfl, rfl⟩
theorem decodes_roln : decode [0x4814] = .ok (.roln 1 4, []) ∧ encode (.roln 1 4) = [0x4814] := ⟨rfl, rfl⟩
theorem decodes_sarn : decode [0x4F7A] = .ok (.sarn 7 58, []) ∧ encode (.sarn 7 58) = [0x4F7A] := ⟨rfl, rfl⟩
theorem decodes_iaddk : decode [0x512F, 0xFFFC] = .ok (.iaddk 1 2 0xFFFFC, []) ∧ encode (.iaddk 1 2 0xFFFFC) = [0x512F, 0xFFFC] := ⟨rfl, rfl⟩
theorem decodes_iadd : decode [0x6123] = .ok (.iadd 1 2 3, []) ∧ encode (.iadd 1 2 3) = [0x6123] := ⟨rfl, rfl⟩
theorem decodes_isub : decode [0x7123] = .ok (.isub 1 2 3, []) ∧ encode (.isub 1 2 3) = [0x7123] := ⟨rfl, rfl⟩
theorem decodes_fadd : decode [0x8456] = .ok (.fadd 4 5 6, []) ∧ encode (.fadd 4 5 6) = [0x8456] := ⟨rfl, rfl⟩
theorem decodes_fsub : decode [0x9789] = .ok (.fsub 7 8 9, []) ∧ encode (.fsub 7 8 9) = [0x9789] := ⟨rfl, rfl⟩
theorem decodes_fmul : decode [0xAABC] = .ok (.fmul 10 11 12, []) ∧ encode (.fmul 10 11 12) = [0xAABC] := ⟨rfl, rfl⟩
theorem decodes_brb : decode [0xB223] = .ok (.brb 2 2 3, []) ∧ encode (.brb 2 2 3) = [0xB223] := ⟨rfl, rfl⟩
theorem decodes_ldxk : decode [0xC12F, 0xFFFD] = .ok (.ldxk 1 2 0xFFFFD, []) ∧ encode (.ldxk 1 2 0xFFFFD) = [0xC12F, 0xFFFD] := ⟨rfl, rfl⟩
theorem decodes_ldxx : decode [0xD123] = .ok (.ldxx 1 2 3, []) ∧ encode (.ldxx 1 2 3) = [0xD123] := ⟨rfl, rfl⟩
theorem decodes_stxk : decode [0xE120, 0x0004] = .ok (.stxk 1 2 4, []) ∧ encode (.stxk 1 2 4) = [0xE120, 0x0004] := ⟨rfl, rfl⟩
theorem decodes_stxx : decode [0xF123] = .ok (.stxx 1 2 3, []) ∧ encode (.stxx 1 2 3) = [0xF123] := ⟨rfl, rfl⟩

/-- A word of four 1-parcel instructions, and one of a 2-parcel and two 1-parcel instructions, parcel 0 in bits 63:48. -/
theorem test_parcels_of_words : parcelsOf 0x1010102010350F00 = [0x1010, 0x1020, 0x1035, 0x0F00] ∧
    decode (parcelsOf 0x201000100F000F00) = .ok (.stk 1 0x10, [0x0F00, 0x0F00]) := ⟨rfl, rfl⟩
theorem test_table_word : decodeTableWord 32 0x2010ABCD = some (.stk 1 0x0ABCD) ∧ decodeTableWord 16 0x4324 = some (.save 2 52) := ⟨rfl, rfl⟩

/-! ### Small states and what is looked at -/

/-- A machine with an XPW word, some registers, and some words of memory. -/
def machine (xpw : Word) (regs : List (Reg × Word)) (words : List (Nat × Word)) : State :=
  regs.foldl (fun s r => s.setX r.1 r.2)
    { State.reset with p := Xpw.unpackP xpw, xpw := Xpw.unpack xpw, mem := words.foldl (fun m c => m.write c.1 c.2) [] }

/-- Registers alone. -/
def regs (rs : List (Reg × Word)) : State := machine 0 rs []

/-- The program of 95_test_vectors.md 2.8 and 2.11: PRF = 1, RA = 004, XA = 02, FL = 002. -/
def user : List (Reg × Word) → List (Nat × Word) → State := machine 0x4000040200200000

/-- X register d of the next state. -/
def reg (d : Reg) : Answer → Option Word
  | .next t => some (t.getX d)
  | _ => none

/-- The memory word a of the next state. -/
def word (a : Nat) : Answer → Option Word
  | .next t => some (t.mem.read a)
  | _ => none

/-- The fault a step stops with. -/
def faultOf : Answer → Option Fault
  | .fault f => some f
  | _ => none

/-- P and PP of the next state. -/
def place : Answer → Option (Addr × Nat)
  | .next t => some (t.p, t.pp.val)
  | _ => none

/-- The XPW register of the next state, with P. -/
def xpwOf : Answer → Option Word
  | .next t => some (t.xpw.pack t.p)
  | _ => none

/-! ### Registers: worked examples S1 to S9 and vectors 2.2 to 2.7 -/

theorem test_and : reg 3 (exec (.and 3 12) (regs [(3, 0xFF00FF00FF00FF00), (12, 0x0FF00FF00FF00FF0)])) = some 0x0F000F000F000F00 := by decide
theorem test_and_s1 : reg 1 (exec (.and 1 2) (regs [(1, 0x5), (2, 0xC)])) = some 0x4 := by decide
theorem test_or : reg 1 (exec (.or 1 2) (regs [(1, 0xA), (2, 0xC)])) = some 0xE := by decide
theorem test_xor : reg 1 (exec (.xor 1 2) (regs [(1, 0xA), (2, 0xC)])) = some 0x6 := by decide
theorem test_xor_self : reg 4 (exec (.xor 4 4) (regs [(4, 0xAAAAAAAAAAAAAAAA)])) = some 0x0 := by decide
theorem test_copy : reg 5 (exec (.copy 5 6) (regs [(6, 0x0123456789ABCDEF)])) = some 0x0123456789ABCDEF := by decide
theorem test_copyc_self : reg 1 (exec (.copyc 1 1) (regs [(1, 0x5)])) = some 0xFFFFFFFFFFFFFFFA := by decide
theorem test_copyc_minus_zero : reg 1 (exec (.copyc 1 2) (regs [(2, 0x0)])) = some 0xFFFFFFFFFFFFFFFF := by decide
theorem test_shl_left : reg 1 (exec (.shl 1 2) (regs [(1, 0xB000000000000000), (2, 0x4)])) = some 0x000000000000000B := by decide
theorem test_shl_right : reg 1 (exec (.shl 1 2) (regs [(1, 0xC000000000000022), (2, 0xFFFFFFFFFFFFFFFC)])) = some 0xF800000000000004 := by decide
theorem test_shr_right : reg 1 (exec (.shr 1 2) (regs [(1, 0xB000000000000000), (2, 0x4)])) = some 0xFB00000000000000 := by decide
theorem test_shr_left : reg 1 (exec (.shr 1 2) (regs [(1, 0x6000000000000008), (2, 0xFFFFFFFFFFFFFFFD)])) = some 0x8000000000000021 := by decide
theorem test_pop : reg 1 (exec (.pop 1 2) (regs [(2, 0xF0F0000000000001)])) = some 0x9 := by decide
theorem test_pop_all : reg 1 (exec (.pop 1 1) (regs [(1, 0xFFFFFFFFFFFFFFFF)])) = some 0x40 := by decide
theorem test_imul_negative : reg 1 (exec (.imul 1 2) (regs [(1, 0xFFFFFFFFFFFFFFF8), (2, 0x6)])) = some 0xFFFFFFFFFFFFFFD5 := by decide
theorem test_imul_low_half : reg 1 (exec (.imul 1 2) (regs [(1, 0x0000FFFFFFFFFFFF), (2, 0x0000FFFFFFFFFFFF)])) = some 0xFFFE000000000001 := by decide
theorem test_setk : reg 5 (exec (.setk 5 9) (regs [])) = some 0x9 := by decide
theorem test_setnk : reg 5 (exec (.setnk 5 9) (regs [])) = some 0xFFFFFFFFFFFFFFF6 := by decide
theorem test_setnk_zero : reg 5 (exec (.setnk 5 0) (regs [])) = some 0xFFFFFFFFFFFFFFFF := by decide
theorem test_addk : reg 2 (exec (.addk 2 1) (regs [(2, 0x4)])) = some 0x5 := by decide
theorem test_addk_to_zero : reg 2 (exec (.addk 2 1) (regs [(2, 0xFFFFFFFFFFFFFFFE)])) = some 0x0 := by decide
theorem test_subk : reg 3 (exec (.subk 3 1) (regs [(3, 0x5)])) = some 0x4 := by decide
theorem test_subk_below_zero : reg 3 (exec (.subk 3 1) (regs [(3, 0x0)])) = some 0xFFFFFFFFFFFFFFFE := by decide
theorem test_unpc : reg 2 (exec (.unpc 1 2) (regs [(1, 0xE02F7FFFFFFFFFFF)])) = some 0xFFFF7FFFFFFFFFFF := by decide
theorem test_unpc_flagged : reg 2 (exec (.unpc 1 2) (regs [(1, 0x4000000000000005)])) = some 0x5 := by decide
theorem test_unpe : reg 2 (exec (.unpe 1 2) (regs [(1, 0xE02F7FFFFFFFFFFF)])) = some 0xFFFFFFFFFFFFFFD0 := by decide
theorem test_unpe_zero : reg 2 (exec (.unpe 1 2) (regs [(1, 0xFFFFFFFFFFFFFFFF)])) = some 0xFFFFFFFFFFFFE000 := by decide
theorem test_pack : reg 2 (exec (.pack 1 2) (regs [(1, 0x5), (2, 0xFFFFFFFFFFFFFFFC)])) = some 0xDFFAFFFFFFFFFFFC := by decide
theorem test_pack_minus_zero : reg 2 (exec (.pack 1 2) (regs [(1, 0xFFFFFFFFFFFFFFFF), (2, 0x3)])) = some 0x1FFF000000000003 := by decide
theorem test_neg : reg 1 (exec (.neg 1 2) (regs [(2, 0x5)])) = some 0xFFFFFFFFFFFFFFFA := by decide
theorem test_neg_minus_zero : reg 1 (exec (.neg 1 2) (regs [(2, 0xFFFFFFFFFFFFFFFF)])) = some 0x0 := by decide
theorem test_tk : reg 1 (exec (.tk 1 0xFFFFC) (regs [])) = some 0xFFFFFFFFFFFFFFFC := by decide
theorem test_tk_positive : reg 1 (exec (.tk 1 0x00064) (regs [])) = some 0x64 := by decide
theorem test_save : reg 2 (exec (.save 2 52) (regs [(2, 0xFFFFFFFFFFFFFFFF)])) = some 0x000FFFFFFFFFFFFF := by decide
theorem test_save_none : reg 2 (exec (.save 2 0) (regs [(2, 0xFFFFFFFFFFFFFFFF)])) = some 0x0 := by decide
theorem test_blank : reg 2 (exec (.blank 2 8) (regs [(2, 0x123456789ABCDEF0)])) = some 0x123456789ABCDE00 := by decide
theorem test_blank_all_but_one : reg 2 (exec (.blank 2 63) (regs [(2, 0xFFFFFFFFFFFFFFFF)])) = some 0x8000000000000000 := by decide
theorem test_roln : reg 1 (exec (.roln 1 4) (regs [(1, 0xB000000000000000)])) = some 0x000000000000000B := by decide
theorem test_roln_63 : reg 1 (exec (.roln 1 63) (regs [(1, 0x123456789ABCDEF0)])) = some 0x091A2B3C4D5E6F78 := by decide
theorem test_sarn : reg 7 (exec (.sarn 7 58) (regs [(7, 0x4000000000000007)])) = some 0x10 := by decide
theorem test_sarn_minus_zero : reg 7 (exec (.sarn 7 1) (regs [(7, 0xFFFFFFFFFFFFFFFE)])) = some 0xFFFFFFFFFFFFFFFF := by decide
theorem test_iaddk : reg 1 (exec (.iaddk 1 2 0xFFFFC) (regs [(2, 0xA)])) = some 0x7 := by decide
theorem test_iadd : reg 1 (exec (.iadd 1 2 3) (regs [(2, 0x5), (3, 0xFFFFFFFFFFFFFFFC)])) = some 0x2 := by decide
theorem test_iadd_double : reg 1 (exec (.iadd 1 1 1) (regs [(1, 0x7FFFFFFFFFFFFFFF)])) = some 0xFFFFFFFFFFFFFFFE := by decide
theorem test_isub : reg 1 (exec (.isub 1 2 3) (regs [(2, 0x3), (3, 0x5)])) = some 0xFFFFFFFFFFFFFFFD := by decide
theorem test_isub_overflow : reg 1 (exec (.isub 1 2 3) (regs [(2, 0x7FFFFFFFFFFFFFFF), (3, 0x8000000000000000)])) = some 0xFFFFFFFFFFFFFFFE := by decide
theorem test_fadd : reg 1 (exec (.fadd 1 2 3) (regs [(2, 0x1FD1C00000000000), (3, 0x1FCF800000000000)])) = some 0x1FD1E00000000000 := by decide
theorem test_fsub : reg 1 (exec (.fsub 1 2 3) (regs [(2, 0x1FD1800000000000), (3, 0x1FD0800000000000)])) = some 0x1FD0800000000000 := by decide
theorem test_fsub_zero : reg 1 (exec (.fsub 1 2 2) (regs [(2, 0x1FD0800000000000)])) = some 0x0 := by decide
theorem test_fmul : reg 1 (exec (.fmul 1 2 3) (regs [(2, 0x1FD1C00000000000), (3, 0x1FD2A00000000000)])) = some 0x1FD3F00000000000 := by decide
theorem test_fmul_underflow : reg 1 (exec (.fmul 1 2 2) (regs [(2, 0x00BF800000000000)])) = some 0x0 := by decide
theorem test_fdpadd : reg 1 (exec (.fdpadd 1 2) (regs [(1, 0x1FD0800000000000), (2, 0x2000000000000003)])) = some 0x1FA2000000000000 := by decide
theorem test_fdpadd_negative : reg 1 (exec (.fdpadd 1 1) (regs [(1, 0xE02F7FFFFFFFFFFF)])) = some 0xE05EFFFFFFFFFFFF := by decide
theorem test_fdpsub : reg 1 (exec (.fdpsub 1 2) (regs [(1, 0x1FD1800000000000), (2, 0x1FD0800000000000)])) = some 0x1FA0000000000000 := by decide
theorem test_fdpmul : reg 1 (exec (.fdpmul 1 2) (regs [(1, 0x1FD0800000000001), (2, 0x1FD0800000000001)])) = some 0x1FA0000000000002 := by decide
theorem test_fdpmul_negative : reg 1 (exec (.fdpmul 1 2) (regs [(1, 0xE02F7FFFFFFFFFFF), (2, 0x1FD1800000000000)])) = some 0xE05EFFFFFFFFFFFF := by decide
/-- A divisor that is not normalized makes the quotient flagged, whatever the free bits are (R176). -/
theorem test_fdiv_flagged (free : Word) : fpQuotient 0x1FD0800000000000 0x2000000000000003 free = flagged free := rfl
theorem test_fdiv_completes : place (exec (.fdiv 1 2) (regs [(2, 0x2000000000000003)])) = some (0, 1) := by decide
theorem test_pass : place (exec .pass { State.reset with pp := 3 }) = some (1, 0) := by decide

/-! ### In-range tests: the table S10 -/

theorem test_not_in_range : [0x7FF0000000000000, 0x8000000000000000, 0x3FF0000000000000, 0xC00FFFFFFFFFFFFF, 0x4000000000000000, 0xBFFFFFFFFFFFFFFF].all (fun w => !inRange w) = true := by decide
theorem test_in_range : [0, 0xFFFFFFFFFFFFFFFF, 0x1FD0800000000000, 0xE02F7FFFFFFFFFFF, 0x3FE0000000000000, 0xC010000000000000].all inRange = true := by decide

/-! ### Memory references: vectors 2.8 -/

theorem test_stk : word 0x410 (exec (.stk 1 0x10) (user [(1, 7)] [])) = some 7 := by decide
theorem test_stx : word 0x5FF (exec (.stx 1 2) (user [(1, 9), (2, 0x1FF)] [])) = some 9 := by decide
theorem test_ldk : reg 1 (exec (.ldk 1 0x123) (user [] [(0x523, 0x42)])) = some 0x42 := by decide
theorem test_ldk_limit : word 0x50 (exec (.ldk 1 0x200) { user [] [] with p := 0x55 }) = some 0x4080040200200056 := by decide
theorem test_stx_limit : word 0x50 (exec (.stx 1 2) { user [(2, 0xFFFFFFFFFFFFFFFE)] [] with p := 0x55 }) = some 0x4080040200200056 := by decide
theorem test_ldx : reg 1 (exec (.ldx 1 2) (user [(2, 0x123)] [(0x523, 0x42)])) = some 0x42 := by decide
theorem test_ldxk : reg 1 (exec (.ldxk 1 2 0xFFFFD) (user [(2, 0x20)] [(0x41E, 0x42)])) = some 0x42 := by decide
theorem test_ldxx : reg 1 (exec (.ldxx 1 2 3) (user [(2, 0x100), (3, 0x23)] [(0x523, 0x42)])) = some 0x42 := by decide
theorem test_stxk : word 0x414 (exec (.stxk 1 2 4) (user [(1, 9), (2, 0x10)] [])) = some 9 := by decide
theorem test_stxx : word 0x5FF (exec (.stxx 1 2 3) (user [(1, 9), (2, 0x100), (3, 0xFF)] [])) = some 9 := by decide
theorem test_rsk : (word 0x420 (exec (.rsk 1 0x20) (user [(1, 1)] [])), reg 1 (exec (.rsk 1 0x20) (user [(1, 1)] []))) = (some 1, some 0) := by decide
theorem test_rsx_same_register : (word 0x420 (exec (.rsx 2 2) (user [(2, 0x20)] [(0x420, 7)])), reg 2 (exec (.rsx 2 2) (user [(2, 0x20)] [(0x420, 7)]))) = (some 0x20, some 7) := by decide
theorem test_rpk_absolute : reg 1 (exec (.rpk 1 0x40) (machine 0 [] [(0x40, 5), (0x440, 6)])) = some 5 := by decide
theorem test_rpk_relocated : reg 1 (exec (.rpk 1 0x40) (user [] [(0x40, 5), (0x440, 6)])) = some 6 := by decide
theorem test_rpx : reg 1 (exec (.rpx 1 2) (user [(2, 0x40)] [(0x440, 6)])) = some 6 := by decide
theorem test_rpp : reg 1 (exec (.rpp 1 3) (machine 0x100 [] [(0x103, 6)])) = some 6 := by decide
theorem test_tpk : reg 1 (exec (.tpk 1 0x10) (machine 0x100 [] [])) = some 0x110 := by decide
theorem test_last_granule_in_memory : (machine 0x4003FF0200200000 [] []).relocate 0 = 0x3FF00 := by decide
theorem test_missing_word : faultOf (exec (.rpx 1 2) (machine 0x4004000200200000 [] [])) = some (.noSuchWord 0x40000) := by decide

/-! ### Control transfers: vectors 2.9 -/

theorem test_jp : place (exec (.jp 5) (machine 0x100 [] [])) = some (0x105, 0) := by decide
theorem test_jp_modulo : place (exec (.jp 0xFFFFD) (machine 0x100 [] [])) = some (0x0FD, 0) := by decide
theorem test_jk : place (exec (.jk 0x400) (machine 0x100 [] [])) = some (0x400, 0) := by decide
theorem test_jz_minus_zero : place (exec (.jz 2 5) (machine 0x40 [(2, 0xFFFFFFFFFFFFFFFF)] [])) = some (0x45, 0) := by decide
theorem test_jz_not : place (exec (.jz 2 5) (machine 0x40 [(2, 1)] [])) = some (0x40, 2) := by decide
theorem test_jnz : place (exec (.jnz 1 0xFFFFE) (machine 0x40 [(1, 1)] [])) = some (0x3F, 0) := by decide
theorem test_jpl : place (exec (.jpl 3 1) (machine 0x10 [] [])) = some (0x11, 0) := by decide
theorem test_jpl_minus_zero : place (exec (.jpl 3 1) (machine 0x10 [(3, 0xFFFFFFFFFFFFFFFF)] [])) = some (0x10, 2) := by decide
theorem test_jng : place (exec (.jng 3 2) (machine 0x10 [(3, 0xFFFFFFFFFFFFFFFF)] [])) = some (0x12, 0) := by decide
theorem test_jir : place (exec (.jir 1 4) (machine 0x200 [(1, 0x1FD0800000000000)] [])) = some (0x204, 0) := by decide
theorem test_jir_not : place (exec (.jir 1 4) (machine 0x200 [(1, 0x3FF0000000000000)] [])) = some (0x200, 2) := by decide
theorem test_jnr : place (exec (.jnr 1 0xFFFFE) (machine 0x200 [(1, 0x7FF0000000000000)] [])) = some (0x1FF, 0) := by decide
theorem test_callp : (place (exec (.callp 15 0x20) (machine 0x4000000000000100 [] [])), reg 15 (exec (.callp 15 0x20) (machine 0x4000000000000100 [] []))) = (some (0x120, 0), some 0x4000000000000100) := by decide
theorem test_callk : (place (exec (.callk 14 0x500) (machine 0x300 [] [])), reg 14 (exec (.callk 14 0x500) (machine 0x300 [] []))) = (some (0x500, 0), some 0x300) := by decide
theorem test_callx_same_register : (place (exec (.callx 2 2) (machine 0x300 [(2, 0x700)] [])), reg 2 (exec (.callx 2 2) (machine 0x300 [(2, 0x700)] []))) = (some (0x700, 0), some 0x300) := by decide
theorem test_lcallk : (reg 15 (exec (.lcallk 15 0x4000) (machine 0x4000000000000012 [] [])), xpwOf (exec (.lcallk 15 0x4000) (machine 0x4000000000000012 [] []))) = (some 0x4000000000000012, some 0x4000) := by decide
theorem test_lcallx : xpwOf (exec (.lcallx 15 3) (machine 0x4000000000000012 [(3, 0x4100)] [])) = some 0x4100 := by decide
theorem test_ret : xpwOf (exec (.ret 15 1) (machine 0x4000000000000110 [(15, 0x0000000000000100)] [])) = some 0x4000000000000101 := by decide
theorem test_lret : xpwOf (exec (.lret 15 1) (machine 0x4000 [(15, 0x4000000000000012)] [])) = some 0x4000000000000013 := by decide
theorem test_lret_absolute : xpwOf (exec (.lret 15 1) (machine 0x4000000000000110 [(15, 0x12)] [])) = some 0x13 := by decide
theorem test_brb : place (exec (.brb 2 2 3) (machine 0x105 [(2, 3), (3, 5)] [])) = some (0x103, 0) := by decide
theorem test_brb_equal_zeros : place (exec (.brb 0 2 3) (machine 0x105 [(2, 0xFFFFFFFFFFFFFFFF)] [])) = some (0x105, 1) := by decide

/-! ### Modes and shared state: vectors 2.10 -/

/-- A machine in monitor mode. -/
def monitor : List (Reg × Word) → State := fun rs => machine 0x8000000000000000 rs []

/-- The system call flag of the next state. -/
def scfOf : Answer → Option Bool
  | .next t => some t.scf
  | _ => none

/-- The interlock register of the next state. -/
def ilOf : Answer → Option (BitVec 20)
  | .next t => some t.il
  | _ => none

/-- Whether channel c's input and output paths transfer in the next state, and the request mechanism. -/
def ioOf (c : Channel) : Answer → Option (Bool × Bool × ChannelRequest)
  | .next t => some ((t.io.inp c).active, (t.io.out c).active, t.io.req)
  | _ => none

theorem test_bsc : (scfOf (exec .bsc (monitor [])), scfOf (exec .bsc (regs []))) = (some true, some false) := by decide
theorem test_esc : (scfOf (exec .esc { monitor [] with scf := true }), scfOf (exec .esc { regs [] with scf := true })) = (some false, some true) := by decide
theorem test_chin : ioOf 3 (exec (.chin 1 2) (monitor [(1, 0xFFFFFFFFFFFFFFF3), (2, 0x1000)])) = some (true, false, ⟨[], none, false⟩) := by decide
theorem test_chin_pass : ioOf 3 (exec (.chin 1 2) (regs [(1, 3)])) = some (false, false, ⟨[], none, false⟩) := by decide
theorem test_chout : ioOf 3 (exec (.chout 1 2) (monitor [(1, 3), (2, 0x1000)])) = some (false, true, ⟨[], none, false⟩) := by decide

/-- A machine whose channel 5 has an outstanding request. -/
def requested (s : State) : State := { s with io := { s.io with req := ⟨[5, 2], some 5, true⟩ } }

theorem test_rcr : (reg 1 (exec (.rcr 1) (requested (monitor []))), ioOf 5 (exec (.rcr 1) (requested (monitor [])))) = (some 5, some (false, false, ⟨[2], none, false⟩)) := by decide
theorem test_rcr_pass : (reg 1 (exec (.rcr 1) (requested (regs [(1, 7)]))), ioOf 5 (exec (.rcr 1) (requested (regs [])))) = (some 0, some (false, false, ⟨[5, 2], some 5, true⟩)) := by decide
theorem test_lxa : xpwOf (exec (.lxa 2) (monitor [(2, 0xA0)])) = some 0x8000000500000000 := by decide
theorem test_lxa_pass : xpwOf (exec (.lxa 2) (regs [(2, 0xA0)])) = some 0 := by decide
theorem test_txa : reg 1 (exec (.txa 1 0) (machine 0x0000000500000000 [] [])) = some 0xA0 := by decide
theorem test_txa_copies : reg 1 (exec (.txa 1 8) (machine 0x0000000500000000 [] [])) = some 0xFFFFFFFFFFF000A0 := by decide
theorem test_sil : (ilOf (exec (.sil 2) { machine 0x2000000000000000 [(2, 6)] [] with il := 1 }), ilOf (exec (.sil 2) { regs [(2, 6)] with il := 1 })) = (some 7, some 1) := by decide
theorem test_cil : (ilOf (exec (.cil 2) { machine 0x2000000000000000 [(2, 5)] [] with il := 7 }), ilOf (exec (.cil 2) { regs [(2, 5)] with il := 7 })) = (some 2, some 7) := by decide
theorem test_ril : reg 1 (exec (.ril 1 0) { regs [] with il := 2 }) = some 2 := by decide
theorem test_rtc_completes : place (exec (.rtc 1 0) (regs [])) = some (0, 1) := by decide

/-! ### Conditions and the exchange: vectors 2.11 and S13 -/

/-- The program of vectors 2.11, at relative word 0x55. -/
def running : State := { user [(0, 0x11), (15, 0x22)] [(0x4F, 0x33)] with p := 0x55 }

theorem test_xj : (word 0x50 (exec .xj running), word 0x40 (exec .xj running), word 0x4F (exec .xj running), reg 15 (exec .xj running)) = (some 0x4800040200200056, some 0x11, some 0x22, some 0x33) := by decide
theorem test_err00 : word 0x50 (exec .err00 running) = some 0x4020040200200056 := by decide
theorem test_err0e : word 0x50 (exec .err0e running) = some 0x4020040200200056 := by decide
theorem test_err1e : word 0x50 (exec .err1e running) = some 0x4020040200200056 := by decide
theorem test_err1f : word 0x50 (exec .err1f running) = some 0x4020040200200056 := by decide
theorem test_monitor_enters : xpwOf (exec .err00 (user [] [(0x50, 0x8000000240000200)])) = some 0x8000000240000200 := by decide
theorem test_channel_request : word 0x50 (step { running with ioFlag := some 3 }) = some 0x4400040200200055 := by decide
theorem test_system_call : word 0x50 (step { running with scf := true }) = some 0x4100040200200055 := by decide
theorem test_both_at_one_boundary : word 0x50 (step { running with ioFlag := some 3, scf := true }) = some 0x4500040200200055 := by decide
theorem test_either_alone : word 0x50 (step { running with ioFlag := some 3, scf := true, script := [.interrupt false false true] }) = some 0x4100040200200055 := by decide
theorem test_program_limit : word 0x50 (step { user [] [] with p := 0x200 }) = some 0x4040040200200201 := by decide
theorem test_overflow_traps : word 0x50 (exec (.fadd 1 2 2) { machine 0x5000040200200055 [(2, 0x3FF0800000000000)] [] with pp := 2 }) =
    some 0x5010040200200056 := by decide

/-- The program of `running` after the XPW and X33 have changed places, and no other register (60_exceptions.md R414). -/
def halfExchanged : Answer :=
  match exec .xj { running with script := [.reference, .reference, .execute] } with
  | .next t => match step t with
    | .next u => step u
    | o => o
  | o => o

theorem test_exchange_order : (word 0x50 halfExchanged, word 0x4F halfExchanged, word 0x40 halfExchanged, reg 15 halfExchanged, reg 0 halfExchanged) =
    (some 0x4800040200200056, some 0x22, some 0, some 0x33, some 0x11) := by decide
theorem test_request_answered : (match step { running with ioFlag := some 3 } with | .next t => t.io.wire | _ => []) = [.acknowledge 3] := by decide
/-- The three ends of D43, for the words that 0333, a data limit and a channel request store; a word that D43 does not class. -/
theorem test_end_of_run : [0x4800040200200056, 0x4080040200200056, 0x4400040200200055, 0x4C00040200200055].map Config.endOfRun =
    [some .normal, some .fault, some .interrupted, none] := by decide

/-! ### Steps (30_encoding.md R117; 95_test_vectors.md P1) -/

theorem test_step_runs : reg 3 (step { machine 0x100 [] [(0x100, 0x1010102010350F00)] with pp := 2, ciw := 0x1010102010350F00 }) = some 5 := by decide
theorem test_step_relocates : reg 1 (step (user [] [(0x400, 0x101300000F000F00)])) = some 3 := by decide
theorem test_step_refuses : step { State.reset with pp := 3, ciw := 0x0F000F000F002010 } = .refused .twoParcelInFourthParcel := rfl
theorem test_table_word_runs : place (step (State.reset.withFetchWord 32 0x30000005)) = some (5, 0) := by decide

/-- The store waits, the processor reads it, and the turn `perform` takes it to memory (20_memory.md R90, R92). -/
theorem test_store_waits : (match exec (.stk 1 0x10) { user [(1, 7)] [] with script := [.perform 0x410] } with
    | .next t => (t.mem.read 0x410, t.view 0x410, word 0x410 (step t))
    | _ => (0, 0, none)) = (0, 7, some 7) := by decide

/-- The register of a load that waits is reserved, and holds what it held (10_state.md R54). -/
theorem test_load_waits : (match exec (.ldk 1 0x10) { user [(1, 7)] [(0x410, 5)] with script := [.perform 0x410] } with
    | .next t => (t.getX 1, t.xres, t.seen 1, reg 1 (step t))
    | _ => (0, 0, 0, none)) = (7, 2, 5, some 5) := by decide

/-- An instruction that names the register issues when the data have arrived (70_reset_and_hazards.md R453). -/
theorem test_instruction_awaits : reg 2 (step { machine 0 [] [(9, 5)] with
    sws := [⟨9, some 1, none⟩], xres := 2, pp := 1, ciw := 0x0F00042104210421, script := [.execute, .execute] }) = some 5 := by decide

/-- A store waits for word 5, and a load of it, the newer, for X1. -/
def forwarding : State := { machine 0 [] [(5, 3)] with sws := [⟨5, some 1, none⟩, ⟨5, none, some 7⟩], xres := 2, script := [.forward 1] }

theorem test_forward : (reg 1 (step forwarding), word 5 (step forwarding)) = (some 7, some 3) := by decide

/-- The stack holds twelve words: the oldest of twelve leaves when two more enter (10_state.md R51). -/
theorem test_stack_length : ({ regs [] with p := 0x100, iws := (List.range 12).map (fun i => ⟨BitVec.ofNat 20 (0x101 - i), some 0⟩) } : State).enterCiw.iws.map (·.addr) =
    [0x102, 0x101, 0x100, 0xFF, 0xFE, 0xFD, 0xFC, 0xFB, 0xFA, 0xF9, 0xF8, 0xF7] := by decide

/-! ### Channels: S11 -/

/-- The machine after a list of turns, while none stops. -/
def run : List Turn → State → State
  | [], s => s
  | t :: ts, s => match deliver t s with
    | .next u => run ts u
    | _ => s

/-- One of the other processors. -/
def other : Other := ⟨2, by decide⟩

/-- Of two loads the later is satisfied first, and another processor stores to the word of the earlier in between (20_memory.md R91). -/
theorem test_loads_in_either_order : (run [.perform 0x401, .otherStore other 0x400 9, .perform 0x400]
    { machine 0 [] [(0x400, 1), (0x401, 2)] with sws := [⟨0x401, some 2, none⟩, ⟨0x400, some 1, none⟩], xres := 6 }).x.toList.take 3 = [0, 9, 2] := by decide
/-- Channel 3 reads a block to word 0x1000, in words of the given width. -/
def reading (w : ChanWidth) : State :=
  { State.reset with io := State.reset.io.setInp 3 ⟨true, 0x1000, w, [], []⟩ }

/-- Channel 3 writes a block from word 0x1000. -/
def writing : State :=
  { machine 0 [] [(0x1000, 0xA1B2C30000000000)] with io := State.reset.io.setOut 3 ⟨true, 0x1000, .eight, [], true, 0⟩ }

theorem test_input_eight : (run ([1, 2, 3, 4, 5, 6, 7, 8].map (Turn.inWord 3) ++ [.writeInput 3]) (reading .eight)).mem = [(0x1000, 0x0102030405060708)] := by decide +kernel
theorem test_input_twelve : (run ([1, 2, 3, 4, 5, 6].map (Turn.inWord 3) ++ [.writeInput 3]) (reading .twelve)).mem = [(0x1000, 0x0010020030040050)] := by decide +kernel
theorem test_input_ends : (run ([0xA1, 0xB2, 0xC3].map (Turn.inWord 3) ++ [.recordFlag .input 3, .writeInput 3]) (reading .eight)).mem = [(0x1000, 0xA1B2C30000000000)] := by decide

/-- Between the record flag and the write of the last word the request shows and memory holds the old word (20_memory.md R99). -/
theorem test_input_waits : (let s := run [.inWord 3 0xA1, .recordFlag .input 3] (reading .eight); (s.mem, s.io.req.pending)) = ([], [3]) := by decide
theorem test_output : (run [.outWord 3, .outWord 3, .recordFlag .output 3] writing).io.wire = [.parity 3 0, .word 3 false 0xB2, .word 3 true 0xA1] := by decide
theorem test_request : (run [.recordFlag .output 3, .selectRequest 3, .flagThis] writing).ioFlag = some 3 := by decide
theorem test_attention : (run [.recordFlag .input 3] State.reset).io.req.pending = [3] := by decide
theorem test_others : (run [.recordFlag .output 3, .selectRequest 3, .flagOther other, .flagThis, .otherTakes other, .otherRcr other] writing).io.wire =
    [.acknowledge 3, .parity 3 0] := by decide
theorem test_read_ahead : ((run [.readAhead 3, .outWord 3] writing).io.out 3).bits.length = 56 ∧
    ((run [.readAhead 3, .outWord 3] writing).io.out 3).addr = 0x1001 ∧ (run [.readAhead 3, .outWord 3] writing).io.wire = [.word 3 true 0xA1] := by decide
/-- A processor that is flagged again, before it has taken Condition(58), answers the new channel alone (log 41). -/
theorem test_flagged_again : (run [.selectRequest 5, .flagThis] { regs [] with ioFlag := some 3, io := { State.reset.io with req := ⟨[5], none, false⟩ } }).ioFlag =
    some 5 := by decide

/-! ### Witnesses: the hypotheses of each statement can be met, clause by clause

`user` has FL * 256 = 0x200 and its field at 0x400; `limit` has its field in the last 0x200 words of memory. -/

/-- A program whose field begins at absolute 0x3FE00 and ends with memory. -/
def limit (rs : List (Reg × Word)) : State := machine 0x4003FE0200200000 rs []

/-- A machine whose instruction word stack holds twelve words, the newest of them the word at P = 0x100; the word that memory holds there
is another. -/
def stacked (w : Option Word) : State :=
  { machine 0x100 [] [(0x100, 0x3F003F003F003F00)] with iws := ⟨0x100, w⟩ :: (List.range 11).map (fun i => ⟨BitVec.ofNat 20 i, some 0⟩) }

theorem witness_StepRunsInstruction_absolute : (regs []).exchanging = none ∧ (regs []).script = [] ∧ (regs []).interruptPending = false ∧
    (regs []).pp.val = 0 ∧
    (0 : Nat) = (if (regs []).xpw.prf then (256 * (regs []).xpw.ra.toNat + (regs []).p.toNat) % 2 ^ 20 else (regs []).p.toNat) ∧
    (∀ e ∈ (regs []).iws, e.addr ≠ 0) ∧ decode (parcelsOf ((regs []).view 0)) = .ok (.err00, [0, 0, 0]) :=
  ⟨rfl, rfl, rfl, rfl, rfl, by decide, rfl⟩
theorem witness_StepRunsInstruction_absolute_last : (machine 0x3FFFF [] []).pp.val = 0 ∧ (machine 0x3FFFF [] []).p.toNat = 262143 ∧
    (machine 0x3FFFF [] []).xpw.prf = false ∧ 262143 < 262144 ∧ (machine 0x3FFFF [] []).iws = [] ∧
    decode (parcelsOf ((machine 0x3FFFF [] []).view 262143)) = .ok (.err00, [0, 0, 0]) :=
  ⟨rfl, rfl, rfl, by decide, rfl, rfl⟩
theorem witness_StepRunsInstruction_relocated_last : (machine 0x40000402002001FF [] []).pp.val = 0 ∧
    (machine 0x40000402002001FF [] []).xpw.prf = true ∧
    (machine 0x40000402002001FF [] []).p.toNat < 256 * (machine 0x40000402002001FF [] []).xpw.fl.toNat ∧
    (256 * (machine 0x40000402002001FF [] []).xpw.ra.toNat + (machine 0x40000402002001FF [] []).p.toNat) % 2 ^ 20 = 0x5FF := by decide
theorem witness_StepRunsInstruction_copy : (stacked (some 0x0F000F000F000F00)).iws.length = 12 ∧
    (∃ e ∈ (stacked (some 0x0F000F000F000F00)).iws, e.addr = (stacked (some 0x0F000F000F000F00)).p ∧ e.word = some 0x0F000F000F000F00 ∧
      ∀ d ∈ (stacked (some 0x0F000F000F000F00)).iws, d.addr = (stacked (some 0x0F000F000F000F00)).p → d = e) ∧
    decode (parcelsOf 0x0F000F000F000F00) = .ok (.pass, [0x0F00, 0x0F00, 0x0F00]) :=
  ⟨rfl, ⟨⟨0x100, some 0x0F000F000F000F00⟩, by decide, rfl, rfl, by decide⟩, rfl⟩
theorem witness_StepRunsInstruction_in_progress :
    (∀ e ∈ (stacked none).iws, e.addr = (stacked none).p → e.word = none) ∧ (stacked none).exchanging = none ∧
    (stacked none).interruptPending = false ∧ decode (parcelsOf ((stacked none).view 0x100)) = .ok (.xj, [0x3F00, 0x3F00, 0x3F00]) :=
  ⟨by decide, rfl, rfl, rfl⟩
theorem witness_StepRunsInstruction_inside_word : { regs [] with pp := 1, script := [.execute] }.script = .execute :: [] ∧
    { regs [] with pp := 1, script := [.execute] }.exchanging = none ∧ { regs [] with pp := 1, script := [.execute] }.pp.val ≠ 0 ∧
    decode ((parcelsOf { regs [] with pp := 1 }.ciw).drop 1) = .ok (.err00, [0, 0]) := ⟨rfl, rfl, by decide, rfl⟩
theorem witness_StepRunsInstruction_last_parcel :
    decode ((parcelsOf { regs [] with pp := 3 }.ciw).drop ({ regs [] with pp := 3 } : State).pp.val) = .ok (.err00, []) := rfl

theorem witness_TwoParcelInFourthParcelRefused : { regs [] with pp := 3, ciw := 0x0F000F000F002010 }.script = [] ∧
    { regs [] with pp := 3, ciw := 0x0F000F000F002010 }.exchanging = none ∧ ({ regs [] with pp := 3, ciw := 0x0F000F000F002010 } : State).pp.val = 3 ∧
    (0x0F000F000F002010 : Word) = wordOf 0x0F00 0x0F00 0x0F00 0x2010 ∧ Parcel.code 0x2010 = 0x20 ∧ Parcel.code 0x3E00 = 0x3E ∧
    Parcel.hi 0x51F0 = 0x5 ∧ Parcel.hi 0xC000 = 0xC ∧ Parcel.hi 0xEFFF = 0xE := by decide

/-- The program `user` with a store to its last relative word, which the instruction word stack does not hold, holds, or waits for. -/
def rewriting (l : List StackEntry) : State := { user [(1, 7)] [] with iws := l }

theorem next_of_word {o : Answer} {a : Nat} {v : Word} (h : word a o = some v) : ∃ t, o = .next t ∧ t.mem.read a = v := by
  cases o with
  | next t => exact ⟨t, rfl, by simpa [word] using h⟩
  | fault f => cases h
  | refused r => cases h
theorem rewriting_next (l : List StackEntry) (h : word 0x5FF (exec (.stk 1 0x1FF) (rewriting l)) = some 7) :
    ∃ t, exec (.stk 1 0x1FF) (rewriting l) = .next t := (next_of_word h).imp fun _ e => e.1

theorem witness_RewrittenWordExecutes_address : ((rewriting []).xpw.prf = true ∧ (0x1FF : Addr).toNat < 256 * (rewriting []).xpw.fl.toNat) ∧
    ((machine 0x20200000 [] []).xpw.prf = false ∧ (0x1FF : Addr).toNat = (256 * (machine 0x20200000 [] []).xpw.ra.toNat + (0x1FF : Addr).toNat) % 2 ^ 20 ∧
      (0x1FF : Addr).toNat < 256 * (machine 0x20200000 [] []).xpw.fl.toNat) := by decide
theorem witness_RewrittenWordExecutes_not_held : (∃ t, exec (.stk 1 0x1FF) (rewriting []) = .next t) ∧ ∀ e ∈ (rewriting []).iws, e.addr ≠ 0x1FF :=
  ⟨rewriting_next _ (by decide), by decide⟩
theorem witness_RewrittenWordExecutes_held : (∃ t, exec (.stk 1 0x1FF) (rewriting [⟨0x1FF, some 5⟩, ⟨0x1FE, none⟩]) = .next t) ∧
    (⟨0x1FF, some 5⟩ : StackEntry) ∈ (rewriting [⟨0x1FF, some 5⟩, ⟨0x1FE, none⟩]).iws ∧
    ∀ d ∈ (rewriting [⟨0x1FF, some 5⟩, ⟨0x1FE, none⟩]).iws, d.addr = 0x1FF → d = ⟨0x1FF, some 5⟩ :=
  ⟨rewriting_next _ (by decide), by decide, by decide⟩
theorem witness_RewrittenWordExecutes_in_progress : (∃ t, exec (.stk 1 0x1FF) (rewriting [⟨0x1FF, none⟩]) = .next t) ∧
    (⟨0x1FF, none⟩ : StackEntry) ∈ (rewriting [⟨0x1FF, none⟩]).iws ∧ ∀ d ∈ (rewriting [⟨0x1FF, none⟩]).iws, d.addr = 0x1FF → d = ⟨0x1FF, none⟩ :=
  ⟨rewriting_next _ (by decide), by decide, by decide⟩

theorem witness_RewrittenWordExecutes_other : (0x3FFFF : Addr).toNat < 262144 ∧
    ({ regs [] with script := [.otherStore other 0x3FFFF 5] } : State).script = .otherStore other 0x3FFFF 5 :: [] := ⟨by decide, rfl⟩

/-- A load for X3, a read/store for X2, a store and an older load for X1 wait. -/
def waiting : State :=
  { machine 0 [] [(0, 0x0F000F000F000F00)] with
    sws := [⟨9, some 3, none⟩, ⟨5, some 2, some 6⟩, ⟨9, none, some 4⟩, ⟨7, some 1, none⟩], xres := 0xE, script := [.perform 9] }

theorem witness_StoresReachMemory_store : waiting.script = .perform 9 :: [] ∧ (waiting.sws.filterMap (·.dest)).Nodup ∧
    waiting.sws = [⟨9, some 3, none⟩, ⟨5, some 2, some 6⟩] ++ ⟨9, none, some 4⟩ :: [⟨7, some 1, none⟩] ∧
    (∀ q ∈ ([⟨7, some 1, none⟩] : List Ref), q.addr ≠ 9) ∧ ∀ r ∈ waiting.sws, r.addr ≠ 8 := by decide
theorem witness_StoresReachMemory_load_and_swap :
    (waiting.sws = [⟨9, some 3, none⟩] ++ ⟨5, some 2, some 6⟩ :: [⟨9, none, some 4⟩, ⟨7, some 1, none⟩] ∧
      ∀ q ∈ ([⟨9, none, some 4⟩, ⟨7, some 1, none⟩] : List Ref), q.addr ≠ 5) ∧
    waiting.sws = [⟨9, some 3, none⟩, ⟨5, some 2, some 6⟩, ⟨9, none, some 4⟩] ++ ⟨7, some 1, none⟩ :: [] := by decide
theorem witness_RegistersArrive_load : (waiting.sws.filterMap (·.dest)).Nodup ∧ (3 : Reg) ∈ [3, (4 : Reg)] ∧ (∀ r ∈ waiting.sws, r.addr ≠ 8) ∧
    waiting.sws = [⟨9, some 3, none⟩, ⟨5, some 2, some 6⟩, ⟨9, none, some 4⟩] ++ ⟨7, some 1, none⟩ :: [] := by decide
theorem witness_RegistersArrive_forward : forwarding.script = .forward 1 :: [] ∧ (forwarding.sws.filterMap (·.dest)).Nodup ∧
    forwarding.sws = [] ++ ⟨5, some 1, none⟩ :: ([] ++ ⟨5, none, some 7⟩ :: []) ∧
    { forwarding with sws := [⟨5, some 1, none⟩, ⟨5, some 2, none⟩] }.sws = [] ++ ⟨5, some 1, none⟩ :: ([] ++ ⟨5, some 2, none⟩ :: []) := by decide

/-- A legal state with a word of memory, whose next step completes. -/
def legal : State := machine 0 [] [(0, 0x0F000F000F000F00)]

theorem quiet_coherent {q : InPath} (h : q = ⟨false, 0, .eight, [], []⟩) : q.Coherent := by
  subst h
  exact ⟨by decide, by decide, by decide, by decide⟩
theorem witness_StepKeepsInvariant : Legal legal ∧ ∃ t, step legal = .next t := by
  refine ⟨⟨by decide, by decide, by decide, by decide, by decide, by decide, by decide, ⟨by decide, by decide, by decide⟩, ?_, ?_⟩, _, rfl⟩
  · intro c; exact quiet_coherent ((show ∀ c, legal.io.inp c = ⟨false, 0, .eight, [], []⟩ by decide) c)
  · intro c; exact (show ∀ c, ((legal.io.out c).active = false → (legal.io.out c).bits = []) ∧ (legal.io.out c).parity = 0 by decide) c
theorem witness_StepKeepsInvariant_waiting : Legal waiting ∧ ∃ t, step waiting = .next t := by
  refine ⟨⟨by decide, by decide, by decide, by decide, by decide, by decide, by decide, ⟨by decide, by decide, by decide⟩, ?_, ?_⟩, _, rfl⟩
  · intro c; exact quiet_coherent ((show ∀ c, waiting.io.inp c = ⟨false, 0, .eight, [], []⟩ by decide) c)
  · intro c; exact (show ∀ c, ((waiting.io.out c).active = false → (waiting.io.out c).bits = []) ∧ (waiting.io.out c).parity = 0 by decide) c

theorem witness_SequentialResults : (waiting.sws.filterMap (·.dest)).Nodup ∧
    (∃ t, exec (.copy 4 3) (waiting.await (namedRegisters (.copy 4 3))) = .next t) ∧
    (∃ f, exec (.rpk 2 0x40000) (waiting.await (namedRegisters (.rpk 2 0x40000))) = .fault f) ∧
    ∃ r, exec (.chin 1 2) ({ monitor [(1, 3)] with io := (reading .eight).io }.await (namedRegisters (.chin 1 2))) = .refused r :=
  ⟨by decide, ⟨_, rfl⟩, ⟨_, rfl⟩, ⟨_, rfl⟩⟩

theorem witness_MemoryIsCanonical : Memory.wf [(0, 5), (262143, 7)] ∧ ∀ a, Memory.read [(0, 5), (262143, 7)] a = Memory.read [(0, 5), (262143, 7)] a :=
  ⟨by decide, fun _ => rfl⟩

theorem witness_OnesComplementSum_ends : val1c 0x7FFFFFFFFFFFFFFE + val1c 1 = 2 ^ 63 - 1 ∧
    val1c 0x8000000000000001 + val1c 0xFFFFFFFFFFFFFFFE = -(2 ^ 63 - 1) ∧ (0 : Word) ≠ BitVec.allOnes 64 := by decide
theorem witness_OnesComplementDifference_ends : val1c 0x7FFFFFFFFFFFFFFE - val1c 0xFFFFFFFFFFFFFFFE = 2 ^ 63 - 1 ∧
    val1c 0x8000000000000001 - val1c 1 = -(2 ^ 63 - 1) := by decide
theorem witness_ShiftFunctions_ends : (0 ≤ 63 ∧ 63 < 64 ∧ 63 + 0 ≤ 63) ∧ (63 ≤ 63 ∧ 0 < 64 ∧ 0 + 63 ≤ 63 ∧ ¬ 1 + 63 ≤ 63) := by decide
theorem witness_MasksAndCounts_ends : (0 ≤ 63 ∧ 0 < 64) ∧ (63 ≤ 63 ∧ 63 < 64) := by decide
theorem witness_FloatingFormat_ends : (0 < 2 ^ 48 ∧ (-8191 : Int) ≤ -8191 ∧ (-8191 : Int) ≤ 8191) ∧ (2 ^ 48 - 1 < 2 ^ 48 ∧ (-8191 : Int) ≤ 8191) := by decide
theorem witness_FloatingExtremes_ends : (8191 : Int) < 8192 ∧ (-8192 : Int) < -8191 ∧ ((-8191 : Int) ≤ -8191 ∧ (8191 : Int) ≤ 8191 ∧ 2 ^ 48 - 1 < 2 ^ 48) := by decide
theorem witness_FlaggedOperands : oor 0x4000000000000000 = true ∧ oor 0xBFFFFFFFFFFFFFFF = true ∧ normalized 0 = false ∧
    normalized 0xFFFFFFFFFFFFFFFF = false ∧
    (oor 0x3FFF000000000001 = false ∧ (fpUnpack 0x3FFF000000000001).coef ≠ 0 ∧ oor 0x0000C00000000000 = false ∧ normalized 0x0000C00000000000 = true) ∧
    (oor 0xC000000000000000 = false ∧ (fpUnpack 0xC000000000000000).coef ≠ 0 ∧ normalized 0xC000000000000000 = true) ∧
    (fpUnpack 0).coef = 0 ∧ (oor 0xFFFFFFFFFFFFFFFF = false ∧ (fpUnpack 0xFFFFFFFFFFFFFFFF).coef = 0) := by decide

/-- The normalized numbers, flag clear, exponent not minus zero: the largest, minus the largest, the smallest. -/
theorem witness_FloatingOrder : [0x3FFFFFFFFFFFFFFF, 0xC000000000000000, 0x0000800000000000, 0x2000800000000000].all (fun a : Word =>
    oor a == false && normalized a == true && (if a.msb then ~~~a else a).extractLsb' 48 14 != 0x1FFF) = true := by decide
theorem witness_ProductExact_ends : (fpUnpack 0x0001800000000000).exp + (fpUnpack 0x2000800000000000).exp = -8190 ∧
    (fpUnpack 0x3FCF800000000000).exp + (fpUnpack 0xDFFF7FFFFFFFFFFF).exp = 8143 ∧
    [0x0001800000000000, 0x2000800000000000, 0x3FCF800000000000, 0xDFFF7FFFFFFFFFFF].all (fun a : Word => oor a == false && normalized a == true) = true := by
  decide
theorem witness_SumExact_ends : (fpUnpack 0x3F40000000000003).exp = 8000 ∧ (fpUnpack 0x3F11000000000003).exp = 8000 - 47 ∧
    (fpUnpack 0x00BF000000000003).exp = -8000 ∧ (fpUnpack 0x00EE000000000003).exp = -8000 + 47 ∧
    [0x3F40000000000003, 0x3F11000000000003, 0x00BF000000000003, 0x00EE000000000003].all (fun a : Word => oor a == false) = true := by decide
theorem fpValue_one : fpValue 0x1FD0800000000000 = 1 := by
  have e : fpUnpack 0x1FD0800000000000 = ⟨false, 2 ^ 47, -47⟩ := by decide
  norm_num [fpValue, e]
theorem fpValue_minus_one : fpValue 0xE02F7FFFFFFFFFFF = -1 := by
  have e : fpUnpack 0xE02F7FFFFFFFFFFF = ⟨true, 2 ^ 47, -47⟩ := by decide
  norm_num [fpValue, e]
theorem witness_SumExact_zero : fpValue 0x1FD0800000000000 + fpValue 0xE02F7FFFFFFFFFFF = 0 := by
  rw [fpValue_one, fpValue_minus_one]; norm_num
theorem witness_SumExact_nonzero : fpValue 0x1FD0800000000000 + fpValue 0x1FD0800000000000 ≠ 0 := by
  rw [fpValue_one]; norm_num

theorem witness_RegisterShiftResults : ((0 : Word).msb = false ∧ (0 : Word).toNat ≤ 63) ∧ ((63 : Word).msb = false ∧ (63 : Word).toNat ≤ 63) ∧
    ((~~~(0 : Word)).msb = true ∧ (~~~(~~~(0 : Word))).toNat ≤ 63) ∧ ((~~~(63 : Word)).msb = true ∧ (~~~(~~~(63 : Word))).toNat ≤ 63) := by decide
theorem witness_ConstantShiftResults : 0 < 64 ∧ 63 < 64 ∧ (0 : BitVec 6).toNat = 0 ∧ (63 : BitVec 6).toNat = 63 := by decide
theorem witness_UnpackResults : 0 < 13 ∧ 12 < 13 ∧ 47 < 48 ∧ 63 < 64 := by decide
theorem witness_PackResults_ends : [0x0000000000001FFF, 0xFFFFFFFFFFFFE000, 0, 0xFFFFFFFFFFFFFFFF].all (fun e : Word =>
    (List.range 64).all (fun b => b < 14 || e.getLsbD b == e.getLsbD 13)) = true ∧ oor 0 = false ∧ oor 0xC000000000000000 = false := by decide
theorem witness_IntegerProductResult_ends : (val1c 0x0000FFFFFFFFFFFF).natAbs = 2 ^ 48 - 1 ∧ (val1c 0xFFFF000000000000).natAbs = 2 ^ 48 - 1 ∧
    (0x0000FFFFFFFFFFFF : Word).msb ≠ (0xFFFF000000000000 : Word).msb ∧ (val1c 0x7FFFFFFF).natAbs * (val1c 0xFFFFFFFF).natAbs < 2 ^ 63 ∧
    (val1c 0).natAbs * (val1c 0xFFFFFFFFFFFFFFFA).natAbs = 0 ∧ (0 : Word).msb ≠ (0xFFFFFFFFFFFFFFFA : Word).msb := by decide
theorem witness_FloatingResults : (regs []).xpw.ovf = false := rfl
theorem witness_FloatingTraps : (machine 0x1000000000000000 [] []).xpw.ovf = true ∧
    (∀ free, inRange (fpAddUpper 0x1FD0800000000000 0x1FD0800000000000 free) = true) ∧
    (∀ free, inRange (fpAddUpper 0x3FF0800000000000 0x3FF0800000000000 free) = false) := by
  have h : ∀ free, fpAddUpper 0x1FD0800000000000 0x1FD0800000000000 free = 0x1FD1800000000000 := fun _ => rfl
  have g : ∀ free, fpAddUpper 0x3FF0800000000000 0x3FF0800000000000 free = 0x3FF1800000000000 := fun _ => rfl
  exact ⟨rfl, fun f => by rw [h]; decide, fun f => by rw [g]; decide⟩

/-- A reference issued reaches memory at once, or waits. -/
theorem witness_Issued : (user [] []).script = [] ∧ ({ user [] [] with script := [.execute] } : State).script ≠ [] := by decide
/-- The operands of the data references inside the field, first and last word, and the last word of memory. -/
theorem witness_DataReferences_inside : (user [] []).xpw.fl = 2 ∧ (0 : Addr).toNat < 256 * (user [] []).xpw.fl.toNat ∧
    (0x1FF : Addr).toNat < 256 * (user [] []).xpw.fl.toNat ∧ (256 * (user [] []).xpw.ra.toNat + 0x1FF) % 2 ^ 20 < 262144 ∧
    (256 * (limit []).xpw.ra.toNat + (0x1FF : Addr).toNat) % 2 ^ 20 = 262143 := by decide
theorem witness_DataStores_addresses : (user [(2, 0x1FF)] []).getX 2 ≠ BitVec.allOnes 64 ∧
    (((user [(2, 0x1FF)] []).getX 2).setWidth 20 : Addr) = 0x1FF ∧
    ((add1c ((user [(2, 0x20)] []).getX 2) ((0xFFFFD : Addr).signExtend 64)).setWidth 20 : Addr) = 0x1E ∧
    ((add1c ((user [(2, 0x100)] []).getX 2) 0xFF).setWidth 20 : Addr) = 0x1FF := by decide
theorem witness_DataLoads_addresses : (limit [(2, 0xFFFFFFFFFFF001FF)]).getX 2 ≠ BitVec.allOnes 64 ∧
    ((((limit [(2, 0xFFFFFFFFFFF001FF)]).getX 2).setWidth 20 : Addr).toNat < 256 * (limit []).xpw.fl.toNat) := by decide
theorem witness_ReadStores_address : (limit [(2, 0)]).getX 2 ≠ BitVec.allOnes 64 ∧
    ((((limit [(2, 0)]).getX 2).setWidth 20 : Addr).toNat < 256 * (limit []).xpw.fl.toNat) ∧
    (256 * (limit []).xpw.ra.toNat + (0 : Addr).toNat) % 2 ^ 20 = 0x3FE00 := by decide
theorem witness_ProgramReads : ((regs []).xpw.prf = false ∧ (0x3FFFF : Addr).toNat < 262144) ∧ ((limit []).xpw.prf = true ∧
    (0x1FF : Addr).toNat < 256 * (limit []).xpw.fl.toNat ∧ (256 * (limit []).xpw.ra.toNat + (0x1FF : Addr).toNat) % 2 ^ 20 < 262144) ∧
    ((machine 0x3FFFE [] []).pPlusSext 1).toNat < 262144 := by decide
theorem witness_MinusZeroAddress : (limit [(2, 0xFFFFFFFFFFFFFFFF)]).getX 2 = BitVec.allOnes 64 ∧ 0 < (limit []).xpw.fl.toNat ∧
    256 * (limit []).xpw.ra.toNat < 262144 ∧ (limit []).xpw.prf = true ∧
    (0 < (machine 0x4004000200100000 [] []).xpw.fl.toNat ∧ 262144 ≤ 256 * (machine 0x4004000200100000 [] []).xpw.ra.toNat ∧
      (machine 0x4004000200100000 [] []).xpw.prf = true) ∧
    ((machine 0x4000000000000000 [] []).xpw.fl.toNat = 0 ∧ (machine 0x4000000000000000 [] []).xpw.prf = true) ∧
    ((regs [(2, 0xFFFFFFFFFFFFFFFF)]).getX 2 = BitVec.allOnes 64 ∧ (regs []).xpw.prf = false) := by decide
theorem witness_DataLimitRaises_ends : 256 * (user [] []).xpw.fl.toNat ≤ (0x200 : Addr).toNat ∧ 256 * (regs []).xpw.fl.toNat ≤ (0 : Addr).toNat ∧
    (user [(2, 0x200)] []).getX 2 ≠ BitVec.allOnes 64 ∧ 256 * (user [] []).xpw.fl.toNat ≤ (((user [(2, 0x200)] []).getX 2).setWidth 20 : Addr).toNat ∧
    256 * (user [] []).xpw.fl.toNat ≤ ((add1c ((user [(2, 0x1FF)] []).getX 2) ((1 : Addr).signExtend 64)).setWidth 20 : Addr).toNat ∧
    256 * (user [] []).xpw.fl.toNat ≤ ((add1c ((user [(2, 0x100)] []).getX 2) ((user [(2, 0x100)] []).getX 2)).setWidth 20 : Addr).toNat := by decide
theorem witness_ProgramLimitRaises_ends : (user [] []).xpw.prf = true ∧ 256 * (user [] []).xpw.fl.toNat ≤ (0x200 : Addr).toNat ∧
    (user [(2, 0x200)] []).getX 2 ≠ BitVec.allOnes 64 ∧ 256 * (user [] []).xpw.fl.toNat ≤ (((user [(2, 0x200)] []).getX 2).setWidth 20 : Addr).toNat ∧
    256 * (user [] []).xpw.fl.toNat ≤ ({ user [] [] with p := 0x1FF }.pPlusSext 1).toNat ∧
    256 * (user [] []).xpw.fl.toNat ≤ ({ user [] [] with p := 0x200 } : State).p.toNat ∧ { user [] [] with p := 0x200 }.interruptPending = false ∧
    { user [] [] with p := 0x200 }.exchanging = none := by decide
/-- Programs whose field, relocated or not, lies outside memory. -/
def outside (rs : List (Reg × Word)) : State := machine 0x4004000200200000 rs []

theorem witness_MissingWordFaults_data : ((0 : Addr).toNat < 256 * (outside []).xpw.fl.toNat ∧
      262144 ≤ (256 * (outside []).xpw.ra.toNat + (0 : Addr).toNat) % 2 ^ 20) ∧
    ((outside [(2, 0x1FF)]).getX 2 ≠ BitVec.allOnes 64 ∧ (((outside [(2, 0x1FF)]).getX 2).setWidth 20 : Addr).toNat < 256 * (outside []).xpw.fl.toNat ∧
      262144 ≤ (256 * (outside []).xpw.ra.toNat + (0x1FF : Addr).toNat) % 2 ^ 20) ∧
    ((add1c ((outside [(2, 0x20)]).getX 2) ((0xFFFFD : Addr).signExtend 64)).setWidth 20 : Addr).toNat < 256 * (outside []).xpw.fl.toNat ∧
    ((add1c ((outside [(2, 0xFF)]).getX 2) ((outside [(2, 0xFF)]).getX 2)).setWidth 20 : Addr).toNat < 256 * (outside []).xpw.fl.toNat := by decide
theorem witness_MissingWordFaults_relocated : (outside []).xpw.prf = true ∧ (outside []).pPlusSext 0x1FF = 0x1FF ∧
    (outside []).p.toNat < 256 * (outside []).xpw.fl.toNat ∧ 262144 ≤ (256 * (outside []).xpw.ra.toNat + (outside []).p.toNat) % 2 ^ 20 ∧
    (outside []).pp.val = 0 ∧ (outside []).exchanging = none ∧ (outside []).script = [] ∧ (outside []).interruptPending = false ∧
    ({ outside [] with script := [.execute] } : State).script.head? = some .execute := by decide
theorem witness_MissingWordFaults_absolute : 262144 ≤ (0x40000 : Addr).toNat ∧ (regs []).xpw.prf = false ∧
    ((regs [(2, 0x40000)]).getX 2 ≠ BitVec.allOnes 64 ∧ 262144 ≤ (((regs [(2, 0x40000)]).getX 2).setWidth 20 : Addr).toNat) ∧
    262144 ≤ ((machine 0x3FFFF [] []).pPlusSext 1).toNat ∧ 262144 ≤ (machine 0x40000 [] []).p.toNat ∧
    (machine 0x40000 [] []).pp.val = 0 ∧ (machine 0x40000 [] []).exchanging = none ∧ (machine 0x40000 [] []).script = [] ∧
    (machine 0x40000 [] []).interruptPending = false := by decide
theorem witness_MissingWordFaults_channels : (monitor []).xpw.mtf = true ∧ 262144 ≤ (((monitor [(2, 0x40000)]).getX 2).setWidth 20 : Addr).toNat ∧
    ((monitor []).io.inp (((monitor []).getX 1).setWidth 4)).active = false ∧ ((monitor []).io.out (((monitor []).getX 1).setWidth 4)).active = false := by decide
theorem witness_PRelativeAddresses_ends : (0x7FFFF : Addr).toNat < 2 ^ 19 ∧
    (2 ^ 19 ≤ (0x80000 : Addr).toNat ∧ 2 ^ 20 - 1 - (0x80000 : Addr).toNat ≤ (machine 0x7FFFF [] []).p.toNat) ∧
    (2 ^ 19 ≤ (0xFFFFF : Addr).toNat ∧ 2 ^ 20 - 1 - (0xFFFFF : Addr).toNat ≤ (regs []).p.toNat) ∧
    (2 ^ 19 ≤ (0xFFFFE : Addr).toNat ∧ (regs []).p.toNat < 2 ^ 20 - 1 - (0xFFFFE : Addr).toNat) := by decide
theorem witness_Jumps_conditions : (inRange 0 = true ∧ inRange 0x4000000000000000 = false) ∧
    (decide ((0xFFFFFFFFFFFFFFFF : Word) = 0 ∨ (0xFFFFFFFFFFFFFFFF : Word) = BitVec.allOnes 64) = true) ∧
    (decide ((1 : Word) = 0 ∨ (1 : Word) = BitVec.allOnes 64) = false) ∧ (0x8000000000000000 : Word).getLsbD 63 = true ∧
    (0x7FFFFFFFFFFFFFFF : Word).getLsbD 63 = false := by decide
theorem witness_BackwardBranch : (sub1c 3 5).getLsbD 63 = true ∧ (sub1c 5 5).getLsbD 63 = false ∧
    val1c 0x7FFFFFFFFFFFFFFF - val1c 0 = 2 ^ 63 - 1 ∧ val1c 0x8000000000000000 - val1c 0 = -(2 ^ 63 - 1) := by decide
theorem witness_LibraryCallsAndExit : ∃ t u, exec (.lcallk 15 0x4000) (user [] []) = .next t ∧ exec (.lret 15 1) t = .next u := ⟨_, _, rfl, rfl⟩
theorem witness_MonitorInstructionsPass : (regs []).xpw.mtf = false := rfl
theorem witness_SystemCallsAndChannelStarts_idle : (monitor []).xpw.mtf = true ∧ (0 : Channel) = ((monitor []).getX 1).setWidth 4 ∧
    ((monitor []).io.inp 0).active = false ∧ ((monitor []).io.out 0).active = false ∧
    (((monitor [(2, 0x3FFFF)]).getX 2).setWidth 20 : Addr).toNat < 262144 := by decide
theorem witness_SystemCallsAndChannelStarts_busy :
    ({ monitor [(1, 3)] with io := (reading .eight).io } : State).xpw.mtf = true ∧ (3 : Channel) = ((monitor [(1, 3)]).getX 1).setWidth 4 ∧
    ((reading .eight).io.inp 3).active = true ∧ (writing.io.out 3).active = true := by decide
theorem witness_ReadChannelRequest : (requested (monitor [])).xpw.mtf = true ∧ (requested (monitor [])).io.req.current = some 5 ∧
    (monitor []).io.req.current = none := by decide
theorem witness_ExchangeAddressInstructions : (monitor []).xpw.mtf = true ∧ (20 ≤ 20 ∧ 63 < 64) ∧
    ∃ t u, exec (.txa 1 8) (monitor []) = .next t ∧ exec (.lxa 1) t = .next u := ⟨rfl, by decide, _, _, rfl, rfl⟩
theorem witness_InterlockAndClock : (machine 0x2000000000000000 [] []).xpw.ipf = true ∧ (regs []).xpw.ipf = false := by decide
theorem witness_ExchangeTwiceResumes : ∃ t u, Turn.reference ∉ (user [] [(0x50, 0x8000000240000200)]).script ∧
    exec .xj (user [] [(0x50, 0x8000000240000200)]) = .next t ∧ t.xpw.xa = (user [] [(0x50, 0x8000000240000200)]).xpw.xa ∧
    exec .xj t = .next u ∧ (user [] [(0x50, 0x8000000240000200)]).xpw.cond = 0 := ⟨_, _, by decide, rfl, rfl, rfl, rfl⟩

/-- A machine about to make a reference of an exchange sequence through package 2. -/
def referring (r : ExchangeRef) : State := { running with exchanging := some ⟨2, 5, r⟩, script := [.reference] }

theorem witness_ExchangeInSteps_reference : (referring .xpw).exchanging = some ⟨2, 5, .xpw⟩ ∧ (referring (.x 15)).exchanging = some ⟨2, 5, .x 15⟩ ∧
    (referring (.x 0)).exchanging = some ⟨2, 5, .x 0⟩ ∧ (referring .xpw).script = .reference :: [] ∧ (15 : Reg).toNat ≠ 0 ∧ (0 : Reg).toNat = 0 :=
  ⟨rfl, rfl, rfl, rfl, by decide, rfl⟩
theorem witness_ExchangeInSteps_begun (ts : List Turn) : ∃ t, Begun 0x80#8 0x56 { running with script := ts } t ∧ t.script = ts :=
  ⟨_, State.beginExchange_begun _ _ _, rfl⟩
theorem witness_ExchangeInSteps_scripts : ∃ t u v w : State,
    (Begun 0x80#8 0x56 { running with script := List.replicate 17 .reference } t ∧ t.script = List.replicate 17 .reference ++ []) ∧
    (Begun 0x80#8 0x56 { running with script := [.execute] } u ∧ u.script = .execute :: []) ∧
    (Begun 0x80#8 0x56 { running with script := [] } v ∧ v.script = []) ∧
    (Begun 0x80#8 0x56 { running with script := [.interrupt true true true] } w ∧ w.script = .interrupt true true true :: []) := by
  obtain ⟨t, h⟩ := witness_ExchangeInSteps_begun (List.replicate 17 .reference)
  obtain ⟨u, g⟩ := witness_ExchangeInSteps_begun [.execute]
  obtain ⟨v, f⟩ := witness_ExchangeInSteps_begun []
  obtain ⟨w, e⟩ := witness_ExchangeInSteps_begun [.interrupt true true true]
  exact ⟨t, u, v, w, by simpa using h, g, f, e⟩
theorem witness_RunEnds : running.xpw.cond = 0 ∧ (∃ t, step running = .next t) ∧
    ∀ f : BitVec 8, ∃ t, Exchanged f 0x56 running t :=
  ⟨rfl, ⟨_, rfl⟩, fun f => ⟨_, (running.exchange_exchanges f 0x56).1 (by decide)⟩⟩
theorem witness_RunEnds_ends : (0x80#8 : BitVec 8) = 0x80#8 ∧ [0x01#8, 0x02#8, 0x04#8, 0x08#8].all (fun f => f &&& 0x0F#8 != 0) = true ∧
    [0x10#8, 0x40#8, 0x70#8].all (fun f => f &&& 0x8F#8 == 0 && f != 0) = true := by decide
theorem witness_ModesChangeOnlyByExchange : (∃ t, step legal = .next t) ∧ (∃ t, step (referring .xpw) = .next t) ∧ (∃ t, exec .xj running = .next t) ∧
    ∃ t, exec (.lxa 2) (monitor []) = .next t := ⟨⟨_, rfl⟩, ⟨_, rfl⟩, ⟨_, rfl⟩, ⟨_, rfl⟩⟩
theorem witness_PrivilegedState : (∃ t, exec .bsc (regs []) = .next t) ∧ (regs []).xpw.mtf = false ∧ (regs []).xpw.ipf = false := ⟨⟨_, rfl⟩, rfl, rfl⟩
theorem witness_WritesStayInField_store : ∃ t, exec (.stk 1 0x1FF) (user [(1, 7)] []) = .next t ∧
    t.mem.read 0x5FF ≠ (user [(1, 7)] []).mem.read 0x5FF := by
  obtain ⟨t, h, e⟩ := next_of_word (show word 0x5FF (exec (.stk 1 0x1FF) (user [(1, 7)] [])) = some 7 by decide)
  exact ⟨t, h, by rw [e]; decide⟩
theorem witness_WritesStayInField_waiting : ∃ t, exec (.stk 1 0x1FF) { user [(1, 7)] [] with sws := [⟨9, none, some 2⟩] } = .next t ∧
    t.mem.read 9 ≠ ({ user [(1, 7)] [] with sws := [⟨9, none, some 2⟩] } : State).mem.read 9 := by
  obtain ⟨t, h, e⟩ := next_of_word (show word 9 (exec (.stk 1 0x1FF) { user [(1, 7)] [] with sws := [⟨9, none, some 2⟩] }) = some 2 by decide)
  exact ⟨t, h, by rw [e]; decide⟩
theorem witness_WritesStayInField_exchange : ∃ t, exec .xj running = .next t ∧ t.mem.read 0x50 ≠ running.mem.read 0x50 := by
  obtain ⟨t, h, e⟩ := next_of_word (show word 0x50 (exec .xj running) = some 0x4800040200200056 by decide)
  exact ⟨t, h, by rw [e]; decide⟩
theorem witness_AsynchronousConditions : ({ running with ioFlag := some 3, script := [.interrupt true false true] } : State).script = .interrupt true false true :: [] ∧
    (running.pp.val = 0 ∧ running.xpw.mtf = false ∧ running.exchanging = none) ∧ running.script = [] ∧
    ((monitor []).xpw.mtf = true ∧ (referring .xpw).exchanging ≠ none) ∧
    ({ running with ioFlag := some 3 } : State).ioFlag.isSome = true ∧ (running.ioFlag.isSome || running.timeFlag || running.scf) = false := by decide

/-- The same block, with an assembled word that waits to be written. -/
def assembled (a : Addr) (w : ChanWidth) : State :=
  { State.reset with io := State.reset.io.setInp 3 ⟨true, a + 1, w, [true], [(a, 7)]⟩ }

theorem witness_ChannelInput : (((reading .eight).io.inp 3).active = true ∧ ((reading .eight).io.inp 3).waiting = [] ∧
      ((reading .eight).io.inp 3).bits = []) ∧
    (((assembled 0x1000 .twelve).io.inp 3).active = true ∧ ((assembled 0x1000 .twelve).io.inp 3).waiting = (0x1000, 7) :: [] ∧
      ((assembled 0x1000 .twelve).io.inp 3).bits ≠ []) ∧
    (((assembled 0x3FFFF .eight).io.inp 3).waiting = (0x3FFFF, 7) :: [] ∧ (0x3FFFF : Addr).toNat < 262144) ∧
    (((assembled 0x40000 .eight).io.inp 3).waiting = (0x40000, 7) :: [] ∧ 262144 ≤ (0x40000 : Addr).toNat) ∧
    (List.replicate 55 true).length + 8 < 64 ∧ 64 ≤ (List.replicate 56 true).length + 8 := by decide
theorem witness_ChannelOutput : (writing.io.out 3).active = true ∧ (writing.io.out 3).addr.toNat < 262144 ∧
    { writing with script := [.readAhead 3] }.script = .readAhead 3 :: [] ∧ (writing.io.inp 3).active = false ∧ ((reading .eight).io.out 3).active = false ∧ (List.range 64 ≠ [] ∧ (0 : Nat) < 8) := by decide

/-- A machine whose channel 5 has a current request for which no processor has been flagged. -/
def current (s : State) : State := { s with io := { s.io with req := ⟨[5, 2], some 5, false⟩ } }

theorem witness_ChannelRequests : (writing.io.req.current = none ∧ 5 ∈ (requested writing).io.req.pending) ∧
    ((current writing).io.req.current = some 5 ∧ (current writing).io.req.held = false ∧ (current writing).xpw.mtf = false ∧
      (current writing).exchanging = none) ∧
    (requested writing).io.req.held = true ∧ (current (monitor [])).xpw.mtf = true ∧ (current (referring .xpw)).exchanging ≠ none := by decide
theorem witness_ChannelRequests_other : ((writing.io.setOther other (some 5)).others[other.val]'other.isLt = some 5) ∧
    (writing.io.others[other.val]'other.isLt = none) ∧ (requested writing).io.req.current = some 5 := by decide

end Sys2Proof.Machine.Tests
end

section
/-! What registers hold and what the program sees in them while references wait (10_state.md R54, R55; 20_memory.md R90 to R92). -/

namespace Sys2Proof.Machine

/-- No waiting reference goes to X[d]: its data have arrived (R54). -/
def State.Ready (s : State) (d : Reg) : Prop := ∀ r ∈ s.sws, r.dest ≠ some d

/-- At most one waiting reference goes to each register. -/
def State.WaitOnce (s : State) : Prop := (s.sws.filterMap (·.dest)).Nodup

theorem State.setX_getX (s : State) (d r : Reg) (v : Word) : (s.setX d v).getX r = if r = d then v else s.getX r := by
  split
  · rename_i h; rw [h, State.setX_getX_self]
  · rename_i h; exact s.setX_getX_ne v h

theorem State.performRef_getX (s : State) (r : Ref) (d : Reg) :
    (s.performRef r).getX d = if r.dest = some d then s.mem.read r.addr else s.getX d := by
  have h := s.performRef_performed r
  cases hr : r.dest with
  | none => simpa using (h.registers hr).1 d
  | some e =>
    obtain ⟨hwritten, hkept, -⟩ := h.loaded e hr
    by_cases hd : e = d
    · subst hd; simpa using hwritten
    · simpa [hd] using hkept d (Ne.symm hd)

/-- A register that no reference goes to gets nothing. -/
theorem Memory.arriving_eq_none {m : Memory} {d : Reg} {w : List Ref} :
    m.arriving d w = none ↔ ∀ r ∈ w, r.dest ≠ some d := by
  induction w with
  | nil => simp [Memory.arriving]
  | cons r w ih => by_cases hd : r.dest = some d <;> simp [Memory.arriving, hd, ih]

/-- References to other registers, however new, do not matter to X[d]. -/
theorem Memory.arriving_append {m : Memory} {d : Reg} {new : List Ref} (h : ∀ q ∈ new, q.dest ≠ some d) (w : List Ref) :
    m.arriving d (new ++ w) = m.arriving d w := by
  induction new with
  | nil => rfl
  | cons q new ih =>
    simp only [List.mem_cons, forall_eq_or_imp] at h
    simp [Memory.arriving, h.1, ih h.2]

/-- The newest reference to X[d] decides what arrives. -/
theorem Memory.arriving_of_newest {m : Memory} {d : Reg} {new old : List Ref} {r : Ref} (h : ∀ q ∈ new, q.dest ≠ some d)
    (hr : r.dest = some d) : m.arriving d (new ++ r :: old) = some (m.view old r.addr) := by
  rw [Memory.arriving_append h, Memory.arriving, if_pos hr]

/-- What a register holds once the references of a list have reached memory. -/
theorem State.performList_getX (s : State) (w : List Ref) (d : Reg) :
    (s.performList w).getX d = (s.mem.arriving d w).getD (s.getX d) := by
  induction w with
  | nil => rfl
  | cons r w ih =>
    rw [State.performList, State.performRef_getX, Memory.arriving]
    split
    · simp
    · exact ih

/-- Once every waiting reference has reached memory, a register holds what the program saw in it. -/
theorem State.performAll_getX (s : State) (d : Reg) : s.performAll.getX d = s.seen d := State.performList_getX _ _ _

/-- A register that waits for nothing is seen as it is. -/
theorem State.Ready.seen {s : State} {d : Reg} (h : s.Ready d) : s.seen d = s.getX d := by
  rw [State.seen, Memory.arriving_eq_none.mpr h, Option.getD_none]

theorem State.performAll_ready (s : State) (d : Reg) : s.performAll.Ready d := by simp [State.Ready]

theorem State.performAll_waitOnce (s : State) : s.performAll.WaitOnce := by simp [State.WaitOnce]

theorem State.performAll_seen (s : State) (d : Reg) : s.performAll.seen d = s.seen d := by
  rw [(s.performAll_ready d).seen, s.performAll_getX]

/-- A reference that goes to a register is the only one that does. -/
theorem State.WaitOnce.dest_ne {s : State} (h : s.WaitOnce) {new old : List Ref} {r : Ref} {d : Reg} (hs : s.sws = new ++ r :: old)
    (hr : r.dest = some d) : ∀ q ∈ new ++ old, q.dest ≠ some d := by
  rw [State.WaitOnce, hs] at h
  have hp : (r :: (new ++ old)).Perm (new ++ r :: old) := List.perm_middle.symm
  have hn := ((hp.filterMap (·.dest)).nodup_iff).mpr h
  rw [List.filterMap_cons_some hr, List.nodup_cons] at hn
  exact fun q hq c => hn.1 (List.mem_filterMap.mpr ⟨q, hq, c⟩)

/-- What the program sees in a register that waits is what is read before the reference to it. -/
theorem State.WaitOnce.seen {s : State} (h : s.WaitOnce) {new old : List Ref} {r : Ref} {d : Reg} (hs : s.sws = new ++ r :: old)
    (hr : r.dest = some d) : s.seen d = s.mem.view old r.addr := by
  have hne := h.dest_ne hs hr
  rw [State.seen, hs, Memory.arriving_of_newest (fun q hq => hne q (List.mem_append_left _ hq)) hr, Option.getD_some]

/-- What goes to X[d] stays the same when the oldest reference to a word, one to another register, reaches memory. -/
theorem Memory.arriving_put {m : Memory} {new old : List Ref} {r : Ref} (h : ∀ q ∈ old, q.addr ≠ r.addr) {d : Reg}
    (hr : r.dest ≠ some d) : (m.put r).arriving d (new ++ old) = m.arriving d (new ++ r :: old) := by
  induction new with
  | nil =>
    rw [List.nil_append, List.nil_append, Memory.arriving, if_neg hr]
    induction old with
    | nil => rfl
    | cons q old ih =>
      obtain ⟨hq, ho⟩ := List.forall_mem_cons.mp h
      rw [Memory.arriving, Memory.arriving, ih ho, Memory.view_put_ne m r old hq]
  | cons q new ih => simp only [List.cons_append, Memory.arriving, ih, Memory.view_put m new h]

theorem State.WaitOnce.sublist {s t : State} (h : s.WaitOnce) (g : t.sws.Sublist s.sws) : t.WaitOnce :=
  (g.filterMap _).nodup h

theorem State.WaitOnce.perform {s : State} (h : s.WaitOnce) (a : Nat) : (s.perform a).WaitOnce :=
  h.sublist (s.perform_sublist a)

theorem State.WaitOnce.await {s : State} (h : s.WaitOnce) (ds : List Reg) : (s.await ds).WaitOnce :=
  h.sublist (s.await_sublist ds)

/-- One reference reaching memory changes nothing that the program sees in a register. -/
theorem State.perform_seen {s : State} (h : s.WaitOnce) (a : Nat) (d : Reg) : (s.perform a).seen d = s.seen d := by
  rcases s.perform_cases a with ⟨_, e⟩ | ⟨new, r, old, hs, rfl, ho, e⟩ <;> rw [e]
  by_cases hr : r.dest = some d
  · have hready : ({ s with sws := new ++ old }.performRef r).Ready d := by simpa [State.Ready] using h.dest_ne hs hr
    rw [hready.seen, State.performRef_getX, if_pos hr, h.seen hs hr, Memory.view_of_forall_ne ho]
  · rw [State.seen, State.seen, State.performRef_getX, if_neg hr, State.performRef_mem, State.performRef_sws, hs,
      Memory.arriving_put ho hr]
    rfl

/-- Awaiting registers changes nothing that the program sees in a register. -/
theorem State.await_seen {s : State} (h : s.WaitOnce) (ds : List Reg) (d : Reg) : (s.await ds).seen d = s.seen d :=
  (State.await_induction (P := fun u => u.WaitOnce ∧ u.seen d = s.seen d)
    (fun _ a g => ⟨g.1.perform a, (State.perform_seen g.1 a d).trans g.2⟩) ds ⟨h, rfl⟩).2

theorem State.await_ready (s : State) {ds : List Reg} {d : Reg} (hd : d ∈ ds) : (s.await ds).Ready d := s.await_done ds d hd

/-- A register that has been awaited holds what the program saw in it. -/
theorem State.await_getX {s : State} (h : s.WaitOnce) {ds : List Reg} {d : Reg} (hd : d ∈ ds) :
    (s.await ds).getX d = s.seen d := by
  rw [← (s.await_ready hd).seen, State.await_seen h]

/-- The first reference to a word in a list. -/
theorem find_addr_append {a : Nat} {mid old : List Ref} {q : Ref} (hm : ∀ p ∈ mid, p.addr ≠ a) (hq : q.addr = a) :
    (mid ++ q :: old).find? (fun p => p.addr = a) = some q := by
  have hnone : mid.find? (fun p => decide (p.addr = a)) = none := by simpa using hm
  rw [List.find?_append, hnone]
  simp [hq]

/-- Forwarding looks at the reference to the same word next before the load for X[d]: if it writes the word, its word is taken. -/
theorem takeForwarded_eq {d : Reg} {new mid old : List Ref} {r q : Ref} (hn : ∀ p ∈ new, p.dest ≠ some d) (hd : r.dest = some d)
    (hr : r.data = none) (hm : ∀ p ∈ mid, p.addr ≠ r.addr) (hq : q.addr = r.addr) :
    takeForwarded d (new ++ r :: (mid ++ q :: old)) = q.data.map fun v => (v, new ++ (mid ++ q :: old)) := by
  induction new with
  | nil =>
    rw [List.nil_append, takeForwarded, if_pos hd, if_pos hr, find_addr_append hm hq, Option.bind_some]
    rfl
  | cons p new ih =>
    obtain ⟨hp, hn⟩ := List.forall_mem_cons.mp hn
    rw [List.cons_append, takeForwarded, if_neg hp, ih hn]
    cases q.data <;> rfl

/-- Performing the oldest reference to a word, given where it waits. -/
theorem State.perform_eq {s : State} {new old : List Ref} {r : Ref} (hs : s.sws = new ++ r :: old) (ho : ∀ q ∈ old, q.addr ≠ r.addr) :
    s.perform r.addr = { s with sws := new ++ old }.performRef r := by
  rw [State.perform, hs, takeOldest_eq_some.mpr ⟨new, old, rfl, rfl, rfl, ho⟩]

/-- With no reference to a word waiting, none reaches it. -/
theorem State.perform_of_forall_ne {s : State} {a : Nat} (h : ∀ r ∈ s.sws, r.addr ≠ a) : s.perform a = s := by
  rw [State.perform, takeOldest_eq_none.mpr h]

end Sys2Proof.Machine
end

section
/-! The state after dead start, and the turns by which references reach memory. -/

namespace Sys2Proof.Machine

/-- Settles O1: every field of `Legal` is seen on the values of dead start. -/
theorem resetIsLegal : Obligations.ResetIsLegal := by
  have hinp : ∀ c : Channel, IoSection.reset.inp c = ⟨false, 0, .eight, [], []⟩ := fun c => by
    simp [IoSection.inp, IoSection.reset]
  have hout : ∀ c : Channel, IoSection.reset.out c = ⟨false, 0, .eight, [], true, 0⟩ := fun c => by
    simp [IoSection.out, IoSection.reset]
  refine ⟨?_, rfl, rfl, rfl⟩
  exact {
    memory := Memory.reset_wf
    waiting := by simp [State.reset]
    reservations := by simp [State.reset]
    destinations := by simp [State.reset]
    stackLength := by simp [State.reset]
    stackAddresses := by simp [State.reset]
    sequence := fun _ => ⟨rfl, rfl⟩
    request := ⟨by simp [State.reset, IoSection.reset], by simp [State.reset, IoSection.reset],
      by simp [State.reset, IoSection.reset]⟩
    input := fun c => by
      rw [show State.reset.io = IoSection.reset from rfl, hinp]
      exact ⟨by simp, by simp, by simp, by simp⟩
    output := fun c => by
      rw [show State.reset.io = IoSection.reset from rfl, hout]
      exact ⟨fun _ => rfl, rfl⟩ }

/-- Settles O10: the turn is `State.perform`, whose effect on what is read and seen the laws of the queue give. -/
theorem storesReachMemory : Obligations.StoresReachMemory := by
  intro s a ts
  refine ⟨fun hs => ?_, fun b => ⟨by simp [State.view], s.performAll_view b⟩, s.performAll_sws, fun _ d => s.performAll_getX d⟩
  refine ⟨State.perform { s with script := ts } a, by rw [step, hs]; rfl, fun b => State.perform_view _ a b,
    fun hw d => State.perform_seen (s := { s with script := ts }) hw a d, by simp, by simp, by simp, by simp [SameStack],
    ?_, fun h => State.perform_of_forall_ne h⟩
  rintro r new old hq rfl ho
  rw [State.perform_eq (s := { s with script := ts }) hq ho]
  obtain ⟨hloaded, hregs, hwritten, hothers⟩ := State.performRef_performed { s with script := ts, sws := new ++ old } r
  exact ⟨⟨hloaded, hregs, hwritten, hothers⟩, by simp⟩

/-- The queue in which forwarding finds a load for X[d] and the reference `q` to the same word next before it. -/
structure State.Forwards (s : State) (d : Reg) (new mid old : List Ref) (r q : Ref) : Prop where
  queue : s.sws = new ++ r :: (mid ++ q :: old)
  dest : r.dest = some d
  load : r.data = none
  between : ∀ p ∈ mid, p.addr ≠ r.addr
  word : q.addr = r.addr

theorem State.Forwards.takeForwarded {s : State} {d : Reg} {new mid old : List Ref} {r q : Ref} (h : s.Forwards d new mid old r q)
    (hw : s.WaitOnce) : Machine.takeForwarded d s.sws = q.data.map fun v => (v, new ++ (mid ++ q :: old)) := by
  have hne := hw.dest_ne h.queue h.dest
  rw [h.queue, takeForwarded_eq (fun p hp => hne p (List.mem_append_left _ hp)) h.dest h.load h.between h.word]

/-- Forwarding from a reference that writes the word. -/
theorem State.Forwards.forward_of_some {s : State} {d : Reg} {new mid old : List Ref} {r q : Ref} (h : s.Forwards d new mid old r q)
    (hw : s.WaitOnce) {v : Word} (hv : q.data = some v) : s.forward d = { s with sws := new ++ (mid ++ q :: old) }.setX d v := by
  rw [State.forward, h.takeForwarded hw, hv]
  rfl

/-- A load next before forwards nothing. -/
theorem State.Forwards.forward_of_none {s : State} {d : Reg} {new mid old : List Ref} {r q : Ref} (h : s.Forwards d new mid old r q)
    (hw : s.WaitOnce) (hv : q.data = none) : s.forward d = s := by
  rw [State.forward, h.takeForwarded hw, hv]
  rfl

/-- The word forwarded is the one that the program saw in the register. -/
theorem State.Forwards.seen {s : State} {d : Reg} {new mid old : List Ref} {r q : Ref} (h : s.Forwards d new mid old r q)
    (hw : s.WaitOnce) {v : Word} (hv : q.data = some v) : s.seen d = v := by
  rw [hw.seen h.queue h.dest, Memory.view_of_find]
  rw [find_addr_append h.between h.word, Option.bind_some, hv]

/-- Settles O11: awaiting is made of `State.perform`, which keeps what is seen; forwarding is read off the queue. -/
theorem registersArrive : Obligations.RegistersArrive := by
  intro s hw
  refine ⟨fun ds => ⟨fun d hd => ⟨State.await_getX hw hd, s.await_ready hd⟩, State.await_seen hw ds, s.await_view ds,
    fun a => s.await_read ds, s.await_sublist ds, fun d new old r hs hd _ ho => ?_⟩, ?_⟩
  · rw [State.WaitOnce.seen hw hs hd, Memory.view_of_forall_ne ho]
  · intro d new mid old r q ts hscript hs hd hr hq hm
    have h : State.Forwards { s with script := ts } d new mid old r q := ⟨hs, hd, hr, hm, hq⟩
    have hstep : step s = .next (State.forward { s with script := ts } d) := by rw [step, hscript]; rfl
    refine ⟨fun v hv => ⟨_, hstep.trans (congrArg _ (h.forward_of_some hw hv)), ⟨State.setX_getX_self _ d v,
      fun p hp => State.setX_getX_ne _ v hp, rfl⟩, rfl, rfl, h.seen hw hv, rfl, rfl, rfl, rfl, rfl⟩, fun hv => ?_⟩
    rw [hstep, h.forward_of_none hw hv]

end Sys2Proof.Machine
end

section
/-! Everything an instruction can do, said once: a list of small updates, then at most one reference to memory or one condition.
What an instruction does is determined by the registers that it names and by a few fields of the state (`Agrees`). -/

namespace Sys2Proof.Machine

/-- The updates of the state that instructions are made of. -/
inductive Act where
  | draw
  | setX (d : Reg) (v : Word)
  | advance (n : Nat)
  | jump (a : Addr)
  | clearIas
  | setPrf (b : Bool)
  | setXa (v : BitVec 8)
  | setIl (v : BitVec 20)
  | setScf (b : Bool)
  | readClock
  | startInput (c : Channel) (a : Addr)
  | startOutput (c : Channel) (a : Addr)
  | release

/-- The operation of the model that an update stands for. -/
def Act.run : Act → State → State
  | .draw, s => s.drawn
  | .setX d v, s => s.setX d v
  | .advance n, s => s.advance n
  | .jump a, s => s.jump a
  | .clearIas, s => s.clearIas
  | .setPrf b, s => s.setPrf b
  | .setXa v, s => s.setXa v
  | .setIl v, s => s.setIl v
  | .setScf b, s => s.setScf b
  | .readClock, s => s.readClock
  | .startInput c a, s => s.setIo (s.io.startInput c a)
  | .startOutput c a, s => s.setIo (s.io.startOutput c a)
  | .release, s => s.setIo { s.io with req := s.io.req.release }

/-- The updates, the first one first. -/
def Act.runAll (l : List Act) (s : State) : State := l.foldl (fun u a => a.run u) s

/-! No update touches the waiting references, memory, or an exchange sequence. -/

@[simp] theorem Act.run_sws (a : Act) (s : State) : (a.run s).sws = s.sws := by cases a <;> simp [Act.run]

@[simp] theorem Act.run_mem (a : Act) (s : State) : (a.run s).mem = s.mem := by cases a <;> simp [Act.run]

@[simp] theorem Act.run_exchanging (a : Act) (s : State) : (a.run s).exchanging = s.exchanging := by cases a <;> simp [Act.run]

/-- What every update of a list keeps holds after all of them. -/
theorem Act.runAll_induction {P : State → Prop} {l : List Act} (h : ∀ a ∈ l, ∀ u, P u → P (a.run u)) {s : State} (hs : P s) :
    P (Act.runAll l s) := by
  induction l generalizing s with
  | nil => exact hs
  | cons a l ih =>
    obtain ⟨ha, hl⟩ := List.forall_mem_cons.mp h
    exact ih hl (ha s hs)

@[simp] theorem Act.runAll_sws (l : List Act) (s : State) : (Act.runAll l s).sws = s.sws :=
  Act.runAll_induction (P := fun u => u.sws = s.sws) (fun a _ u h => (a.run_sws u).trans h) rfl

@[simp] theorem Act.runAll_exchanging (l : List Act) (s : State) : (Act.runAll l s).exchanging = s.exchanging :=
  Act.runAll_induction (P := fun u => u.exchanging = s.exchanging) (fun a _ u h => (a.run_exchanging u).trans h) rfl

/-- An update that an instruction naming the registers `ds` makes under the modes `w`: registers are those named; SCF and the channels
take monitor mode, and IL takes IPF (60_exceptions.md R424, R427). -/
def Act.Within (ds : List Reg) (w : Xpw) : Act → Prop
  | .setX d _ => d ∈ ds
  | .setIl _ => w.ipf = true
  | .setScf _ | .startInput _ _ | .startOutput _ _ | .release => w.mtf = true
  | .draw | .advance _ | .jump _ | .clearIas | .setPrf _ | .setXa _ | .readClock => True

/-- What an instruction does: updates alone; updates, then one reference and the next parcel; updates, then a condition; or a stop. -/
inductive Effect where
  | next (l : List Act)
  | refer (l : List Act) (r : Ref) (n : Nat)
  | raise (l : List Act) (c : Cond)
  | fault (f : Fault)
  | refused (r : Refusal)

/-- The answer of the model that an effect stands for. -/
def Effect.run : Effect → State → Answer
  | .next l, s => .next (Act.runAll l s)
  | .refer l r n, s => .next (((Act.runAll l s).issue r).advance n)
  | .raise l c, s => (Act.runAll l s).raise c
  | .fault f, _ => .fault f
  | .refused r, _ => .refused r

/-- The effect of an instruction naming the registers `ds` under the modes `w`: its reference is to a word that exists, and for a
register that is named. -/
def Effect.Within (ds : List Reg) (w : Xpw) : Effect → Prop
  | .next l => ∀ a ∈ l, a.Within ds w
  | .refer l r _ => (∀ a ∈ l, a.Within ds w) ∧ r.addr < Config.memWords ∧ ∀ d, r.dest = some d → d ∈ ds
  | .raise l _ => ∀ a ∈ l, a.Within ds w
  | .fault _ => True
  | .refused _ => True

/-- The effect with one more value drawn before. -/
def Effect.afterDraw : Effect → Effect
  | .next l => .next (.draw :: l)
  | .refer l r n => .refer (.draw :: l) r n
  | .raise l c => .raise (.draw :: l) c
  | .fault f => .fault f
  | .refused r => .refused r

theorem Effect.afterDraw_run (e : Effect) (s : State) : e.afterDraw.run s = e.run s.drawn := by cases e <;> rfl

theorem Effect.afterDraw_within {ds : List Reg} {w : Xpw} {e : Effect} (h : e.Within ds w) : e.afterDraw.Within ds w := by
  cases e with
  | next l => exact List.forall_mem_cons.mpr ⟨trivial, h⟩
  | refer l r n => exact ⟨List.forall_mem_cons.mpr ⟨trivial, h.1⟩, h.2⟩
  | raise l c => exact List.forall_mem_cons.mpr ⟨trivial, h⟩
  | fault f => exact trivial
  | refused r => exact trivial

/-- Two states agree in what an instruction naming the registers `ds` looks at. -/
structure Agrees (ds : List Reg) (s u : State) : Prop where
  getX : ∀ d ∈ ds, u.getX d = s.getX d
  p : u.p = s.p
  xpw : u.xpw = s.xpw
  il : u.il = s.il
  io : u.io = s.io
  draws : u.draws = s.draws

theorem Agrees.refl (ds : List Reg) (s : State) : Agrees ds s s := ⟨fun _ _ => rfl, rfl, rfl, rfl, rfl, rfl⟩

section
variable {ds : List Reg} {s u : State} (h : Agrees ds s u)
include h

theorem Agrees.drawn : Agrees ds s.drawn u.drawn := ⟨h.getX, h.p, h.xpw, h.il, h.io, congrArg (· + 1) h.draws⟩

theorem Agrees.freeWord : u.freeWord = s.freeWord := by rw [State.freeWord, h.draws, State.freeWord]

theorem Agrees.link : u.link = s.link := by rw [State.link, State.pWord, h.p, h.xpw, State.link, State.pWord]

theorem Agrees.pPlusSext (K : Addr) : u.pPlusSext K = s.pPlusSext K := by
  rw [State.pPlusSext, State.pWord, h.p, State.pPlusSext, State.pWord]

theorem Agrees.pPlusZext (K : Addr) : u.pPlusZext K = s.pPlusZext K := by
  rw [State.pPlusZext, State.pWord, h.p, State.pPlusZext, State.pWord]

theorem Agrees.relocate (a : Addr) : u.relocate a = s.relocate a := by rw [State.relocate, h.xpw, State.relocate]

theorem Agrees.fieldLength : u.fieldLength = s.fieldLength := by rw [State.fieldLength, h.xpw, State.fieldLength]

end

/-- A meaning `f` has one effect in every state that agrees with `s` in what is looked at. -/
def Described (ds : List Reg) (s : State) (f : State → Answer) : Prop :=
  ∃ e : Effect, e.Within ds s.xpw ∧ ∀ u, Agrees ds s u → f u = e.run u

section
variable {ds : List Reg} {s : State}

theorem Described.of {f : State → Answer} (e : Effect) (hw : e.Within ds s.xpw) (he : ∀ u, Agrees ds s u → f u = e.run u) :
    Described ds s f := ⟨e, hw, he⟩

/-- A meaning made of updates alone. -/
theorem described_next {l : State → List Act} (hw : ∀ a ∈ l s, a.Within ds s.xpw) (hl : ∀ u, Agrees ds s u → l u = l s) :
    Described ds s fun u => .next (Act.runAll (l u) u) :=
  .of (.next (l s)) hw fun u h => by rw [hl u h]; rfl

theorem described_setX {d : Reg} {v : State → Word} {n : Nat} (hd : d ∈ ds) (hv : ∀ u, Agrees ds s u → v u = v s) :
    Described ds s fun u => .next ((u.setX d (v u)).advance n) :=
  described_next (l := fun u => [.setX d (v u), .advance n]) (by simp [Act.Within, hd]) fun u h => by rw [hv u h]

theorem described_drawn_setX {d : Reg} {v : State → Word} {n : Nat} (hd : d ∈ ds) (hv : ∀ u, Agrees ds s u → v u = v s) :
    Described ds s fun u => .next ((u.drawn.setX d (v u)).advance n) :=
  described_next (l := fun u => [.draw, .setX d (v u), .advance n]) (by simp [Act.Within, hd]) fun u h => by rw [hv u h]

theorem described_advance {n : Nat} : Described ds s fun u => .next (u.advance n) :=
  described_next (l := fun _ => [.advance n]) (by simp [Act.Within]) fun _ _ => rfl

theorem described_jump {a : State → Addr} (ha : ∀ u, Agrees ds s u → a u = a s) : Described ds s fun u => .next (u.jump (a u)) :=
  described_next (l := fun u => [.jump (a u)]) (by simp [Act.Within]) fun u h => by rw [ha u h]

theorem described_call {d : Reg} {a : State → Addr} (hd : d ∈ ds) (ha : ∀ u, Agrees ds s u → a u = a s) :
    Described ds s fun u => .next ((u.setX d u.link).jump (a u)) :=
  described_next (l := fun u => [.setX d u.link, .jump (a u)]) (by simp [Act.Within, hd]) fun u h => by rw [ha u h, h.link]

theorem described_libraryCall {d : Reg} {a : State → Addr} (hd : d ∈ ds) (ha : ∀ u, Agrees ds s u → a u = a s) :
    Described ds s fun u => .next ((((u.setX d u.link).setPrf false).clearIas).jump (a u)) :=
  described_next (l := fun u => [.setX d u.link, .setPrf false, .clearIas, .jump (a u)]) (by simp [Act.Within, hd])
    fun u h => by rw [ha u h, h.link]

/-- A choice by a condition on which the states agree. -/
theorem described_ite {c : State → Prop} [∀ u, Decidable (c u)] {f g : State → Answer} (hc : ∀ u, Agrees ds s u → (c u ↔ c s))
    (hf : c s → Described ds s f) (hg : ¬ c s → Described ds s g) : Described ds s fun u => if c u then f u else g u := by
  by_cases h : c s
  · obtain ⟨e, hw, he⟩ := hf h
    exact .of e hw fun u hu => by rw [if_pos ((hc u hu).mpr h), he u hu]
  · obtain ⟨e, hw, he⟩ := hg h
    exact .of e hw fun u hu => by rw [if_neg (mt (hc u hu).mp h), he u hu]

/-- A choice between two updates that an instruction makes before going on. -/
theorem described_modal {c : State → Bool} {a : State → Act} (hc : ∀ u, Agrees ds s u → c u = c s)
    (hw : c s = true → (a s).Within ds s.xpw) (ha : ∀ u, Agrees ds s u → a u = a s) :
    Described ds s fun u => .next ((if c u then (a u).run u else u).advance 1) := by
  cases h : c s with
  | true =>
    refine .of (.next [a s, .advance 1]) ?_ fun u hu => ?_
    · simpa [Effect.Within, Act.Within] using hw h
    · rw [hc u hu, h, ha u hu]; rfl
  | false => exact .of (.next [.advance 1]) (by simp [Effect.Within, Act.Within]) fun u hu => by rw [hc u hu, h]; rfl

theorem described_jumpIf {c : State → Bool} {K : Addr} (hc : ∀ u, Agrees ds s u → c u = c s) :
    Described ds s fun u => u.jumpIf (c u) K := by
  cases h : c s with
  | true =>
    refine .of (.next [.jump (s.pPlusSext K)]) (by simp [Effect.Within, Act.Within]) fun u hu => ?_
    rw [hc u hu, h, State.jumpIf, if_pos rfl, hu.pPlusSext]; rfl
  | false => exact .of (.next [.advance 2]) (by simp [Effect.Within, Act.Within]) fun u hu => by rw [hc u hu, h]; rfl

theorem described_raise (c : Cond) : Described ds s fun u => u.raise c :=
  .of (.raise [] c) (by simp [Effect.Within]) fun _ _ => rfl

theorem described_float {d : Reg} {v : State → Word} (hd : d ∈ ds) (hv : ∀ u, Agrees ds s u → v u = v s) :
    Described ds s fun u => u.drawn.deliverFloat d (v u) := by
  have hw : ∀ l : List Act, (∀ a ∈ l, a.Within ds s.xpw) → ∀ a ∈ .draw :: .setX d (v s) :: l, a.Within ds s.xpw := by
    simp +contextual [Act.Within, hd]
  by_cases h : (s.xpw.ovf && !inRange (v s)) = true
  · exact .of (.raise [.draw, .setX d (v s)] .overflow) (hw [] (by simp)) fun u hu => by
      rw [hv u hu, State.deliverFloat, State.drawn_xpw, hu.xpw, if_pos h]; rfl
  · exact .of (.next [.draw, .setX d (v s), .advance 1]) (hw [_] (by simp [Act.Within])) fun u hu => by
      rw [hv u hu, State.deliverFloat, State.drawn_xpw, hu.xpw, if_neg h]; rfl

/-- What is described in the state with one value drawn is described before. -/
theorem Described.drawn {f : State → Answer} (h : Described ds s.drawn f) : Described ds s fun u => f u.drawn := by
  obtain ⟨e, hw, he⟩ := h
  exact .of e.afterDraw (Effect.afterDraw_within hw) fun u hu => (he _ hu.drawn).trans (e.afterDraw_run u).symm

/-- A meaning that agreeing states give alike is described if one that it equals there is. -/
theorem Described.congr {f g : State → Answer} (h : Described ds s g) (hf : ∀ u, Agrees ds s u → f u = g u) : Described ds s f := by
  obtain ⟨e, hw, he⟩ := h
  exact .of e hw fun u hu => (hf u hu).trans (he u hu)

/-- A continuation that issues one reference to the word given, for a register that is named. -/
def Refers (ds : List Reg) (k : Nat → State → Answer) : Prop :=
  ∀ (s : State) (a : Nat), ∃ r n, r.addr = a ∧ (∀ d, r.dest = some d → d ∈ ds) ∧
    ∀ u, Agrees ds s u → k a u = .next ((u.issue r).advance n)

theorem refers_loadInto {d : Reg} {n : Nat} (hd : d ∈ ds) : Refers ds (loadInto d n) :=
  fun _ a => ⟨⟨a, some d, none⟩, n, rfl, by simp [hd], fun _ _ => rfl⟩

theorem refers_storeFrom {d : Reg} {n : Nat} (hd : d ∈ ds) : Refers ds (storeFrom d n) :=
  fun s a => ⟨⟨a, none, some (s.getX d)⟩, n, rfl, by simp, fun u h => by rw [storeFrom, h.getX d hd]⟩

theorem refers_swapWith {d : Reg} {n : Nat} (hd : d ∈ ds) : Refers ds (swapWith d n) :=
  fun s a => ⟨⟨a, some d, some (s.getX d)⟩, n, rfl, by simp [hd], fun u h => by rw [swapWith, h.getX d hd]⟩

theorem Refers.described {k : Nat → State → Answer} (hk : Refers ds k) (a : Nat) : Described ds s fun u => u.atWord a k := by
  by_cases h : a < Config.memWords
  · obtain ⟨r, n, rfl, hd, hr⟩ := hk s a
    exact .of (.refer [] r n) ⟨by simp, h, hd⟩ fun u hu => (State.atWord_of_lt h).trans (hr u hu)
  · exact .of (.fault (.noSuchWord a)) trivial fun _ _ => State.atWord_of_ge (Nat.not_lt.mp h)

theorem described_dataRef {a : State → Addr} {k : Nat → State → Answer} (hk : Refers ds k) (ha : ∀ u, Agrees ds s u → a u = a s) :
    Described ds s fun u => u.dataRef (a u) k := by
  refine Described.congr (described_ite (c := fun u => (a s).toNat ≥ u.fieldLength) (fun u hu => by rw [hu.fieldLength])
    (fun _ => described_raise .dataLimit) fun _ => hk.described (s.relocate (a s))) fun u hu => ?_
  rw [State.dataRef, ha u hu, hu.relocate]

theorem described_progRef {a : State → Addr} {k : Nat → State → Answer} (hk : Refers ds k) (ha : ∀ u, Agrees ds s u → a u = a s) :
    Described ds s fun u => u.progRef (a u) k := by
  refine Described.congr (described_ite (c := fun u => u.xpw.prf = true) (fun u hu => by rw [hu.xpw])
    (fun _ => described_ite (c := fun u => (a s).toNat ≥ u.fieldLength) (fun u hu => by rw [hu.fieldLength])
      (fun _ => described_raise .programLimit) fun _ => hk.described (s.relocate (a s)))
    fun _ => hk.described (a s).toNat) fun u hu => ?_
  rw [State.progRef, ha u hu, hu.relocate]

theorem described_drawn_dataRef {a : State → Addr} {k : Nat → State → Answer} (hk : Refers ds k)
    (ha : ∀ u, Agrees ds s u → a u = a s) : Described ds s fun u => u.drawn.dataRef (a u) k :=
  Described.congr (Described.drawn (described_dataRef (a := fun _ => a s) hk fun _ _ => rfl)) fun u hu => by rw [ha u hu]

theorem described_drawn_progRef {a : State → Addr} {k : Nat → State → Answer} (hk : Refers ds k)
    (ha : ∀ u, Agrees ds s u → a u = a s) : Described ds s fun u => u.drawn.progRef (a u) k :=
  Described.congr (Described.drawn (described_progRef (a := fun _ => a s) hk fun _ _ => rfl)) fun u hu => by rw [ha u hu]

/-- Starting a block, in monitor mode, on a path that is idle and at a word that exists. -/
theorem described_startBlock {busy : State → Bool} {a : State → Addr} {b : State → Act}
    (hbusy : ∀ u, Agrees ds s u → busy u = busy s) (ha : ∀ u, Agrees ds s u → a u = a s) (hb : ∀ u, Agrees ds s u → b u = b s)
    (hw : s.xpw.mtf = true → (b s).Within ds s.xpw) :
    Described ds s fun u => if u.xpw.mtf then
        if busy u then .refused .channelBusy else u.atWord (a u).toNat fun _ v => .next (((b u).run v).advance 1)
      else .next (u.advance 1) := by
  refine described_ite (fun u hu => by rw [hu.xpw]) (fun hm => described_ite (fun u hu => by rw [hbusy u hu])
    (fun _ => .of (.refused .channelBusy) trivial fun _ _ => rfl) fun _ => ?_) fun _ => described_advance
  by_cases h : (a s).toNat < Config.memWords
  · refine .of (.next [b s, .advance 1]) (by simpa [Effect.Within, Act.Within] using hw hm) fun u hu => ?_
    rw [ha u hu, hb u hu, State.atWord_of_lt h]; rfl
  · exact .of (.fault (.noSuchWord (a s).toNat)) trivial fun u hu => by rw [ha u hu, State.atWord_of_ge (Nat.not_lt.mp h)]; rfl

end

end Sys2Proof.Machine
end

section
/-! Every instruction has one effect, determined by what it looks at. -/

namespace Sys2Proof.Machine

/-- What every instruction does, said once. -/
theorem exec_described (i : Instr) (s : State) : Described (namedRegisters i) s (exec i) := by
  cases i with
  | err00 | err0e | err1e | err1f => exact described_raise .errorExit
  | xj => exact described_raise .programCall
  | pass => exact described_advance
  | and j k | or j k | xor j k | copy j k | copyc j k | pop j k | neg j k | unpc j k | unpe j k =>
    exact described_setX (ds := [j, k]) (by simp) fun u h => by simp [h.getX]
  | addk j k | subk j k | save j n | blank j n | roln j n | sarn j n =>
    exact described_setX (ds := [j]) (by simp) fun u h => by simp [h.getX]
  | setk j k | setnk j k | tk j k => exact described_setX (ds := [j]) (by simp) fun _ _ => rfl
  | tpk j k => exact described_setX (ds := [j]) (by simp) fun u h => by rw [h.pPlusSext]
  | txa j k => exact described_setX (ds := [j]) (by simp) fun u h => by rw [h.xpw]
  | ril j k => exact described_setX (ds := [j]) (by simp) fun u h => by rw [h.il]
  | iaddk i j k => exact described_setX (ds := [i, j]) (by simp) fun u h => by simp [h.getX]
  | iadd i j k | isub i j k => exact described_setX (ds := [i, j, k]) (by simp) fun u h => by simp [h.getX]
  | shl j k | shr j k | pack j k | imul j k =>
    exact described_drawn_setX (ds := [j, k]) (by simp) fun u h => by simp [h.getX, h.freeWord, h.draws]
  | fdpadd j k | fdpsub j k | fdiv j k | fdpmul j k =>
    exact described_float (ds := [j, k]) (by simp) fun u h => by simp [h.getX, h.freeWord]
  | fadd i j k | fsub i j k | fmul i j k =>
    exact described_float (ds := [i, j, k]) (by simp) fun u h => by simp [h.getX, h.freeWord]
  | bsc => exact described_modal (c := fun u => u.xpw.mtf) (a := fun _ => .setScf true) (fun u h => by rw [h.xpw]) id fun _ _ => rfl
  | esc => exact described_modal (c := fun u => u.xpw.mtf) (a := fun _ => .setScf false) (fun u h => by rw [h.xpw]) id fun _ _ => rfl
  | lxa k =>
    exact described_modal (ds := [k]) (c := fun u => u.xpw.mtf) (a := fun u => .setXa (xaOperand (u.getX k)))
      (fun u h => by rw [h.xpw]) (fun _ => trivial) fun u h => by simp [h.getX]
  | sil k =>
    exact described_modal (ds := [k]) (c := fun u => u.xpw.ipf) (a := fun u => .setIl (u.il ||| low20 (u.getX k)))
      (fun u h => by rw [h.xpw]) id fun u h => by simp [h.getX, h.il]
  | cil k =>
    exact described_modal (ds := [k]) (c := fun u => u.xpw.ipf) (a := fun u => .setIl (u.il &&& ~~~low20 (u.getX k)))
      (fun u h => by rw [h.xpw]) id fun u h => by simp [h.getX, h.il]
  | chin j k =>
    exact described_startBlock (ds := [j, k]) (busy := fun u => (u.io.inp (channelOf (u.getX j))).active)
      (a := fun u => low20 (u.getX k)) (b := fun u => .startInput (channelOf (u.getX j)) (low20 (u.getX k)))
      (fun u h => by simp [h.getX, h.io]) (fun u h => by simp [h.getX]) (fun u h => by simp [h.getX]) id
  | chout j k =>
    exact described_startBlock (ds := [j, k]) (busy := fun u => (u.io.out (channelOf (u.getX j))).active)
      (a := fun u => low20 (u.getX k)) (b := fun u => .startOutput (channelOf (u.getX j)) (low20 (u.getX k)))
      (fun u h => by simp [h.getX, h.io]) (fun u h => by simp [h.getX]) (fun u h => by simp [h.getX]) id
  | rcr j =>
    refine described_ite (ds := [j]) (c := fun u => u.xpw.mtf = true) (fun u h => by rw [h.xpw]) (fun hm => ?_) fun _ => ?_
    · exact described_next
        (l := fun u => [.draw, .release, .setX j (match u.io.req.current with | some c => c.setWidth 64 | none => u.freeWord),
          .advance 1])
        (by simp [Act.Within, hm]) fun u h => by rw [h.io, h.freeWord]
    · exact described_setX (by simp) fun _ _ => rfl
  | rtc j k =>
    exact described_next (ds := [j]) (l := fun u => [.readClock, .setX j (underCopies k u.readClock.rtc), .advance 1])
      (by simp [Act.Within]) fun u h => by simp [h.draws]
  | stk j K => exact described_dataRef (ds := [j]) (refers_storeFrom (by simp)) fun _ _ => rfl
  | rsk j K => exact described_dataRef (ds := [j]) (refers_swapWith (by simp)) fun _ _ => rfl
  | ldk j K => exact described_dataRef (ds := [j]) (refers_loadInto (by simp)) fun _ _ => rfl
  | stx j k =>
    exact described_drawn_dataRef (ds := [j, k]) (refers_storeFrom (by simp)) fun u h => by simp [h.getX, h.draws]
  | rsx j k =>
    exact described_drawn_dataRef (ds := [j, k]) (refers_swapWith (by simp)) fun u h => by simp [h.getX, h.draws]
  | ldx j k =>
    exact described_drawn_dataRef (ds := [j, k]) (refers_loadInto (by simp)) fun u h => by simp [h.getX, h.draws]
  | rpk j K => exact described_progRef (ds := [j]) (refers_loadInto (by simp)) fun _ _ => rfl
  | rpx j k =>
    exact described_drawn_progRef (ds := [j, k]) (refers_loadInto (by simp)) fun u h => by simp [h.getX, h.draws]
  | rpp j K => exact described_progRef (ds := [j]) (refers_loadInto (by simp)) fun u h => h.pPlusSext K
  | ldxk i j K => exact described_dataRef (ds := [i, j]) (refers_loadInto (by simp)) fun u h => by simp [h.getX]
  | ldxx i j k => exact described_dataRef (ds := [i, j, k]) (refers_loadInto (by simp)) fun u h => by simp [h.getX]
  | stxk i j K => exact described_dataRef (ds := [i, j]) (refers_storeFrom (by simp)) fun u h => by simp [h.getX]
  | stxx i j k => exact described_dataRef (ds := [i, j, k]) (refers_storeFrom (by simp)) fun u h => by simp [h.getX]
  | jp K => exact described_jump fun u h => h.pPlusZext K
  | jk K => exact described_jump fun _ _ => rfl
  | ret j k => exact described_jump (ds := [j]) fun u h => by simp [h.getX]
  | callp j K => exact described_call (ds := [j]) (by simp) fun u h => h.pPlusZext K
  | callk j K => exact described_call (ds := [j]) (by simp) fun _ _ => rfl
  | callx j k => exact described_call (ds := [j, k]) (by simp) fun u h => by simp [h.getX]
  | lcallk j K => exact described_libraryCall (ds := [j]) (by simp) fun _ _ => rfl
  | lcallx j k => exact described_libraryCall (ds := [j, k]) (by simp) fun u h => by simp [h.getX]
  | lret j k =>
    exact described_next (ds := [j])
      (l := fun u => [.setPrf (prfOfLink (u.getX j)), .clearIas, .jump (targetXPlus (u.getX j) k)])
      (by simp [Act.Within]) fun u h => by simp [h.getX]
  | jir j K | jnr j K | jz j K | jnz j K | jpl j K | jng j K =>
    exact described_jumpIf (ds := [j]) fun u h => by simp [h.getX]
  | brb i j k =>
    refine Described.congr (ds := [j, k]) (g := fun u => if isNeg (sub1c (u.getX j) (u.getX k)) then
      .next (u.jump (u.p - i.setWidth 20)) else .next (u.advance 1)) (described_ite (fun u h => by simp [h.getX])
        (fun _ => described_jump fun u h => by rw [h.p]) fun _ => described_advance) fun u _ => ?_
    exact apply_ite Host.Outcome.next _ _ _

end Sys2Proof.Machine
end

section
/-! What instructions without MTF or IPF leave unchanged (60_exceptions.md R424, R427). -/

namespace Sys2Proof.Machine

/-- From `s` to `t` nothing changed that the modes `w` protect, nor what waits to be delivered. -/
structure Protected (w : Xpw) (s t : State) : Prop where
  monitor : w.mtf = false → t.scf = s.scf ∧ t.io = s.io
  interlock : w.ipf = false → t.il = s.il
  ioFlag : t.ioFlag = s.ioFlag
  timeFlag : t.timeFlag = s.timeFlag
  script : t.script = s.script

theorem Protected.trans {w : Xpw} {s t u : State} (h : Protected w s t) (g : Protected w t u) : Protected w s u where
  monitor hw := ⟨(g.monitor hw).1.trans (h.monitor hw).1, (g.monitor hw).2.trans (h.monitor hw).2⟩
  interlock hw := (g.interlock hw).trans (h.interlock hw)
  ioFlag := g.ioFlag.trans h.ioFlag
  timeFlag := g.timeFlag.trans h.timeFlag
  script := g.script.trans h.script

theorem SameSystem.protected {s t : State} (h : SameSystem s t) (w : Xpw) : Protected w s t :=
  ⟨fun _ => ⟨h.scf, h.io⟩, fun _ => h.il, h.ioFlag, h.timeFlag, h.script⟩

/-- An update that only an instruction with the mode may make changes what the mode protects, and no other does. -/
theorem Act.run_protected {ds : List Reg} {w : Xpw} {a : Act} (h : a.Within ds w) (s : State) : Protected w s (a.run s) := by
  have hmonitor : ∀ P : Prop, w.mtf = true → w.mtf = false → P := fun _ ht hf => by simp [hf] at ht
  cases a with
  | draw | setX | jump | clearIas | setPrf | setXa | readClock =>
    exact ⟨fun _ => ⟨rfl, rfl⟩, fun _ => rfl, rfl, rfl, rfl⟩
  | advance n => exact SameSystem.protected (SameSystem.advance ⟨rfl, rfl, rfl, rfl, rfl, rfl, rfl⟩ n) w
  | setIl v => exact ⟨fun _ => ⟨rfl, rfl⟩, fun hf => by simp [Act.Within, hf] at h, rfl, rfl, rfl⟩
  | setScf | startInput | startOutput | release => exact ⟨hmonitor _ h, fun _ => rfl, rfl, rfl, rfl⟩

theorem Act.runAll_protected {ds : List Reg} {w : Xpw} {l : List Act} (h : ∀ a ∈ l, a.Within ds w) (s : State) :
    Protected w s (Act.runAll l s) :=
  Act.runAll_induction (P := Protected w s) (fun a ha u hu => hu.trans (Act.run_protected (h a ha) u))
    (SameSystem.protected (Twin.refl s).system w)

theorem sameSystem_clearRegs (s : State) : SameSystem s s.clearRegs :=
  ⟨by simp, by simp, by simp, by simp, by simp, by simp, by simp⟩

/-- An exchange, whole or only begun, leaves what the processors share. -/
theorem sameSystem_exchange (s : State) (f : BitVec 8) (r : Addr) : SameSystem s (s.exchange f r) := by
  obtain ⟨hwhole, hbegun⟩ := s.exchange_exchanges f r
  by_cases h : .reference ∈ s.script
  · exact (sameSystem_clearRegs s).trans (hbegun h).system
  · exact (sameSystem_clearRegs s).trans (hwhole h).system

theorem Effect.run_protected {ds : List Reg} {w : Xpw} {e : Effect} (h : e.Within ds w) {s t : State} (ht : e.run s = .next t) :
    Protected w s t := by
  cases e with
  | next l => cases ht; exact Act.runAll_protected h s
  | refer l r n =>
    cases ht
    exact (Act.runAll_protected h.1 s).trans (((sameSystem_issue _ r).advance n).protected w)
  | raise l c =>
    cases ht
    exact (Act.runAll_protected h s).trans ((sameSystem_exchange _ _ _).protected w)
  | fault f => cases ht
  | refused r => cases ht

/-- Settles O56: the effect of an instruction makes only the updates that its modes allow. -/
theorem privilegedState : Obligations.PrivilegedState := by
  intro i s t ht
  obtain ⟨e, hw, he⟩ := exec_described i s
  have h := Effect.run_protected hw ((he s (Agrees.refl _ s)).symm.trans ht)
  exact ⟨h.monitor, h.interlock, h.ioFlag, h.timeFlag, h.script⟩

end Sys2Proof.Machine
end

section
/-! Two states in which the program sees the same, whatever still waits: every operation of the model keeps them so
(10_state.md R54; 20_memory.md R90, R91). -/

namespace Sys2Proof.Machine

/-- `s` with the registers, the reservation flags, the waiting references and the memory of `t`: what a reference that reaches memory
may change. -/
def State.onto (s t : State) : State := { s with x := t.x, xres := t.xres, sws := t.sws, mem := t.mem }

theorem State.onto_advance (s t : State) (n : Nat) : (s.onto t).advance n = (s.advance n).onto t := by
  by_cases h : s.pp.val + n < 4 <;> simp [State.advance, State.onto, h]

/-- The program sees the same in every register and in every word, and everything but what waits is the same. -/
structure Alike (s t : State) : Prop where
  seen : ∀ d, t.seen d = s.seen d
  view : ∀ a, t.view a = s.view a
  rest : t = s.onto t

theorem Alike.symm {s t : State} (h : Alike s t) : Alike t s where
  seen d := (h.seen d).symm
  view a := (h.view a).symm
  rest := by rw [h.rest]; rfl

theorem Alike.trans {s t u : State} (h : Alike s t) (g : Alike t u) : Alike s u where
  seen d := (g.seen d).trans (h.seen d)
  view a := (g.view a).trans (h.view a)
  rest := by
    calc u = t.onto u := g.rest
      _ = (s.onto t).onto u := by rw [← h.rest]
      _ = s.onto u := rfl

theorem Alike.refl (s : State) : Alike s s := ⟨fun _ => rfl, fun _ => rfl, rfl⟩

/-- What is seen in a register depends on the registers, the waiting references and the memory. -/
theorem State.seen_congr {s t : State} (hm : t.mem = s.mem) (hw : t.sws = s.sws) {d : Reg} (hx : t.getX d = s.getX d) :
    t.seen d = s.seen d := by rw [State.seen, hm, hw, hx, State.seen]

theorem State.view_congr {s t : State} (hm : t.mem = s.mem) (hw : t.sws = s.sws) (a : Nat) : t.view a = s.view a := by
  rw [State.view, hm, hw, State.view]

theorem State.performRef_onto (s : State) (r : Ref) : s.performRef r = s.onto (s.performRef r) := by
  unfold State.performRef
  cases r.dest <;> rfl

theorem State.performList_onto (s : State) (w : List Ref) : s.performList w = s.onto (s.performList w) := by
  induction w with
  | nil => rfl
  | cons r w ih =>
    calc (s.performList w).performRef r
        = (s.performList w).onto ((s.performList w).performRef r) := State.performRef_onto _ r
      _ = (s.onto (s.performList w)).onto ((s.performList w).performRef r) := by rw [← ih]
      _ = s.onto ((s.performList w).performRef r) := rfl

theorem alike_performAll (s : State) : Alike s s.performAll where
  seen := s.performAll_seen
  view := s.performAll_view
  rest := State.performList_onto _ _

theorem alike_perform {s : State} (h : s.WaitOnce) (a : Nat) : Alike s (s.perform a) where
  seen := State.perform_seen h a
  view := s.perform_view a
  rest := by
    rcases s.perform_cases a with ⟨_, e⟩ | ⟨new, r, old, -, -, -, e⟩ <;> rw [e]
    · rfl
    · exact State.performRef_onto _ r

theorem alike_await {s : State} (h : s.WaitOnce) (ds : List Reg) : Alike s (s.await ds) :=
  (State.await_induction (P := fun u => u.WaitOnce ∧ Alike s u)
    (fun _ a g => ⟨g.1.perform a, g.2.trans (alike_perform g.1 a)⟩) ds ⟨h, Alike.refl s⟩).2

/-- The registers named by an update hold what the program sees in them, before and after. -/
theorem Act.run_seen {ds : List Reg} {w : Xpw} {a : Act} (hw : a.Within ds w) {s t : State} (hs : ∀ d ∈ ds, s.Ready d)
    (ht : ∀ d ∈ ds, t.Ready d) {q : Reg} (h : t.seen q = s.seen q) : (a.run t).seen q = (a.run s).seen q := by
  have hkeep : (∀ u : State, (a.run u).getX q = u.getX q) → (a.run t).seen q = (a.run s).seen q := fun hx => by
    rw [State.seen_congr (a.run_mem t) (a.run_sws t) (hx t), State.seen_congr (a.run_mem s) (a.run_sws s) (hx s), h]
  cases a with
  | setX d v =>
    by_cases hq : q = d
    · subst hq
      have hset : ∀ u : State, u.Ready q → (u.setX q v).seen q = v := fun u hu => by
        have hu' : (u.setX q v).Ready q := hu
        rw [hu'.seen, State.setX_getX_self]
      exact (hset t (ht q hw)).trans (hset s (hs q hw)).symm
    · exact hkeep fun u => u.setX_getX_ne v hq
  | advance n => exact hkeep fun u => u.advance_getX n q
  | draw | jump | clearIas | setPrf | setXa | setIl | setScf | readClock | startInput | startOutput | release =>
    exact hkeep fun _ => rfl

/-- An update of registers that wait for nothing keeps states alike. -/
theorem Alike.act {s t : State} (h : Alike s t) {ds : List Reg} {w : Xpw} {a : Act} (hw : a.Within ds w) (hs : ∀ d ∈ ds, s.Ready d)
    (ht : ∀ d ∈ ds, t.Ready d) : Alike (a.run s) (a.run t) where
  seen q := Act.run_seen hw hs ht (h.seen q)
  view b := by rw [State.view_congr (a.run_mem t) (a.run_sws t), State.view_congr (a.run_mem s) (a.run_sws s), h.view]
  rest := by
    rw [h.rest]
    cases a with
    | advance n => rw [Act.run, Act.run, State.onto_advance]; rfl
    | draw | setX | jump | clearIas | setPrf | setXa | setIl | setScf | readClock | startInput | startOutput | release => rfl

theorem Alike.acts {ds : List Reg} {w : Xpw} {l : List Act} (hw : ∀ a ∈ l, a.Within ds w) {s t : State} (h : Alike s t)
    (hs : ∀ d ∈ ds, s.Ready d) (ht : ∀ d ∈ ds, t.Ready d) : Alike (Act.runAll l s) (Act.runAll l t) := by
  induction l generalizing s t with
  | nil => exact h
  | cons a l ih =>
    obtain ⟨ha, hl⟩ := List.forall_mem_cons.mp hw
    refine ih hl (h.act ha hs ht) (fun d hd => ?_) fun d hd => ?_
    · simpa [State.Ready] using hs d hd
    · simpa [State.Ready] using ht d hd

/-- Settling the fetches of a word keeps states alike. -/
theorem Alike.settle {s t : State} (h : Alike s t) (a : Nat) : Alike (s.settle a) (t.settle a) where
  seen d := by
    rw [State.seen_congr (t.settle_mem a) (t.settle_sws a) (t.settle_getX a d),
      State.seen_congr (s.settle_mem a) (s.settle_sws a) (s.settle_getX a d), h.seen]
  view b := by rw [State.settle_view, State.settle_view, h.view]
  rest := by
    have hc : t.iws.any (t.awaits a) = s.iws.any (s.awaits a) := by rw [h.rest]; rfl
    unfold State.settle
    rw [hc, h.view a]
    split
    · generalize s.view a = v
      rw [h.rest]; rfl
    · exact h.rest

/-- What the program sees in a register after a reference has been issued, whether it waits or not. -/
theorem State.issue_seen (s : State) (r : Ref) (d : Reg) :
    (s.issue r).seen d = if r.dest = some d then s.view r.addr else s.seen d := by
  unfold State.issue
  generalize hv : (if r.data.isSome then s.settle r.addr else s) = v
  have hview : v.view r.addr = s.view r.addr := by rw [← hv]; split <;> simp
  have hseen : v.seen d = s.seen d := by
    rw [← hv]
    split
    · exact State.seen_congr (s.settle_mem _) (s.settle_sws _) (s.settle_getX _ d)
    · rfl
  rw [← hview, ← hseen]
  dsimp only
  split
  · have hready : (v.performAll.performRef r).Ready d := by simp [State.Ready]
    rw [hready.seen, State.performRef_getX, State.performAll_getX]
    simp [State.view]
  · rw [State.seen, State.wait_mem, State.wait_sws, Memory.arriving]
    split <;> rfl

/-- Issuing a reference keeps states alike, whether it waits or not. -/
theorem Alike.issue {s t : State} (h : Alike s t) (r : Ref) : Alike (s.issue r) (t.issue r) where
  seen d := by rw [State.issue_seen, State.issue_seen, h.view, h.seen]
  view a := by rw [State.issue_view, State.issue_view, h.view]
  rest := by
    have hscript : t.script = s.script := by rw [h.rest]; rfl
    have hsettled : Alike (if r.data.isSome then s.settle r.addr else s) (if r.data.isSome then t.settle r.addr else t) := by
      split
      · exact h.settle r.addr
      · exact h
    unfold State.issue
    rw [hscript]
    revert hsettled
    generalize (if r.data.isSome then s.settle r.addr else s) = u
    generalize (if r.data.isSome then t.settle r.addr else t) = v
    intro g
    dsimp only
    split
    · have hall : Alike u.performAll v.performAll := ((alike_performAll u).symm.trans g).trans (alike_performAll v)
      calc v.performAll.performRef r
          = v.performAll.onto (v.performAll.performRef r) := State.performRef_onto _ r
        _ = (u.performAll.onto v.performAll).onto (v.performAll.performRef r) := by rw [← hall.rest]
        _ = (u.performAll.onto (u.performAll.performRef r)).onto (v.performAll.performRef r) := rfl
        _ = (u.performAll.performRef r).onto (v.performAll.performRef r) := by rw [← State.performRef_onto]
    · rw [g.rest]; rfl

/-- No register waits for data. -/
def State.Clear (s : State) : Prop := ∀ d, s.Ready d

theorem State.clearRegs_clear (s : State) : s.clearRegs.Clear := fun d r hr => by rw [s.clearRegs_done r hr]; simp

theorem State.swapWord_view (s : State) (a : Nat) (v : Word) (b : Nat) :
    (s.swapWord a v).view b = if b = a then v else s.view b := by
  rw [State.view, State.swapWord_mem, State.swapWord_sws]
  split
  · rename_i h
    subst h
    rw [Memory.view_of_forall_ne (by simp), Memory.read_write_self]
  · rename_i h
    rw [Memory.view_filter _ _ h, Memory.view_write_ne _ _ _ h, State.view]

theorem State.referenceXpw_view (s : State) (e : ExchangeSequence) (b : Nat) :
    (s.referenceXpw e).view b = if b = e.addr then e.out else s.view b := s.swapWord_view _ _ b

theorem State.referenceX_view (s : State) (e : ExchangeSequence) (d : Reg) (b : Nat) :
    (s.referenceX e d).view b = if b = e.addr then s.getX d else s.view b := s.swapWord_view _ _ b

theorem State.referenceX_getX (s : State) (e : ExchangeSequence) (d q : Reg) :
    (s.referenceX e d).getX q = if q = d then s.view e.addr else s.getX q := by
  rw [← State.setX_getX s d q (s.view e.addr)]
  rfl

theorem State.Clear.reference {s : State} (h : s.Clear) : s.reference.Clear := by
  intro d r hr
  rcases s.reference_cases with ⟨-, e⟩ | ⟨q, -, -, e⟩ | ⟨q, c, -, -, e⟩ <;> rw [e] at hr
  · exact h d r hr
  · exact h d r (List.mem_filter.mp hr).1
  · exact h d r (List.mem_filter.mp hr).1

/-- A reference of an exchange sequence keeps states alike in which no register waits. -/
theorem Alike.reference {s t : State} (h : Alike s t) (hs : s.Clear) (ht : t.Clear) : Alike s.reference t.reference := by
  have hex : t.exchanging = s.exchanging := by rw [h.rest]; rfl
  have hx : ∀ q, t.getX q = s.getX q := fun q => by rw [← (hs q).seen, ← (ht q).seen, h.seen]
  have hseen : (∀ q, t.reference.getX q = s.reference.getX q) → ∀ q, t.reference.seen q = s.reference.seen q := fun g q => by
    rw [(ht.reference q).seen, (hs.reference q).seen, g]
  rcases s.reference_cases with ⟨hn, e⟩ | ⟨q, hq, hn, e⟩ | ⟨q, d, hq, hn, e⟩
  · rwa [e, State.reference_of_none (hex.trans hn)]
  · have e' := State.reference_of_xpw (hex.trans hq) hn
    refine ⟨hseen fun r => ?_, fun b => ?_, ?_⟩
    · rw [e, e']; exact hx r
    · rw [e, e', State.referenceXpw_view, State.referenceXpw_view, h.view]
    · rw [e, e']
      unfold State.referenceXpw
      rw [h.view]
      generalize s.view q.addr = v
      rw [h.rest]; rfl
  · have e' := State.reference_of_x (hex.trans hq) hn
    refine ⟨hseen fun r => ?_, fun b => ?_, ?_⟩
    · rw [e, e', State.referenceX_getX, State.referenceX_getX, h.view, hx]
    · rw [e, e', State.referenceX_view, State.referenceX_view, h.view, hx]
    · rw [e, e']
      unfold State.referenceX
      rw [h.view, hx]
      generalize s.view q.addr = v
      generalize s.getX d = y
      rw [h.rest]; rfl

theorem Alike.references {s t : State} (h : Alike s t) (hs : s.Clear) (ht : t.Clear) (n : Nat) :
    Alike (State.references n s) (State.references n t) := by
  induction n generalizing s t with
  | zero => exact h
  | succ n ih => exact ih (h.reference hs ht) hs.reference ht.reference

theorem Alike.beginExchange {s t : State} (h : Alike s t) (f : BitVec 8) (a : Addr) :
    Alike (s.beginExchange f a) (t.beginExchange f a) where
  seen := h.seen
  view := h.view
  rest := by rw [h.rest]; rfl

/-- An exchange, whole or only begun, keeps states alike. -/
theorem Alike.exchange {s t : State} (h : Alike s t) (hs : s.WaitOnce) (ht : t.WaitOnce) (f : BitVec 8) (a : Addr) :
    Alike (s.exchange f a) (t.exchange f a) := by
  have hcleared : Alike s.clearRegs t.clearRegs := ((alike_await hs allRegs).symm.trans h).trans (alike_await ht allRegs)
  have hbegun := hcleared.beginExchange f a
  have hscript : t.singleReferences = s.singleReferences := by rw [h.rest]; rfl
  unfold State.exchange
  rw [hscript]
  dsimp only
  split
  · exact hbegun
  · exact hbegun.references s.clearRegs_clear t.clearRegs_clear 17

end Sys2Proof.Machine
end

section
/-! Instructions run while references wait, and instructions run when all have reached memory. -/

namespace Sys2Proof.Machine

/-- Two answers that are the same stop, or next states that are alike. -/
inductive AnswersAlike : Answer → Answer → Prop where
  | next {s t : State} (h : Alike s t) : AnswersAlike (.next s) (.next t)
  | fault (f : Fault) : AnswersAlike (.fault f) (.fault f)
  | refused (r : Refusal) : AnswersAlike (.refused r) (.refused r)

/-- One effect in two states that are alike, and in which the registers named wait for nothing. -/
theorem Effect.run_alike {ds : List Reg} {w : Xpw} {e : Effect} (hw : e.Within ds w) {s t : State} (h : Alike s t)
    (hs : s.WaitOnce) (ht : t.WaitOnce) (rs : ∀ d ∈ ds, s.Ready d) (rt : ∀ d ∈ ds, t.Ready d) :
    AnswersAlike (e.run s) (e.run t) := by
  cases e with
  | next l => exact .next (h.acts hw rs rt)
  | refer l r n =>
    exact .next (((h.acts hw.1 rs rt).issue r).act (ds := []) (w := w) (a := .advance n) trivial (by simp) (by simp))
  | raise l c =>
    have g := h.acts hw rs rt
    have hp : (Act.runAll l t).p = (Act.runAll l s).p := by rw [g.rest]; rfl
    rw [Effect.run, Effect.run, State.raise_eq, State.raise_eq, hp]
    refine .next (g.exchange ?_ ?_ _ _)
    · rwa [State.WaitOnce, Act.runAll_sws]
    · rwa [State.WaitOnce, Act.runAll_sws]
  | fault f => exact .fault f
  | refused r => exact .refused r

/-- An instruction gives alike answers in states that are alike, once the registers that it names wait for nothing. -/
theorem exec_alike (i : Instr) {s t : State} (h : Alike s t) (hs : s.WaitOnce) (ht : t.WaitOnce)
    (rs : ∀ d ∈ namedRegisters i, s.Ready d) (rt : ∀ d ∈ namedRegisters i, t.Ready d) : AnswersAlike (exec i s) (exec i t) := by
  obtain ⟨e, hw, he⟩ := exec_described i s
  have ha : Agrees (namedRegisters i) s t := by
    refine ⟨fun d hd => by rw [← (rs d hd).seen, ← (rt d hd).seen, h.seen], ?_, ?_, ?_, ?_, ?_⟩
    all_goals rw [h.rest]; rfl
  rw [he s (Agrees.refl _ s), he t ha]
  exact Effect.run_alike hw h hs ht rs rt

/-- Settles O12: the state in which the named registers have arrived and the one in which every reference has reached memory are both
alike to the state before, and `exec` keeps states alike. -/
theorem sequentialResults : Obligations.SequentialResults := by
  intro i s hw
  have halike : Alike (s.await (namedRegisters i)) s.performAll := (alike_await hw _).symm.trans (alike_performAll s)
  have h := exec_alike i halike (State.WaitOnce.await hw _) s.performAll_waitOnce (fun d hd => s.await_ready hd)
    fun d _ => s.performAll_ready d
  generalize exec i s.performAll = o at h
  refine ⟨fun t ht => ?_, fun f hf => ?_, fun r hr => ?_⟩
  · rw [ht] at h
    cases h with
    | @next _ u g =>
      refine ⟨u, rfl, fun d => (g.seen d).symm, fun a => (g.view a).symm, ?_⟩
      rw [g.rest]
      exact ⟨rfl, rfl, rfl, ⟨rfl, rfl⟩, ⟨rfl, rfl, rfl, rfl, rfl, rfl, rfl⟩, ⟨rfl, rfl⟩⟩
  · rw [hf] at h
    cases h
    rfl
  · rw [hr] at h
    cases h
    rfl

end Sys2Proof.Machine
end

section
/-! The channels and the request mechanism stay coherent (60_exceptions.md R430, R431, R434, R436). -/

namespace Sys2Proof.Machine

/-- The part of `Legal` that speaks of the input/output section. -/
structure IoSection.Coherent (io : IoSection) : Prop where
  request : io.req.Coherent
  input : ∀ c, (io.inp c).Coherent
  output : ∀ c, (io.out c).Coherent

theorem ChannelRequest.release_coherent {r : ChannelRequest} (h : r.Coherent) : r.release.Coherent := by
  unfold ChannelRequest.release
  split
  · exact h
  · exact ⟨h.once.filter _, by simp, by simp⟩

theorem ChannelRequest.request_coherent {r : ChannelRequest} (h : r.Coherent) (c : Channel) : (r.request c).Coherent where
  once := by
    unfold ChannelRequest.request
    dsimp only
    split
    · exact h.once
    · exact List.nodup_cons.mpr ⟨‹_›, h.once⟩
  current d hd := (r.mem_request c d).mpr (.inr (h.current d hd))
  held := h.held

theorem ChannelRequest.select_coherent {r : ChannelRequest} (h : r.Coherent) (c : Channel) : (r.select c).Coherent := by
  unfold ChannelRequest.select
  split
  · rename_i hc
    exact ⟨h.once, fun d hd => by cases hd; exact hc.2, fun _ => rfl⟩
  · exact h

theorem IoSection.Coherent.setReq {io : IoSection} (h : io.Coherent) {r : ChannelRequest} (hr : r.Coherent) :
    IoSection.Coherent { io with req := r } := ⟨hr, h.input, h.output⟩

theorem IoSection.Coherent.setInp {io : IoSection} (h : io.Coherent) {q : InPath} (hq : q.Coherent) (c : Channel) :
    (io.setInp c q).Coherent where
  request := h.request
  input d := by
    rw [IoSection.inp_setInp]
    split
    · exact hq
    · exact h.input d
  output := h.output

theorem IoSection.Coherent.setOut {io : IoSection} (h : io.Coherent) {q : OutPath} (hq : q.Coherent) (c : Channel) :
    (io.setOut c q).Coherent where
  request := h.request
  input := h.input
  output d := by
    rw [IoSection.out_setOut]
    split
    · exact hq
    · exact h.output d

theorem IoSection.Coherent.send {io : IoSection} (h : io.Coherent) (g : Signal) : (io.send g).Coherent :=
  ⟨h.request, h.input, h.output⟩

theorem IoSection.Coherent.setOther {io : IoSection} (h : io.Coherent) (q : Other) (c : Option Channel) : (io.setOther q c).Coherent :=
  ⟨h.request, h.input, h.output⟩

/-- A processor is flagged only for a current channel. -/
theorem IoSection.Coherent.hold {io : IoSection} (h : io.Coherent) (hw : io.req.waiting = true) : io.hold.Coherent :=
  h.setReq ⟨h.request.once, h.request.current, fun _ => (Bool.and_eq_true_iff.mp hw).1⟩

theorem IoSection.Coherent.otherTakes {io : IoSection} (h : io.Coherent) (q : Other) : (io.otherTakes q).Coherent := by
  unfold IoSection.otherTakes
  split
  · exact h
  · exact (h.setOther q none).send _

theorem IoSection.Coherent.startInput {io : IoSection} (h : io.Coherent) (c : Channel) (a : Addr) : (io.startInput c a).Coherent := by
  refine h.setInp ?_ c
  exact ⟨by simp, by simp, (h.input c).waits, by simp⟩

theorem IoSection.Coherent.startOutput {io : IoSection} (h : io.Coherent) (c : Channel) (a : Addr) : (io.startOutput c a).Coherent := by
  refine h.setOut ?_ c
  exact ⟨fun _ => rfl, (h.output c).2⟩

end Sys2Proof.Machine
end

section
/-! Every operation of the model keeps the legal states legal. -/

namespace Sys2Proof.Machine

theorem Legal.ioCoherent {s : State} (h : Legal s) : s.io.Coherent := ⟨h.request, h.input, h.output⟩

/-- The channels are replaced by coherent ones. -/
theorem Legal.setIo {s : State} (h : Legal s) {io : IoSection} (hio : io.Coherent) : Legal (s.setIo io) :=
  ⟨h.memory, h.waiting, h.reservations, h.destinations, h.stackLength, h.stackAddresses, h.sequence, hio.request, hio.input,
    hio.output⟩

/-- A memory in canonical form takes the place of memory. -/
theorem Legal.setMem {s : State} (h : Legal s) {m : Memory} (hm : m.wf) : Legal { s with mem := m } :=
  ⟨hm, h.waiting, h.reservations, h.destinations, h.stackLength, h.stackAddresses, h.sequence, h.request, h.input, h.output⟩

/-- A state that differs from a legal one in nothing that `Legal` speaks of but the instruction word stack. -/
theorem Legal.of_stack {s t : State} (h : Legal s) (hlength : t.iws.length ≤ Config.iwsWords) (haddresses : (t.iws.map (·.addr)).Nodup)
    (hempty : s.exchanging.isSome = true → t.iws = []) (hmem : t.mem = s.mem) (hsws : t.sws = s.sws) (hxres : t.xres = s.xres)
    (hex : t.exchanging = s.exchanging) (hio : t.io = s.io) : Legal t where
  memory := hmem ▸ h.memory
  waiting := by rw [hsws]; exact h.waiting
  reservations := by rw [hsws, hxres]; exact h.reservations
  destinations := by rw [hsws]; exact h.destinations
  stackLength := hlength
  stackAddresses := haddresses
  sequence := by rw [hex, hxres]; exact fun he => ⟨hempty he, (h.sequence he).2⟩
  request := hio ▸ h.request
  input := hio ▸ h.input
  output := hio ▸ h.output

/-- A state that differs from a legal one in nothing that `Legal` speaks of. -/
theorem Legal.congr {s t : State} (h : Legal s) (hmem : t.mem = s.mem) (hsws : t.sws = s.sws) (hxres : t.xres = s.xres)
    (hiws : t.iws = s.iws) (hex : t.exchanging = s.exchanging) (hio : t.io = s.io) : Legal t :=
  h.of_stack (hiws ▸ h.stackLength) (hiws ▸ h.stackAddresses) (fun he => hiws.trans (h.sequence he).1) hmem hsws hxres hex hio

theorem Legal.setScript {s : State} (h : Legal s) (ts : List Turn) : Legal { s with script := ts } :=
  h.congr rfl rfl rfl rfl rfl rfl

/-- A state that differs from a legal one, as far as `Legal` speaks of it, in memory and in what waits alone. -/
theorem Legal.of_queue {s t : State} (h : Legal s) (hmem : t.mem.wf) (hwaiting : ∀ r ∈ t.sws, r.addr < Config.memWords)
    (hres : ∀ d : Reg, t.xres.getLsbD d.toNat = true ↔ ∃ r ∈ t.sws, r.dest = some d) (honce : t.WaitOnce)
    (hzero : s.exchanging.isSome = true → s.xres = 0 → t.xres = 0) (hiws : t.iws = s.iws) (hex : t.exchanging = s.exchanging)
    (hio : t.io = s.io) : Legal t where
  memory := hmem
  waiting := hwaiting
  reservations := hres
  destinations := honce
  stackLength := hiws ▸ h.stackLength
  stackAddresses := hiws ▸ h.stackAddresses
  sequence := by rw [hex, hiws]; exact fun he => ⟨(h.sequence he).1, hzero he (h.sequence he).2⟩
  request := hio ▸ h.request
  input := hio ▸ h.input
  output := hio ▸ h.output

/-- Settling the fetches of a word fills entries of the stack and moves none. -/
theorem Legal.settle {s : State} (h : Legal s) (a : Nat) : Legal (s.settle a) := by
  have haddr : (s.settle a).iws.map (·.addr) = s.iws.map (·.addr) := by
    rcases s.settle_iws a with e | e <;> rw [e]
    rw [List.map_map]
    refine List.map_congr_left fun d _ => ?_
    dsimp only [Function.comp]
    split <;> rfl
  refine h.of_stack ?_ (by rw [haddr]; exact h.stackAddresses) (fun he => ?_) (by simp) (by simp) (by simp) (by simp) (by simp)
  · have hlength := congrArg List.length haddr
    rw [List.length_map, List.length_map] at hlength
    exact hlength ▸ h.stackLength
  · rw [State.settle_of_nil (h.sequence he).1, (h.sequence he).1]

theorem Legal.poke {s : State} (h : Legal s) {a : Nat} (ha : a < Config.memWords) (v : Word) : Legal (s.poke a v) :=
  (h.settle a).setMem (Memory.write_wf h.memory v ha)

theorem Legal.enterCiw {s : State} (h : Legal s) (hex : s.exchanging = none) : Legal s.enterCiw :=
  h.of_stack (s.enterCiw_length h.stackLength) (s.enterCiw_nodup h.stackAddresses) (by simp [hex]) rfl rfl rfl rfl rfl

/-! The reservation flags, bit by bit. -/

theorem getLsbD_clearReg (x : BitVec 16) (e d : Reg) :
    (x &&& ~~~(BitVec.twoPow 16 e.toNat)).getLsbD d.toNat = true ↔ x.getLsbD d.toNat = true ∧ e ≠ d := by
  have hd : d.toNat < 16 := d.isLt
  simp [hd, BitVec.toNat_inj, @eq_comm _ e d]

theorem getLsbD_setReg (x : BitVec 16) (e d : Reg) :
    (x ||| BitVec.twoPow 16 e.toNat).getLsbD d.toNat = true ↔ x.getLsbD d.toNat = true ∨ e = d := by
  have hd : d.toNat < 16 := d.isLt
  have he : e.toNat < 16 := e.isLt
  simp [BitVec.getLsbD_twoPow, he, BitVec.toNat_inj]

theorem eq_zero_iff_getLsbD_reg (x : BitVec 16) : x = 0 ↔ ∀ d : Reg, ¬ x.getLsbD d.toNat = true := by
  constructor
  · rintro rfl d
    simp
  · intro h
    apply BitVec.eq_of_getLsbD_eq
    intro i hi
    have hreg : (BitVec.ofNat 4 i).toNat = i := Nat.mod_eq_of_lt hi
    simpa [hreg] using h (BitVec.ofNat 4 i)

theorem State.performRef_reserved (s : State) (r : Ref) (d : Reg) :
    (s.performRef r).xres.getLsbD d.toNat = true ↔ s.xres.getLsbD d.toNat = true ∧ r.dest ≠ some d := by
  unfold State.performRef
  cases hr : r.dest with
  | none => simp
  | some e => simpa using getLsbD_clearReg s.xres e d

theorem State.performList_reserved (s : State) (w : List Ref) (d : Reg) :
    (s.performList w).xres.getLsbD d.toNat = true ↔ s.xres.getLsbD d.toNat = true ∧ ∀ r ∈ w, r.dest ≠ some d := by
  induction w with
  | nil => simp [State.performList]
  | cons r w ih =>
    rw [State.performList, State.performRef_reserved, ih, List.forall_mem_cons]
    tauto

/-- Taking a reference out of the queue and clearing its register's flag leaves the flags of exactly the registers that wait. -/
theorem State.WaitOnce.reserved {s : State} (h : s.WaitOnce) {new old : List Ref} {r : Ref} (hs : s.sws = new ++ r :: old) (d : Reg) :
    ((∃ q ∈ s.sws, q.dest = some d) ∧ r.dest ≠ some d) ↔ ∃ q ∈ new ++ old, q.dest = some d := by
  rw [hs]
  constructor
  · rintro ⟨⟨q, hq, hd⟩, hr⟩
    have hne : q ≠ r := fun e => hr (e ▸ hd)
    exact ⟨q, by simpa [hne] using hq, hd⟩
  · rintro ⟨q, hq, hd⟩
    refine ⟨⟨q, ?_, hd⟩, fun hr => h.dest_ne hs hr q hq hd⟩
    simp only [List.mem_append, List.mem_cons] at hq ⊢
    tauto

/-- Writing a register that waits for nothing. -/
theorem Legal.setX {s : State} (h : Legal s) {d : Reg} (hd : s.Ready d) (v : Word) : Legal (s.setX d v) := by
  refine h.of_queue h.memory h.waiting (fun q => ?_) h.destinations (fun _ hz => by simp [hz]) rfl rfl rfl
  rw [State.setX_xres, getLsbD_clearReg, h.reservations]
  refine ⟨fun g => g.1, fun g => ⟨g, ?_⟩⟩
  rintro rfl
  obtain ⟨r, hr, hq⟩ := g
  exact hd r hr hq

/-- A reference is taken out of the queue, and its register's flag is cleared. -/
theorem Legal.dequeue {s t : State} (h : Legal s) {new old : List Ref} {r : Ref} (hs : s.sws = new ++ r :: old) (ht : t.sws = new ++ old)
    (hres : ∀ d : Reg, t.xres.getLsbD d.toNat = true ↔ s.xres.getLsbD d.toNat = true ∧ r.dest ≠ some d) (hmem : t.mem.wf)
    (hiws : t.iws = s.iws) (hex : t.exchanging = s.exchanging) (hio : t.io = s.io) : Legal t := by
  have hsub : t.sws.Sublist s.sws := by
    rw [hs, ht]
    exact (List.sublist_cons_self r old).append_left new
  refine h.of_queue hmem (fun q hq => h.waiting q (hsub.subset hq)) (fun d => ?_) (State.WaitOnce.sublist h.destinations hsub)
    (fun _ hz => ?_) hiws hex hio
  · rw [hres, h.reservations, State.WaitOnce.reserved h.destinations hs, ht]
  · rw [eq_zero_iff_getLsbD_reg]
    exact fun d hd => (eq_zero_iff_getLsbD_reg _).mp hz d ((hres d).mp hd).1

theorem Legal.perform {s : State} (h : Legal s) (a : Nat) : Legal (s.perform a) := by
  rcases s.perform_cases a with ⟨_, e⟩ | ⟨new, r, old, hs, -, -, e⟩ <;> rw [e]
  · exact h
  · exact h.dequeue hs (by simp) (State.performRef_reserved _ r) (Memory.put_wf h.memory (h.waiting r (by simp [hs])))
      (by simp) (by simp) (by simp)

theorem Legal.forward {s : State} (h : Legal s) (d : Reg) : Legal (s.forward d) := by
  rcases s.forward_cases d with e | ⟨new, r, old, hs, hr, -, -, e⟩ <;> rw [e]
  · exact h
  · refine h.dequeue hs rfl (fun q => ?_) h.memory rfl rfl rfl
    rw [State.setX_xres, getLsbD_clearReg, hr, ne_eq, ne_eq, Option.some.injEq]

theorem Legal.await {s : State} (h : Legal s) (ds : List Reg) : Legal (s.await ds) :=
  State.await_induction (fun _ a g => g.perform a) ds h

theorem Legal.performAll {s : State} (h : Legal s) : Legal s.performAll := by
  have hres : ∀ d : Reg, ¬ s.performAll.xres.getLsbD d.toNat = true := fun d hd => by
    obtain ⟨hs, hne⟩ := (State.performList_reserved { s with sws := [] } s.sws d).mp hd
    obtain ⟨r, hr, hq⟩ := (h.reservations d).mp hs
    exact hne r hr hq
  exact h.of_queue (by simpa using Memory.perform_wf h.memory h.waiting) (by simp) (fun d => by simp [hres d]) s.performAll_waitOnce
    (fun _ _ => (eq_zero_iff_getLsbD_reg _).mpr hres) (by simp) (by simp) (by simp)

/-- A reference that reaches memory with no other waiting. -/
theorem Legal.performRef {s : State} (h : Legal s) (hs : s.sws = []) {r : Ref} (hr : r.addr < Config.memWords) :
    Legal (s.performRef r) := by
  have hres : ∀ d : Reg, ¬ s.xres.getLsbD d.toNat = true := fun d hd => by simpa [hs] using (h.reservations d).mp hd
  have hres' : ∀ d : Reg, ¬ (s.performRef r).xres.getLsbD d.toNat = true := fun d hd =>
    hres d ((s.performRef_reserved r d).mp hd).1
  exact h.of_queue (Memory.put_wf h.memory hr) (by simp [hs]) (fun d => by simp [hs, hres' d]) (by simp [State.WaitOnce, hs])
    (fun _ _ => (eq_zero_iff_getLsbD_reg _).mpr hres') (by simp) (by simp) (by simp)

/-- A reference to a word that exists, for a register that waits for nothing, joins the queue. -/
theorem Legal.wait {s : State} (h : Legal s) {r : Ref} (hr : r.addr < Config.memWords) (hd : ∀ d, r.dest = some d → s.Ready d)
    (hex : s.exchanging = none) : Legal (s.wait r) := by
  refine h.of_queue h.memory (List.forall_mem_cons.mpr ⟨hr, h.waiting⟩) (fun q => ?_) ?_ (by simp [hex]) rfl rfl rfl
  · rw [State.wait_sws]
    simp only [List.mem_cons, exists_eq_or_imp, ← h.reservations]
    cases e : r.dest with
    | none => simp [State.wait, e]
    | some d =>
      simp only [State.wait, e, getLsbD_setReg, Option.some.injEq]
      exact or_comm
  · rw [State.WaitOnce, State.wait_sws]
    cases e : r.dest with
    | none => rw [List.filterMap_cons_none e]; exact h.destinations
    | some d =>
      rw [List.filterMap_cons_some e, List.nodup_cons]
      refine ⟨fun hm => ?_, h.destinations⟩
      obtain ⟨q, hq, hqd⟩ := List.mem_filterMap.mp hm
      exact hd d e q hq hqd

theorem Legal.issue {s : State} (h : Legal s) {r : Ref} (hr : r.addr < Config.memWords) (hd : ∀ d, r.dest = some d → s.Ready d)
    (hex : s.exchanging = none) : Legal (s.issue r) := by
  have hsettled : Legal (if r.data.isSome then s.settle r.addr else s) := by
    split
    · exact h.settle r.addr
    · exact h
  unfold State.issue
  dsimp only
  split
  · exact hsettled.performAll.performRef (by simp) hr
  · refine hsettled.wait hr (fun d e => ?_) ?_
    · have := hd d e
      split
      · simpa [State.Ready] using this
      · exact this
    · split <;> simp [hex]

/-- An exchange begins when no register waits. -/
theorem Legal.beginExchange {s : State} (h : Legal s) (hc : s.Clear) (f : BitVec 8) (a : Addr) : Legal (s.beginExchange f a) where
  memory := h.memory
  waiting := h.waiting
  reservations d := by
    refine iff_of_false (by simp) ?_
    rintro ⟨r, hr, hd⟩
    exact hc d r hr hd
  destinations := h.destinations
  stackLength := Nat.zero_le _
  stackAddresses := List.nodup_nil
  sequence _ := ⟨rfl, rfl⟩
  request := h.request
  input := h.input
  output := h.output

/-- A state of an exchange sequence, before and after one of its references. -/
theorem Legal.of_sequence {s t : State} (h : Legal s) (he : s.exchanging.isSome = true) (hmem : t.mem.wf) (hsub : t.sws.Sublist s.sws)
    (hxres : t.xres = s.xres) (hiws : t.iws = s.iws) (hio : t.io = s.io) : Legal t := by
  obtain ⟨hnil, hzero⟩ := h.sequence he
  exact {
    memory := hmem
    waiting := fun r hr => h.waiting r (hsub.subset hr)
    reservations := fun d => by
      have hnone := (eq_zero_iff_getLsbD_reg _).mp hzero d
      refine iff_of_false (hxres ▸ hnone) ?_
      rintro ⟨r, hr, hd⟩
      exact hnone ((h.reservations d).mpr ⟨r, hsub.subset hr, hd⟩)
    destinations := State.WaitOnce.sublist h.destinations hsub
    stackLength := hiws ▸ h.stackLength
    stackAddresses := hiws ▸ h.stackAddresses
    sequence := fun _ => ⟨hiws.trans hnil, hxres.trans hzero⟩
    request := hio ▸ h.request
    input := hio ▸ h.input
    output := hio ▸ h.output }

theorem Legal.reference {s : State} (h : Legal s) : Legal s.reference := by
  rcases s.reference_cases with ⟨-, e⟩ | ⟨q, hq, -, e⟩ | ⟨q, d, hq, -, e⟩ <;> rw [e]
  · exact h
  · exact h.of_sequence (by simp [hq]) (Memory.write_wf h.memory _ q.addr_lt) List.filter_sublist rfl rfl rfl
  · exact h.of_sequence (by simp [hq]) (Memory.write_wf h.memory _ q.addr_lt) List.filter_sublist rfl rfl rfl

theorem Legal.finishExchange {s : State} (h : Legal s) : Legal s.finishExchange :=
  State.references_induction (fun _ g => g.reference) 17 s h

theorem Legal.exchange {s : State} (h : Legal s) (f : BitVec 8) (a : Addr) : Legal (s.exchange f a) := by
  have hbegun : Legal (s.clearRegs.beginExchange f a) := (h.await allRegs).beginExchange s.clearRegs_clear f a
  unfold State.exchange
  dsimp only
  split
  · exact hbegun
  · exact hbegun.finishExchange

theorem Legal.raise {s t : State} (h : Legal s) {c : Cond} (ht : s.raise c = .next t) : Legal t := by
  cases ht
  exact h.exchange _ _

end Sys2Proof.Machine
end

section
/-! Every instruction, every turn of the schedule and every step keeps the legal states legal. -/

namespace Sys2Proof.Machine

theorem Act.run_legal {ds : List Reg} {w : Xpw} {a : Act} (hw : a.Within ds w) {s : State} (h : Legal s) (hs : ∀ d ∈ ds, s.Ready d) :
    Legal (a.run s) := by
  cases a with
  | setX d v => exact h.setX (hs d hw) v
  | advance n =>
    exact h.congr (s.advance_mem n) (s.advance_sws n) (s.advance_xres n) (s.advance_iws n) (s.advance_exchanging n) (s.advance_io n)
  | draw | jump | setPrf | setXa | setIl | setScf | readClock => exact h.congr rfl rfl rfl rfl rfl rfl
  | clearIas => exact h.of_stack (Nat.zero_le _) List.nodup_nil (fun _ => rfl) rfl rfl rfl rfl rfl
  | startInput c a => exact h.setIo (h.ioCoherent.startInput c a)
  | startOutput c a => exact h.setIo (h.ioCoherent.startOutput c a)
  | release => exact h.setIo (h.ioCoherent.setReq (ChannelRequest.release_coherent h.request))

theorem Act.runAll_legal {ds : List Reg} {w : Xpw} {l : List Act} (hw : ∀ a ∈ l, a.Within ds w) {s : State} (h : Legal s)
    (hs : ∀ d ∈ ds, s.Ready d) : Legal (Act.runAll l s) := by
  refine (Act.runAll_induction (P := fun u => Legal u ∧ u.sws = s.sws) (fun a ha u g => ⟨?_, (a.run_sws u).trans g.2⟩) ⟨h, rfl⟩).1
  exact Act.run_legal (hw a ha) g.1 fun d hd => by simpa [State.Ready, g.2] using hs d hd

/-- An effect for registers that wait for nothing, outside of an exchange sequence. -/
theorem Effect.run_legal {ds : List Reg} {w : Xpw} {e : Effect} (hw : e.Within ds w) {s t : State} (h : Legal s)
    (hs : ∀ d ∈ ds, s.Ready d) (hex : s.exchanging = none) (ht : e.run s = .next t) : Legal t := by
  cases e with
  | next l => cases ht; exact Act.runAll_legal hw h hs
  | refer l r n =>
    obtain ⟨hl, haddr, hdest⟩ := hw
    cases ht
    refine Act.run_legal (ds := []) (w := w) (a := .advance n) trivial ?_ (by simp)
    refine (Act.runAll_legal hl h hs).issue haddr (fun d hd => ?_) (by simp [hex])
    simpa [State.Ready] using hs d (hdest d hd)
  | raise l c => exact (Act.runAll_legal hw h hs).raise ht
  | fault f => cases ht
  | refused r => cases ht

/-- An instruction, once the registers that it names wait for nothing. -/
theorem exec_legal {i : Instr} {s t : State} (h : Legal s) (hs : ∀ d ∈ namedRegisters i, s.Ready d) (hex : s.exchanging = none)
    (ht : exec i s = .next t) : Legal t := by
  obtain ⟨e, hw, he⟩ := exec_described i s
  exact Effect.run_legal hw h hs hex ((he s (Agrees.refl _ s)).symm.trans ht)

theorem cpuStep_legal {s t : State} (h : Legal s) (ht : cpuStep s = .next t) : Legal t := by
  unfold cpuStep at ht
  split at ht
  · cases ht
    exact h.finishExchange
  · rename_i hex
    have hex : s.exchanging = none := by simpa using hex
    rcases fetch_cases s with ⟨i, u, e, hu⟩ | e | ⟨f, e⟩ | ⟨r, e⟩ <;> rw [e] at ht
    · have hlegal : Legal u ∧ u.exchanging = none := by
        rcases hu with ⟨-, rfl⟩ | ⟨-, rfl⟩
        · exact ⟨h, hex⟩
        · exact ⟨h.enterCiw hex, hex⟩
      exact exec_legal (hlegal.1.await _) (fun d hd => u.await_ready hd) (by simp [hlegal.2]) ht
    · exact h.raise ht
    · cases ht
    · cases ht

theorem State.takeChannelRequest_coherent {s : State} (h : s.io.Coherent) : s.takeChannelRequest.io.Coherent := by
  unfold State.takeChannelRequest
  split
  · exact h
  · exact h.send _

theorem Legal.takeChannelRequest {s : State} (h : Legal s) : Legal s.takeChannelRequest := by
  refine Legal.congr (h.setIo (State.takeChannelRequest_coherent h.ioCoherent)) ?_ ?_ ?_ ?_ ?_ rfl
  all_goals simp

theorem interruptTurn_legal {s : State} (h : Legal s) (io time sys : Bool) : Legal (interruptTurn io time sys s) := by
  unfold interruptTurn State.takeAsync
  dsimp only
  split
  · refine Legal.exchange ?_ _ _
    split
    · exact h.takeChannelRequest.congr rfl rfl rfl rfl rfl rfl
    · exact h.congr rfl rfl rfl rfl rfl rfl
  · exact h

/-! The turns of the environment and of the other processors. -/

/-- A reference to a word that exists goes on with it. -/
theorem State.atWord_eq_next {s t : State} {a : Nat} {k : Nat → State → Answer} (h : s.atWord a k = .next t) :
    a < Config.memWords ∧ k a s = .next t := by
  by_cases ha : a < Config.memWords
  · exact ⟨ha, by rwa [State.atWord_of_lt ha] at h⟩
  · rw [State.atWord_of_ge (Nat.not_lt.mp ha)] at h
    cases h

theorem writeInput_legal {s t : State} (h : Legal s) {c : Channel} (ht : writeInput s c = .next t) : Legal t := by
  rcases writeInput_cases s c with ⟨-, e⟩ | ⟨a, w, ws, hw, ⟨-, e⟩ | ⟨ha, e⟩⟩ <;> rw [e] at ht <;> cases ht
  · exact h
  · exact (h.setIo (h.ioCoherent.setInp (InPath.written_coherent (h.input c) hw) c)).poke ha w

theorem deliverInWord_legal {s t : State} (h : Legal s) {c : Channel} {v : BitVec 12} (ht : deliverInWord s c v = .next t) :
    Legal t := by
  cases ha : (s.io.inp c).active with
  | false =>
    unfold deliverInWord at ht
    simp [ha] at ht
  | true =>
    rcases deliverInWord_cases s c v ha with ⟨hw, e⟩ | ⟨-, e⟩ <;> rw [e] at ht
    · cases ht
      exact h.setIo ((h.ioCoherent.send _).setInp (InPath.receive_coherent (h.input c) ha hw v) c)
    · exact writeInput_legal (h.setScript _) ht

/-- An active output path is coherent whatever it holds. -/
theorem OutPath.coherent_of_active {q : OutPath} (ha : q.active = true) (hp : q.parity = 0) : q.Coherent :=
  ⟨fun hf => absurd (ha.symm.trans hf) (by decide), hp⟩

theorem deliverOutWord_legal {s t : State} (h : Legal s) {c : Channel} (ht : deliverOutWord s c = .next t) : Legal t := by
  unfold deliverOutWord at ht
  dsimp only at ht
  have hp := (h.output c).2
  split at ht
  · rename_i ha
    split at ht
    · obtain ⟨-, ht⟩ := State.atWord_eq_next ht
      cases ht
      refine h.setIo (IoSection.Coherent.send (h.ioCoherent.setOut ?_ c) _)
      exact OutPath.coherent_of_active ha hp
    · cases ht
      refine h.setIo (IoSection.Coherent.send (h.ioCoherent.setOut ?_ c) _)
      exact OutPath.coherent_of_active ha hp
  · cases ht

theorem readAhead_legal {s t : State} (h : Legal s) {c : Channel} (ht : readAhead s c = .next t) : Legal t := by
  unfold readAhead at ht
  dsimp only at ht
  split at ht
  · rename_i ha
    obtain ⟨-, ht⟩ := State.atWord_eq_next ht
    cases ht
    refine h.setIo (h.ioCoherent.setOut ?_ c)
    exact OutPath.coherent_of_active ha (h.output c).2
  · cases ht
    exact h

theorem deliverRecordFlag_legal {s : State} (h : Legal s) (half : Half) (c : Channel) : Legal (deliverRecordFlag s half c) := by
  have hreq : IoSection.Coherent { s.io with req := s.io.req.request c } :=
    h.ioCoherent.setReq (ChannelRequest.request_coherent h.request c)
  have hs := h.setIo hreq
  unfold deliverRecordFlag
  cases half with
  | input =>
    dsimp only
    split
    · exact hs.setIo (hs.ioCoherent.setInp (InPath.finish_coherent (hs.input c)) c)
    · exact hs
  | output =>
    dsimp only
    split
    · exact hs.setIo ((hs.ioCoherent.setOut ⟨fun _ => rfl, rfl⟩ c).send _)
    · exact hs

theorem startBlock_legal {s t : State} (h : Legal s) {busy : Bool} {a : Addr} {io : IoSection} (hio : io.Coherent)
    (ht : startBlock s busy a io = .next t) : Legal t := by
  unfold startBlock at ht
  split at ht
  · cases ht
  · obtain ⟨-, ht⟩ := State.atWord_eq_next ht
    cases ht
    exact h.setIo hio

theorem flagThis_legal {s : State} (h : Legal s) : Legal (flagThis s) := by
  unfold flagThis
  split
  · rename_i hc
    have hw : s.io.req.waiting = true := by
      simp only [Bool.and_eq_true] at hc
      exact hc.1.1
    exact (h.setIo (h.ioCoherent.hold hw)).congr rfl rfl rfl rfl rfl rfl
  · exact h

theorem deliver_legal {turn : Turn} {s t : State} (h : Legal s) (ht : deliver turn s = .next t) : Legal t := by
  have hio := h.ioCoherent
  cases turn with
  | execute | interrupt => cases ht; exact h
  | timeInterval | otherSetIl | otherClearIl | otherBsc | otherEsc => cases ht; exact h.congr rfl rfl rfl rfl rfl rfl
  | reference => cases ht; exact h.reference
  | perform a => cases ht; exact h.perform a
  | forward d => cases ht; exact h.forward d
  | recordFlag half c => cases ht; exact deliverRecordFlag_legal h half c
  | inWord c v => exact deliverInWord_legal h ht
  | writeInput c => exact writeInput_legal h ht
  | outWord c => exact deliverOutWord_legal h ht
  | readAhead c => exact readAhead_legal h ht
  | selectRequest c => cases ht; exact h.setIo (hio.setReq (ChannelRequest.select_coherent h.request c))
  | flagThis => cases ht; exact flagThis_legal h
  | flagOther q =>
    cases ht
    split
    · rename_i hw
      exact h.setIo ((hio.hold hw).setOther q _)
    · exact h
  | otherTakes q => cases ht; exact h.setIo (hio.otherTakes q)
  | otherRcr q => cases ht; exact h.setIo (hio.setReq (ChannelRequest.release_coherent h.request))
  | otherStore q a v =>
    obtain ⟨ha, ht⟩ := State.atWord_eq_next (k := fun a s => .next (s.poke a v)) ht
    cases ht
    exact h.poke ha v
  | otherChin q c a => exact startBlock_legal h (hio.startInput c a) ht
  | otherChout q c a => exact startBlock_legal h (hio.startOutput c a) ht

/-- Settles O8: the schedule's turn is the processor's, an interruption, or another agent's, and each keeps `Legal`. -/
theorem stepKeepsInvariant : Obligations.StepKeepsInvariant := by
  intro s t h ht
  unfold step at ht
  split at ht
  · split at ht
    · cases ht
      exact interruptTurn_legal h.performAll true true true
    · exact cpuStep_legal h.performAll ht
  · exact cpuStep_legal (h.setScript _) ht
  · cases ht
    exact interruptTurn_legal (h.setScript _) _ _ _
  · exact deliver_legal (h.setScript _) ht

end Sys2Proof.Machine
end

section
/-! The canonical form of memory (log 6): what the listed words are is seen from what is read. -/

namespace Sys2Proof.Machine

/-- In canonical form a word is listed with its contents exactly if it reads as something that unlisted words do not. -/
theorem Memory.wf.mem_iff_read {m : Memory} (h : m.wf) (c : Cell) : c ∈ m ↔ m.read c.1 = c.2 ∧ c.2 ≠ Memory.unlisted := by
  induction m with
  | nil =>
    simp only [List.not_mem_nil, Memory.read, false_iff]
    exact fun ⟨hread, hlisted⟩ => hlisted hread.symm
  | cons d m ih =>
    obtain ⟨hrising, hcells⟩ := h
    obtain ⟨hd, hm⟩ := List.pairwise_cons.mp hrising
    obtain ⟨hdcell, hmcells⟩ := List.forall_mem_cons.mp hcells
    have hrest := ih ⟨hm, hmcells⟩
    by_cases hc : d.1 = c.1
    · have habsent : c ∉ m := fun hmem => (hd c hmem).ne hc
      simp only [List.mem_cons, habsent, or_false, Memory.read, hc, if_true]
      refine ⟨fun e => ?_, fun ⟨e, _⟩ => Prod.ext hc.symm e.symm⟩
      rw [e]
      exact ⟨rfl, hdcell.1⟩
    · have hne : c ≠ d := fun e => hc (e ▸ rfl)
      simp only [List.mem_cons, hne, false_or, Memory.read, hc, if_false, hrest]

/-- Settles O9: the same words are listed, and their order is fixed. -/
theorem memoryIsCanonical : Obligations.MemoryIsCanonical := by
  intro m n hm hn hread
  have hasymm : Std.Antisymm fun c d : Cell => c.1 < d.1 := ⟨fun _ _ h g => absurd h g.asymm⟩
  have hirrefl : Std.Irrefl fun c d : Cell => c.1 < d.1 := ⟨fun _ => lt_irrefl _⟩
  exact hm.1.eq_of_mem_iff hn.1 fun c => by rw [hm.mem_iff_read, hn.mem_iff_read, hread]

end Sys2Proof.Machine
end

section
/-! Address operands as numbers, and the storage reference instructions as references (20_memory.md R79 to R82). -/

namespace Sys2Proof.Machine

theorem State.fieldLength_eq (s : State) : s.fieldLength = 256 * s.xpw.fl.toNat := Nat.mul_comm _ _

theorem low20_eq (v : Word) : low20 v = v.setWidth 20 := (BitVec.setWidth_eq_extractLsb' (by decide)).symm

theorem channelOf_eq (v : Word) : channelOf v = v.setWidth 4 := (BitVec.setWidth_eq_extractLsb' (by decide)).symm

/-- The adder passes every operand but minus zero (40_arithmetic.md R151). -/
theorem zero_add1c {v : Word} (h : v ≠ BitVec.allOnes 64) : add1c 0 v = v := by
  have hlt := v.isLt
  have hne : v.toNat ≠ 2 ^ 64 - 1 := fun e => h (BitVec.eq_of_toNat_eq (by rw [e]; rfl))
  have hsum : (0 : Word).toNat + v.toNat = v.toNat := Nat.zero_add _
  simp only [add1c, hsum, ge_iff_le, Nat.not_le.mpr hlt, hne, if_false, BitVec.ofNat_toNat, BitVec.setWidth_eq]

/-- A constant is narrower than the adder, so it is not minus zero. -/
theorem zextK_ne_allOnes (K : Addr) : zextK K ≠ BitVec.allOnes 64 := by
  intro h
  have hK := K.isLt
  have := congrArg BitVec.toNat h
  simp only [zextK, BitVec.toNat_setWidth, BitVec.toNat_allOnes] at this
  omega

theorem addrOfK_eq (K : Addr) : addrOfK K = K := by
  rw [addrOfK, zero_add1c (zextK_ne_allOnes K), low20_eq, zextK, BitVec.setWidth_setWidth_of_le _ (by decide), BitVec.setWidth_eq]

/-- The address operand (Xk) leaves nothing to choose unless it is minus zero (log 18). -/
theorem addrOfX_eq {v : Word} (h : v ≠ BitVec.allOnes 64) (free : Bool) : addrOfX v free = v.setWidth 20 := by
  have hne : v ≠ ~~~(0 : Word) := h
  rw [addrOfX, decide_eq_false hne, Bool.false_and, if_neg Bool.false_ne_true, zero_add1c h, low20_eq]

theorem addrOfXK_eq (v : Word) (K : Addr) : addrOfXK v K = (add1c v (K.signExtend 64)).setWidth 20 := low20_eq _

theorem addrOfXX_eq (v w : Word) : addrOfXX v w = (add1c v w).setWidth 20 := low20_eq _

section
variable (i j k : Reg) (K : Addr) (s : State)

theorem exec_stk : exec (.stk j K) s = s.dataRef K (storeFrom j 2) := congrArg (s.dataRef · _) (addrOfK_eq K)

theorem exec_rsk : exec (.rsk j K) s = s.dataRef K (swapWith j 2) := congrArg (s.dataRef · _) (addrOfK_eq K)

theorem exec_ldk : exec (.ldk j K) s = s.dataRef K (loadInto j 2) := congrArg (s.dataRef · _) (addrOfK_eq K)

theorem exec_rpk : exec (.rpk j K) s = s.progRef K (loadInto j 2) := congrArg (s.progRef · _) (addrOfK_eq K)

theorem exec_rpp : exec (.rpp j K) s = s.progRef (s.pPlusSext K) (loadInto j 2) := rfl

theorem exec_ldxk : exec (.ldxk i j K) s = s.dataRef ((add1c (s.getX j) (K.signExtend 64)).setWidth 20) (loadInto i 2) :=
  congrArg (s.dataRef · _) (addrOfXK_eq _ K)

theorem exec_stxk : exec (.stxk i j K) s = s.dataRef ((add1c (s.getX j) (K.signExtend 64)).setWidth 20) (storeFrom i 2) :=
  congrArg (s.dataRef · _) (addrOfXK_eq _ K)

theorem exec_ldxx : exec (.ldxx i j k) s = s.dataRef ((add1c (s.getX j) (s.getX k)).setWidth 20) (loadInto i 1) :=
  congrArg (s.dataRef · _) (addrOfXX_eq _ _)

theorem exec_stxx : exec (.stxx i j k) s = s.dataRef ((add1c (s.getX j) (s.getX k)).setWidth 20) (storeFrom i 1) :=
  congrArg (s.dataRef · _) (addrOfXX_eq _ _)

variable {k s} (h : s.getX k ≠ BitVec.allOnes 64)
include h

theorem exec_stx : exec (.stx j k) s = s.drawn.dataRef ((s.getX k).setWidth 20) (storeFrom j 1) :=
  congrArg (s.drawn.dataRef · _) (addrOfX_eq h _)

theorem exec_rsx : exec (.rsx j k) s = s.drawn.dataRef ((s.getX k).setWidth 20) (swapWith j 1) :=
  congrArg (s.drawn.dataRef · _) (addrOfX_eq h _)

theorem exec_ldx : exec (.ldx j k) s = s.drawn.dataRef ((s.getX k).setWidth 20) (loadInto j 1) :=
  congrArg (s.drawn.dataRef · _) (addrOfX_eq h _)

theorem exec_rpx : exec (.rpx j k) s = s.drawn.progRef ((s.getX k).setWidth 20) (loadInto j 1) :=
  congrArg (s.drawn.progRef · _) (addrOfX_eq h _)

end

end Sys2Proof.Machine
end

section
/-! References beyond the field (20_memory.md R80, R82; 60_exceptions.md R404, R406). -/

namespace Sys2Proof.Machine

/-- Raising a condition that stores P + 1, whatever has been drawn before. -/
theorem Twin.raise_exchanges {s u : State} (h : Twin s u) {c : Cond} (hc : ∀ p, savedP c p = p + 1) :
    ∃ t, u.raise c = .next t ∧ Exchanges c.flag (s.p + 1) s t :=
  ⟨_, u.raise_eq c, by rw [hc, h.p]; exact exchanges_exchange h _ _⟩

/-- A data reference beyond the field makes the exchange of Condition(55), and nothing else. -/
theorem Twin.dataRef_exchanges {s u : State} (h : Twin s u) {a : Addr} (ha : 256 * s.xpw.fl.toNat ≤ a.toNat)
    (k : Nat → State → Answer) : ∃ t, u.dataRef a k = .next t ∧ Exchanges 0x08#8 (s.p + 1) s t := by
  rw [State.dataRef_of_ge (h.xpw ▸ ha)]
  exact h.raise_exchanges (c := .dataLimit) fun _ => rfl

/-- A program reference beyond the field makes, while PRF is set, the exchange of Condition(54), and nothing else. -/
theorem Twin.progRef_exchanges {s u : State} (h : Twin s u) (hp : s.xpw.prf = true) {a : Addr}
    (ha : 256 * s.xpw.fl.toNat ≤ a.toNat) (k : Nat → State → Answer) :
    ∃ t, u.progRef a k = .next t ∧ Exchanges 0x04#8 (s.p + 1) s t := by
  rw [State.progRef_of_ge (h.xpw ▸ hp) (h.xpw ▸ ha)]
  exact h.raise_exchanges (c := .programLimit) fun _ => rfl

/-- Settles O38: each of the ten instructions is one data reference. -/
theorem dataLimitRaises : Obligations.DataLimitRaises := by
  intro i j k K s
  dsimp only
  have direct := fun {a : Addr} (ha : 256 * s.xpw.fl.toNat ≤ a.toNat) => (Twin.refl s).dataRef_exchanges ha
  have drawn := fun {a : Addr} (ha : 256 * s.xpw.fl.toNat ≤ a.toNat) => (Twin.drawn s).dataRef_exchanges ha
  refine ⟨fun ha => ?_, fun hk ha => ?_, fun ha => ?_, fun ha => ?_⟩
  · rw [exec_stk, exec_rsk, exec_ldk]
    exact ⟨direct ha _, direct ha _, direct ha _⟩
  · rw [exec_stx j hk, exec_rsx j hk, exec_ldx j hk]
    exact ⟨drawn ha _, drawn ha _, drawn ha _⟩
  · rw [exec_ldxk, exec_stxk]
    exact ⟨direct ha _, direct ha _⟩
  · rw [exec_ldxx, exec_stxx]
    exact ⟨direct ha _, direct ha _⟩

/-! The processor's turn, and the fetch that opens it. -/

/-- With the schedule exhausted and nothing to take, the processor moves once every waiting reference has reached memory. -/
theorem step_of_exhausted {s : State} (hs : s.script = []) (hi : s.interruptPending = false) : step s = cpuStep s.performAll := by
  rw [step, hs]
  exact if_neg (by simp [hi])

theorem step_of_execute {s : State} {ts : List Turn} (hs : s.script = .execute :: ts) :
    step s = cpuStep { s with script := ts } := by
  rw [step, hs]

/-- A fetch that answers the whole step. -/
theorem cpuStep_of_done {s : State} (hx : s.exchanging = none) {o : Answer} (hf : fetch s = .done o) : cpuStep s = o := by
  rw [cpuStep, hx, if_neg (by simp), hf]

theorem fetch_beyond_field {s : State} (hpp : s.pp = 0) (hp : s.xpw.prf = true) (ha : 256 * s.xpw.fl.toNat ≤ s.p.toNat) :
    fetch s = .done (s.raise .programLimit) := by
  have hlimit : s.fieldLength ≤ s.p.toNat := s.fieldLength_eq ▸ ha
  rw [fetch, if_pos hpp, if_pos (by simp [hp, hlimit])]

/-- Once every waiting reference has reached memory, no register is left to await. -/
theorem State.performAll_clearRegs (s : State) : s.performAll.clearRegs = s.performAll := State.await_of_none _ (by simp)

/-- The processor's turn at a word beyond the field. -/
theorem cpuStep_beyond_field {s : State} (hx : s.exchanging = none) (hpp : s.pp.val = 0) (hp : s.xpw.prf = true)
    (ha : 256 * s.xpw.fl.toNat ≤ s.p.toNat) : ∃ t, cpuStep s = .next t ∧ Exchanges 0x04#8 (s.p + 1) s t := by
  rw [cpuStep_of_done hx (fetch_beyond_field (Fin.ext hpp) hp ha)]
  exact (Twin.refl s).raise_exchanges (c := .programLimit) fun _ => rfl

/-- Settles O39: each of the three instructions is one program reference, and the fetch makes the same test. -/
theorem programLimitRaises : Obligations.ProgramLimitRaises := by
  intro j k K s hp
  dsimp only
  refine ⟨fun ha => ?_, fun hk ha => ?_, fun ha => ?_, fun ha hpp hx hs hi => ?_, fun ts ha hpp hx hs => ?_⟩
  · rw [exec_rpk]
    exact (Twin.refl s).progRef_exchanges hp ha _
  · rw [exec_rpx j hk]
    exact (Twin.drawn s).progRef_exchanges hp ha _
  · rw [exec_rpp]
    exact (Twin.refl s).progRef_exchanges hp ha _
  · obtain ⟨t, ht, hwhole, -⟩ := cpuStep_beyond_field (s := s.performAll) (by simp [hx]) (by simp [hpp]) (by simp [hp])
      (by simpa using ha)
    refine ⟨t, (step_of_exhausted hs hi).trans ht, ?_⟩
    have h := hwhole (by simp [hs])
    rwa [State.performAll_clearRegs, State.performAll_p] at h
  · rw [step_of_execute hs]
    exact cpuStep_beyond_field (s := { s with script := ts }) hx hpp hp ha

end Sys2Proof.Machine
end

section
/-! References to words that do not exist (20_memory.md R71, D7; log 7). -/

namespace Sys2Proof.Machine

/-- The absolute address of a program address while PRF is set. -/
theorem State.progAddr_of_prf {s : State} (hp : s.xpw.prf = true) (a : Addr) :
    s.progAddr a = (256 * s.xpw.ra.toNat + a.toNat) % 2 ^ 20 := by
  rw [State.progAddr, if_pos hp, State.relocate_eq]

/-- The absolute address of a program address while PRF is clear. -/
theorem State.progAddr_of_not_prf {s : State} (hp : s.xpw.prf = false) (a : Addr) : s.progAddr a = a.toNat := by
  rw [State.progAddr, if_neg (by simp [hp])]

theorem Twin.dataRef_missing {s u : State} (h : Twin s u) {a : Addr} (ha : a.toNat < 256 * s.xpw.fl.toNat)
    (hm : Config.memWords ≤ (256 * s.xpw.ra.toNat + a.toNat) % 2 ^ 20) (k : Nat → State → Answer) :
    u.dataRef a k = .fault (.noSuchWord ((256 * s.xpw.ra.toNat + a.toNat) % 2 ^ 20)) := by
  have hlimit : ¬ a.toNat ≥ u.fieldLength := by
    rw [State.fieldLength_eq, h.xpw]
    exact Nat.not_le.mpr ha
  rw [State.dataRef, if_neg hlimit, State.relocate_eq, h.xpw]
  exact State.atWord_of_ge hm

/-- A program reference to a missing word: relocated and inside the field, or absolute. -/
theorem Twin.progRef_missing {s u : State} (h : Twin s u) {a : Addr} (ha : s.xpw.prf = true → a.toNat < 256 * s.xpw.fl.toNat)
    (hm : Config.memWords ≤ s.progAddr a) (k : Nat → State → Answer) : u.progRef a k = .fault (.noSuchWord (s.progAddr a)) := by
  rw [State.progRef, h.xpw]
  cases hp : s.xpw.prf with
  | true =>
    have hlimit : ¬ a.toNat ≥ u.fieldLength := by
      rw [State.fieldLength_eq, h.xpw]
      exact Nat.not_le.mpr (ha hp)
    rw [if_pos rfl, if_neg hlimit, State.relocate_eq, h.xpw, ← State.progAddr_of_prf hp]
    exact State.atWord_of_ge hm
  | false =>
    rw [if_neg (by simp), ← State.progAddr_of_not_prf hp]
    exact State.atWord_of_ge hm

theorem fetch_missing {s : State} (hpp : s.pp = 0) (ha : s.xpw.prf = true → s.p.toNat < 256 * s.xpw.fl.toNat)
    (hm : Config.memWords ≤ s.progAddr s.p) : fetch s = .done (.fault (.noSuchWord (s.progAddr s.p))) := by
  have hlimit : ¬ (s.xpw.prf && s.p.toNat ≥ s.fieldLength) = true := by
    simpa [State.fieldLength_eq] using ha
  rw [fetch, if_pos hpp, if_neg hlimit, if_neg (Nat.not_lt.mpr hm)]

/-- The processor's turn, named by the schedule or the schedule being exhausted, at a word that does not exist. -/
theorem step_missing {s : State} (hpp : s.pp.val = 0) (hx : s.exchanging = none)
    (hturn : (s.script = [] ∧ s.interruptPending = false) ∨ s.script.head? = some .execute)
    (ha : s.xpw.prf = true → s.p.toNat < 256 * s.xpw.fl.toNat) (hm : Config.memWords ≤ s.progAddr s.p) :
    step s = .fault (.noSuchWord (s.progAddr s.p)) := by
  rcases hturn with ⟨hs, hi⟩ | hs
  · have haddr : s.performAll.progAddr s.performAll.p = s.progAddr s.p := by simp [State.progAddr, State.relocate]
    rw [step_of_exhausted hs hi, ← haddr]
    exact cpuStep_of_done (by simp [hx]) (fetch_missing (Fin.ext (by simp [hpp])) (by simpa using ha) (haddr ▸ hm))
  · obtain ⟨ts, hs⟩ := List.head?_eq_some_iff.mp hs
    rw [step_of_execute hs]
    exact cpuStep_of_done (s := { s with script := ts }) hx (fetch_missing (s := { s with script := ts }) (Fin.ext hpp) ha hm)

section
variable {j k : Reg} {s : State} (hmtf : s.xpw.mtf = true) (hm : Config.memWords ≤ ((s.getX k).setWidth 20 : Addr).toNat)
include hmtf hm

theorem exec_chin_missing (hidle : (s.io.inp ((s.getX j).setWidth 4)).active = false) :
    exec (.chin j k) s = .fault (.noSuchWord ((s.getX k).setWidth 20 : Addr).toNat) := by
  rw [← channelOf_eq] at hidle
  rw [← low20_eq] at hm ⊢
  exact (if_pos hmtf).trans ((if_neg (by simp [hidle])).trans (State.atWord_of_ge hm))

theorem exec_chout_missing (hidle : (s.io.out ((s.getX j).setWidth 4)).active = false) :
    exec (.chout j k) s = .fault (.noSuchWord ((s.getX k).setWidth 20 : Addr).toNat) := by
  rw [← channelOf_eq] at hidle
  rw [← low20_eq] at hm ⊢
  exact (if_pos hmtf).trans ((if_neg (by simp [hidle])).trans (State.atWord_of_ge hm))

end

/-- Settles O40: every one of these is one reference, and its word is missing. -/
theorem missingWordFaults : Obligations.MissingWordFaults := by
  intro i j k K s
  dsimp only
  have direct := fun {a : Addr} (ha : a.toNat < 256 * s.xpw.fl.toNat ∧ 262144 ≤ (256 * s.xpw.ra.toNat + a.toNat) % 2 ^ 20) =>
    (Twin.refl s).dataRef_missing ha.1 ha.2
  have drawn := fun {a : Addr} (ha : a.toNat < 256 * s.xpw.fl.toNat ∧ 262144 ≤ (256 * s.xpw.ra.toNat + a.toNat) % 2 ^ 20) =>
    (Twin.drawn s).dataRef_missing ha.1 ha.2
  refine ⟨fun ha => ?_, fun hk ha => ?_, fun ha => ?_, fun ha => ?_, fun hp => ?_, fun hp => ?_, fun hmtf hm => ?_⟩
  · rw [exec_stk, exec_rsk, exec_ldk]
    exact ⟨direct ha _, direct ha _, direct ha _⟩
  · rw [exec_stx j hk, exec_rsx j hk, exec_ldx j hk]
    exact ⟨drawn ha _, drawn ha _, drawn ha _⟩
  · rw [exec_ldxk, exec_stxk]
    exact ⟨direct ha _, direct ha _⟩
  · rw [exec_ldxx, exec_stxx]
    exact ⟨direct ha _, direct ha _⟩
  · simp only [← State.progAddr_of_prf hp]
    refine ⟨fun ⟨ha, hm⟩ => ?_, fun hk ⟨ha, hm⟩ => ?_, fun ⟨ha, hm⟩ => ?_, fun ⟨ha, hm⟩ ⟨hpp, hx, hturn⟩ => ?_⟩
    · rw [exec_rpk, (Twin.refl s).progRef_missing (fun _ => ha) hm]
    · rw [exec_rpx j hk, (Twin.drawn s).progRef_missing (fun _ => ha) hm]
    · rw [exec_rpp, (Twin.refl s).progRef_missing (fun _ => ha) hm]
    · exact step_missing hpp hx hturn (fun _ => ha) hm
  · simp only [← State.progAddr_of_not_prf hp]
    have absolute : ∀ {a : Addr}, s.xpw.prf = true → a.toNat < 256 * s.xpw.fl.toNat := fun h => absurd h (by simp [hp])
    refine ⟨fun hm => ?_, fun hk hm => ?_, fun hm => ?_, fun hm ⟨hpp, hx, hturn⟩ => ?_⟩
    · rw [exec_rpk, (Twin.refl s).progRef_missing absolute hm]
    · rw [exec_rpx j hk, (Twin.drawn s).progRef_missing absolute hm]
    · rw [exec_rpp, (Twin.refl s).progRef_missing absolute hm]
    · exact step_missing hpp hx hturn absolute hm
  · exact ⟨exec_chin_missing hmtf hm, exec_chout_missing hmtf hm⟩

end Sys2Proof.Machine
end

section
/-! What is executed at a word that has been rewritten (20_memory.md R95; 70_reset_and_hazards.md R461; log 15). -/

namespace Sys2Proof.Machine

/-- After a write the stack holds the same addresses. -/
theorem StackAfterWrite.absent {a : Nat} {s t : State} (h : StackAfterWrite a s t) {q : Addr} (hq : ∀ e ∈ s.iws, e.addr ≠ q) :
    ∀ e ∈ t.iws, e.addr ≠ q := by
  obtain ⟨-, hi | hi⟩ := h <;> rw [hi]
  · exact hq
  · refine List.forall_mem_map.mpr fun e he => ?_
    split <;> exact hq e he

/-- After a write the stack holds at an address the copy that it held, if the word had been read; and otherwise still no copy, or the
word that was there before. -/
theorem StackAfterWrite.held {a : Nat} {s t : State} (h : StackAfterWrite a s t) {q : Addr} {e : StackEntry} (he : e ∈ s.iws)
    (hq : e.addr = q) (hu : ∀ d ∈ s.iws, d.addr = q → d = e) :
    ∃ f ∈ t.iws, f.addr = q ∧ (∀ d ∈ t.iws, d.addr = q → d = f) ∧
      (f.word = e.word ∨ (e.word = none ∧ f.word = some (s.view a))) := by
  obtain ⟨-, hi | hi⟩ := h <;> rw [hi]
  · exact ⟨e, he, hq, hu, .inl rfl⟩
  · refine ⟨_, List.mem_map_of_mem he, ?_, List.forall_mem_map.mpr fun d hd hdq => ?_, ?_⟩
    · split <;> exact hq
    · have hdq : d.addr = q := by
        split at hdq <;> exact hdq
      rw [hu d hd hdq]
    · split
      · rename_i hc
        exact .inr ⟨hc.1, rfl⟩
      · exact .inl rfl

/-- 0200, where it goes on: it has issued its store. -/
theorem exec_stk_issued {j : Reg} {K : Addr} {s t : State} (hK : K.toNat < 256 * s.xpw.fl.toNat)
    (ht : exec (.stk j K) s = .next t) : t = (s.issue ⟨s.relocate K, none, some (s.getX j)⟩).advance 2 := by
  rw [exec_stk] at ht
  rcases s.dataRef_cases K (storeFrom j 2) with ⟨hge, -⟩ | ⟨-, -, e⟩ | ⟨f, e⟩
  · exact absurd hK (Nat.not_lt.mpr hge)
  · rw [e] at ht
    cases ht
    rfl
  · rw [e] at ht
    cases ht

/-- What is executed at a program address whose word a store has rewritten. -/
theorem instructionWord_after_store (s : State) {q : Addr} {a : Nat} (v : Word) (n : Nat) (ha : s.progAddr q = a) :
    ((∀ e ∈ s.iws, e.addr ≠ q) → ((s.issue ⟨a, none, some v⟩).advance n).instructionWord q = v) ∧
    ∀ e ∈ s.iws, e.addr = q → (∀ d ∈ s.iws, d.addr = q → d = e) →
      (∀ w, e.word = some w → ((s.issue ⟨a, none, some v⟩).advance n).instructionWord q = w) ∧
      (e.word = none → ((s.issue ⟨a, none, some v⟩).advance n).instructionWord q = v ∨
        ((s.issue ⟨a, none, some v⟩).advance n).instructionWord q = s.view a) := by
  have hstack := (issued_issue (Twin.refl s) ⟨a, none, some v⟩ n).stack
  generalize ht : (s.issue ⟨a, none, some v⟩).advance n = t at hstack ⊢
  have hnew : t.view (t.progAddr q) = v := by
    have haddr : t.progAddr q = a := by rw [← ht, ← ha]; simp [State.progAddr, State.relocate]
    rw [haddr, ← ht, State.advance_view, State.issue_view, if_pos rfl, Option.getD_some]
  refine ⟨fun hq => ?_, fun e he hq hu => ?_⟩
  · rw [State.instructionWord_of_absent (hstack.absent hq), hnew]
  · obtain ⟨f, hf, hfq, hfu, hword⟩ := hstack.held he hq hu
    rw [State.instructionWord_of_held hf hfq hfu, hnew]
    rcases hword with hsame | ⟨hnone, hold⟩
    · rw [hsame]
      exact ⟨fun w hw => by rw [hw, Option.getD_some], fun hn => .inl (by rw [hn, Option.getD_none])⟩
    · rw [hold]
      exact ⟨fun w hw => absurd (hnone.symm.trans hw) (by simp), fun _ => .inr rfl⟩

/-- Settles O7: 0200 issues its store, which may change the stack only as `StackAfterWrite` says; another processor's store likewise. -/
theorem rewrittenWordExecutes : Obligations.RewrittenWordExecutes := by
  refine ⟨fun j K q s t hq hK ht => ?_, fun s o b v ts hb hs => ?_⟩
  · have haddr : s.progAddr q = s.relocate K := by
      rw [State.progAddr, State.relocate_eq, State.relocate_eq]
      exact hq
    rw [exec_stk_issued hK ht, ← State.relocate_eq]
    exact instructionWord_after_store s (s.getX j) 2 haddr
  · have hstep : step s = .next (State.poke { s with script := ts } b.toNat v) := by
      rw [step, hs]
      exact State.atWord_of_lt (k := fun a s => .next (s.poke a v)) hb
    refine ⟨_, hstep, by simp, fun a ha => Memory.read_write_ne _ _ ha, by simp, ⟨fun r => by simp [State.getX], by simp⟩, by simp,
      by simp, by simp, ?_⟩
    exact stackAfterWrite_of (Twin.refl { s with script := ts }) (by simp) (by simp)

end Sys2Proof.Machine
end

section
/-! The decoder and the encoder are inverse to each other, up to the fields that the hardware ignores (30_encoding.md R112 to R124). -/

namespace Sys2Proof

/-- The codes of format F8K (R121). -/
def codesF8K : List Nat :=
  [0x20, 0x22, 0x24, 0x26, 0x28, 0x29, 0x2A, 0x30, 0x31, 0x32, 0x33, 0x34, 0x35, 0x36, 0x37, 0x38, 0x3A, 0x3E]

/-- The codes of format F4K (R121). -/
def codesF4K : List Nat := [0x5, 0xC, 0xE]

/-- A code of format F8 or F8K: the upper four bits, below 4, tell them from the others. -/
theorem Parcel.code_lt_iff (p : Parcel) : p.code.toNat < 0x40 ↔ p.hi.toNat < 4 := by
  have := p.code_toNat
  have := p.i.isLt
  omega

theorem isTwoParcel_of_lt {p : Parcel} (h : p.code.toNat < 0x40) : isTwoParcel p = decide (p.code.toNat ∈ codesF8K) := if_pos h

theorem isTwoParcel_of_ge {p : Parcel} (h : ¬ p.code.toNat < 0x40) : isTwoParcel p = decide (p.hi.toNat ∈ codesF4K) := if_neg h

/-- The two lists of codes do not overlap: one is below 0x40, the other above. -/
theorem isTwoParcel_iff (p : Parcel) : isTwoParcel p = true ↔ p.code.toNat ∈ codesF8K ∨ p.hi.toNat ∈ codesF4K := by
  have hlow : ∀ n ∈ codesF8K, n < 0x40 := by decide
  have hhigh : ∀ n ∈ codesF4K, ¬ n < 4 := by decide
  by_cases h : p.code.toNat < 0x40
  · have : p.hi.toNat ∉ codesF4K := fun c => hhigh _ c (p.code_lt_iff.mp h)
    simp [isTwoParcel_of_lt h, this]
  · have : p.code.toNat ∉ codesF8K := fun c => h (hlow _ c)
    simp [isTwoParcel_of_ge h, this]

/-! Decoding a list of parcels. -/

theorem decode_oneParcel {p : Parcel} (h : isTwoParcel p = false) (rest : List Parcel) :
    decode (p :: rest) = .ok (decodeParcel p 0, rest) := by simp [decode, h]

theorem decode_twoParcel {p : Parcel} (h : isTwoParcel p = true) (q : Parcel) (rest : List Parcel) :
    decode (p :: q :: rest) = .ok (decodeParcel p q, rest) := by simp [decode, h]

theorem decode_second_missing {p : Parcel} (h : isTwoParcel p = true) : decode [p] = .error .secondParcelMissing := by
  simp [decode, h]

/-! What the encoder writes in each format is decoded by the code in its first parcel. -/

theorem decode_f8 {c : BitVec 8} (hlow : c.toNat < 0x40) (hc : c.toNat ∉ codesF8K) (j k : Reg) (rest : List Parcel) :
    decode ([f8 c j k] ++ rest) = .ok (decodeParcel (f8 c j k) 0, rest) := by
  refine decode_oneParcel ?_ rest
  rw [isTwoParcel_of_lt (by rwa [f8_code]), f8_code, decide_eq_false hc]

theorem decode_f8K {c : BitVec 8} (hc : c.toNat ∈ codesF8K) (j : Reg) (K : Addr) (rest : List Parcel) :
    decode (f8K c j K ++ rest) = .ok (decodeParcel (f8 c j (K.extractLsb' 16 4)) (K.extractLsb' 0 16), rest) := by
  rw [f8K_eq]
  exact decode_twoParcel ((isTwoParcel_iff _).mpr (.inl (by rwa [f8_code]))) _ rest

theorem decode_f6 {c : BitVec 6} (hc : c.extractLsb' 2 4 = 0x4#4) (j : Reg) (n : BitVec 6) (rest : List Parcel) :
    decode ([f6 c j n] ++ rest) = .ok (decodeSixBit (f6 c j n), rest) := by
  have hhi : (f6 c j n).hi = 0x4#4 := by rw [f6_hi, hc]
  have hone : isTwoParcel (f6 c j n) = false := by
    rw [isTwoParcel_of_ge (by rw [Parcel.code_lt_iff, hhi]; decide), hhi]
    rfl
  rw [List.singleton_append, decode_oneParcel hone, decodeParcel, hhi]
  rfl

theorem decode_f4 {c : BitVec 4} (hhigh : ¬ c.toNat < 4) (hc : c.toNat ∉ codesF4K) (i j k : Reg) (rest : List Parcel) :
    decode ([f4 c i j k] ++ rest) = .ok (decodeParcel (f4 c i j k) 0, rest) := by
  refine decode_oneParcel ?_ rest
  rw [isTwoParcel_of_ge (by rwa [Parcel.code_lt_iff, f4_hi]), f4_hi, decide_eq_false hc]

theorem decode_f4K {c : BitVec 4} (hc : c.toNat ∈ codesF4K) (i j : Reg) (K : Addr) (rest : List Parcel) :
    decode (f4K c i j K ++ rest) = .ok (decodeParcel (f4 c i j (K.extractLsb' 16 4)) (K.extractLsb' 0 16), rest) := by
  rw [f4K_eq]
  exact decode_twoParcel ((isTwoParcel_iff _).mpr (.inr (by rwa [f4_hi]))) _ rest

theorem bigK_f8 (c : BitVec 8) (j : Reg) (K : Addr) : bigK (f8 c j (K.extractLsb' 16 4)) (K.extractLsb' 0 16) = K :=
  bigK_halves _ K (f8_k ..)

theorem bigK_f4 (c : BitVec 4) (i j : Reg) (K : Addr) : bigK (f4 c i j (K.extractLsb' 16 4)) (K.extractLsb' 0 16) = K :=
  bigK_halves _ K (f4_k ..)

/-- Settles O4: the cases go by format and by the decoder's four tables of 8-bit codes. -/
theorem decodeEncode : Obligations.DecodeEncode := by
  intro i rest
  cases i
  case err00 | and | or | xor | copy | copyc | shl | shr | fdpadd | fdpsub | fdiv | pop | fdpmul | imul | err0e | pass =>
    rw [encode, decode_f8 (by decide) (by decide)]
    simp [decodeParcel, decode00xx, f8_hi, f8_i, f8_j, f8_k]
  case setk | setnk | addk | subk | unpc | unpe | pack | neg | bsc | esc | chin | chout | rcr | lxa | err1e | err1f =>
    rw [encode, decode_f8 (by decide) (by decide)]
    simp [decodeParcel, decode01xx, f8_hi, f8_i, f8_j, f8_k]
  case stx | rsx | ldx | rpx | txa | sil | cil | ril | rtc =>
    rw [encode, decode_f8 (by decide) (by decide)]
    simp [decodeParcel, decode02xx, f8_hi, f8_i, f8_j, f8_k]
  case callx | lcallx | ret | lret | xj =>
    rw [encode, decode_f8 (by decide) (by decide)]
    simp [decodeParcel, decode03xx, f8_hi, f8_i, f8_j, f8_k]
  case stk | rsk | ldk | rpk | rpp | tpk | tk =>
    rw [encode, decode_f8K (by decide)]
    simp [decodeParcel, decode02xx, f8_hi, f8_i, f8_j, bigK_f8]
  case jp | callp | jir | jnr | jz | jnz | jpl | jng | callk | lcallk | jk =>
    rw [encode, decode_f8K (by decide)]
    simp [decodeParcel, decode03xx, f8_hi, f8_i, f8_j, bigK_f8]
  case save | blank | roln | sarn =>
    rw [encode, decode_f6 (by decide)]
    simp [decodeSixBit, f6_low, f6_j, f6_n]
  case iadd | isub | fadd | fsub | fmul | brb | ldxx | stxx =>
    rw [encode, decode_f4 (by decide) (by decide)]
    simp [decodeParcel, f4_hi, f4_i, f4_j, f4_k]
  case iaddk | ldxk | stxk =>
    rw [encode, decode_f4K (by decide)]
    simp [decodeParcel, f4_hi, f4_i, f4_j, bigK_f4]

end Sys2Proof
end

section
/-! Every parcel value is an instruction, and encoding it again gives the fields that the hardware reads (30_encoding.md R121 to R124). -/

namespace Sys2Proof
open Machine (Parcel.careMask)

/-! A parcel is made of its fields, and so are K and n. -/

theorem f8_fields (p : Parcel) : f8 p.code p.j p.k = p := by
  rw [f8, Parcel.code, Parcel.j, Parcel.k, BitVec.extractLsb'_append_extractLsb'_eq_extractLsb' (by rfl),
    BitVec.extractLsb'_append_extractLsb'_eq_extractLsb' (by rfl), BitVec.extractLsb'_eq_self]

theorem f4_fields (p : Parcel) : f4 p.hi p.i p.j p.k = p := by
  rw [f4, Parcel.hi, Parcel.i, BitVec.extractLsb'_append_extractLsb'_eq_extractLsb' (by rfl)]
  exact f8_fields p

theorem bigK_high (p q : Parcel) : (bigK p q).extractLsb' 16 4 = p.k := BitVec.extractLsb'_append_eq_left

theorem bigK_low (p q : Parcel) : (bigK p q).extractLsb' 0 16 = q := BitVec.extractLsb'_append_eq_right

theorem f6_fields (p : Parcel) : f6 (p.extractLsb' 10 6) p.j p.n = p := by
  have hhigh : p.n.extractLsb' 4 2 = p.extractLsb' 8 2 := BitVec.extractLsb'_append_eq_left
  have hlow : p.n.extractLsb' 0 4 = p.k := BitVec.extractLsb'_append_eq_right
  rw [f6, hhigh, hlow, BitVec.extractLsb'_append_extractLsb'_eq_extractLsb' (by rfl)]
  exact f8_fields p

theorem f8K_bigK (c : BitVec 8) (j : Reg) (p q : Parcel) : f8K c j (bigK p q) = [f8 c j p.k, q] := by
  rw [f8K_eq, bigK_high, bigK_low]

theorem f4K_bigK (p q : Parcel) : f4K p.hi p.i p.j (bigK p q) = [p, q] := by
  rw [f4K_eq, bigK_high, bigK_low, f4_fields]

theorem f8_and (c d : BitVec 8) (j k l m : Reg) : f8 c j k &&& f8 d l m = f8 (c &&& d) (j &&& l) (k &&& m) :=
  BitVec.and_append.trans (congrArg (· ++ (k &&& m)) BitVec.and_append)

/-! The fields that the hardware reads. -/

/-- What the hardware reads of an instruction's parcels: the first without its ignored fields, and the second if the code has one. -/
def fieldsRead (p q : Parcel) : List Parcel := (p &&& Parcel.careMask p) :: if isTwoParcel p then [q] else []

theorem fieldsRead_length (p q : Parcel) : (fieldsRead p q).length = if isTwoParcel p then 2 else 1 := by
  rw [fieldsRead]
  split <;> rfl

/-- The codes of format F8 whose j field is ignored (R122). -/
def codesWithoutJ : List Nat := [0x00, 0x0E, 0x0F, 0x18, 0x19, 0x1D, 0x1E, 0x1F, 0x2C, 0x2D, 0x30, 0x3E, 0x3F]

/-- The codes of format F8 whose k field is ignored (R122). -/
def codesWithoutK : List Nat := [0x00, 0x0E, 0x0F, 0x18, 0x19, 0x1C, 0x1E, 0x1F, 0x3F]

theorem careMask_of_lt {p : Parcel} {n : Nat} (hn : p.code.toNat = n) (hlow : n < 0x40) : Parcel.careMask p =
    f8 0xFF#8 (if n ∈ codesWithoutJ then 0x0#4 else 0xF#4) (if n ∈ codesWithoutK then 0x0#4 else 0xF#4) := by
  rw [Parcel.careMask, hn]
  clear hn
  decide +revert

theorem careMask_of_ge {p : Parcel} (h : ¬ p.code.toNat < 0x40) : Parcel.careMask p = BitVec.allOnes 16 := by
  have above : ∀ l : List Nat, (∀ n ∈ l, n < 0x40) → p.code.toNat ∉ l := fun l hl hm => h (hl _ hm)
  rw [Parcel.careMask, if_neg (above _ (by decide)), if_neg (by omega), if_neg (above _ (by decide))]
  rfl

theorem fieldsRead_of_lt {p : Parcel} (q : Parcel) {n : Nat} (hn : p.code.toNat = n) (hlow : n < 0x40) : fieldsRead p q =
    f8 (BitVec.ofNat 8 n) (if n ∈ codesWithoutJ then 0 else p.j) (if n ∈ codesWithoutK then 0 else p.k) ::
      if n ∈ codesF8K then [q] else [] := by
  have hcode : p.code = BitVec.ofNat 8 n := by rw [← hn, BitVec.ofNat_toNat, BitVec.setWidth_eq]
  have hmask : p &&& Parcel.careMask p =
      f8 (BitVec.ofNat 8 n) (if n ∈ codesWithoutJ then 0 else p.j) (if n ∈ codesWithoutK then 0 else p.k) := by
    rw [careMask_of_lt hn hlow]
    nth_rw 1 [← f8_fields p]
    rw [f8_and, hcode]
    congr 1
    · exact BitVec.and_allOnes
    · split
      · exact BitVec.and_zero
      · exact BitVec.and_allOnes
    · split
      · exact BitVec.and_zero
      · exact BitVec.and_allOnes
  rw [fieldsRead, hmask, isTwoParcel_of_lt (hn ▸ hlow), hn]
  simp

theorem fieldsRead_of_ge {p : Parcel} (q : Parcel) (h : ¬ p.code.toNat < 0x40) :
    fieldsRead p q = p :: if p.hi.toNat ∈ codesF4K then [q] else [] := by
  rw [fieldsRead, careMask_of_ge h, BitVec.and_allOnes, isTwoParcel_of_ge h]
  simp

/-- Codes 0000 to 0333. -/
theorem encode_decodeParcel_of_lt {p : Parcel} (q : Parcel) (h : p.code.toNat < 0x40) :
    encode (decodeParcel p q) = fieldsRead p q := by
  have hhi := p.code_lt_iff.mp h
  have hi := p.i.isLt
  rw [fieldsRead_of_lt q p.code_toNat (p.code_toNat ▸ h), decodeParcel]
  generalize p.hi.toNat = a at hhi ⊢
  interval_cases a
  · rw [decode00xx]
    generalize p.i.toNat = b at hi ⊢
    interval_cases b <;> rfl
  · rw [decode01xx]
    generalize p.i.toNat = b at hi ⊢
    interval_cases b <;> rfl
  · rw [decode02xx]
    generalize p.i.toNat = b at hi ⊢
    interval_cases b <;> simp [encode, f8K_bigK, codesF8K, codesWithoutJ, codesWithoutK]
  · rw [decode03xx]
    generalize p.i.toNat = b at hi ⊢
    interval_cases b <;> simp [encode, f8K_bigK, codesF8K, codesWithoutJ, codesWithoutK]

/-- The code of format F6 is the upper four bits of the parcel and the two below them. -/
theorem codeF6_eq {p : Parcel} {a b : Nat} (ha : p.hi.toNat = a) (hb : (p.extractLsb' 10 2).toNat = b) :
    p.extractLsb' 10 6 = BitVec.ofNat 6 (4 * a + b) := by
  apply BitVec.eq_of_toNat_eq
  have := p.isLt
  simp only [Parcel.hi, BitVec.extractLsb'_toNat, Nat.shiftRight_eq_div_pow, BitVec.toNat_ofNat] at *
  omega

/-- Codes 100X to 103X. -/
theorem encode_decodeSixBit {p : Parcel} (h : p.hi.toNat = 4) : encode (decodeSixBit p) = [p] := by
  have hp := f6_fields p
  have hlow := (p.extractLsb' 10 2).isLt
  generalize hb : (p.extractLsb' 10 2).toNat = b at hlow
  rw [codeF6_eq h hb] at hp
  rw [decodeSixBit, hb]
  interval_cases b <;> exact congrArg (fun r => [r]) hp

/-- Codes 100X to 33XX. -/
theorem encode_decodeParcel_of_ge {p : Parcel} (q : Parcel) (h : ¬ p.code.toNat < 0x40) :
    encode (decodeParcel p q) = fieldsRead p q := by
  have hge := mt p.code_lt_iff.mpr h
  have hlt := p.hi.isLt
  have hone := f4_fields p
  have htwo := f4K_bigK p q
  rw [fieldsRead_of_ge q h, decodeParcel]
  generalize ha : p.hi.toNat = a at hge hlt ⊢
  have hhi : p.hi = BitVec.ofNat 4 a := by rw [← ha, BitVec.ofNat_toNat, BitVec.setWidth_eq]
  rw [hhi] at hone htwo
  interval_cases a
  · exact encode_decodeSixBit ha
  all_goals simp [encode, codesF4K, hone, htwo]

/-- Encoding what was decoded gives the fields that the hardware reads, and zeros in the others. -/
theorem encode_decodeParcel (p q : Parcel) : encode (decodeParcel p q) = fieldsRead p q := by
  by_cases h : p.code.toNat < 0x40
  · exact encode_decodeParcel_of_lt q h
  · exact encode_decodeParcel_of_ge q h

/-- The encoder writes as many parcels as the instruction has. -/
theorem encode_length (i : Instr) : (encode i).length = i.parcels := by cases i <;> rfl

/-- An instruction has two parcels if its code is a 2-parcel code. -/
theorem decodeParcel_parcels (p q : Parcel) : (decodeParcel p q).parcels = if isTwoParcel p then 2 else 1 := by
  rw [← encode_length, encode_decodeParcel, fieldsRead_length]

/-- Settles O5: the instruction's encoding is `fieldsRead`. -/
theorem everyParcelIsAnInstruction : Obligations.EveryParcelIsAnInstruction := by
  intro p q rest
  have hread : p &&& Parcel.careMask p &&& Parcel.careMask p = p &&& Parcel.careMask p := by
    rw [BitVec.and_assoc, BitVec.and_self]
  cases htwo : isTwoParcel p with
  | true =>
    have hlen : (decodeParcel p q).parcels = 2 := by rw [decodeParcel_parcels, htwo, if_pos rfl]
    refine ⟨decodeParcel p q, _, ?_, hread, .inr ⟨hlen, ?_⟩, iff_of_true hlen ((isTwoParcel_iff p).mp htwo)⟩
    · rw [decode_twoParcel htwo, hlen]
      rfl
    · rw [encode_decodeParcel, fieldsRead, htwo, if_pos rfl]
  | false =>
    have hlen : (decodeParcel p 0).parcels = 1 := by rw [decodeParcel_parcels, htwo, if_neg (by simp)]
    refine ⟨decodeParcel p 0, _, ?_, hread, .inl ⟨hlen, ?_⟩, iff_of_false (by rw [hlen]; decide) fun c => ?_⟩
    · rw [decode_oneParcel htwo, hlen]
      rfl
    · rw [encode_decodeParcel, fieldsRead, htwo, if_neg (by simp)]
    · exact absurd ((isTwoParcel_iff p).mpr c) (by simp [htwo])

end Sys2Proof
end

section
/-! A step of the processor runs the instruction that it fetches (30_encoding.md R117, R118; 10_state.md R51 to R53). -/

namespace Sys2Proof.Machine

/-- A word has four parcels, the last of them in its low bits. -/
theorem parcelsOf_wordOf_drop_three (p0 p1 p2 p3 : Parcel) : (parcelsOf (wordOf p0 p1 p2 p3)).drop 3 = [p3] :=
  congrArg (· :: []) BitVec.extractLsb'_append_eq_right

theorem fetch_inside_word {s : State} (hpp : s.pp.val ≠ 0) : fetch s = issue s := if_neg fun h => hpp (by rw [h]; rfl)

/-- The fetch at parcel 0 of a word that exists, inside the field if PRF is set. -/
theorem fetch_at_word {s : State} (hpp : s.pp.val = 0) (hlimit : s.xpw.prf = true → s.p.toNat < 256 * s.xpw.fl.toNat)
    (hword : s.progAddr s.p < Config.memWords) : fetch s = issue s.enterCiw := by
  have hlimit : ¬ (s.xpw.prf && s.p.toNat ≥ s.fieldLength) = true := by
    simpa [State.fieldLength_eq] using hlimit
  rw [fetch, if_pos (Fin.ext hpp), if_neg hlimit, if_pos hword]

theorem issue_of_decode {s : State} {i : Instr} {rest : List Parcel}
    (h : decode ((parcelsOf s.ciw).drop s.pp.val) = .ok (i, rest)) : issue s = .run i s := by
  rw [issue, h]

theorem issue_of_error {s : State} {e : DecodeError}
    (h : decode ((parcelsOf s.ciw).drop s.pp.val) = .error e) : issue s = .done (.refused .twoParcelInFourthParcel) := by
  rw [issue, h]

theorem cpuStep_of_run {s u : State} {i : Instr} (hx : s.exchanging = none) (hf : fetch s = .run i u) :
    cpuStep s = exec i (u.await (namedRegisters i)) := by
  rw [cpuStep, hx, if_neg (by simp), hf]

/-- Asynchronous conditions wait for parcel 0. -/
theorem State.interruptPending_inside_word {s : State} (hpp : s.pp.val ≠ 0) : s.interruptPending = false := by
  have : ¬ s.pp = 0 := fun h => hpp (by rw [h]; rfl)
  simp [State.interruptPending, State.interruptible, this]

/-- Settles O6: the parcels that are left are the 2-parcel code alone. -/
theorem twoParcelInFourthParcelRefused : Obligations.TwoParcelInFourthParcelRefused := by
  intro s p0 p1 p2 p3 hs hx hpp hciw hcode
  have hne : s.pp.val ≠ 0 := by omega
  have hdecode : decode ((parcelsOf s.performAll.ciw).drop s.performAll.pp.val) = .error .secondParcelMissing := by
    rw [State.performAll_ciw, State.performAll_pp, hpp, hciw, parcelsOf_wordOf_drop_three]
    exact decode_second_missing ((isTwoParcel_iff p3).mpr hcode)
  have hfetch : fetch s.performAll = .done (.refused .twoParcelInFourthParcel) := by
    rw [fetch_inside_word (by simpa using hne), issue_of_error hdecode]
  rw [step_of_exhausted hs (State.interruptPending_inside_word hne), cpuStep_of_done (by simp [hx]) hfetch]

/-! The processor's turn begins in a state that agrees with the step's on what fetching looks at. -/

/-- `u` is the state in which the processor's turn from `s` fetches: the schedule names the turn, or is exhausted and every waiting
reference has reached memory. -/
def TurnBegins (s u : State) : Prop :=
  (s.script = [] ∧ s.interruptPending = false ∧ u = s.performAll) ∨ (∃ ts, s.script = .execute :: ts ∧ u = { s with script := ts })

theorem TurnBegins.step_eq {s u : State} (h : TurnBegins s u) : step s = cpuStep u := by
  obtain ⟨hs, hi, rfl⟩ | ⟨ts, hs, rfl⟩ := h
  · exact step_of_exhausted hs hi
  · exact step_of_execute hs

/-- What fetching looks at is as it was before the turn. -/
structure SameFetch (s u : State) : Prop where
  p : u.p = s.p
  pp : u.pp = s.pp
  xpw : u.xpw = s.xpw
  ciw : u.ciw = s.ciw
  iws : u.iws = s.iws
  exchanging : u.exchanging = s.exchanging
  view : ∀ a, u.view a = s.view a

theorem TurnBegins.sameFetch {s u : State} (h : TurnBegins s u) : SameFetch s u := by
  obtain ⟨-, -, rfl⟩ | ⟨ts, -, rfl⟩ := h
  · constructor <;> simp
  · constructor <;> intros <;> rfl

theorem SameFetch.progAddr {s u : State} (h : SameFetch s u) (a : Addr) : u.progAddr a = s.progAddr a := by
  simp only [State.progAddr, State.relocate, h.xpw]

/-- The word at an address of which the IAS holds nothing that has been read comes from memory. -/
theorem State.instructionWord_of_unread {s : State} {a : Addr} (h : ∀ e ∈ s.iws, e.addr = a → e.word = none) :
    s.instructionWord a = s.view (s.progAddr a) := by
  unfold State.instructionWord
  split
  · rename_i b w hf
    have hnone := h _ (List.mem_of_find?_eq_some hf) (by simpa using List.find?_some hf)
    cases hnone
  · rfl

/-- What the stack holds after execution has arrived at P was there, or is the word at P, or is a fetch of one of the next two words. -/
theorem State.mem_enterCiw {s : State} {e : StackEntry} (h : e ∈ s.enterCiw.iws) :
    e ∈ s.iws ∨ e = ⟨s.p, some (s.instructionWord s.p)⟩ ∨ e = ⟨s.p + 1, none⟩ ∨ e = ⟨s.p + 2, none⟩ := by
  rw [State.enterCiw_iws] at h
  rcases mem_enterStack h with h | rfl
  · rcases mem_enterStack h with h | rfl
    · rcases mem_enterStack h with h | rfl
      · obtain ⟨d, hd, rfl⟩ := List.mem_map.mp h
        split
        · rename_i hp
          exact .inr (.inl (by rw [hp]))
        · exact .inl hd
      · exact .inr (.inl rfl)
    · exact .inr (.inr (.inl rfl))
  · exact .inr (.inr (.inr rfl))

theorem enterStack_of_absent {l : List StackEntry} {e : StackEntry} (h : ∀ d ∈ l, d.addr ≠ e.addr) :
    enterStack l e = e :: l.take 11 := by
  rcases enterStack_cases l e with ⟨⟨d, hd, c⟩, -⟩ | ⟨-, q⟩
  · exact absurd c (h d hd)
  · exact q

/-- When the stack holds none of the three addresses, all three enter in front. -/
theorem State.enterCiw_of_absent {s : State} (h : ∀ e ∈ s.iws, e.addr ≠ s.p ∧ e.addr ≠ s.p + 1 ∧ e.addr ≠ s.p + 2) :
    s.enterCiw.iws = ⟨s.p + 2, none⟩ :: ⟨s.p + 1, none⟩ :: ⟨s.p, some (s.instructionWord s.p)⟩ :: s.iws.take 9 := by
  rw [State.enterCiw_iws]
  generalize s.instructionWord s.p = w
  have absent : ∀ e ∈ s.iws, e.addr ≠ s.p := fun e he => (h e he).1
  have absent_next : ∀ {n}, ∀ e ∈ s.iws.take n, e.addr ≠ s.p + 1 := fun e he => (h e (List.mem_of_mem_take he)).2.1
  have absent_second : ∀ {n}, ∀ e ∈ s.iws.take n, e.addr ≠ s.p + 2 := fun e he => (h e (List.mem_of_mem_take he)).2.2
  have h01 : s.p ≠ s.p + 1 := by simp
  have h02 : s.p ≠ s.p + 2 := by simp
  have h12 : s.p + 1 ≠ s.p + 2 := by simp
  have hmap : (s.iws.map fun e => if e.addr = s.p then { e with word := some w } else e) = s.iws :=
    (List.map_congr_left (g := id) fun e he => if_neg (absent e he)).trans (List.map_id _)
  have first : enterStack s.iws ⟨s.p, some w⟩ = ⟨s.p, some w⟩ :: s.iws.take 11 := enterStack_of_absent absent
  have second : enterStack (⟨s.p, some w⟩ :: s.iws.take 11) ⟨s.p + 1, none⟩ =
      ⟨s.p + 1, none⟩ :: ⟨s.p, some w⟩ :: s.iws.take 10 := by
    rw [enterStack_of_absent (List.forall_mem_cons.mpr ⟨h01, absent_next⟩)]
    simp [List.take_take]
  have third : enterStack (⟨s.p + 1, none⟩ :: ⟨s.p, some w⟩ :: s.iws.take 10) ⟨s.p + 2, none⟩ =
      ⟨s.p + 2, none⟩ :: ⟨s.p + 1, none⟩ :: ⟨s.p, some w⟩ :: s.iws.take 9 := by
    rw [enterStack_of_absent (List.forall_mem_cons.mpr ⟨h12, List.forall_mem_cons.mpr ⟨h02, absent_second⟩⟩)]
    simp [List.take_take]
  rw [hmap, first, second, third]

/-- Settles O3: the turn begins in a state in which fetching finds what it would have found before (`SameFetch`). -/
theorem stepRunsInstruction : Obligations.StepRunsInstruction := by
  intro s u i rest hx hturn
  have hturn : TurnBegins s u := hturn
  have hsame := hturn.sameFetch
  have hux : u.exchanging = none := hsame.exchanging.trans hx
  refine ⟨fun a w hpp ha hlimit hword hw hdecode => ?_, fun hpp hdecode => ?_⟩
  · have haddr : s.progAddr s.p = a := by
      rw [ha, State.progAddr, State.relocate_eq]
    have hw : u.instructionWord u.p = w := by
      rcases hw with ⟨e, he, hp, hread, hu⟩ | ⟨hunread, rfl⟩
      · rw [State.instructionWord_of_held (hsame.iws ▸ he) (hp.trans hsame.p.symm) (by rwa [hsame.iws, hsame.p]), hread]
        rfl
      · rw [State.instructionWord_of_unread (by rwa [hsame.iws, hsame.p]), hsame.view, hsame.progAddr, hsame.p, haddr]
    have hfetch : fetch u = issue u.enterCiw :=
      fetch_at_word (by rw [hsame.pp, hpp]) (by rwa [hsame.xpw, hsame.p]) (by rwa [hsame.progAddr, hsame.p, haddr])
    have hissue : issue u.enterCiw = .run i u.enterCiw := by
      have hciw : u.enterCiw.ciw = w := hw
      have hfirst : u.enterCiw.pp.val = 0 := (congrArg Fin.val hsame.pp).trans hpp
      exact issue_of_decode (by rwa [hciw, hfirst])
    refine ⟨u.enterCiw.iws, ?_, ?_, ?_, ?_, ?_⟩
    · rw [hturn.step_eq, cpuStep_of_run hux (hfetch.trans hissue), ← hw]
      rfl
    · exact fun h => u.enterCiw_length (by rwa [hsame.iws])
    · rw [State.enterCiw_iws, ← hsame.p]
      exact enterStack_holds ..
    · rw [← hsame.iws, ← hsame.p, ← hw]
      exact fun e => State.mem_enterCiw
    · rw [← hsame.iws, ← hsame.p, ← hw]
      exact State.enterCiw_of_absent
  · have hissue : issue u = .run i u := issue_of_decode (by rwa [hsame.ciw, hsame.pp])
    rw [hturn.step_eq, cpuStep_of_run hux ((fetch_inside_word (by rwa [hsame.pp])).trans hissue)]

end Sys2Proof.Machine
end

section
/-! Integers as numbers: ones' complement words, the adder, shifts, masks and counts (40_arithmetic.md R150 to R159, R177). -/

namespace Sys2Proof.Machine

/-! The integer a word stands for, and its magnitude (R150). -/

theorem msb_eq_decide_toNat (v : Word) : v.msb = decide (2 ^ 63 ≤ v.toNat) := BitVec.msb_eq_decide v

theorem toNat_not_word (v : Word) : (~~~v).toNat = 2 ^ 64 - 1 - v.toNat := BitVec.toNat_not

theorem val1c_eq (v : Word) : val1c v = if v.toNat < 2 ^ 63 then (v.toNat : Int) else (v.toNat : Int) - (2 ^ 64 - 1) := by
  have hlt := v.isLt
  simp only [val1c, msb_eq_decide_toNat, toNat_not_word, decide_eq_true_eq]
  split <;> split <;> omega

/-- A word stands for its number as an unsigned word, modulo 2^64 - 1. -/
theorem val1c_emod (v : Word) : val1c v % (2 ^ 64 - 1) = (v.toNat : Int) % (2 ^ 64 - 1) := by
  rw [val1c_eq]; split <;> omega

theorem val1c_range (v : Word) : -(2 ^ 63 - 1) ≤ val1c v ∧ val1c v ≤ 2 ^ 63 - 1 := by
  have hlt := v.isLt
  rw [val1c_eq]; split <;> omega

theorem magnitude_eq (v : Word) : magnitude v = if v.msb then 2 ^ 64 - 1 - v.toNat else v.toNat := by
  rw [magnitude, toNat_not_word]

theorem val1c_eq_magnitude (v : Word) : val1c v = if v.msb then -(magnitude v : Int) else magnitude v := by
  rw [val1c, magnitude]; split <;> rfl

@[simp] theorem natAbs_val1c (v : Word) : (val1c v).natAbs = magnitude v := by
  rw [val1c_eq_magnitude]; split <;> simp

theorem msb_not_word (v : Word) : (~~~v).msb = !v.msb := by simp

@[simp] theorem val1c_not (v : Word) : val1c (~~~v) = -val1c v := by
  rw [val1c, val1c, BitVec.not_not, msb_not_word]
  cases v.msb <;> simp

@[simp] theorem magnitude_not (v : Word) : magnitude (~~~v) = magnitude v := by
  rw [← natAbs_val1c, val1c_not, Int.natAbs_neg, natAbs_val1c]

/-! The adder adds modulo 2^64 - 1 (R151, R152). -/

theorem add1c_toNat (a b : Word) : (add1c a b).toNat = (a.toNat + b.toNat) % (2 ^ 64 - 1) := by
  have ha := a.isLt
  have hb := b.isLt
  simp only [add1c, BitVec.toNat_ofNat]
  split <;> split <;> omega

theorem add1c_comm (a b : Word) : add1c a b = add1c b a :=
  BitVec.eq_of_toNat_eq (by rw [add1c_toNat, add1c_toNat, Nat.add_comm])

theorem add1c_ne_minus_zero (a b : Word) : add1c a b ≠ BitVec.allOnes 64 := by
  intro h
  have hsum := congrArg BitVec.toNat h
  rw [add1c_toNat, BitVec.toNat_allOnes] at hsum
  omega

/-- A minus zero operand behaves as plus zero. -/
theorem minus_zero_add1c (b : Word) : add1c (BitVec.allOnes 64) b = add1c 0 b :=
  BitVec.eq_of_toNat_eq (by rw [add1c_toNat, add1c_toNat]; simp)

/-- Two integers in range that agree modulo 2^64 - 1 are equal, so the sum is right where it is in range. -/
theorem val1c_add1c {a b : Word} (hlow : -(2 ^ 63 - 1) ≤ val1c a + val1c b) (hhigh : val1c a + val1c b ≤ 2 ^ 63 - 1) :
    val1c (add1c a b) = val1c a + val1c b := by
  have hsum := add1c_toNat a b
  have hmod := val1c_emod (add1c a b)
  have hrange := val1c_range (add1c a b)
  have hmodA := val1c_emod a
  have hmodB := val1c_emod b
  omega

/-- Settles O13: the adder's clauses by its sum modulo 2^64 - 1. -/
theorem onesComplementSum : Obligations.OnesComplementSum := by
  intro a b
  have ha := a.isLt
  have hb := b.isLt
  refine ⟨?_, add1c_ne_minus_zero a b, add1c_comm a b, fun h => ?_, by decide, fun ⟨hlow, hhigh⟩ => val1c_add1c hlow hhigh,
    by decide⟩
  · rw [add1c_toNat]
    simp only
    split <;> split <;> omega
  · rw [minus_zero_add1c, zero_add1c h]

theorem sub1c_self (a : Word) : sub1c a a = 0 := by
  have ha := a.isLt
  apply BitVec.eq_of_toNat_eq
  have hsum : a.toNat + (2 ^ 64 - 1 - a.toNat) = 2 ^ 64 - 1 := by omega
  rw [sub1c, add1c_toNat, toNat_not_word, hsum, Nat.mod_self]
  rfl

theorem val1c_sub1c {a b : Word} (hlow : -(2 ^ 63 - 1) ≤ val1c a - val1c b) (hhigh : val1c a - val1c b ≤ 2 ^ 63 - 1) :
    val1c (sub1c a b) = val1c a - val1c b := by
  have hdiff : val1c a - val1c b = val1c a + val1c (~~~b) := by rw [val1c_not, Int.sub_eq_add_neg]
  rw [hdiff] at hlow hhigh ⊢
  exact val1c_add1c hlow hhigh

/-- Settles O14: a difference is the sum with the complement, whose integer is the negative. -/
theorem onesComplementDifference : Obligations.OnesComplementDifference := fun a _ =>
  ⟨rfl, sub1c_self a, by decide, fun ⟨hlow, hhigh⟩ => val1c_sub1c hlow hhigh⟩

/-! Shifts (R155, R156). -/

theorem getLsbD_rotl64 (v : Word) {n b : Nat} (hn : n < 64) (hb : b < 64) :
    (rotl64 v n).getLsbD ((b + n) % 64) = v.getLsbD b := by
  rw [rotl64, BitVec.getLsbD_rotateLeft, Nat.mod_eq_of_lt hn]
  rcases Nat.lt_or_ge (b + n) 64 with hinside | haround
  · simp [Nat.mod_eq_of_lt hinside, hinside]
  · have hpos : (b + n) % 64 = b + n - 64 := by omega
    have hlow : b + n - 64 < n := by omega
    have hbit : 64 - n + (b + n - 64) = b := by omega
    simp [hpos, hlow, hbit]

theorem getLsbD_sar64 (v : Word) {n b : Nat} (hb : b < 64) :
    (sar64 v n).getLsbD b = if b + n ≤ 63 then v.getLsbD (b + n) else v.getLsbD 63 := by
  rw [sar64, BitVec.getLsbD_sshiftRight, BitVec.msb_eq_getLsbD_last, decide_eq_false (Nat.not_le.mpr hb), Bool.not_false,
    Bool.true_and, Nat.add_comm n b]
  exact if_congr Nat.lt_succ_iff rfl rfl

theorem sar64_of_nonneg {v : Word} (h : v.msb = false) (n : Nat) : sar64 v n = v >>> n :=
  BitVec.sshiftRight_eq_of_msb_false h

/-- A negative number is shifted as its complement is. -/
theorem sar64_of_neg {v : Word} (h : v.msb = true) (n : Nat) : sar64 v n = ~~~sar64 (~~~v) n := by
  rw [sar64_of_nonneg (by simp [h] : (~~~v).msb = false), sar64, BitVec.sshiftRight_eq_of_msb_true h]

theorem val1c_of_nonneg {v : Word} (h : v.msb = false) : val1c v = v.toNat := by simp [val1c, h]

theorem val1c_sar64_of_nonneg {v : Word} (h : v.msb = false) (n : Nat) : val1c (sar64 v n) = (val1c v).tdiv (2 ^ n) := by
  have hsign : (sar64 v n).msb = false := BitVec.msb_sshiftRight.trans h
  rw [val1c_of_nonneg hsign, val1c_of_nonneg h, sar64_of_nonneg h, BitVec.toNat_ushiftRight, Nat.shiftRight_eq_div_pow]
  norm_cast

theorem val1c_sar64 (v : Word) (n : Nat) : val1c (sar64 v n) = (val1c v).tdiv (2 ^ n) := by
  cases h : v.msb with
  | false => exact val1c_sar64_of_nonneg h n
  | true =>
    have hcompl : (~~~v).msb = false := by simp [h]
    rw [sar64_of_neg h, val1c_not, val1c_sar64_of_nonneg hcompl, val1c_not, Int.neg_tdiv, Int.neg_neg]

theorem rotl64_zero (v : Word) : rotl64 v 0 = v := by
  apply BitVec.eq_of_getLsbD_eq
  intro b hb
  simpa [Nat.mod_eq_of_lt hb] using getLsbD_rotl64 v (n := 0) (by decide) hb

/-- Settles O15. -/
theorem shiftFunctions : Obligations.ShiftFunctions := fun v n hn =>
  ⟨fun _ hb => getLsbD_rotl64 v (Nat.lt_succ_of_le hn) hb, fun _ hb => getLsbD_sar64 v hb, val1c_sar64 v n,
    rotl64_zero v, BitVec.sshiftRight_zero⟩

/-! Masks and counts (R158, R159). -/

/-- The numbers of the one bits of a word. -/
def oneBits (v : Word) : Finset Nat := (Finset.range 64).filter fun b => v.getLsbD b

theorem mem_oneBits {v : Word} {b : Nat} : b ∈ oneBits v ↔ b < 64 ∧ v.getLsbD b = true := by
  simp [oneBits]

theorem popcount_eq_card (v : Word) : popcount v = (oneBits v).card := by
  rw [popcount, List.countP_eq_length_filter, oneBits, Finset.card_def, Finset.filter_val, Finset.range_val, Multiset.range,
    Multiset.filter_coe, Multiset.coe_card]
  simp only [Bool.decide_eq_true]

theorem oneBits_subset (v : Word) : oneBits v ⊆ Finset.range 64 := Finset.filter_subset ..

theorem oneBits_not (v : Word) : oneBits (~~~v) = Finset.range 64 \ oneBits v := by
  ext b
  simp only [mem_oneBits, Finset.mem_sdiff, Finset.mem_range, BitVec.getLsbD_not]
  grind

theorem oneBits_inj {v w : Word} : oneBits v = oneBits w ↔ v = w := by
  refine ⟨fun h => BitVec.eq_of_getLsbD_eq fun b hb => ?_, congrArg _⟩
  have := Finset.ext_iff.mp h b
  simp only [mem_oneBits, hb, true_and] at this
  exact Bool.eq_iff_iff.mpr this

theorem popcount_add_popcount_not (v : Word) : popcount v + popcount (~~~v) = 64 := by
  rw [popcount_eq_card, popcount_eq_card, oneBits_not, Finset.card_sdiff_of_subset (oneBits_subset v), Finset.card_range]
  have := Finset.card_le_card (oneBits_subset v)
  rw [Finset.card_range] at this
  omega

theorem popcount_eq_zero_iff {v : Word} : popcount v = 0 ↔ v = 0 := by
  have hzero : oneBits 0 = ∅ := by ext b; simp [mem_oneBits]
  rw [popcount_eq_card, Finset.card_eq_zero, ← hzero, oneBits_inj]

theorem popcount_eq_64_iff {v : Word} : popcount v = 64 ↔ v = BitVec.allOnes 64 := by
  have hsum := popcount_add_popcount_not v
  have hnot : ~~~v = 0 ↔ v = BitVec.allOnes 64 := BitVec.not_eq_comm
  rw [← hnot, ← popcount_eq_zero_iff]
  omega

theorem oneBits_set (v : Word) {b : Nat} (hb : b < 64) : oneBits (v ||| BitVec.twoPow 64 b) = insert b (oneBits v) := by
  ext c
  simp only [mem_oneBits, Finset.mem_insert, BitVec.getLsbD_or, BitVec.getLsbD_twoPow]
  grind

theorem popcount_set {v : Word} {b : Nat} (hb : b < 64) (hclear : v.getLsbD b = false) :
    popcount (v ||| BitVec.twoPow 64 b) = popcount v + 1 := by
  rw [popcount_eq_card, popcount_eq_card, oneBits_set v hb, Finset.card_insert_of_notMem (by simp [mem_oneBits, hclear])]

theorem getLsbD_maskLow {n b : Nat} (hb : b < 64) : (maskLow n).getLsbD b = decide (b < n) := by
  rw [maskLow, BitVec.getLsbD_ofNat, Nat.testBit_two_pow_sub_one]
  simp [hb]

theorem maskLow_toNat {n : Nat} (hn : n < 64) : (maskLow n).toNat = 2 ^ n - 1 := by
  have := Nat.pow_lt_pow_right (a := 2) (by decide) hn
  rw [maskLow, BitVec.toNat_ofNat, Nat.mod_eq_of_lt (by omega)]

/-- Settles O16: the counts as numbers of elements of `oneBits`. -/
theorem masksAndCounts : Obligations.MasksAndCounts :=
  ⟨fun _ hn => ⟨fun _ hb => getLsbD_maskLow hb, maskLow_toNat (Nat.lt_succ_of_le hn)⟩,
    fun v => ⟨Nat.le.intro (popcount_add_popcount_not v), popcount_add_popcount_not v, popcount_eq_zero_iff, popcount_eq_64_iff⟩,
    fun _ _ hb hclear => popcount_set hb hclear⟩

/-! The integer product (R177). -/

theorem val1c_ofNat {m : Nat} (h : m < 2 ^ 63) : val1c (BitVec.ofNat 64 m) = m := by
  have hm : (BitVec.ofNat 64 m).toNat = m := Nat.mod_eq_of_lt (by omega)
  rw [val1c_eq, hm, if_pos h]

section
variable {a b : Word} (ha : magnitude a < 2 ^ 48) (hb : magnitude b < 2 ^ 48) (free : Word) (bit : Bool)
include ha hb

theorem imul_of_msb_eq (h : a.msb = b.msb) : imul a b free bit = BitVec.ofNat 64 (magnitude a * magnitude b) := by
  simp only [imul, ha, hb, h, and_self, if_true]

theorem imul_of_msb_ne (h : a.msb ≠ b.msb) (hm : magnitude a * magnitude b ≠ 0) :
    imul a b free bit = ~~~(BitVec.ofNat 64 (magnitude a * magnitude b)) := by
  simp only [imul, ha, hb, h, hm, and_self, if_true, if_false]

theorem imul_of_zero (h : a.msb ≠ b.msb) (hm : magnitude a * magnitude b = 0) :
    imul a b free bit = 0 ∨ imul a b free bit = BitVec.allOnes 64 := by
  simp only [imul, ha, hb, h, hm, and_self, if_true, if_false]
  cases bit
  · exact .inr rfl
  · exact .inl rfl

theorem val1c_imul (hm : magnitude a * magnitude b < 2 ^ 63) : val1c (imul a b free bit) = val1c a * val1c b := by
  have hval := val1c_ofNat hm
  rw [val1c_eq_magnitude a, val1c_eq_magnitude b]
  by_cases hsign : a.msb = b.msb
  · rw [imul_of_msb_eq ha hb free bit hsign, hval, hsign]
    cases b.msb <;> simp
  · have hprod : (if a.msb then -(magnitude a : Int) else magnitude a) * (if b.msb then -(magnitude b : Int) else magnitude b) =
        -((magnitude a * magnitude b : Nat) : Int) := by
      cases ha' : a.msb <;> cases hb' : b.msb <;> simp_all
    rw [hprod]
    by_cases hzero : magnitude a * magnitude b = 0
    · rw [hzero]
      rcases imul_of_zero ha hb free bit hsign hzero with hr | hr <;> rw [hr] <;> decide
    · rw [imul_of_msb_ne ha hb free bit hsign hzero, val1c_not, hval]

end

/-- Settles O30: the product as `imul` gives it, case by case of the signs. -/
theorem integerProductResult : Obligations.IntegerProductResult := by
  intro j k s
  refine ⟨_, _, rfl, delivered_setX (.drawn s) j _ 1, fun ha hb => ?_⟩
  simp only [natAbs_val1c] at *
  exact ⟨imul_of_msb_eq ha hb _ _, imul_of_msb_ne ha hb _ _, imul_of_zero ha hb _ _, val1c_imul ha hb _ _⟩

end Sys2Proof.Machine
end

section
/-! The floating-point format in numbers: the fields of a word as quotient and remainder of its magnitude, what packing and delivering
make of a result, and the register tests (40_arithmetic.md R154, R161 to R171). -/

namespace Sys2Proof.Machine

/-! The exponent field is the exponent biased by 0x2000, or by 0x1FFF below zero (R161). -/

/-- Complementing the highest bit of a 14-bit field adds or takes away 0x2000. -/
theorem toNat_xor_highest (f : BitVec 14) :
    (f ^^^ 0x2000#14).toNat = if f.toNat < 2 ^ 13 then f.toNat + 2 ^ 13 else f.toNat - 2 ^ 13 := by
  have hlt := f.isLt
  have hquot : (f.toNat ^^^ 2 ^ 13) / 2 ^ 13 = f.toNat / 2 ^ 13 ^^^ 1 := by rw [Nat.xor_div_two_pow]; rfl
  have hrem : (f.toNat ^^^ 2 ^ 13) % 2 ^ 13 = f.toNat % 2 ^ 13 := by rw [Nat.xor_mod_two_pow]; simp
  rw [BitVec.toNat_xor]
  change f.toNat ^^^ 2 ^ 13 = _
  split
  · have hzero : f.toNat / 2 ^ 13 = 0 := by omega
    rw [hzero, Nat.zero_xor] at hquot; omega
  · have hone : f.toNat / 2 ^ 13 = 1 := by omega
    rw [hone, Nat.xor_self] at hquot; omega

theorem exponentOf_eq (f : BitVec 14) :
    exponentOf f = if f.toNat < 2 ^ 13 then (f.toNat : Int) - (2 ^ 13 - 1) else (f.toNat : Int) - 2 ^ 13 := by
  have hlt := f.isLt
  have hxor := toNat_xor_highest f
  simp only [exponentOf, BitVec.msb_eq_decide, BitVec.toNat_not, decide_eq_true_eq, hxor]
  split <;> split <;> omega

theorem toNat_exponentField {e : Int} (hlow : -8191 ≤ e) (hhigh : e ≤ 8191) :
    ((exponentField e).toNat : Int) = if 0 ≤ e then e + 2 ^ 13 else e + (2 ^ 13 - 1) := by
  rw [exponentField]
  split <;> rw [BitVec.toNat_ofInt] <;> omega

theorem exponentOf_exponentField {e : Int} (hlow : -8191 ≤ e) (hhigh : e ≤ 8191) : exponentOf (exponentField e) = e := by
  have hfield := toNat_exponentField hlow hhigh
  rw [exponentOf_eq]
  split at hfield <;> split <;> omega

/-! Unpacking in terms of the magnitude of the word (R163, R164, R167). -/

@[simp] theorem fpUnpack_neg (w : Word) : (fpUnpack w).neg = w.msb := rfl

theorem toNat_magnitudeForm (w : Word) : (if w.msb then ~~~w else w).toNat = magnitude w := by
  rw [magnitude]; split <;> rfl

theorem fpUnpack_coef (w : Word) : (fpUnpack w).coef = magnitude w % 2 ^ 48 := by
  rw [← toNat_magnitudeForm]
  exact BitVec.extractLsb'_toNat ..

theorem fpUnpack_coef_lt (w : Word) : (fpUnpack w).coef < 2 ^ 48 := by
  rw [fpUnpack_coef]; exact Nat.mod_lt _ (by decide)

theorem fpUnpack_exp (w : Word) : (fpUnpack w).exp = exponentOf (BitVec.ofNat 14 (magnitude w / 2 ^ 48)) := by
  rw [← toNat_magnitudeForm, ← Nat.shiftRight_eq_div_pow]
  rfl

theorem getLsbD_word (w : Word) (i : Nat) : w.getLsbD i = decide (w.toNat / 2 ^ i % 2 = 1) :=
  Nat.testBit_eq_decide_div_mod_eq

theorem oor_eq_false_iff {w : Word} : oor w = false ↔ magnitude w < 2 ^ 62 := by
  have hlt := w.isLt
  rw [oor, getLsbD_word, getLsbD_word, magnitude_eq, msb_eq_decide_toNat, bne_eq_false_iff_eq, decide_eq_decide]
  simp only [decide_eq_true_eq]
  split <;> omega

theorem normalized_iff {w : Word} : normalized w = true ↔ 2 ^ 47 ≤ (fpUnpack w).coef := by
  have hlt := w.isLt
  rw [normalized, getLsbD_word, getLsbD_word, fpUnpack_coef, magnitude_eq, msb_eq_decide_toNat, bne_iff_ne, ne_eq, decide_eq_decide]
  simp only [decide_eq_true_eq]
  split <;> omega

/-! Packing (R169). -/

theorem fpPack_not (neg : Bool) (c : Nat) (e : Int) : fpPack (!neg) c e = ~~~fpPack neg c e := by
  cases neg <;> simp [fpPack]

theorem toNat_fpPack_pos {c : Nat} (hc : c < 2 ^ 48) (e : Int) :
    (fpPack false c e).toNat = (exponentField e).toNat * 2 ^ 48 + c := by
  simp only [fpPack, Bool.false_eq_true, if_false, BitVec.toNat_append, BitVec.toNat_ofNat, Nat.mod_eq_of_lt hc]
  rw [← Nat.shiftLeft_add_eq_or_of_lt hc, Nat.shiftLeft_eq]
  simp

theorem toNat_fpPack_pos_lt {c : Nat} (hc : c < 2 ^ 48) (e : Int) : (fpPack false c e).toNat < 2 ^ 62 := by
  have hfield := (exponentField e).isLt
  rw [toNat_fpPack_pos hc]
  omega

theorem msb_fpPack (neg : Bool) {c : Nat} (hc : c < 2 ^ 48) (e : Int) : (fpPack neg c e).msb = neg := by
  have hpos : (fpPack false c e).msb = false := by
    have := toNat_fpPack_pos_lt hc e
    rw [msb_eq_decide_toNat, decide_eq_false]; omega
  cases neg with
  | false => exact hpos
  | true => rw [← Bool.not_false, fpPack_not, msb_not_word, hpos]

theorem magnitude_fpPack (neg : Bool) {c : Nat} (hc : c < 2 ^ 48) (e : Int) :
    magnitude (fpPack neg c e) = (exponentField e).toNat * 2 ^ 48 + c := by
  have hpos : magnitude (fpPack false c e) = (exponentField e).toNat * 2 ^ 48 + c := by
    rw [magnitude, msb_fpPack false hc]; exact toNat_fpPack_pos hc e
  cases neg with
  | false => exact hpos
  | true => rw [← Bool.not_false, fpPack_not, magnitude_not, hpos]

theorem oor_fpPack (neg : Bool) {c : Nat} (hc : c < 2 ^ 48) (e : Int) : oor (fpPack neg c e) = false := by
  rw [oor_eq_false_iff, magnitude_fpPack neg hc, ← toNat_fpPack_pos hc]
  exact toNat_fpPack_pos_lt hc e

theorem fpUnpack_fpPack (neg : Bool) {c : Nat} {e : Int} (hc : c < 2 ^ 48) (hlow : -8191 ≤ e) (hhigh : e ≤ 8191) :
    fpUnpack (fpPack neg c e) = ⟨neg, c, e⟩ := by
  have hquot : ((exponentField e).toNat * 2 ^ 48 + c) / 2 ^ 48 = (exponentField e).toNat := by omega
  have hcoef : (fpUnpack (fpPack neg c e)).coef = c := by
    rw [fpUnpack_coef, magnitude_fpPack neg hc]; omega
  have hexp : (fpUnpack (fpPack neg c e)).exp = e := by
    rw [fpUnpack_exp, magnitude_fpPack neg hc, hquot, BitVec.ofNat_toNat, BitVec.setWidth_eq, exponentOf_exponentField hlow hhigh]
  exact (FpNum.mk.injEq ..).mpr ⟨msb_fpPack neg hc e, hcoef, hexp⟩

/-- Settles O17. -/
theorem floatingFormat : Obligations.FloatingFormat := fun neg c e hc hlow hhigh =>
  ⟨fpUnpack_fpPack neg hc hlow hhigh, fpPack_not neg c e, oor_fpPack neg hc e⟩

/-! Delivering a result (R171). -/

theorem fpDeliver_overflow (neg : Bool) (c : Nat) {e : Int} (free : Word) (h : 8191 < e) :
    fpDeliver neg c e free = overflowWord neg free := if_pos h

theorem fpDeliver_underflow (neg : Bool) (c : Nat) {e : Int} (free : Word) (h : e < -8191) : fpDeliver neg c e free = 0 := by
  rw [fpDeliver, if_neg (by omega), if_pos h]

theorem fpDeliver_inRange (neg : Bool) (c : Nat) {e : Int} (free : Word) (hlow : -8191 ≤ e) (hhigh : e ≤ 8191) :
    fpDeliver neg c e free = fpPack neg c e := by
  rw [fpDeliver, if_neg (by omega), if_neg (by omega)]

theorem fpUnpack_fpDeliver (neg : Bool) {c : Nat} {e : Int} (free : Word) (hc : c < 2 ^ 48) (hlow : -8191 ≤ e) (hhigh : e ≤ 8191) :
    fpUnpack (fpDeliver neg c e free) = ⟨neg, c, e⟩ := by
  rw [fpDeliver_inRange neg c free hlow hhigh, fpUnpack_fpPack neg hc hlow hhigh]

theorem overflowWord_lead (neg : Bool) (free : Word) :
    (overflowWord neg free).extractLsb' 52 12 = if neg then 0x800#12 else 0x7FF#12 :=
  BitVec.extractLsb'_append_eq_left

theorem oor_eq_lead (w : Word) : oor w = ((w.extractLsb' 52 12).getLsbD 11 != (w.extractLsb' 52 12).getLsbD 10) := by
  simp [oor]

theorem oor_overflowWord (neg : Bool) (free : Word) : oor (overflowWord neg free) = true := by
  rw [oor_eq_lead, overflowWord_lead]
  cases neg <;> rfl

/-- Settles O18. -/
theorem floatingExtremes : Obligations.FloatingExtremes := by
  intro neg c e free
  refine ⟨fun h => ?_, fun h => fpDeliver_underflow neg c free h, fun hlow hhigh hc => fpUnpack_fpDeliver neg free hc hlow hhigh⟩
  rw [fpDeliver_overflow neg c free h]
  exact ⟨overflowWord_lead neg free, oor_overflowWord neg free⟩

/-! The register tests (R154, R164, R165). -/

theorem oor_iff_lead_two (w : Word) : oor w = true ↔ w.extractLsb' 62 2 = 1#2 ∨ w.extractLsb' 62 2 = 2#2 := by
  have hlt := w.isLt
  rw [oor, getLsbD_word, getLsbD_word, bne_iff_ne, ne_eq, decide_eq_decide, ← BitVec.toNat_inj, ← BitVec.toNat_inj,
    BitVec.extractLsb'_toNat, Nat.shiftRight_eq_div_pow]
  simp only [BitVec.toNat_ofNat]
  omega

theorem indefinite_iff (w : Word) : indefinite w = true ↔ w.extractLsb' 52 12 = 0x3FF#12 ∨ w.extractLsb' 52 12 = 0xC00#12 := by
  have hlt := w.isLt
  have hlead : (w.extractLsb' 52 12).toNat = w.toNat >>> 52 := by
    rw [BitVec.extractLsb'_toNat, Nat.shiftRight_eq_div_pow, Nat.mod_eq_of_lt (by omega)]
  rw [← BitVec.toNat_inj, ← BitVec.toNat_inj, hlead]
  rw [indefinite, Bool.or_eq_true, decide_eq_true_eq, decide_eq_true_eq]
  rfl

theorem inRange_eq_false_iff (w : Word) : inRange w = false ↔ oor w = true ∨ indefinite w = true := by
  simp [inRange, Decidable.or_iff_not_imp_left]

/-- Settles O23: each test by the bits of the word that it looks at. -/
theorem registerTests : Obligations.RegisterTests := by
  intro w
  refine ⟨?_, Iff.rfl, ?_, ?_, normalized_iff⟩
  · simp [isZero]
  · rw [inRange_eq_false_iff, oor_iff_lead_two, indefinite_iff, or_assoc]
  · simp [oor]

end Sys2Proof.Machine
end

section
/-! Flagged operands and the quotient (40_arithmetic.md R171, R176). -/

namespace Sys2Proof.Machine

theorem oor_flagged (free : Word) : oor (flagged free) = true := by
  simp only [oor, flagged, BitVec.getLsbD_append]
  cases free.getLsbD 63 <;> rfl

theorem flagged_of_oor {a b : Word} (h : oor a = true ∨ oor b = true) (free : Word) :
    fpAddUpper a b free = flagged free ∧ fpAddLower a b free = flagged free ∧ fpMulUpper a b free = flagged free ∧
      fpMulLower a b free = flagged free ∧ fpQuotient a b free = flagged free := by
  have hor : (oor a || oor b) = true := by simpa using h
  simp [fpAddUpper, fpAddLower, fpMulUpper, fpMulLower, fpQuotient, hor]

theorem fpQuotient_of_not_normalized (a : Word) {b : Word} (h : normalized b = false) (free : Word) :
    fpQuotient a b free = flagged free := by
  simp [fpQuotient, h]

theorem fpQuotient_eq_fpDiv {a b : Word} (ha : oor a = false) (hb : oor b = false) (hn : normalized b = true) (free : Word) :
    fpQuotient a b free = fpDiv a b free := by
  simp [fpQuotient, ha, hb, hn]

/-- At any scale up to the largest one, the truncated quotient fits in the 48 bits of a coefficient. -/
theorem quotient_lt_of_le_largestScale {x y k : Nat} (hx : 0 < x) (hxlt : x < 2 ^ 48) (hy : 0 < y) (hk : k ≤ largestScale x y) :
    x * 2 ^ k / y < 2 ^ 48 := by
  have hfit : (2 ^ 48 * y - 1) / x ≠ 0 := (Nat.div_pos (by omega) hx).ne'
  have hscaled : x * 2 ^ k ≤ 2 ^ 48 * y - 1 := by
    calc x * 2 ^ k ≤ x * ((2 ^ 48 * y - 1) / x) := Nat.mul_le_mul_left x ((Nat.le_log2 hfit).mp hk)
      _ ≤ 2 ^ 48 * y - 1 := Nat.mul_div_le ..
  rw [Nat.div_lt_iff_lt_mul hy]
  omega

theorem log2_lt_48 {q : Nat} (hq : q < 2 ^ 48) : q.log2 < 48 := by
  rcases Nat.eq_zero_or_pos q with rfl | hpos
  · decide
  · exact (Nat.log2_lt hpos.ne').mpr hq

/-- Shifted left so that its highest bit stays below bit 48, a coefficient stays below 2^48. -/
theorem mul_two_pow_lt_of_lt_log2 {q n : Nat} (hn : n < 48 - q.log2) : q * 2 ^ n < 2 ^ 48 := by
  calc q * 2 ^ n < 2 ^ (q.log2 + 1) * 2 ^ n := Nat.mul_lt_mul_of_pos_right Nat.lt_log2_self (Nat.two_pow_pos n)
    _ = 2 ^ (q.log2 + 1 + n) := (Nat.pow_add ..).symm
    _ ≤ 2 ^ 48 := Nat.pow_le_pow_right (by decide) (by omega)

/-- The quotient of a dividend that is not zero: truncated at some scale, then shifted left inside the coefficient. -/
theorem fpDiv_of_coef_ne_zero {a b : Word} (hx : (fpUnpack a).coef ≠ 0) (hn : normalized b = true) :
    ∃ (k n : Nat) (z : Bool),
      (let q := (fpUnpack a).coef * 2 ^ k / (fpUnpack b).coef
       let e : Int := (fpUnpack a).exp - (fpUnpack b).exp - k - n
       q * 2 ^ n < 2 ^ 48 ∧ ∀ free : Word,
        fpDiv a b free = fpDeliver (if q = 0 ∧ e ≤ 8191 then z else a.msb != b.msb) (q * 2 ^ n) e free) := by
  have hdivisor : 0 < (fpUnpack b).coef := Nat.lt_of_lt_of_le (by decide) (normalized_iff.mp hn)
  have hfits : (quotientCoefficient a b).1 < 2 ^ 48 :=
    quotient_lt_of_le_largestScale (Nat.pos_of_ne_zero hx) (fpUnpack_coef_lt a) hdivisor (Nat.le_of_lt_succ (Nat.mod_lt _ (Nat.succ_pos _)))
  have hshift := Nat.mod_lt (Config.fpDivShift a b) (Nat.sub_pos_of_lt (log2_lt_48 hfits))
  exact ⟨(quotientCoefficient a b).2, _, Config.fpDivZeroSign a b, mul_two_pow_lt_of_lt_log2 hshift, fun free => if_neg hx⟩

theorem fpDiv_of_coef_eq_zero {a : Word} (hx : (fpUnpack a).coef = 0) (b free : Word) :
    fpDiv a b free = fpDeliver (Config.fpDivZeroSign a b) 0 (Config.fpDivZeroExponent a b) free := if_pos hx

/-- Settles O19. -/
theorem flaggedOperands : Obligations.FlaggedOperands := by
  intro a b
  refine ⟨fun h free => ?_, fun h free => ?_, fun ha hb hn hx => ?_, fun ha hb hn hx => ?_, fun r hr => ?_⟩
  · obtain ⟨hau, hal, hmu, hml, hq⟩ := flagged_of_oor h free
    simp only [hau, hal, hmu, hml, hq, oor_flagged, and_self]
  · rw [fpQuotient_of_not_normalized a h, oor_flagged]
  · simpa only [fpQuotient_eq_fpDiv ha hb hn] using fpDiv_of_coef_ne_zero hx hn
  · exact ⟨_, _, fun free => (fpQuotient_eq_fpDiv ha hb hn free).trans (fpDiv_of_coef_eq_zero hx b free)⟩
  · exact (inRange_eq_false_iff r).mpr (.inl hr)

end Sys2Proof.Machine
end

section
/-! Normalized numbers compare as their words do (40_arithmetic.md R168). -/

namespace Sys2Proof.Machine

/-- The value of a word without its sign. -/
def fpMagnitude (w : Word) : ℚ := (fpUnpack w).coef * 2 ^ (fpUnpack w).exp

theorem fpValue_eq_fpMagnitude (w : Word) : fpValue w = if w.msb then -fpMagnitude w else fpMagnitude w := by
  rw [fpValue, fpMagnitude, fpUnpack_neg]
  cases w.msb <;> simp

/-- The words that R168 speaks of: flag clear, normalized, the exponent not minus zero. -/
structure Comparable (w : Word) : Prop where
  flag : oor w = false
  exponent : (if w.msb then ~~~w else w).extractLsb' 48 14 ≠ 0x1FFF
  normal : normalized w = true

/-- The exponent of a word whose flag is clear, by the upper part of its magnitude. -/
theorem fpUnpack_exp_of_oor {w : Word} (h : oor w = false) :
    (fpUnpack w).exp = if magnitude w / 2 ^ 48 < 2 ^ 13 then ((magnitude w / 2 ^ 48 : Nat) : Int) - (2 ^ 13 - 1)
      else ((magnitude w / 2 ^ 48 : Nat) : Int) - 2 ^ 13 := by
  have hmag := oor_eq_false_iff.mp h
  have hfield : (BitVec.ofNat 14 (magnitude w / 2 ^ 48)).toNat = magnitude w / 2 ^ 48 := by
    rw [BitVec.toNat_ofNat, Nat.mod_eq_of_lt (by omega)]
  rw [fpUnpack_exp, exponentOf_eq, hfield]

namespace Comparable

theorem field_ne {w : Word} (h : Comparable w) : magnitude w / 2 ^ 48 ≠ 0x1FFF := by
  intro hfield
  have hform := congrArg (BitVec.ofNat 14) hfield
  rw [← toNat_magnitudeForm, ← Nat.shiftRight_eq_div_pow] at hform
  exact h.exponent hform

theorem coef_ge {w : Word} (h : Comparable w) : 2 ^ 47 ≤ (fpUnpack w).coef := normalized_iff.mp h.normal

theorem magnitude_pos {w : Word} (h : Comparable w) : 0 < magnitude w := by
  have hcoef := h.coef_ge
  rw [fpUnpack_coef] at hcoef
  omega

theorem fpMagnitude_pos {w : Word} (h : Comparable w) : 0 < fpMagnitude w := by
  have hcoef : (0 : ℚ) < (fpUnpack w).coef := Nat.cast_pos.mpr (Nat.lt_of_lt_of_le (by decide) h.coef_ge)
  exact mul_pos hcoef (zpow_pos two_pos _)

/-- A greater exponent outweighs the coefficients, whose highest bits are set. -/
theorem fpMagnitude_lt_of_exp_lt {a b : Word} (hb : Comparable b) (h : (fpUnpack a).exp < (fpUnpack b).exp) :
    fpMagnitude a < fpMagnitude b := by
  have hcoefA : ((fpUnpack a).coef : ℚ) < 2 ^ 48 := by exact_mod_cast fpUnpack_coef_lt a
  have hcoefB : (2 : ℚ) ^ 47 ≤ (fpUnpack b).coef := by exact_mod_cast hb.coef_ge
  calc fpMagnitude a < 2 ^ 48 * 2 ^ (fpUnpack a).exp := mul_lt_mul_of_pos_right hcoefA (zpow_pos two_pos _)
    _ = 2 ^ 47 * 2 ^ ((fpUnpack a).exp + 1) := by rw [zpow_add_one₀ two_ne_zero]; ring
    _ ≤ 2 ^ 47 * 2 ^ (fpUnpack b).exp := by
      exact mul_le_mul_of_nonneg_left (zpow_le_zpow_right₀ one_le_two h) (by positivity)
    _ ≤ fpMagnitude b := mul_le_mul_of_nonneg_right hcoefB (zpow_pos two_pos _).le

variable {a b : Word} (ha : Comparable a) (hb : Comparable b)
include ha hb

theorem exp_lt (h : magnitude a / 2 ^ 48 < magnitude b / 2 ^ 48) : (fpUnpack a).exp < (fpUnpack b).exp := by
  have hna := ha.field_ne
  have hnb := hb.field_ne
  rw [fpUnpack_exp_of_oor ha.flag, fpUnpack_exp_of_oor hb.flag]
  split <;> split <;> omega

theorem fpMagnitude_lt_of_lt (h : magnitude a < magnitude b) : fpMagnitude a < fpMagnitude b := by
  rcases (Nat.div_le_div_right (c := 2 ^ 48) h.le).lt_or_eq with hfield | hfield
  · exact fpMagnitude_lt_of_exp_lt hb (exp_lt ha hb hfield)
  · have hexp : (fpUnpack a).exp = (fpUnpack b).exp := by rw [fpUnpack_exp, fpUnpack_exp, hfield]
    have hcoef : (fpUnpack a).coef < (fpUnpack b).coef := by rw [fpUnpack_coef, fpUnpack_coef]; omega
    rw [fpMagnitude, fpMagnitude, hexp]
    exact mul_lt_mul_of_pos_right (Nat.cast_lt.mpr hcoef) (zpow_pos two_pos _)

theorem fpMagnitude_lt_iff : fpMagnitude a < fpMagnitude b ↔ magnitude a < magnitude b := by
  refine ⟨fun h => ?_, fpMagnitude_lt_of_lt ha hb⟩
  rcases Nat.lt_trichotomy (magnitude a) (magnitude b) with hlt | heq | hgt
  · exact hlt
  · refine absurd h (le_of_eq ?_).not_gt
    rw [fpMagnitude, fpMagnitude, fpUnpack_coef, fpUnpack_coef, fpUnpack_exp, fpUnpack_exp, heq]
  · exact absurd h (fpMagnitude_lt_of_lt hb ha hgt).not_gt

theorem fpValue_lt_iff : fpValue a < fpValue b ↔ val1c a < val1c b := by
  have hvalA := ha.fpMagnitude_pos
  have hvalB := hb.fpMagnitude_pos
  have hmagA := ha.magnitude_pos
  have hmagB := hb.magnitude_pos
  rw [fpValue_eq_fpMagnitude, fpValue_eq_fpMagnitude, val1c_eq_magnitude, val1c_eq_magnitude]
  cases a.msb <;> cases b.msb <;> simp only [if_true, if_false, Bool.false_eq_true]
  · rw [fpMagnitude_lt_iff ha hb, Nat.cast_lt]
  · exact iff_of_false (by linarith) (by omega)
  · exact iff_of_true (by linarith) (by omega)
  · rw [neg_lt_neg_iff, neg_lt_neg_iff, fpMagnitude_lt_iff hb ha, Nat.cast_lt]

end Comparable

/-- Settles O20: values without sign are ordered as magnitudes are, then signs. -/
theorem floatingOrder : Obligations.FloatingOrder := fun _ _ hflagA hflagB hexpA hexpB hnormA hnormB =>
  Comparable.fpValue_lt_iff ⟨hflagA, hexpA, hnormA⟩ ⟨hflagB, hexpB, hnormB⟩

end Sys2Proof.Machine
end

section
/-! The two halves of products and sums together are exact (40_arithmetic.md R172 to R175, reference reading). -/

namespace Sys2Proof.Machine

/-! A 96-bit result delivered in two halves. -/

theorem fpValue_fpDeliver (neg : Bool) {c : Nat} {e : Int} (free : Word) (hc : c < 2 ^ 48) (hlow : -8191 ≤ e) (hhigh : e ≤ 8191) :
    fpValue (fpDeliver neg c e free) = (if neg then -1 else 1) * (c : ℚ) * 2 ^ e := by
  rw [fpValue, fpUnpack_fpDeliver neg free hc hlow hhigh]

/-- The words `u` and `l` are the upper and the lower half of a normalized result, and together the value `v`. -/
structure Halves (u l : Word) (v : ℚ) : Prop where
  value : fpValue u + fpValue l = v
  normal : normalized u = true
  exponent : (fpUnpack l).exp = (fpUnpack u).exp - 48

theorem halves_fpDeliver (neg : Bool) {m : Nat} {e : Int} (free : Word) (hm : 2 ^ 95 ≤ m) (hlt : m < 2 ^ 96) (hlow : -8191 ≤ e)
    (hhigh : e + 48 ≤ 8191) :
    Halves (fpDeliver neg (m / 2 ^ 48) (e + 48) free) (fpDeliver neg (m % 2 ^ 48) e free)
      ((if neg then -1 else 1) * (m : ℚ) * 2 ^ e) := by
  have hupper : m / 2 ^ 48 < 2 ^ 48 := by omega
  have hlower : m % 2 ^ 48 < 2 ^ 48 := by omega
  refine ⟨?_, ?_, ?_⟩
  · have hm' : (m : ℚ) = 2 ^ 48 * (m / 2 ^ 48 : Nat) + (m % 2 ^ 48 : Nat) := by exact_mod_cast (Nat.div_add_mod m (2 ^ 48)).symm
    rw [fpValue_fpDeliver neg free hupper (by omega) hhigh, fpValue_fpDeliver neg free hlower hlow (by omega), hm',
      zpow_add₀ two_ne_zero]
    ring
  · rw [normalized_iff, fpUnpack_fpDeliver neg free hupper (by omega) hhigh]
    change 2 ^ 47 ≤ m / 2 ^ 48
    omega
  · rw [fpUnpack_fpDeliver neg free hupper (by omega) hhigh, fpUnpack_fpDeliver neg free hlower hlow (by omega)]
    exact (add_sub_cancel_right e 48).symm

/-- A factor 2^n moved into the exponent. -/
theorem two_pow_mul_zpow {n : Nat} {e e' : Int} (h : e' = n + e) : (2 : ℚ) ^ n * 2 ^ e = 2 ^ e' := by
  rw [h, zpow_add₀ two_ne_zero, zpow_natCast]

/-! The product (R174, R175). -/

/-- The 96-bit product `p` of `a` and `b`, its highest bit set, has lost nothing. -/
structure ExactProduct (a b : FpNum) (p : Nat × Int) : Prop where
  highest : 2 ^ 95 ≤ p.1
  fits : p.1 < 2 ^ 96
  exponent : a.exp + b.exp - 1 ≤ p.2 ∧ p.2 ≤ a.exp + b.exp
  value : (p.1 : ℚ) * 2 ^ p.2 = (a.coef * 2 ^ a.exp) * (b.coef * 2 ^ b.exp)

theorem product96_exact {a b : FpNum} (ha : 2 ^ 47 ≤ a.coef) (halt : a.coef < 2 ^ 48) (hb : 2 ^ 47 ≤ b.coef) (hblt : b.coef < 2 ^ 48) :
    ExactProduct a b (product96 a b) := by
  have hlow : 2 ^ 47 * 2 ^ 47 ≤ a.coef * b.coef := Nat.mul_le_mul ha hb
  have hhigh : a.coef * b.coef < 2 ^ 48 * 2 ^ 48 := Nat.mul_lt_mul'' halt hblt
  rw [product96]
  split
  · exact ⟨by omega, by omega, by omega, by push_cast; rw [zpow_sub_one₀ two_ne_zero, zpow_add₀ two_ne_zero]; ring⟩
  · exact ⟨by omega, by omega, by omega, by push_cast; rw [zpow_add₀ two_ne_zero]; ring⟩

theorem fpMulUpper_of_oor {a b : Word} (ha : oor a = false) (hb : oor b = false) (free : Word) :
    fpMulUpper a b free = fpDeliver (a.msb != b.msb) ((product96 (fpUnpack a) (fpUnpack b)).1 / 2 ^ 48)
      ((product96 (fpUnpack a) (fpUnpack b)).2 + 48) free := by
  simp [fpMulUpper, ha, hb]

theorem fpMulLower_of_oor {a b : Word} (ha : oor a = false) (hb : oor b = false) (free : Word) :
    fpMulLower a b free = fpDeliver (a.msb != b.msb) ((product96 (fpUnpack a) (fpUnpack b)).1 % 2 ^ 48)
      (product96 (fpUnpack a) (fpUnpack b)).2 free := by
  simp [fpMulLower, ha, hb]

/-- Settles O21: the 96-bit product is exact and normalized, and the halves deliver it. -/
theorem productExact : Obligations.ProductExact := by
  intro a b free ha hb hna hnb hlow hhigh
  have hexact := product96_exact (normalized_iff.mp hna) (fpUnpack_coef_lt a) (normalized_iff.mp hnb) (fpUnpack_coef_lt b)
  obtain ⟨hexpLow, hexpHigh⟩ := hexact.exponent
  have hhalves := halves_fpDeliver (e := (product96 (fpUnpack a) (fpUnpack b)).2) (a.msb != b.msb) free hexact.highest hexact.fits
    (by omega) (by omega)
  rw [← fpMulUpper_of_oor ha hb, ← fpMulLower_of_oor ha hb, mul_assoc, hexact.value] at hhalves
  refine ⟨hhalves.value.trans ?_, hhalves.normal, hhalves.exponent⟩
  rw [fpValue, fpValue, fpUnpack_neg, fpUnpack_neg]
  cases a.msb <;> cases b.msb <;> simp

/-! The sum (R172, R173). -/

/-- The value of an unpacked number. -/
def FpNum.value (a : FpNum) : ℚ := a.signed * 2 ^ a.exp

theorem fpValue_eq_value (w : Word) : fpValue w = (fpUnpack w).value := by
  rw [fpValue, FpNum.value, FpNum.signed]
  cases (fpUnpack w).neg <;> simp

theorem FpNum.natAbs_signed (a : FpNum) : a.signed.natAbs = a.coef := by
  rw [FpNum.signed]; split <;> simp

/-- The aligned sum `s` of `a` and `b` has lost nothing: it is even and fits in 97 bits. -/
structure ExactSum (a b : FpNum) (s : Int × Int) : Prop where
  value : (s.1 : ℚ) * 2 ^ s.2 = a.value + b.value
  even : 2 ∣ s.1
  fits : s.1.natAbs < 2 ^ 97
  exponent : s.2 + 48 = a.exp ∨ s.2 + 48 = b.exp

theorem alignedSum_comm_of_lt {a b : FpNum} (h : a.exp < b.exp) : alignedSum a b = alignedSum b a := by
  simp [alignedSum, not_le.mpr h, h.le]

/-- Shifted down by at most 48 places, a coefficient loses nothing. -/
theorem alignedSum_of_ge {a b : FpNum} {d : Nat} (hd : a.exp = b.exp + d) (hle : d ≤ 48) :
    alignedSum a b = (a.signed * 2 ^ 48 + b.signed * 2 ^ (48 - d), a.exp - 48) := by
  have hshift : (a.exp - b.exp).toNat = d := by omega
  have hsplit : 2 ^ 48 = 2 ^ (48 - d) * 2 ^ d := by rw [← pow_add, Nat.sub_add_cancel hle]
  have hlow : b.coef * 2 ^ 48 / 2 ^ d = b.coef * 2 ^ (48 - d) := by
    rw [hsplit, ← Nat.mul_assoc, Nat.mul_div_cancel _ (Nat.two_pow_pos d)]
  have hge : a.exp ≥ b.exp := by omega
  simp only [alignedSum, if_pos hge, hshift, hlow, FpNum.signed]
  cases b.neg <;> simp

theorem alignedSum_exact_of_ge {a b : FpNum} {d : Nat} (hd : a.exp = b.exp + d) (hle : d ≤ 47) (ha : a.coef < 2 ^ 48)
    (hb : b.coef < 2 ^ 48) : ExactSum a b (alignedSum a b) := by
  rw [alignedSum_of_ge hd (by omega)]
  refine ⟨?_, ?_, ?_, .inl (sub_add_cancel ..)⟩
  · have hbig : (2 : ℚ) ^ 48 * 2 ^ (a.exp - 48) = 2 ^ a.exp := two_pow_mul_zpow (by omega)
    have hsmall : (2 : ℚ) ^ (48 - d) * 2 ^ (a.exp - 48) = 2 ^ b.exp := two_pow_mul_zpow (by omega)
    push_cast
    rw [FpNum.value, FpNum.value, ← hbig, ← hsmall]
    ring
  · have heven : (2 : Int) ∣ 2 ^ (48 - d) := dvd_pow_self 2 (by omega)
    exact dvd_add (dvd_mul_of_dvd_right (by decide) _) (dvd_mul_of_dvd_right heven _)
  · have hshift : 2 ^ (48 - d) ≤ 2 ^ 48 := Nat.pow_le_pow_right two_pos (Nat.sub_le ..)
    calc (a.signed * 2 ^ 48 + b.signed * 2 ^ (48 - d)).natAbs ≤ a.coef * 2 ^ 48 + b.coef * 2 ^ (48 - d) := by
          rw [← a.natAbs_signed, ← b.natAbs_signed]
          exact (Int.natAbs_add_le ..).trans_eq (by simp only [Int.natAbs_mul, Int.natAbs_pow]; rfl)
      _ ≤ a.coef * 2 ^ 48 + b.coef * 2 ^ 48 := Nat.add_le_add_left (Nat.mul_le_mul_left _ hshift) _
      _ < 2 ^ 97 := by omega

theorem ExactSum.symm {a b : FpNum} {s : Int × Int} (h : ExactSum a b s) : ExactSum b a s :=
  ⟨h.value.trans (add_comm ..), h.even, h.fits, h.exponent.symm⟩

theorem alignedSum_exact {a b : FpNum} (hab : a.exp - b.exp ≤ 47) (hba : b.exp - a.exp ≤ 47) (ha : a.coef < 2 ^ 48)
    (hb : b.coef < 2 ^ 48) : ExactSum a b (alignedSum a b) := by
  rcases Int.lt_or_le a.exp b.exp with hlt | hge
  · rw [alignedSum_comm_of_lt hlt]
    exact (alignedSum_exact_of_ge (d := (b.exp - a.exp).toNat) (by omega) (by omega) hb ha).symm
  · exact alignedSum_exact_of_ge (d := (a.exp - b.exp).toNat) (by omega) (by omega) ha hb

/-- The magnitude `n` normalized to 96 bits is the magnitude `m` at exponent `e`, nothing lost. -/
structure ExactNormal (m : Nat) (e : Int) (n : Nat × Int) : Prop where
  highest : 2 ^ 95 ≤ n.1
  fits : n.1 < 2 ^ 96
  exponent : e - 95 ≤ n.2 ∧ n.2 ≤ e + 1
  value : (n.1 : ℚ) * 2 ^ n.2 = m * 2 ^ e

theorem normalize96_exact {m : Nat} (hpos : 0 < m) (hfits : m < 2 ^ 97) (heven : 2 ∣ m) (e : Int) :
    ExactNormal m e (normalize96 m e) := by
  rw [normalize96]
  split
  · have hhalf : ((m / 2 : Nat) : ℚ) * 2 = m := by exact_mod_cast Nat.div_mul_cancel heven
    exact ⟨by omega, by omega, by omega, by rw [zpow_add_one₀ two_ne_zero, ← hhalf]; ring⟩
  · have hlog : m.log2 < 96 := (Nat.log2_lt hpos.ne').mpr (Nat.lt_of_not_le ‹_›)
    have hlow : 2 ^ m.log2 ≤ m := Nat.log2_self_le hpos.ne'
    have hhigh : m < 2 ^ (m.log2 + 1) := Nat.lt_log2_self
    refine ⟨?_, ?_, by omega, ?_⟩
    · calc 2 ^ 95 = 2 ^ m.log2 * 2 ^ (95 - m.log2) := by rw [← pow_add]; congr 1; omega
        _ ≤ m * 2 ^ (95 - m.log2) := Nat.mul_le_mul_right _ hlow
    · calc m * 2 ^ (95 - m.log2) < 2 ^ (m.log2 + 1) * 2 ^ (95 - m.log2) := Nat.mul_lt_mul_of_pos_right hhigh (Nat.two_pow_pos _)
        _ = 2 ^ 96 := by rw [← pow_add]; congr 1; omega
    · push_cast
      rw [mul_assoc, two_pow_mul_zpow (e' := e) (by omega)]

/-- The aligned sum normalized to 96 bits. -/
def normalSum (a b : FpNum) : Nat × Int := normalize96 (alignedSum a b).1.natAbs (alignedSum a b).2

section
variable {a b : Word} (ha : oor a = false) (hb : oor b = false) (free : Word)
include ha hb

theorem fpAdd_of_zero (hs : (alignedSum (fpUnpack a) (fpUnpack b)).1 = 0) : fpAddUpper a b free = 0 ∧ fpAddLower a b free = 0 := by
  simp [fpAddUpper, fpAddLower, ha, hb, hs]

variable (hs : (alignedSum (fpUnpack a) (fpUnpack b)).1 ≠ 0)
include hs

theorem fpAddUpper_of_ne_zero : fpAddUpper a b free = fpDeliver ((alignedSum (fpUnpack a) (fpUnpack b)).1 < 0)
    ((normalSum (fpUnpack a) (fpUnpack b)).1 / 2 ^ 48) ((normalSum (fpUnpack a) (fpUnpack b)).2 + 48) free := by
  simp [fpAddUpper, normalSum, ha, hb, hs]

theorem fpAddLower_of_ne_zero : fpAddLower a b free = fpDeliver ((alignedSum (fpUnpack a) (fpUnpack b)).1 < 0)
    ((normalSum (fpUnpack a) (fpUnpack b)).1 % 2 ^ 48) (normalSum (fpUnpack a) (fpUnpack b)).2 free := by
  simp [fpAddLower, normalSum, ha, hb, hs]

end

theorem normalSum_exact {a b : FpNum} (h : ExactSum a b (alignedSum a b)) (hs : (alignedSum a b).1 ≠ 0) :
    ExactNormal (alignedSum a b).1.natAbs (alignedSum a b).2 (normalSum a b) :=
  normalize96_exact (Int.natAbs_pos.mpr hs) h.fits (Int.natAbs_dvd_natAbs.mpr h.even) _

/-- Sign and magnitude make the integer. -/
theorem sign_mul_natAbs (s : Int) : (if decide (s < 0) then -1 else 1) * (s.natAbs : ℚ) = s := by
  rw [Nat.cast_natAbs]
  rcases Int.lt_or_le s 0 with h | h
  · simp [h, abs_of_neg h]
  · simp [h.not_gt, abs_of_nonneg h]

theorem fpValue_zero : fpValue 0 = 0 := by
  have hzero : fpUnpack 0 = ⟨false, 0, -8191⟩ := by decide
  rw [fpValue, hzero]
  simp

theorem FpNum.sum_eq_zero_iff {a b : FpNum} (h : ExactSum a b (alignedSum a b)) :
    a.value + b.value = 0 ↔ (alignedSum a b).1 = 0 := by
  simp [← h.value, zpow_ne_zero]

/-- Settles O22: a sum that is zero delivers zeros; any other is aligned and normalized exactly, and the halves deliver it. -/
theorem sumExact : Obligations.SumExact := by
  intro a b free ha hb hlowA hhighA hlowB hhighB hab hba
  have hsum := alignedSum_exact hab hba (fpUnpack_coef_lt a) (fpUnpack_coef_lt b)
  rw [fpValue_eq_value a, fpValue_eq_value b, ne_eq, FpNum.sum_eq_zero_iff hsum]
  by_cases hs : (alignedSum (fpUnpack a) (fpUnpack b)).1 = 0
  · obtain ⟨hupper, hlower⟩ := fpAdd_of_zero ha hb free hs
    refine ⟨?_, fun _ => ⟨hupper, hlower⟩, fun hne => absurd hs hne⟩
    rw [hupper, hlower, fpValue_zero, add_zero, (FpNum.sum_eq_zero_iff hsum).mpr hs]
  · have hnormal := normalSum_exact hsum hs
    obtain ⟨hexpLow, hexpHigh⟩ := hnormal.exponent
    have hexpSum := hsum.exponent
    have hhalves := halves_fpDeliver (e := (normalSum (fpUnpack a) (fpUnpack b)).2) ((alignedSum (fpUnpack a) (fpUnpack b)).1 < 0) free
      hnormal.highest hnormal.fits (by omega) (by omega)
    rw [← fpAddUpper_of_ne_zero ha hb free hs, ← fpAddLower_of_ne_zero ha hb free hs, mul_assoc, hnormal.value, ← mul_assoc,
      sign_mul_natAbs, hsum.value] at hhalves
    exact ⟨hhalves.value, fun hzero => absurd hzero hs, fun _ => ⟨hhalves.normal, hhalves.exponent⟩⟩

end Sys2Proof.Machine
end

section
/-! What codes 0000 to 0033 deliver, and the instructions of the other codes that do the same: a word in a register, a floating result,
an exchange (41_codes_00xx.md R201 to R216). -/

namespace Sys2Proof.Machine

/-! Shifts by a register: the sign of the count says which way (R157). -/

section
variable {c : Word} (v free : Word)

theorem shiftBy_of_nonneg (h : c.msb = false) (hc : c.toNat ≤ 63) : shiftBy v c free = rotl64 v c.toNat := by
  have hmag : magnitude c = c.toNat := by simp [magnitude, h]
  simp [shiftBy, hmag, h, hc]

theorem shiftBy_of_neg (h : c.msb = true) (hc : (~~~c).toNat ≤ 63) : shiftBy v c free = sar64 v (~~~c).toNat := by
  have hmag : magnitude c = (~~~c).toNat := by simp only [magnitude, h, if_true]
  rw [shiftBy, hmag, if_neg (Nat.not_lt.mpr hc), if_pos h]

/-- A complemented count shifts the other way (R208). -/
theorem shiftBy_not_of_nonneg (h : c.msb = false) (hc : c.toNat ≤ 63) : shiftBy v (~~~c) free = sar64 v c.toNat := by
  have hsign : (~~~c).msb = true := by rw [msb_not_word, h]; rfl
  have hcount : ~~~(~~~c) = c := BitVec.not_not
  rw [shiftBy_of_neg v free hsign (by rwa [hcount]), hcount]

end

/-- Settles O26: 0012 takes the count as it is, 0013 its complement; the word drawn stands for counts beyond 63. -/
theorem registerShiftResults : Obligations.RegisterShiftResults := by
  intro j k s
  constructor
  · exact ⟨_, _, rfl, delivered_setX (.drawn s) j _ 1, shiftBy_of_nonneg _ _, shiftBy_of_neg _ _⟩
  · refine ⟨_, _, rfl, delivered_setX (.drawn s) j _ 1, shiftBy_not_of_nonneg _ _, fun hneg hcount => ?_⟩
    have hsign : (~~~s.getX k).msb = false := by rw [msb_not_word, hneg]; rfl
    exact shiftBy_of_nonneg _ _ hsign hcount

/-- Settles O24: each of the ten is one register write, or none, and going on. -/
theorem logicalAndCopyResults : Obligations.LogicalAndCopyResults := by
  intro j k K s
  have writes : ∀ (v : Word) (len : Nat), Delivered j v len s ((s.setX j v).advance len) := delivered_setX (.refl s) j
  exact ⟨⟨_, rfl, writes (s.getX j &&& s.getX k) 1⟩, ⟨_, rfl, writes (s.getX j ||| s.getX k) 1⟩,
    ⟨_, rfl, writes (s.getX j ^^^ s.getX k) 1⟩, ⟨_, rfl, writes (s.getX k) 1⟩, ⟨_, rfl, writes (~~~s.getX k) 1⟩,
    ⟨_, rfl, writes (BitVec.ofNat 64 (popcount (s.getX k))) 1⟩, ⟨_, rfl, passed_advance (.refl s) 1⟩,
    ⟨_, rfl, writes (constK4 k) 1⟩, ⟨_, rfl, writes (~~~constK4 k) 1⟩, ⟨_, rfl, writes (sextK K) 2⟩⟩

/-- A floating result is delivered, whatever it is, while OVF is clear. -/
theorem Twin.deliverFloat_delivered {s u : State} (h : Twin s u) (hovf : s.xpw.ovf = false) (d : Reg) (r : Word) :
    ∃ t, u.deliverFloat d r = .next t ∧ Delivered d r 1 s t :=
  ⟨_, State.deliverFloat_next (.inl (by rw [h.xpw, hovf])), delivered_setX h d r 1⟩

/-- Settles O31: each of the seven draws the word its function leaves open and delivers the result. -/
theorem floatingResults : Obligations.FloatingResults := by
  intro i j k s hovf
  have delivers := (Twin.drawn s).deliverFloat_delivered hovf
  exact ⟨⟨s.freeWord, delivers j _⟩, ⟨s.freeWord, delivers j _⟩, ⟨s.freeWord, delivers j _⟩, ⟨s.freeWord, delivers j _⟩,
    ⟨s.freeWord, delivers i _⟩, ⟨s.freeWord, delivers i _⟩, ⟨s.freeWord, delivers i _⟩⟩

/-- Settles O46: the four error exits raise Condition(53), 0333 raises Condition(59), and both store P + 1. -/
theorem exitInstructions : Obligations.ExitInstructions := by
  intro s
  have errorExit : ∃ t, s.raise .errorExit = .next t ∧ Exchanges 0x02#8 (s.p + 1) s t :=
    (Twin.refl s).raise_exchanges (c := .errorExit) fun _ => rfl
  have programCall : ∃ t, s.raise .programCall = .next t ∧ Exchanges 0x80#8 (s.p + 1) s t :=
    (Twin.refl s).raise_exchanges (c := .programCall) fun _ => rfl
  exact ⟨errorExit, errorExit, errorExit, errorExit, programCall⟩

end Sys2Proof.Machine
end

section
/-! What codes 0100 to 0133 deliver and leave unchanged, and 0223, which 0131 undoes (42_codes_01xx.md R230 to R246, 43_codes_02xx.md
R272). -/

namespace Sys2Proof.Machine

/-! Integer sums and differences (R233, R234, R238, R331 to R333). -/

/-- 0113 subtracts from zero: the complement, with plus zero for either zero (R238). -/
theorem zero_add1c_not (v : Word) : add1c 0 (~~~v) = if v = 0 ∨ v = BitVec.allOnes 64 then 0 else ~~~v := by
  by_cases hplus : v = 0
  · subst hplus; decide
  · by_cases hminus : v = BitVec.allOnes 64
    · subst hminus; decide
    · have hnot : ~~~v ≠ BitVec.allOnes 64 := fun h => hplus ((BitVec.not_eq_comm.mp h).trans BitVec.not_allOnes)
      rw [if_neg (not_or.mpr ⟨hplus, hminus⟩)]
      exact zero_add1c hnot

/-- Settles O25: each of the six is one register write and going on. -/
theorem integerSumResults : Obligations.IntegerSumResults := by
  intro i j k K s
  have writes : ∀ (d : Reg) (v : Word) (len : Nat), Delivered d v len s ((s.setX d v).advance len) := delivered_setX (.refl s)
  refine ⟨⟨_, rfl, writes j _ 1⟩, ⟨_, rfl, writes j _ 1⟩, ⟨_, rfl, ?_⟩, ⟨_, rfl, writes i _ 2⟩, ⟨_, rfl, writes i _ 1⟩,
    ⟨_, rfl, writes i _ 1⟩⟩
  rw [← zero_add1c_not]
  exact writes j _ 1

/-! The fields of a word bit by bit (40_arithmetic.md R160 to R163). -/

theorem getLsbD_field {n w b : Nat} (hb : b < n) (x : BitVec w) (k : Nat) : (x.extractLsb' k n).getLsbD b = x.getLsbD (k + b) := by
  rw [BitVec.getLsbD_extractLsb', decide_eq_true hb, Bool.true_and]

theorem getLsbD_lowField {n w b : Nat} (hb : b < n) (x : BitVec w) : (x.extractLsb' 0 n).getLsbD b = x.getLsbD b := by
  rw [getLsbD_field hb, Nat.zero_add]

theorem getLsbD_copies {n b : Nat} (hb : b < n) (c : Bool) : (if c then BitVec.allOnes n else 0#n).getLsbD b = c := by
  cases c with
  | false => exact BitVec.getLsbD_zero
  | true => rw [if_pos rfl, BitVec.getLsbD_allOnes, decide_eq_true hb]

/-- What is complemented for a sign: its bits, each compared with the sign. -/
theorem getLsbD_complementIf {n b : Nat} (hb : b < n) (x : BitVec n) (c : Bool) :
    (if c then ~~~x else x).getLsbD b = (x.getLsbD b ^^ c) := by
  cases c <;> simp [hb]

/-- The highest bit of a 14-bit field alone. -/
theorem getLsbD_highest (b : Nat) : (0x2000#14).getLsbD b = decide (b = 13) := by
  rw [show 0x2000#14 = BitVec.twoPow 14 13 from rfl, BitVec.getLsbD_twoPow]
  simp [eq_comm]

theorem toNat_eq_of_bits {m : Nat} (hm : m ≤ 64) {v : Word} {x : BitVec m} (h : ∀ b, b < 64 → v.getLsbD b = x.getLsbD b) :
    v.toNat = x.toNat := by
  have hval : v = x.setWidth 64 := BitVec.eq_of_getLsbD_eq fun b hb => by
    rw [h b hb, BitVec.getLsbD_setWidth, decide_eq_true hb, Bool.true_and]
  rw [hval, BitVec.toNat_setWidth_of_le hm]

/-- The integer of a word that holds `x` under copies of a sign. -/
theorem val1c_of_signed_bits {m : Nat} (hm : m < 64) {v : Word} {x : BitVec m} {neg : Bool}
    (h : ∀ b, b < 64 → v.getLsbD b = if b < m then x.getLsbD b else neg) :
    val1c v = if neg then -((~~~x).toNat : Int) else x.toNat := by
  have hmsb : v.msb = neg := by rw [BitVec.msb_eq_getLsbD_last, h 63 (by decide), if_neg (by omega)]
  rw [val1c, hmsb]
  cases neg with
  | false =>
    have hval : v.toNat = x.toNat := toNat_eq_of_bits hm.le fun b hb => by
      rw [h b hb]; split <;> simp_all
    rw [hval]; rfl
  | true =>
    have hval : (~~~v).toNat = (~~~x).toNat := toNat_eq_of_bits hm.le fun b hb => by
      rw [BitVec.getLsbD_not, BitVec.getLsbD_not, h b hb]; split <;> simp_all
    rw [hval]; rfl

/-! Unpacking (R235, R236). -/

theorem getLsbD_unpackCoefficient (w : Word) {b : Nat} (hb : b < 64) :
    (unpackCoefficient w).getLsbD b = if b < 48 then w.getLsbD b else w.getLsbD 63 := by
  rw [unpackCoefficient, BitVec.getLsbD_append]
  split
  · next hcoef => exact getLsbD_lowField hcoef w
  · exact getLsbD_copies (by omega) _

/-- One form for both signs: the exponent's low bits, complemented for the sign, under copies of its complemented highest bit. -/
theorem unpackExponent_eq (w : Word) : unpackExponent w =
    (if !(w.getLsbD 61 ^^ w.getLsbD 63) then BitVec.allOnes 51 else 0#51) ++
      (if w.getLsbD 63 then ~~~w.extractLsb' 48 13 else w.extractLsb' 48 13) := by
  rw [unpackExponent]
  cases w.getLsbD 63 <;> cases w.getLsbD 61 <;> rfl

theorem getLsbD_unpackExponent (w : Word) {b : Nat} (hb : b < 64) :
    (unpackExponent w).getLsbD b =
      if b < 13 then w.getLsbD (48 + b) ^^ w.getLsbD 63 else !(w.getLsbD 61 ^^ w.getLsbD 63) := by
  rw [unpackExponent_eq, BitVec.getLsbD_append]
  split
  · next hlow => rw [getLsbD_complementIf hlow, getLsbD_field hlow]
  · exact getLsbD_copies (by omega) _

/-- The exponent's integer form: the field of the magnitude form with its highest bit complemented (R161, R163). -/
def exponentInteger (w : Word) : BitVec 14 := (if w.msb then ~~~w else w).extractLsb' 48 14 ^^^ 0x2000#14

theorem getLsbD_exponentInteger (w : Word) {b : Nat} (hb : b < 14) :
    (exponentInteger w).getLsbD b = ((w.getLsbD (48 + b) ^^ w.getLsbD 63) ^^ decide (b = 13)) := by
  rw [exponentInteger, BitVec.getLsbD_xor, getLsbD_field hb, getLsbD_complementIf (by omega), getLsbD_highest, BitVec.msb_eq_getLsbD_last]

theorem msb_exponentInteger (w : Word) : (exponentInteger w).msb = !(w.getLsbD 61 ^^ w.getLsbD 63) := by
  rw [BitVec.msb_eq_getLsbD_last, getLsbD_exponentInteger w (by decide)]
  simp

/-- 0110 delivers the signed coefficient. -/
theorem val1c_unpackCoefficient (w : Word) : val1c (unpackCoefficient w) = (fpUnpack w).signed := by
  have hbits : ∀ b, b < 64 → (unpackCoefficient w).getLsbD b = if b < 48 then (w.extractLsb' 0 48).getLsbD b else w.msb := by
    intro b hb
    rw [getLsbD_unpackCoefficient w hb]
    exact ite_congr rfl (fun hcoef => (getLsbD_lowField hcoef w).symm) fun _ => rfl
  have hnot : ~~~(w.extractLsb' 0 48) = (~~~w).extractLsb' 0 48 := (BitVec.extractLsb'_not_of_lt (by decide)).symm
  rw [val1c_of_signed_bits (by decide) hbits, hnot, FpNum.signed, fpUnpack]
  cases w.msb <;> rfl

/-- 0111 delivers the exponent. -/
theorem val1c_unpackExponent (w : Word) : val1c (unpackExponent w) = (fpUnpack w).exp := by
  refine val1c_of_signed_bits (m := 14) (x := exponentInteger w) (neg := (exponentInteger w).msb) (by decide) fun b hb => ?_
  rw [getLsbD_unpackExponent w hb, msb_exponentInteger]
  rcases Nat.lt_trichotomy b 13 with hlow | htop | hhigh
  · rw [if_pos hlow, if_pos (by omega), getLsbD_exponentInteger w (by omega), decide_eq_false (by omega), Bool.xor_false]
  · subst htop
    rw [if_neg (by decide), if_pos (by decide), getLsbD_exponentInteger w (by decide)]
    simp
  · rw [if_neg (by omega), if_neg (by omega)]

/-- Settles O28: the results' bits, and the integers that they stand for. -/
theorem unpackResults : Obligations.UnpackResults := fun _ k s =>
  ⟨⟨_, _, rfl, delivered_setX (.refl s) k _ 1, fun _ hb => getLsbD_unpackCoefficient _ hb, val1c_unpackCoefficient _⟩,
    ⟨_, _, rfl, delivered_setX (.refl s) k _ 1, fun _ hb => getLsbD_unpackExponent _ hb, val1c_unpackExponent _⟩⟩

/-! Packing (R237). -/

/-- A word is a sign-extended 14-bit value when its bits above bit 13 repeat that bit. -/
theorem signExtend_low14 {e : Word} (h : ∀ b, 14 ≤ b → b < 64 → e.getLsbD b = e.getLsbD 13) :
    (e.extractLsb' 0 14).signExtend 64 = e := by
  refine BitVec.eq_of_getLsbD_eq fun b hb => ?_
  rw [BitVec.getLsbD_signExtend, BitVec.msb_eq_getLsbD_last, decide_eq_true hb, Bool.true_and]
  split
  · next hlow => exact getLsbD_lowField hlow e
  · next hhigh => exact (getLsbD_lowField (by decide) e).trans (h b (Nat.not_lt.mp hhigh) hb).symm

theorem getLsbD_signTwice {b : Nat} (hb : b < 2) (c : Bool) : (BitVec.ofBool c ++ BitVec.ofBool c).getLsbD b = c := by
  rw [BitVec.getLsbD_append, BitVec.getLsbD_ofBool, BitVec.getLsbD_ofBool]
  interval_cases b <;> simp

section
variable {e : Word} (c free : Word) (h : ∀ b, 14 ≤ b → b < 64 → e.getLsbD b = e.getLsbD 13)
include h

/-- The fields of a packed word: the sign twice, the exponent field, the coefficient (R161). -/
theorem packWord_eq : packWord e c free =
    BitVec.ofBool (c.getLsbD 63) ++ BitVec.ofBool (c.getLsbD 63) ++
      (if c.getLsbD 63 then ~~~(e.extractLsb' 0 14 ^^^ 0x2000#14) else e.extractLsb' 0 14 ^^^ 0x2000#14) ++ c.extractLsb' 0 48 :=
  if_pos (signExtend_low14 h)

theorem getLsbD_packWord {b : Nat} (hb : b < 64) : (packWord e c free).getLsbD b =
    if b < 48 then c.getLsbD b else if b < 62 then (e.getLsbD (b - 48) ^^ c.getLsbD 63) ^^ decide (b = 61) else c.getLsbD 63 := by
  rw [packWord_eq c free h, BitVec.getLsbD_append]
  split
  · next hcoef => exact getLsbD_lowField hcoef c
  rw [BitVec.getLsbD_append]
  split
  · next hcoef hexp =>
    have htop : decide (b - 48 = 13) = decide (b = 61) := decide_eq_decide.mpr (by omega)
    have hfield : b < 62 := by omega
    rw [if_pos hfield, getLsbD_complementIf hexp, BitVec.getLsbD_xor, getLsbD_lowField hexp, getLsbD_highest, htop,
      Bool.xor_right_comm]
  · next hcoef hexp =>
    rw [if_neg (by omega)]
    exact getLsbD_signTwice (by omega) _

end

/-- What 0111 delivers is a sign-extended 14-bit value. -/
theorem unpackExponent_signExtended (w : Word) {b : Nat} (hlow : 14 ≤ b) (hb : b < 64) :
    (unpackExponent w).getLsbD b = (unpackExponent w).getLsbD 13 := by
  rw [getLsbD_unpackExponent w hb, getLsbD_unpackExponent w (by decide), if_neg (by omega), if_neg (by decide)]

/-- Packing what was unpacked gives every bit back but bit 62, which is the sign's copy where the flag is clear. -/
theorem packWord_unpack {w : Word} (free : Word) (h : oor w = false) :
    packWord (unpackExponent w) (unpackCoefficient w) free = w := by
  have hflag : w.getLsbD 63 = w.getLsbD 62 := bne_eq_false_iff_eq.mp h
  have hsign : (unpackCoefficient w).getLsbD 63 = w.getLsbD 63 := getLsbD_unpackCoefficient w (by decide)
  refine BitVec.eq_of_getLsbD_eq fun b hb => ?_
  rw [getLsbD_packWord _ free (fun _ => unpackExponent_signExtended w) hb, hsign]
  split
  · next hcoef => rw [getLsbD_unpackCoefficient w hb, if_pos hcoef]
  split
  · next hcoef hexp =>
    rw [getLsbD_unpackExponent w (by omega)]
    rcases Nat.lt_or_ge b 61 with hlow | htop
    · rw [if_pos (by omega), decide_eq_false (by omega), Nat.add_sub_cancel' (by omega)]
      simp
    · have hb61 : b = 61 := by omega
      subst hb61
      simp
  · next hcoef hexp =>
    have hlast : b = 62 ∨ b = 63 := by omega
    rcases hlast with rfl | rfl
    · exact hflag
    · rfl

/-- Settles O29: the packed word bit by bit, and the round trip. -/
theorem packResults : Obligations.PackResults := by
  refine ⟨fun _ k s => ⟨_, _, rfl, delivered_setX (.drawn s) k _ 1, fun h => ?_⟩, fun _ free h => packWord_unpack free h⟩
  have hbits := fun {b : Nat} (hb : b < 64) => getLsbD_packWord (s.getX k) s.freeWord h hb
  refine ⟨fun b hb => ?_, fun b hb => ?_, ?_, hbits (by decide), hbits (by decide)⟩
  · rw [hbits (by omega), if_pos hb]
  · rw [hbits (by omega), if_neg (by omega), if_pos (by omega), decide_eq_false (by omega), Bool.xor_false, Nat.add_sub_cancel_left]
  · rw [hbits (by decide)]; simp

/-! Monitor-mode instructions (R230, R239 to R244). -/

section
variable {s : State}

/-- In monitor mode the update takes place, and execution goes on. -/
theorem passed_modal_of_mtf (h : s.xpw.mtf = true) (u : State) : Passed 1 u ((if s.xpw.mtf then u else s).advance 1) := by
  rw [if_pos h]; exact passed_advance (.refl u) 1

/-- With MTF clear the instruction is a pass. -/
theorem passed_modal_of_not_mtf (h : s.xpw.mtf = false) (u : State) : Passed 1 s ((if s.xpw.mtf then u else s).advance 1) := by
  rw [if_neg (by simp [h])]; exact passed_advance (.refl s) 1

theorem exec_chin_of_not_mtf (h : s.xpw.mtf = false) (j k : Reg) : exec (.chin j k) s = .next (s.advance 1) := if_neg (by simp [h])

theorem exec_chout_of_not_mtf (h : s.xpw.mtf = false) (j k : Reg) : exec (.chout j k) s = .next (s.advance 1) := if_neg (by simp [h])

theorem exec_rcr_of_not_mtf (h : s.xpw.mtf = false) (j : Reg) : exec (.rcr j) s = .next ((s.setX j 0).advance 1) := if_neg (by simp [h])

end

/-- Settles O47: with MTF clear each takes the branch that does nothing, 0130 the one that enters zeros. -/
theorem monitorInstructionsPass : Obligations.MonitorInstructionsPass := fun j k s h =>
  ⟨⟨_, rfl, passed_modal_of_not_mtf h _⟩, ⟨_, rfl, passed_modal_of_not_mtf h _⟩,
    ⟨_, exec_chin_of_not_mtf h j k, passed_advance (.refl s) 1⟩, ⟨_, exec_chout_of_not_mtf h j k, passed_advance (.refl s) 1⟩,
    ⟨_, rfl, passed_modal_of_not_mtf h _⟩, ⟨_, exec_rcr_of_not_mtf h j, delivered_setX (.refl s) j 0 1⟩⟩

section
variable {s : State} (hmtf : s.xpw.mtf = true) (j k : Reg)
include hmtf

theorem exec_chin_busy (h : (s.io.inp (channelOf (s.getX j))).active = true) : exec (.chin j k) s = .refused .channelBusy :=
  (if_pos hmtf).trans (if_pos h)

theorem exec_chout_busy (h : (s.io.out (channelOf (s.getX j))).active = true) : exec (.chout j k) s = .refused .channelBusy :=
  (if_pos hmtf).trans (if_pos h)

theorem exec_chin_idle (h : (s.io.inp (channelOf (s.getX j))).active = false) (ha : (low20 (s.getX k)).toNat < Config.memWords) :
    exec (.chin j k) s = .next ((s.setIo (s.io.startInput (channelOf (s.getX j)) (low20 (s.getX k)))).advance 1) :=
  (if_pos hmtf).trans ((if_neg (by simp [h])).trans (State.atWord_of_lt ha))

theorem exec_chout_idle (h : (s.io.out (channelOf (s.getX j))).active = false) (ha : (low20 (s.getX k)).toNat < Config.memWords) :
    exec (.chout j k) s = .next ((s.setIo (s.io.startOutput (channelOf (s.getX j)) (low20 (s.getX k)))).advance 1) :=
  (if_pos hmtf).trans ((if_neg (by simp [h])).trans (State.atWord_of_lt ha))

end

/-- Settles O48: the flag is written, or an idle path starts, and execution goes on; a busy path is refused. -/
theorem systemCallsAndChannelStarts : Obligations.SystemCallsAndChannelStarts := by
  intro j k c s hmtf hc
  rw [← channelOf_eq] at hc
  subst hc
  rw [← low20_eq]
  exact ⟨⟨_, rfl, passed_modal_of_mtf hmtf _⟩, ⟨_, rfl, passed_modal_of_mtf hmtf _⟩,
    fun hidle ha => ⟨_, exec_chin_idle hmtf j k hidle ha, passed_advance (.refl _) 1⟩,
    fun hidle ha => ⟨_, exec_chout_idle hmtf j k hidle ha, passed_advance (.refl _) 1⟩,
    exec_chin_busy hmtf j k, exec_chout_busy hmtf j k⟩

/-! Reading the channel request (R243, R434, R435). -/

theorem ChannelRequest.release_of_current {r : ChannelRequest} {c : Channel} (h : r.current = some c) :
    r.release = ⟨r.pending.filter (· != c), none, false⟩ := by
  simp [ChannelRequest.release, h]

theorem ChannelRequest.release_of_none {r : ChannelRequest} (h : r.current = none) : r.release = r := by
  simp [ChannelRequest.release, h]

/-- The word that 0130 delivers in monitor mode: the current channel's number, or the word drawn if there is none. -/
def State.requestWord (s : State) : Word := (s.io.req.current.map (BitVec.setWidth 64)).getD s.freeWord

theorem exec_rcr_of_mtf {s : State} (h : s.xpw.mtf = true) (j : Reg) : exec (.rcr j) s =
    .next (((s.drawn.setIo { s.io with req := s.io.req.release }).setX j s.requestWord).advance 1) := by
  refine (if_pos h).trans ?_
  rw [State.requestWord]
  cases s.io.req.current <;> rfl

theorem delivered_rcr_of_mtf {s : State} (h : s.xpw.mtf = true) (j : Reg) : ∃ t, exec (.rcr j) s = .next t ∧
    Delivered j s.requestWord 1 { s with io := { s.io with req := s.io.req.release } } t :=
  ⟨_, exec_rcr_of_mtf h j, delivered_setX (.drawn { s with io := { s.io with req := s.io.req.release } }) j _ 1⟩

/-- Settles O49: the number and the release are those of the current channel; without one the release changes nothing. -/
theorem readChannelRequest : Obligations.ReadChannelRequest := by
  intro j s hmtf
  have delivers := delivered_rcr_of_mtf hmtf j
  refine ⟨fun c hcurrent => ?_, fun hnone => ?_⟩
  · have hword : s.requestWord = c.setWidth 64 := by rw [State.requestWord, hcurrent]; rfl
    rwa [hword, ChannelRequest.release_of_current hcurrent] at delivers
  · rw [ChannelRequest.release_of_none hnone] at delivers
    exact ⟨_, delivers⟩

/-! The exchange address (R244, R272, R123). -/

theorem getLsbD_underCopies (k : Reg) (v : BitVec 20) {b : Nat} (hb : b < 64) :
    (underCopies k v).getLsbD b = if b < 20 then v.getLsbD b else k.getLsbD 3 := by
  rw [underCopies, BitVec.getLsbD_append]
  split
  · rfl
  · exact getLsbD_copies (by omega) _

theorem setWidth_underCopies (k : Reg) (v : BitVec 20) : (underCopies k v).setWidth 20 = v :=
  BitVec.eq_of_getLsbD_eq fun b hb => by
    rw [BitVec.getLsbD_setWidth, getLsbD_underCopies k v (by omega), if_pos hb, decide_eq_true hb, Bool.true_and]

/-- The address XA * 32 as 20 bits: five zeros under XA (10_state.md R37). -/
def packageAddr (xa : BitVec 8) : Addr := 0#7 ++ xa ++ 0#5

theorem toNat_packageAddr (xa : BitVec 8) : (packageAddr xa).toNat = 32 * xa.toNat := by
  rw [packageAddr, BitVec.toNat_append, BitVec.toNat_append]
  simp [Nat.shiftLeft_eq, Nat.mul_comm]

/-- 0131's reading of the address that 0223 delivers. -/
theorem xaOperand_underCopies (k : Reg) (xa : BitVec 8) : xaOperand (underCopies k (packageAddr xa)) = xa := by
  refine BitVec.eq_of_getLsbD_eq fun b hb => ?_
  change ((underCopies k (packageAddr xa)).extractLsb' 5 8).getLsbD b = _
  rw [getLsbD_field hb, getLsbD_underCopies k _ (by omega), if_pos (by omega), packageAddr, BitVec.getLsbD_append,
    BitVec.getLsbD_append]
  simp [hb]

theorem exec_txa (s : State) (j k : Reg) :
    exec (.txa j k) s = .next ((s.setX j (underCopies k (packageAddr s.xpw.xa))).advance 1) := rfl

theorem exec_lxa_of_mtf {s : State} (h : s.xpw.mtf = true) (k : Reg) :
    exec (.lxa k) s = .next ((s.setXa (xaOperand (s.getX k))).advance 1) :=
  congrArg (fun u : State => Host.Outcome.next (u.advance 1)) (if_pos h)

/-- Settles O50: 0131 reads XA where 0223 puts it. -/
theorem exchangeAddressInstructions : Obligations.ExchangeAddressInstructions := by
  intro j k s
  refine ⟨fun hmtf => ⟨_, exec_lxa_of_mtf hmtf k, passed_advance (.refl _) 1⟩,
    ⟨_, _, exec_txa s j k, delivered_setX (.refl s) j _ 1, ?_, ?_, ?_⟩, ?_⟩
  · exact xaOperand_underCopies k s.xpw.xa
  · exact (congrArg BitVec.toNat (setWidth_underCopies k _)).trans (toNat_packageAddr s.xpw.xa)
  · intro b hlow hb
    rw [getLsbD_underCopies k _ hb, if_neg (by omega)]
  · intro t u hmtf ht hu
    rw [exec_txa] at ht
    obtain rfl := Host.Outcome.next.inj ht
    rw [exec_lxa_of_mtf (by simpa using hmtf)] at hu
    obtain rfl := Host.Outcome.next.inj hu
    simp [xaOperand_underCopies]

end Sys2Proof.Machine
end

section
/-! Codes 0200 to 0220 and 30XX to 33XX inside the field: each issues one reference, and nothing else changes (43_codes_02xx.md R260 to
R269, 46_codes_4bit.md R338 to R341, 20_memory.md R79 to R82, R86). -/

namespace Sys2Proof.Machine

/-! The reference is made at the relocated address, or at the absolute one. -/

theorem Twin.relocate {s u : State} (h : Twin s u) (a : Addr) : u.relocate a = s.relocate a := by
  rw [State.relocate_eq, State.relocate_eq, h.xpw]

/-- A program address is relocated only while PRF is set (R82). -/
theorem State.progAddr_eq (s : State) (a : Addr) :
    s.progAddr a = if s.xpw.prf then (256 * s.xpw.ra.toNat + a.toNat) % 2 ^ 20 else a.toNat := by
  rw [State.progAddr, State.relocate_eq]

/-- A data reference inside the field is one to the relocated address. -/
theorem Twin.dataRef_eq_atWord {s u : State} (h : Twin s u) {a : Addr} (ha : a.toNat < 256 * s.xpw.fl.toNat)
    (k : Nat → State → Answer) : u.dataRef a k = u.atWord (s.relocate a) k := by
  rw [State.dataRef, State.fieldLength_eq, h.xpw, if_neg (Nat.not_le.mpr ha), h.relocate]

/-- A program reference, inside the field if PRF is set, is one to the address that PRF chooses. -/
theorem Twin.progRef_eq_atWord {s u : State} (h : Twin s u) {a : Addr} (ha : s.xpw.prf = true → a.toNat < 256 * s.xpw.fl.toNat)
    (k : Nat → State → Answer) : u.progRef a k = u.atWord (s.progAddr a) k := by
  rw [State.progRef, State.progAddr, State.fieldLength_eq, h.xpw, h.relocate]
  cases hp : s.xpw.prf with
  | true => exact if_neg (Nat.not_le.mpr (ha hp))
  | false => rfl

/-- A data reference inside the field, to a word that exists. -/
theorem Twin.dataRef_inside {s u : State} (h : Twin s u) {a : Addr} (ha : a.toNat < 256 * s.xpw.fl.toNat)
    (hm : s.relocate a < Config.memWords) (k : Nat → State → Answer) : u.dataRef a k = k (s.relocate a) u :=
  (h.dataRef_eq_atWord ha k).trans (State.atWord_of_lt hm)

/-- A program reference to a word that exists: inside the field while PRF is set, anywhere while it is clear. -/
theorem Twin.progRef_inside {s u : State} (h : Twin s u) {a : Addr} (ha : s.xpw.prf = true → a.toNat < 256 * s.xpw.fl.toNat)
    (hm : s.progAddr a < Config.memWords) (k : Nat → State → Answer) : u.progRef a k = k (s.progAddr a) u :=
  (h.progRef_eq_atWord ha k).trans (State.atWord_of_lt hm)

/-! What each kind of reference does. -/

/-- A reference that reached memory found the word that its processor reads there (20_memory.md R90). -/
theorem Issued.loaded {s t : State} {r : Ref} {n : Nat} {d : Reg} (h : Issued r n s t) (hs : s.script = []) (hd : r.dest = some d) :
    t.getX d = s.view r.addr := by
  obtain ⟨hword, -, -⟩ := (h.performed hs).1.loaded d hd
  rw [hword, State.performAll_mem, Memory.read_perform]
  rfl

section
variable {s u : State} (h : Twin s u) (d : Reg) (n a : Nat)
include h

theorem Twin.storeFrom_issues : ∃ t, storeFrom d n a u = .next t ∧ Issued ⟨a, none, some (s.getX d)⟩ n s t :=
  ⟨_, rfl, h.getX d ▸ issued_issue h _ n⟩

theorem Twin.loadInto_issues : ∃ t, loadInto d n a u = .next t ∧ Issued ⟨a, some d, none⟩ n s t ∧
    (s.script = [] → t.getX d = s.view a) :=
  have issued := issued_issue h ⟨a, some d, none⟩ n
  ⟨_, rfl, issued, fun hs => issued.loaded hs rfl⟩

theorem Twin.swapWith_issues : ∃ t, swapWith d n a u = .next t ∧ Issued ⟨a, some d, some (s.getX d)⟩ n s t ∧
    (s.script = [] → t.getX d = s.view a) :=
  have issued := issued_issue h ⟨a, some d, some (s.getX d)⟩ n
  ⟨_, by rw [swapWith, h.getX], issued, fun hs => issued.loaded hs rfl⟩

end

/-- Settles O33: the address is inside the field, so the data reference goes on to the store. -/
theorem dataStores : Obligations.DataStores := by
  intro i j k K s
  simp only [← State.relocate_eq]
  refine ⟨fun ⟨ha, hm⟩ => ?_, fun hk ⟨ha, hm⟩ => ?_, fun ⟨ha, hm⟩ => ?_, fun ⟨ha, hm⟩ => ?_⟩
  · rw [exec_stk, (Twin.refl s).dataRef_inside ha hm]
    exact (Twin.refl s).storeFrom_issues j 2 _
  · rw [exec_stx j hk, (Twin.drawn s).dataRef_inside ha hm]
    exact (Twin.drawn s).storeFrom_issues j 1 _
  · rw [exec_stxk, (Twin.refl s).dataRef_inside ha hm]
    exact (Twin.refl s).storeFrom_issues i 2 _
  · rw [exec_stxx, (Twin.refl s).dataRef_inside ha hm]
    exact (Twin.refl s).storeFrom_issues i 1 _

/-- Settles O34: the address is inside the field, so the data reference goes on to the load. -/
theorem dataLoads : Obligations.DataLoads := by
  intro i j k K s
  simp only [← State.relocate_eq]
  refine ⟨fun ⟨ha, hm⟩ => ?_, fun hk ⟨ha, hm⟩ => ?_, fun ⟨ha, hm⟩ => ?_, fun ⟨ha, hm⟩ => ?_⟩
  · rw [exec_ldk, (Twin.refl s).dataRef_inside ha hm]
    exact (Twin.refl s).loadInto_issues j 2 _
  · rw [exec_ldx j hk, (Twin.drawn s).dataRef_inside ha hm]
    exact (Twin.drawn s).loadInto_issues j 1 _
  · rw [exec_ldxk, (Twin.refl s).dataRef_inside ha hm]
    exact (Twin.refl s).loadInto_issues i 2 _
  · rw [exec_ldxx, (Twin.refl s).dataRef_inside ha hm]
    exact (Twin.refl s).loadInto_issues i 1 _

/-- Settles O35: register and word change places in one reference, which carries the register's word and names it as destination. -/
theorem readStores : Obligations.ReadStores := by
  intro j k K s
  simp only [← State.relocate_eq]
  refine ⟨fun ⟨ha, hm⟩ => ?_, fun hk ⟨ha, hm⟩ => ?_⟩
  · rw [exec_rsk, (Twin.refl s).dataRef_inside ha hm]
    exact (Twin.refl s).swapWith_issues j 2 _
  · rw [exec_rsx j hk, (Twin.drawn s).dataRef_inside ha hm]
    exact (Twin.drawn s).swapWith_issues j 1 _

/-- The word of a program address, as `ProgramReads` describes it, exists, and lies inside the field if PRF is set. -/
theorem State.progAddr_valid {s : State} {a : Addr}
    (h : if s.xpw.prf then a.toNat < 256 * s.xpw.fl.toNat ∧ (256 * s.xpw.ra.toNat + a.toNat) % 2 ^ 20 < 262144
      else a.toNat < 262144) :
    (s.xpw.prf = true → a.toNat < 256 * s.xpw.fl.toNat) ∧ s.progAddr a < Config.memWords := by
  rw [State.progAddr_eq]
  cases hp : s.xpw.prf with
  | true =>
    obtain ⟨hfield, hword⟩ := (if_pos hp).mp h
    exact ⟨fun _ => hfield, hword⟩
  | false =>
    rw [if_neg (by simp [hp])] at h
    exact ⟨nofun, h⟩

/-- Settles O36: the program reference goes on to the load, at the address that PRF chooses. -/
theorem programReads : Obligations.ProgramReads := by
  intro j k K s
  dsimp only
  simp only [← State.progAddr_eq]
  refine ⟨fun hok => ?_, fun hk hok => ?_, fun hok => ?_⟩ <;> obtain ⟨ha, hm⟩ := State.progAddr_valid hok
  · rw [exec_rpk, (Twin.refl s).progRef_inside ha hm]
    exact (Twin.refl s).loadInto_issues j 2 _
  · rw [exec_rpx j hk, (Twin.drawn s).progRef_inside ha hm]
    exact (Twin.drawn s).loadInto_issues j 1 _
  · rw [exec_rpp, (Twin.refl s).progRef_inside ha hm]
    exact (Twin.refl s).loadInto_issues j 2 _

end Sys2Proof.Machine
end

section
/-! Minus zero as an address: word 0 of the field, or 0xFFFFF, which every limit excludes (43_codes_02xx.md R262, U5; log 18). -/

namespace Sys2Proof.Machine

/-- The adder makes plus zero of minus zero; its own low bits are all ones. -/
theorem addrOfX_minusZero (free : Bool) :
    addrOfX (BitVec.allOnes 64) free = 0 ∨ addrOfX (BitVec.allOnes 64) free = 0xFFFFF := by
  cases free with
  | false => exact .inl (by decide)
  | true => exact .inr (by decide)

/-- FL is at most 0xFFF, so no field reaches the address 0xFFFFF. -/
theorem field_le_lastAddr (fl : BitVec 12) : 256 * fl.toNat ≤ (0xFFFFF : Addr).toNat := by
  have hfl := fl.isLt
  have hlast : (0xFFFFF : Addr).toNat = 0xFFFFF := rfl
  omega

/-- Word 0 of the field stands at RA * 256. -/
theorem State.relocate_zero (s : State) : s.relocate 0 = 256 * s.xpw.ra.toNat := by
  have hra := s.xpw.ra.isLt
  have hzero : (0 : Addr).toNat = 0 := rfl
  rw [State.relocate_eq, hzero]
  omega

section
variable {k : Reg} {s u : State} {a : Addr} (r : Nat → State → Answer)

/-- The four instructions take minus zero for the same one of the two addresses. -/
theorem exec_of_minusZero (j : Reg) (hk : s.getX k = BitVec.allOnes 64) : ∃ a : Addr, (a = 0 ∨ a = 0xFFFFF) ∧
    exec (.stx j k) s = s.drawn.dataRef a (storeFrom j 1) ∧ exec (.rsx j k) s = s.drawn.dataRef a (swapWith j 1) ∧
    exec (.ldx j k) s = s.drawn.dataRef a (loadInto j 1) ∧ exec (.rpx j k) s = s.drawn.progRef a (loadInto j 1) :=
  ⟨addrOfX (s.getX k) (Config.freeBit s.draws), hk ▸ addrOfX_minusZero _, rfl, rfl, rfl, rfl⟩

/-- Of the two addresses only 0 can be inside the field, if the field holds a word. -/
theorem minusZero_inside (ha : a = 0 ∨ a = 0xFFFFF) {fl : BitVec 12} (h : a.toNat < 256 * fl.toNat) : a = 0 ∧ 0 < fl.toNat := by
  refine ⟨ha.resolve_right fun e => ?_, by omega⟩
  subst e
  exact absurd h (Nat.not_lt.mpr (field_le_lastAddr fl))

/-- A data reference to either address: to word 0 of a field that is not empty, or the limit exit. -/
theorem Twin.dataRef_minusZero (h : Twin s u) (ha : a = 0 ∨ a = 0xFFFFF) :
    (0 < s.xpw.fl.toNat ∧ u.dataRef a r = u.atWord (256 * s.xpw.ra.toNat) r) ∨
    ∃ t, u.dataRef a r = .next t ∧ Exchanges 0x08#8 (s.p + 1) s t := by
  rcases Nat.lt_or_ge a.toNat (256 * s.xpw.fl.toNat) with hin | hout
  · obtain ⟨rfl, hfl⟩ := minusZero_inside ha hin
    exact .inl ⟨hfl, by rw [h.dataRef_eq_atWord hin, State.relocate_zero]⟩
  · exact .inr (h.dataRef_exchanges hout r)

/-- A program reference to either address while PRF is set: to word 0 of a field that is not empty, or the limit exit. -/
theorem Twin.progRef_minusZero (h : Twin s u) (ha : a = 0 ∨ a = 0xFFFFF) (hp : s.xpw.prf = true) :
    (0 < s.xpw.fl.toNat ∧ u.progRef a r = u.atWord (256 * s.xpw.ra.toNat) r) ∨
    ∃ t, u.progRef a r = .next t ∧ Exchanges 0x04#8 (s.p + 1) s t := by
  rcases Nat.lt_or_ge a.toNat (256 * s.xpw.fl.toNat) with hin | hout
  · obtain ⟨rfl, hfl⟩ := minusZero_inside ha hin
    exact .inl ⟨hfl, by rw [h.progRef_eq_atWord fun _ => hin, State.progAddr, if_pos hp, State.relocate_zero]⟩
  · exact .inr (h.progRef_exchanges hp hout r)

/-- A program reference to either address while PRF is clear: to word 0, or to a word that does not exist. -/
theorem Twin.progRef_minusZero_absolute (h : Twin s u) (ha : a = 0 ∨ a = 0xFFFFF) (hp : s.xpw.prf = false) :
    u.progRef a r = .fault (.noSuchWord 0xFFFFF) ∨ u.progRef a r = r 0 u := by
  rw [h.progRef_eq_atWord fun hset => absurd hset (by simp [hp]), State.progAddr_of_not_prf hp]
  rcases ha with rfl | rfl
  · exact .inr (State.atWord_of_lt (by decide))
  · exact .inl (State.atWord_of_ge (by decide))

end

/-- A reference that is made, or the limit exit in its place. -/
theorem next_of_eq_or {o o' : Answer} {P Q : State → Prop} (h : o = o' ∨ ∃ t, o = .next t ∧ Q t)
    (hP : ∃ t, o' = .next t ∧ P t) : ∃ t, o = .next t ∧ (P t ∨ Q t) := by
  rcases h with rfl | ⟨t, ht, hQ⟩
  · obtain ⟨t, ht, hP⟩ := hP
    exact ⟨t, ht, .inl hP⟩
  · exact ⟨t, ht, .inr hQ⟩

/-- Settles O37: one of two addresses for all four instructions; word 0 exists or not, 0xFFFFF is beyond every field and memory. -/
theorem minusZeroAddress : Obligations.MinusZeroAddress := by
  intro j k s hk
  obtain ⟨a, ha, hstx, hrsx, hldx, hrpx⟩ := exec_of_minusZero j hk
  have data := fun r => (Twin.drawn s).dataRef_minusZero r ha
  have prog := fun r => (Twin.drawn s).progRef_minusZero r ha
  simp only [hstx, hrsx, hldx, hrpx]
  refine ⟨fun hfl hm => ?_, fun hfl hm => ?_, fun hfl => ?_, fun hp => ?_⟩
  · have word : ∀ r, s.drawn.atWord (256 * s.xpw.ra.toNat) r = r (256 * s.xpw.ra.toNat) s.drawn := fun r => State.atWord_of_lt hm
    simp only [word] at data prog
    have issues := fun q => issued_issue (Twin.drawn s) q 1
    exact ⟨next_of_eq_or ((data _).imp_left And.right) ⟨_, rfl, issues ⟨_, none, some (s.getX j)⟩⟩,
      next_of_eq_or ((data _).imp_left And.right) ⟨_, rfl, issues ⟨_, some j, some (s.getX j)⟩⟩,
      next_of_eq_or ((data _).imp_left And.right) ⟨_, rfl, issues ⟨_, some j, none⟩⟩,
      fun hp => next_of_eq_or ((prog _ hp).imp_left And.right) ⟨_, rfl, issues ⟨_, some j, none⟩⟩⟩
  · have missing : ∀ r, s.drawn.atWord (256 * s.xpw.ra.toNat) r = .fault (.noSuchWord (256 * s.xpw.ra.toNat)) :=
      fun r => State.atWord_of_ge hm
    simp only [missing] at data prog
    exact ⟨(data _).imp_left And.right, (data _).imp_left And.right, (data _).imp_left And.right,
      fun hp => (prog _ hp).imp_left And.right⟩
  · have empty : ¬ 0 < s.xpw.fl.toNat := by omega
    exact ⟨(data _).resolve_left fun h => empty h.1, (data _).resolve_left fun h => empty h.1,
      (data _).resolve_left fun h => empty h.1, fun hp => (prog _ hp).resolve_left fun h => empty h.1⟩
  · exact ((Twin.drawn s).progRef_minusZero_absolute _ ha hp).imp_right fun e => ⟨_, e, issued_issue (.drawn s) _ 1⟩

end Sys2Proof.Machine
end

section
/-! The interlock register and the clock (43_codes_02xx.md R273 to R276, 30_encoding.md R123, 60_exceptions.md R427). -/

namespace Sys2Proof.Machine

/-- With IPF the update takes place, and execution goes on. -/
theorem passed_gated_of_ipf {s : State} (h : s.xpw.ipf = true) (u : State) : Passed 1 u ((if s.xpw.ipf then u else s).advance 1) := by
  rw [if_pos h]; exact passed_advance (.refl u) 1

/-- With IPF clear the instruction is a pass. -/
theorem passed_gated_of_not_ipf {s : State} (h : s.xpw.ipf = false) (u : State) : Passed 1 s ((if s.xpw.ipf then u else s).advance 1) := by
  rw [if_neg (by simp [h])]; exact passed_advance (.refl s) 1

/-- The clock is read, and nothing else of the state is looked at or changes (log 14). -/
theorem twin_readClock (s : State) : Twin { s with rtc := s.readClock.rtc } s.readClock :=
  Twin.drawn { s with rtc := s.readClock.rtc }

theorem getLsbD_underCopies_upper (k : Reg) (v : BitVec 20) {b : Nat} (hlow : 20 ≤ b) (hb : b < 64) :
    (underCopies k v).getLsbD b = k.getLsbD 3 := by
  rw [getLsbD_underCopies k v hb, if_neg (by omega)]

/-- Settles O51: 0230 and 0231 look at IPF alone, 0232 and 0233 at no mode. -/
theorem interlockAndClock : Obligations.InterlockAndClock := by
  intro j k s
  rw [← low20_eq]
  refine ⟨fun h => ⟨⟨_, rfl, passed_gated_of_ipf h _⟩, ⟨_, rfl, passed_gated_of_ipf h _⟩⟩,
    fun h => ⟨⟨_, rfl, passed_gated_of_not_ipf h _⟩, ⟨_, rfl, passed_gated_of_not_ipf h _⟩⟩,
    ⟨_, _, rfl, delivered_setX (.refl s) j _ 1, setWidth_underCopies k s.il, fun b => getLsbD_underCopies_upper k _⟩,
    underCopies k s.readClock.rtc, _, rfl, ?_, fun b => getLsbD_underCopies_upper k _⟩
  rw [setWidth_underCopies]
  exact delivered_setX (twin_readClock s) j _ 1

end Sys2Proof.Machine
end

section
/-! Targets and links of transfers as numbers (44_codes_03xx.md R290), and 0221, which delivers P + K (43_codes_02xx.md R270). -/

namespace Sys2Proof.Machine

theorem toNat_low20_add1c (v w : Word) : (low20 (add1c v w)).toNat = (v.toNat + w.toNat) % (2 ^ 64 - 1) % 2 ^ 20 := by
  rw [low20_eq, BitVec.toNat_setWidth, add1c_toNat]

theorem toNat_zextK (K : Addr) : (zextK K).toNat = K.toNat := BitVec.toNat_setWidth_of_le (by decide)

theorem State.toNat_pWord (s : State) : s.pWord.toNat = s.p.toNat := BitVec.toNat_setWidth_of_le (by decide)

theorem toNat_sextK_of_lt {K : Addr} (h : K.toNat < 2 ^ 19) : (sextK K).toNat = K.toNat := by
  have hmsb : K.msb = false := by rw [BitVec.msb_eq_decide]; exact decide_eq_false (Nat.not_le.mpr h)
  rw [sextK, BitVec.signExtend_eq_setWidth_of_msb_false hmsb]
  exact toNat_zextK K

/-- Above 0x7FFFF the sign-extended K is the ones' complement word of a negative integer. -/
theorem toNat_sextK_of_ge {K : Addr} (h : 2 ^ 19 ≤ K.toNat) : (sextK K).toNat = 2 ^ 64 - 1 - (2 ^ 20 - 1 - K.toNat) := by
  have hlt := K.isLt
  have hmsb : K.msb = true := by rw [BitVec.msb_eq_decide]; exact decide_eq_true h
  rw [sextK, BitVec.toNat_signExtend, hmsb, BitVec.toNat_setWidth_of_le (by decide), if_pos rfl]
  omega

theorem State.toNat_pPlusSext (s : State) (K : Addr) :
    (s.pPlusSext K).toNat = (s.p.toNat + (sextK K).toNat) % (2 ^ 64 - 1) % 2 ^ 20 := by
  rw [State.pPlusSext, toNat_low20_add1c, s.toNat_pWord]

theorem State.pPlusZext_eq (s : State) (K : Addr) : s.pPlusZext K = s.p + K := by
  have hp := s.p.isLt
  have hK := K.isLt
  apply BitVec.eq_of_toNat_eq
  rw [State.pPlusZext, toNat_low20_add1c, s.toNat_pWord, toNat_zextK, BitVec.toNat_add]
  omega

theorem targetK_eq (K : Addr) : targetK K = K := addrOfK_eq K

theorem targetX_eq (v : Word) : targetX v = if v = BitVec.allOnes 64 then 0 else v.setWidth 20 := by
  by_cases h : v = BitVec.allOnes 64
  · subst h; decide
  · rw [if_neg h, targetX, zero_add1c h, low20_eq]

theorem targetXPlus_eq (v : Word) (k : Reg) : targetXPlus v k = (add1c v (k.setWidth 64)).setWidth 20 := low20_eq _

/-- Settles O41: the 64-bit sum modulo 2^64 - 1, in the three cases of the sign of K and of the sum. -/
theorem pRelativeAddresses : Obligations.PRelativeAddresses := by
  intro j K s
  have hp := s.p.isLt
  have hK := K.isLt
  refine ⟨fun hpos => ?_, fun hneg hm => ?_, fun hneg hm => ?_, s.pPlusZext_eq K, _, rfl, delivered_setX (.refl s) j _ 2⟩
  · rw [s.toNat_pPlusSext, toNat_sextK_of_lt hpos]
    omega
  · rw [s.toNat_pPlusSext, toNat_sextK_of_ge hneg]
    omega
  · rw [s.toNat_pPlusSext, toNat_sextK_of_ge hneg]
    omega

/-- The link in its two parts, as statements write it: bit 62 is the default of `LINK_PRF_BIT` (log 9). -/
theorem State.link_eq (s : State) : s.link = s.p.setWidth 64 ||| (if s.xpw.prf then 0x4000000000000000 else 0) := rfl

/-- P has no bit where the link carries PRF. -/
theorem State.prfOfLink_link (s : State) : prfOfLink s.link = s.xpw.prf := by
  have habove : (s.p.setWidth 64).getLsbD 62 = false := by simp
  rw [prfOfLink, s.link_eq]
  change BitVec.getLsbD _ 62 = _
  rw [BitVec.getLsbD_or, habove, Bool.false_or]
  cases s.xpw.prf <;> rfl

theorem State.toNat_link (s : State) : s.link.toNat = s.p.toNat + if s.xpw.prf then 2 ^ 62 else 0 := by
  have hp := s.p.isLt
  have hlow : s.p.toNat < 2 ^ 62 := by omega
  rw [s.link_eq, BitVec.toNat_or, BitVec.toNat_setWidth_of_le (by decide)]
  cases s.xpw.prf with
  | false => exact Nat.or_zero _
  | true =>
    rw [Nat.or_comm, Nat.add_comm]
    exact (Nat.two_pow_add_eq_or_of_lt hlow 1).symm

/-- A call leaves the exit from it, with k = 1, at the word after the call (R303, R304). -/
theorem State.targetXPlus_link_one (s : State) : targetXPlus s.link 1 = s.p + 1 := by
  have hp := s.p.isLt
  apply BitVec.eq_of_toNat_eq
  rw [targetXPlus, toNat_low20_add1c, s.toNat_link, BitVec.toNat_add]
  change (_ + 1) % _ % _ = (_ + 1) % _
  split <;> omega

end Sys2Proof.Machine
end

section
/-! Codes 0300 to 0332 (44_codes_03xx.md R291 to R305): each is a jump, which changes P and PP alone, after at most a link and, for the
library, PRF and the stack. -/

namespace Sys2Proof.Machine

theorem OnlyRegisters.refl (s : State) : OnlyRegisters s s :=
  ⟨rfl, ⟨rfl, rfl, rfl, rfl, rfl, rfl, rfl⟩, ⟨rfl, rfl⟩, ⟨rfl, rfl⟩, fun _ => rfl, rfl⟩

/-! A jump, and a jump behind a link. -/

section
variable (s : State) (a : Addr) (d : Reg) (v : Word)

theorem State.jump_sameRegisters : SameRegisters s (s.jump a) := ⟨s.jump_getX a, s.jump_xres a⟩

theorem State.jump_onlyRegisters : OnlyRegisters s (s.jump a) :=
  { OnlyRegisters.refl s with system := ⟨rfl, rfl, rfl, rfl, rfl, rfl, rfl⟩ }

theorem State.setX_jump_wroteRegister : WroteRegister d v s ((s.setX d v).jump a) :=
  ⟨s.setX_getX_self d v, fun _ hr => s.setX_getX_ne v hr, rfl⟩

theorem State.setX_jump_onlyRegisters : OnlyRegisters s ((s.setX d v).jump a) :=
  { OnlyRegisters.refl s with system := ⟨rfl, rfl, rfl, rfl, rfl, rfl, rfl⟩ }

end

/-! What each instruction computes. A library call clears PRF and the stack whether before or after the link is written, and the link
holds the old PRF. -/

section
variable (j k : Reg) (K : Addr) (s : State)

theorem exec_jp : exec (.jp K) s = .next (s.jump (s.p + K)) := by
  rw [← s.pPlusZext_eq]; rfl

theorem exec_jk : exec (.jk K) s = .next (s.jump K) :=
  congrArg (fun a => Host.Outcome.next (s.jump a)) (targetK_eq K)

theorem exec_ret : exec (.ret j k) s = .next (s.jump (targetXPlus (s.getX j) k)) := rfl

theorem exec_jz : exec (.jz j K) s = s.jumpIf (decide (s.getX j = 0 ∨ s.getX j = BitVec.allOnes 64)) K :=
  congrArg (s.jumpIf · K) (Bool.decide_or ..).symm

theorem exec_jnz : exec (.jnz j K) s = s.jumpIf (decide (s.getX j ≠ 0 ∧ s.getX j ≠ BitVec.allOnes 64)) K := by
  rw [← decide_eq_decide.mpr not_or, decide_not, Bool.decide_or]; rfl

theorem exec_callp : exec (.callp j K) s = .next ((s.setX j s.link).jump (s.p + K)) := by
  rw [← s.pPlusZext_eq]; rfl

theorem exec_callk : exec (.callk j K) s = .next ((s.setX j s.link).jump K) :=
  congrArg (fun a => Host.Outcome.next ((s.setX j s.link).jump a)) (targetK_eq K)

theorem exec_callx : exec (.callx j k) s = .next ((s.setX j s.link).jump (targetX (s.getX k))) := rfl

theorem exec_lcallk : exec (.lcallk j K) s = .next (((s.setPrf false).clearIas.setX j s.link).jump K) :=
  congrArg (fun a => Host.Outcome.next (((s.setPrf false).clearIas.setX j s.link).jump a)) (targetK_eq K)

theorem exec_lcallx : exec (.lcallx j k) s = .next (((s.setPrf false).clearIas.setX j s.link).jump (targetX (s.getX k))) := rfl

theorem exec_lret : exec (.lret j k) s = .next ((s.setPrf (prfOfLink (s.getX j))).clearIas.jump (targetXPlus (s.getX j) k)) := rfl

end

/-! The statements. -/

/-- A conditional jump, as statements speak of it. -/
theorem jump_or_pass_of_jumpIf {n : Instr} {s : State} {c : Bool} {K : Addr} (h : exec n s = s.jumpIf c K) : ∃ t, exec n s = .next t ∧
    (c = true → GoesTo (s.pPlusSext K) t ∧ SameRegisters s t ∧ OnlyRegisters s t) ∧ (c = false → Passed 2 s t) := by
  cases c with
  | true => exact ⟨_, h, fun _ => ⟨s.jump_goesTo _, s.jump_sameRegisters _, s.jump_onlyRegisters _⟩, nofun⟩
  | false => exact ⟨_, h, nofun, fun _ => passed_advance (.refl s) 2⟩

/-- Settles O42: three jumps, and six choices between a jump and going on. -/
theorem jumps : Obligations.Jumps := by
  intro j k K s
  have goes : ∀ a, GoesTo a (s.jump a) ∧ SameRegisters s (s.jump a) ∧ OnlyRegisters s (s.jump a) := fun a =>
    ⟨s.jump_goesTo a, s.jump_sameRegisters a, s.jump_onlyRegisters a⟩
  constructor
  · rw [← targetXPlus_eq]
    exact ⟨⟨_, exec_jp K s, goes _⟩, ⟨_, exec_jk K s, goes _⟩, ⟨_, exec_ret j k s, goes _⟩⟩
  · exact ⟨jump_or_pass_of_jumpIf rfl, jump_or_pass_of_jumpIf rfl, jump_or_pass_of_jumpIf (exec_jz j K s),
      jump_or_pass_of_jumpIf (exec_jnz j K s), jump_or_pass_of_jumpIf rfl, jump_or_pass_of_jumpIf rfl⟩

/-- Settles O44: each of the three is a jump behind the link, its target read first. -/
theorem calls : Obligations.Calls := by
  intro j k K s
  rw [← s.link_eq, ← targetX_eq]
  have links : ∀ a, GoesTo a ((s.setX j s.link).jump a) ∧ WroteRegister j s.link s ((s.setX j s.link).jump a) ∧
      OnlyRegisters s ((s.setX j s.link).jump a) := fun a =>
    ⟨State.jump_goesTo _ a, s.setX_jump_wroteRegister a j _, s.setX_jump_onlyRegisters a j _⟩
  exact ⟨⟨_, exec_callp j K s, links _⟩, ⟨_, exec_callk j K s, links _⟩, ⟨_, exec_callx j k s, links _⟩⟩

/-- The exit with k = 1 finds in the link what the call put there: the word after the call, and PRF. -/
theorem lret_one_of_lcallk {j : Reg} {K : Addr} {s t u : State} (ht : exec (.lcallk j K) s = .next t)
    (hu : exec (.lret j 1) t = .next u) : u.p = s.p + 1 ∧ u.xpw = s.xpw := by
  rw [exec_lcallk] at ht
  obtain rfl := Host.Outcome.next.inj ht
  rw [exec_lret, State.jump_getX, State.setX_getX_self, s.prfOfLink_link, s.targetXPlus_link_one] at hu
  obtain rfl := Host.Outcome.next.inj hu
  exact ⟨rfl, rfl⟩

/-- Settles O45: a library call is a call from the state with PRF clear and the stack empty, and the exit a jump from such a state with
the link's PRF. -/
theorem libraryCallsAndExit : Obligations.LibraryCallsAndExit := by
  intro j k K s
  rw [← s.link_eq, ← targetX_eq, ← targetXPlus_eq]
  have links : ∀ a, GoesTo a (((s.setPrf false).clearIas.setX j s.link).jump a) ∧
      WroteRegister j s.link s (((s.setPrf false).clearIas.setX j s.link).jump a) ∧
      OnlyRegisters (s.setPrf false).clearIas (((s.setPrf false).clearIas.setX j s.link).jump a) := fun a =>
    ⟨State.jump_goesTo _ a, (s.setPrf false).clearIas.setX_jump_wroteRegister a j _, State.setX_jump_onlyRegisters _ a j _⟩
  exact ⟨⟨⟨_, exec_lcallk j K s, links _⟩, ⟨_, exec_lcallx j k s, links _⟩⟩,
    ⟨_, exec_lret j k s, State.jump_goesTo _ _, State.jump_sameRegisters _ _,
      State.jump_onlyRegisters _ _⟩,
    fun _ _ => lret_one_of_lcallk⟩

end Sys2Proof.Machine
end

section
/-! Codes 100X to 103X (45_codes_6bit.md R320 to R324): shifts and masks by a count in the instruction, bit by bit. -/

namespace Sys2Proof.Machine

/-- What 100X delivers: the low n bits are kept, and zeros stand above them (R321). -/
theorem getLsbD_and_maskLow (v : Word) {n b : Nat} (hb : b < 64) :
    (v &&& maskLow n).getLsbD b = (decide (b < n) && v.getLsbD b) := by
  rw [BitVec.getLsbD_and, getLsbD_maskLow hb, Bool.and_comm]

/-- What 101X delivers: the low n bits are zeros, and the bits above them are kept (R322). -/
theorem getLsbD_and_not_maskLow (v : Word) {n b : Nat} (hb : b < 64) :
    (v &&& ~~~maskLow n).getLsbD b = (!decide (b < n) && v.getLsbD b) := by
  rw [BitVec.getLsbD_and, BitVec.getLsbD_not, getLsbD_maskLow hb, decide_eq_true hb, Bool.true_and, Bool.and_comm]

/-- A right shift takes each bit from n places up, or from the sign where there is none (R324). -/
theorem getLsbD_sar64_min (v : Word) {n b : Nat} (hb : b < 64) : (sar64 v n).getLsbD b = v.getLsbD (min (b + n) 63) := by
  rw [getLsbD_sar64 v hb, Nat.min_def, apply_ite v.getLsbD]

/-- Settles O27: each of the four is one register write and going on; a count of 6 bits is below 64, as the rotation needs. -/
theorem constantShiftResults : Obligations.ConstantShiftResults := by
  intro j n s
  have writes : ∀ v : Word, Delivered j v 1 s ((s.setX j v).advance 1) := fun v => delivered_setX (.refl s) j v 1
  exact ⟨⟨_, _, rfl, writes _, fun _ => getLsbD_and_maskLow _⟩, ⟨_, _, rfl, writes _, fun _ => getLsbD_and_not_maskLow _⟩,
    ⟨_, _, rfl, writes _, fun _ => getLsbD_rotl64 _ n.isLt⟩, ⟨_, _, rfl, writes _, fun _ => getLsbD_sar64_min _⟩⟩

end Sys2Proof.Machine
end

section
/-! Code 23XX (46_codes_4bit.md R337): a jump back on a negative difference. -/

namespace Sys2Proof.Machine

/-- Minus zero is the one word with the sign set that does not stand for a negative integer (R150). -/
theorem getLsbD_63_iff_val1c_neg {v : Word} (h : v ≠ BitVec.allOnes 64) : v.getLsbD 63 = true ↔ val1c v < 0 := by
  have hmax : v.toNat ≠ 2 ^ 64 - 1 := fun e => h (BitVec.eq_of_toNat_eq (e.trans BitVec.toNat_allOnes.symm))
  have hsign : v.getLsbD 63 = true ↔ 2 ^ 63 ≤ v.toNat := by
    rw [← decide_eq_true_iff (p := 2 ^ 63 ≤ v.toNat), ← msb_eq_decide_toNat]; rfl
  have hlt := v.isLt
  rw [hsign, val1c_eq]
  split <;> omega

/-- While the difference is in range its sign compares the operands (R154): the adder delivers no minus zero. -/
theorem sub1c_neg_iff_val1c_lt {a b : Word} (hlow : -(2 ^ 63 - 1) ≤ val1c a - val1c b)
    (hhigh : val1c a - val1c b ≤ 2 ^ 63 - 1) : (sub1c a b).getLsbD 63 = true ↔ val1c a < val1c b := by
  have hsign : (sub1c a b).getLsbD 63 = true ↔ val1c (sub1c a b) < 0 := getLsbD_63_iff_val1c_neg (add1c_ne_minus_zero a (~~~b))
  rw [hsign, val1c_sub1c hlow hhigh, sub_neg]

theorem exec_brb_of_neg {i j k : Reg} {s : State} (h : (sub1c (s.getX j) (s.getX k)).getLsbD 63 = true) :
    exec (.brb i j k) s = .next (s.jump (s.p - i.setWidth 20)) :=
  congrArg Host.Outcome.next (if_pos h)

theorem exec_brb_of_not_neg {i j k : Reg} {s : State} (h : (sub1c (s.getX j) (s.getX k)).getLsbD 63 = false) :
    exec (.brb i j k) s = .next (s.advance 1) :=
  congrArg Host.Outcome.next (if_neg (Bool.eq_false_iff.mp h))

/-- Settles O43: a jump or going on by the sign of the difference, which is the order of the operands while it is in range. -/
theorem backwardBranch : Obligations.BackwardBranch := by
  intro i j k s
  obtain h | h := Bool.eq_false_or_eq_true ((sub1c (s.getX j) (s.getX k)).getLsbD 63)
  · exact ⟨_, exec_brb_of_neg h, fun _ => ⟨s.jump_goesTo _, s.jump_sameRegisters _, s.jump_onlyRegisters _⟩,
      fun hpos => absurd (h.symm.trans hpos) nofun, sub1c_neg_iff_val1c_lt⟩
  · exact ⟨_, exec_brb_of_not_neg h, fun hneg => absurd (h.symm.trans hneg) nofun, fun _ => passed_advance (.refl s) 1,
      sub1c_neg_iff_val1c_lt⟩

end Sys2Proof.Machine
end

section
/-! What an instruction can do to memory and to the XPW: it updates neither but for PRF and XA, or issues one reference, whose write is
inside the field, or makes one exchange (20_memory.md R80; 60_exceptions.md R412, R424, R425). -/

namespace Sys2Proof.Machine

/-- The XPW after an instruction that makes no exchange: 0322 and 0323 clear PRF, 0331 takes it from the link, and 0131 loads XA in
monitor mode (60_exceptions.md R425). -/
def xpwAfter (s : State) : Instr → Xpw
  | .lcallk _ _ | .lcallx _ _ => { s.xpw with prf := false }
  | .lret j _ => { s.xpw with prf := prfOfLink (s.getX j) }
  | .lxa k => if s.xpw.mtf then { s.xpw with xa := xaOperand (s.getX k) } else s.xpw
  | _ => s.xpw

/-- Memory and what waits for it are as before. -/
structure SameQueue (s t : State) : Prop where
  mem : t.mem = s.mem
  sws : t.sws = s.sws

/-- What the instruction `i` can do from `s`: updates that reach neither memory nor what waits; one reference, which writes a word of the
field if it writes one; or an exchange, with at most a register written before. -/
inductive Ran (i : Instr) (s : State) : State → Prop where
  | updates {t : State} (queue : SameQueue s t) (xpw : t.xpw = xpwAfter s i) : Ran i s t
  | refers {u : State} (twin : Twin s u) (r : Ref) (n : Nat) (xpw : xpwAfter s i = s.xpw)
      (field : r.data ≠ none → InField s r.addr ∧ r.addr < Config.memWords) : Ran i s ((u.issue r).advance n)
  | exchanges {u : State} (queue : SameQueue s u) (xpw : u.xpw = s.xpw) (f : BitVec 8) (a : Addr) : Ran i s (u.exchange f a)

theorem Twin.sameQueue {s u : State} (h : Twin s u) : SameQueue s u := ⟨h.mem, h.sws⟩

section
variable {i : Instr} {s t u : State}

/-- A condition raised with at most a value drawn before. -/
theorem Twin.ran_raise (h : Twin s u) {c : Cond} (ht : u.raise c = .next t) : Ran i s t := by
  cases ht
  exact .exchanges h.sameQueue h.xpw _ _

/-- A data reference is made inside the field. -/
theorem Twin.ran_dataRef (h : Twin s u) (hx : xpwAfter s i = s.xpw) {ds : List Reg} {k : Nat → State → Answer} (hk : Refers ds k)
    {a : Addr} (ht : u.dataRef a k = .next t) : Ran i s t := by
  obtain ⟨-, e⟩ | ⟨ha, hm, e⟩ | ⟨f, e⟩ := u.dataRef_cases a k <;> rw [e] at ht
  · exact h.ran_raise ht
  · obtain ⟨r, n, hr, -, hrefer⟩ := hk u (u.relocate a)
    rw [hrefer u (.refl ds u)] at ht
    cases ht
    rw [h.xpw] at ha
    refine .refers h r n hx fun _ => ⟨⟨a.toNat, ha, ?_⟩, hr ▸ hm⟩
    rw [hr, State.relocate_eq, h.xpw]
  · cases ht

/-- A program reference only reads. -/
theorem Twin.ran_progRef (h : Twin s u) (hx : xpwAfter s i = s.xpw) {d : Reg} {n : Nat} {a : Addr}
    (ht : u.progRef a (loadInto d n) = .next t) : Ran i s t := by
  obtain e | ⟨b, -, e⟩ | ⟨f, e⟩ := u.progRef_cases a (loadInto d n) <;> rw [e] at ht
  · exact h.ran_raise ht
  · cases ht
    exact .refers h ⟨b, some d, none⟩ n hx fun hd => absurd rfl hd
  · cases ht

/-- A floating result is written, and may then raise Condition(52). -/
theorem Twin.ran_deliverFloat (h : Twin s u) (hx : xpwAfter s i = s.xpw) {d : Reg} {r : Word} (ht : u.deliverFloat d r = .next t) :
    Ran i s t := by
  obtain ⟨-, -, e⟩ | e := u.deliverFloat_cases d r <;> rw [e] at ht <;> cases ht
  · exact .exchanges (u := u.setX d r) ⟨h.mem, h.sws⟩ h.xpw _ _
  · exact .updates ⟨by simp [h.mem], by simp [h.sws]⟩ (by simp [h.xpw, hx])

/-- Starting a block changes a channel alone. -/
theorem ran_startBlock (hx : xpwAfter s i = s.xpw) {busy : Bool} {a : Addr} {io : IoSection}
    (ht : (if s.xpw.mtf then
        if busy then .refused .channelBusy else s.atWord a.toNat fun _ s => .next ((s.setIo io).advance 1)
      else .next (s.advance 1) : Answer) = .next t) : Ran i s t := by
  split at ht
  · split at ht
    · cases ht
    · obtain ⟨-, ht⟩ := State.atWord_eq_next ht
      cases ht
      exact .updates ⟨by simp, by simp⟩ (by simp [hx])
  · cases ht
    exact .updates ⟨by simp, by simp⟩ (by simp [hx])

/-- A conditional jump changes P and PP alone. -/
theorem ran_jumpIf (hx : xpwAfter s i = s.xpw) {c : Bool} {K : Addr} (ht : s.jumpIf c K = .next t) : Ran i s t := by
  cases ht
  cases c <;> exact .updates ⟨by simp, by simp⟩ (by simp [hx])

end

/-- Everything that an instruction can do to memory and to the XPW. -/
theorem exec_ran {i : Instr} {s t : State} (ht : exec i s = .next t) : Ran i s t := by
  have hself := Twin.refl s
  have hdrawn := Twin.drawn s
  cases i with
  | err00 | err0e | err1e | err1f | xj => exact hself.ran_raise ht
  | pass | and | or | xor | copy | copyc | shl | shr | pop | imul | setk | setnk | addk | subk | unpc | unpe | pack | neg | tpk | tk
  | txa | ril | rtc | save | blank | roln | sarn | iaddk | iadd | isub | jp | jk | ret | callp | callk | callx | lcallk | lcallx
  | lret =>
    cases ht
    exact .updates ⟨by simp, by simp⟩ (by simp [xpwAfter])
  | bsc | esc | sil | cil | lxa =>
    cases ht
    refine .updates ⟨?_, ?_⟩ ?_ <;> split <;> simp [xpwAfter, *]
  | rcr j =>
    change (if s.xpw.mtf then _ else _) = Host.Outcome.next t at ht
    split at ht <;> cases ht <;> exact .updates ⟨by simp, by simp⟩ (by simp [xpwAfter])
  | brb i j k =>
    cases ht
    refine .updates ⟨?_, ?_⟩ ?_ <;> split <;> simp [xpwAfter]
  | jir | jnr | jz | jnz | jpl | jng => exact ran_jumpIf rfl ht
  | chin | chout => exact ran_startBlock rfl ht
  | fdpadd | fdpsub | fdiv | fdpmul | fadd | fsub | fmul => exact hdrawn.ran_deliverFloat rfl ht
  | stk j | stxk j | stxx j => exact hself.ran_dataRef rfl (refers_storeFrom (List.mem_singleton_self j)) ht
  | rsk j => exact hself.ran_dataRef rfl (refers_swapWith (List.mem_singleton_self j)) ht
  | ldk j | ldxk j | ldxx j => exact hself.ran_dataRef rfl (refers_loadInto (List.mem_singleton_self j)) ht
  | stx j => exact hdrawn.ran_dataRef rfl (refers_storeFrom (List.mem_singleton_self j)) ht
  | rsx j => exact hdrawn.ran_dataRef rfl (refers_swapWith (List.mem_singleton_self j)) ht
  | ldx j => exact hdrawn.ran_dataRef rfl (refers_loadInto (List.mem_singleton_self j)) ht
  | rpk | rpp => exact hself.ran_progRef rfl ht
  | rpx => exact hdrawn.ran_progRef rfl ht

end Sys2Proof.Machine
end

section
/-! A turn that is not the processor's and names no reference of an exchange sequence leaves the XPW and the ends of runs as they are
(60_exceptions.md R425, R441, R443). -/

namespace Sys2Proof.Machine

/-- The XPW, and the XPW words that completed sequences have stored, are as before. -/
structure SameRun (s t : State) : Prop where
  xpw : t.xpw = s.xpw
  exits : t.exits = s.exits

theorem writeInput_sameRun {s t : State} {c : Channel} (ht : writeInput s c = .next t) : SameRun s t := by
  rcases writeInput_cases s c with ⟨-, e⟩ | ⟨a, w, ws, -, ⟨-, e⟩ | ⟨-, e⟩⟩ <;> rw [e] at ht <;> cases ht
  · exact ⟨rfl, rfl⟩
  · exact ⟨by simp, by simp⟩

theorem deliverInWord_sameRun {s t : State} {c : Channel} {v : BitVec 12} (ht : deliverInWord s c v = .next t) : SameRun s t := by
  unfold deliverInWord at ht
  dsimp only at ht
  split at ht
  · split at ht
    · cases ht
      exact ⟨rfl, rfl⟩
    · obtain ⟨hxpw, hexits⟩ := writeInput_sameRun ht
      exact ⟨hxpw, hexits⟩
  · cases ht

theorem deliverOutWord_sameRun {s t : State} {c : Channel} (ht : deliverOutWord s c = .next t) : SameRun s t := by
  unfold deliverOutWord at ht
  dsimp only at ht
  split at ht
  · split at ht
    · obtain ⟨-, ht⟩ := State.atWord_eq_next ht
      cases ht
      exact ⟨rfl, rfl⟩
    · cases ht
      exact ⟨rfl, rfl⟩
  · cases ht

theorem readAhead_sameRun {s t : State} {c : Channel} (ht : readAhead s c = .next t) : SameRun s t := by
  unfold readAhead at ht
  dsimp only at ht
  split at ht
  · obtain ⟨-, ht⟩ := State.atWord_eq_next ht
    cases ht
    exact ⟨rfl, rfl⟩
  · cases ht
    exact ⟨rfl, rfl⟩

theorem startBlock_sameRun {s t : State} {busy : Bool} {a : Addr} {io : IoSection} (ht : startBlock s busy a io = .next t) :
    SameRun s t := by
  unfold startBlock at ht
  split at ht
  · cases ht
  · obtain ⟨-, ht⟩ := State.atWord_eq_next ht
    cases ht
    exact ⟨rfl, rfl⟩

theorem deliverRecordFlag_sameRun (s : State) (h : Half) (c : Channel) : SameRun s (deliverRecordFlag s h c) := by
  cases h <;> unfold deliverRecordFlag <;> dsimp only <;> split <;> exact ⟨rfl, rfl⟩

theorem deliver_sameRun {turn : Turn} (hturn : turn ≠ .reference) {s t : State} (ht : deliver turn s = .next t) : SameRun s t := by
  cases turn with
  | reference => exact absurd rfl hturn
  | execute | interrupt | timeInterval | selectRequest | otherTakes | otherRcr | otherSetIl | otherClearIl | otherBsc | otherEsc =>
    cases ht
    exact ⟨rfl, rfl⟩
  | perform | forward =>
    cases ht
    exact ⟨by simp, by simp⟩
  | recordFlag h c =>
    cases ht
    exact deliverRecordFlag_sameRun s h c
  | inWord c v => exact deliverInWord_sameRun ht
  | writeInput c => exact writeInput_sameRun ht
  | outWord c => exact deliverOutWord_sameRun ht
  | readAhead c => exact readAhead_sameRun ht
  | flagThis =>
    cases ht
    unfold flagThis
    split <;> exact ⟨rfl, rfl⟩
  | flagOther q =>
    cases ht
    split <;> exact ⟨rfl, rfl⟩
  | otherStore q a v =>
    obtain ⟨-, ht⟩ := State.atWord_eq_next (k := fun a s => .next (s.poke a v)) ht
    cases ht
    exact ⟨by simp, by simp⟩
  | otherChin q c a | otherChout q c a => exact startBlock_sameRun ht

/-! What a step can do, said once. -/

/-- What decides how a run goes on is as before: the XPW, the ends of runs, the sequence in progress, and what is read. -/
structure SameContext (s u : State) : Prop where
  xpw : u.xpw = s.xpw
  exits : u.exits = s.exits
  exchanging : u.exchanging = s.exchanging
  view : ∀ a, u.view a = s.view a

theorem SameContext.trans {s u t : State} (h : SameContext s u) (g : SameContext u t) : SameContext s t :=
  ⟨g.xpw.trans h.xpw, g.exits.trans h.exits, g.exchanging.trans h.exchanging, fun a => (g.view a).trans (h.view a)⟩

theorem SameContext.refl (s : State) : SameContext s s := ⟨rfl, rfl, rfl, fun _ => rfl⟩

theorem sameContext_setScript (s : State) (ts : List Turn) : SameContext s { s with script := ts } := ⟨rfl, rfl, rfl, fun _ => rfl⟩

theorem sameContext_performAll (s : State) : SameContext s s.performAll := ⟨by simp, by simp, by simp, by simp⟩

theorem sameContext_await (s : State) (ds : List Reg) : SameContext s (s.await ds) := ⟨by simp, by simp, by simp, by simp⟩

/-- What a step from `s` can do: leave the XPW and the ends of runs as they are; run an instruction or make an exchange, where no exchange
sequence is in progress; or make references of the sequence that is. -/
inductive Stepped (s : State) : State → Prop where
  | left {t : State} (run : SameRun s t) : Stepped s t
  | ran {u t : State} {i : Instr} (same : SameContext s u) (idle : s.exchanging = none) (answer : exec i u = .next t) : Stepped s t
  | exchanged {u : State} (same : SameContext s u) (idle : s.exchanging = none) (f : BitVec 8) (a : Addr) : Stepped s (u.exchange f a)
  | referred {u : State} (same : SameContext s u) (n : Nat) : Stepped s (State.references n u)

theorem Stepped.of_context {s u t : State} (h : Stepped u t) (g : SameContext s u) : Stepped s t := by
  cases h with
  | left run => exact .left ⟨run.xpw.trans g.xpw, run.exits.trans g.exits⟩
  | ran same idle answer => exact .ran (g.trans same) (g.exchanging ▸ idle) answer
  | exchanged same idle f a => exact .exchanged (g.trans same) (g.exchanging ▸ idle) f a
  | referred same n => exact .referred (g.trans same) n

theorem stepped_interruptTurn (io time sys : Bool) (s : State) : Stepped s (interruptTurn io time sys s) := by
  unfold interruptTurn
  dsimp only
  split
  · rename_i h
    have idle : s.exchanging = none := by
      simp only [State.interruptible, Bool.and_eq_true, Option.isNone_iff_eq_none] at h
      exact h.1.2
    refine .exchanged ?_ idle _ _
    split <;> exact ⟨by simp, by simp, by simp, fun a => State.view_congr (by simp) (by simp) a⟩
  · exact .left ⟨rfl, rfl⟩

theorem stepped_cpuStep {s t : State} (ht : cpuStep s = .next t) : Stepped s t := by
  unfold cpuStep at ht
  split at ht
  · cases ht
    exact .referred (.refl s) 17
  · rename_i hex
    have idle : s.exchanging = none := by simpa using hex
    rcases fetch_cases s with ⟨i, u, e, hu⟩ | e | ⟨f, e⟩ | ⟨r, e⟩ <;> rw [e] at ht
    · have hsame : SameContext s u := by
        rcases hu with ⟨-, rfl⟩ | ⟨-, rfl⟩ <;> exact ⟨rfl, rfl, rfl, fun _ => rfl⟩
      exact .ran (hsame.trans (sameContext_await u _)) idle ht
    · cases ht
      exact .exchanged (.refl s) idle _ _
    · cases ht
    · cases ht

theorem stepped_deliver {turn : Turn} {s t : State} (ht : deliver turn s = .next t) : Stepped s t := by
  by_cases hturn : turn = .reference
  · subst hturn
    cases ht
    exact .referred (.refl s) 1
  · exact .left (deliver_sameRun hturn ht)

/-- Everything that a step can do to the XPW and to the ends of runs. -/
theorem stepped_of_step {s t : State} (ht : step s = .next t) : Stepped s t := by
  unfold step at ht
  split at ht
  · split at ht
    · cases ht
      exact (stepped_interruptTurn _ _ _ _).of_context (sameContext_performAll s)
    · exact (stepped_cpuStep ht).of_context (sameContext_performAll s)
  · exact (stepped_cpuStep ht).of_context (sameContext_setScript s _)
  · cases ht
    exact (stepped_interruptTurn _ _ _ _).of_context (sameContext_setScript s _)
  · exact (stepped_deliver ht).of_context (sameContext_setScript s _)

end Sys2Proof.Machine
end

section
/-! The modes, RA and FL come from an exchange package alone; PRF and XA besides from the instructions named (60_exceptions.md R425). -/

namespace Sys2Proof.Machine

theorem ArrivesAs.xpw_eq {w : Word} {t : State} (h : ArrivesAs w t) : t.xpw = Xpw.unpack w := by
  obtain ⟨hmtf, hprf, hipf, hovf, hcond, hra, hxa, hfl, -, -⟩ := h
  rw [Xpw.unpack, ← hmtf, ← hprf, ← hipf, ← hovf, ← hcond, ← hra, ← hxa, ← hfl]

/-- The XPW is the one that stood in the package at XA * 32. -/
def LoadsXpw (s t : State) : Prop := t.xpw = Xpw.unpack (s.view (32 * s.xpw.xa.toNat + 16))

/-- An exchange that is made as a whole loads the XPW. -/
theorem State.exchange_loadsXpw {s : State} (h : .reference ∉ s.script) (f : BitVec 8) (a : Addr) : LoadsXpw s (s.exchange f a) := by
  rw [LoadsXpw, ((s.exchange_exchanges f a).1 h).xpwLoaded.xpw_eq, State.clearRegs_view, State.clearRegs_xpw]

theorem State.exchange_xpw (s : State) (f : BitVec 8) (a : Addr) : (s.exchange f a).xpw = s.xpw ∨ LoadsXpw s (s.exchange f a) := by
  by_cases h : .reference ∈ s.script
  · exact .inl ((((s.exchange_exchanges f a).2 h).xpw).trans s.clearRegs_xpw)
  · exact .inr (State.exchange_loadsXpw h f a)

theorem LoadsXpw.of_view {s u t : State} (h : LoadsXpw u t) (hx : u.xpw = s.xpw) (hv : ∀ a, u.view a = s.view a) : LoadsXpw s t := by
  rwa [LoadsXpw, hx, hv] at h

/-- The XPW that an instruction leaves is the one of the package, or the one that its code makes of the XPW before. -/
theorem Ran.xpw {i : Instr} {s t : State} (h : Ran i s t) : t.xpw = xpwAfter s i ∨ t.xpw = s.xpw ∨ LoadsXpw s t := by
  cases h with
  | updates queue xpw => exact .inl xpw
  | refers twin r n => exact .inr (.inl (by simp [twin.xpw]))
  | @exchanges u queue xpw f a =>
    exact .inr ((u.exchange_xpw f a).imp (·.trans xpw) (·.of_view xpw (State.view_congr queue.mem queue.sws)))

theorem sameModes_of_xpw {s t : State} (h : t.xpw = s.xpw) : SameModes s t := by constructor <;> rw [h]

theorem SameModes.of_xpw {s u t : State} (h : SameModes u t) (hx : u.xpw = s.xpw) : SameModes s t :=
  ⟨hx ▸ h.mtf, hx ▸ h.ipf, hx ▸ h.ovf, hx ▸ h.ra, hx ▸ h.fl⟩

theorem sameModes_xpwAfter {s t : State} {i : Instr} (h : t.xpw = xpwAfter s i) : SameModes s t := by
  unfold xpwAfter at h
  repeat' split at h
  all_goals constructor <;> rw [h]

theorem xpwAfter_prf (s : State) (i : Instr) : (xpwAfter s i).prf = s.xpw.prf ∨
    ((xpwAfter s i).prf = false ∧ ((∃ j K, i = .lcallk j K) ∨ ∃ j k, i = .lcallx j k)) ∨
    ∃ j k, i = .lret j k ∧ (xpwAfter s i).prf = (s.getX j).getLsbD 62 := by
  unfold xpwAfter
  split
  · exact .inr (.inl ⟨rfl, .inl ⟨_, _, rfl⟩⟩)
  · exact .inr (.inl ⟨rfl, .inr ⟨_, _, rfl⟩⟩)
  · exact .inr (.inr ⟨_, _, rfl, rfl⟩)
  · split <;> exact .inl rfl
  · exact .inl rfl

theorem xpwAfter_xa (s : State) (i : Instr) : (xpwAfter s i).xa = s.xpw.xa ∨ (s.xpw.mtf = true ∧ ∃ k, i = .lxa k) := by
  unfold xpwAfter
  split
  · exact .inl rfl
  · exact .inl rfl
  · exact .inl rfl
  · split
    · exact .inr ⟨‹_›, _, rfl⟩
    · exact .inl rfl
  · exact .inl rfl

/-- The references of a sequence that exchange X registers leave the XPW. -/
theorem State.references_xpw (n : Nat) {s : State} (h : ∀ e, s.exchanging = some e → e.next ≠ .xpw) :
    (State.references n s).xpw = s.xpw := by
  refine (State.references_induction (P := fun u => u.xpw = s.xpw ∧ ∀ e, u.exchanging = some e → e.next ≠ .xpw)
    (fun u ⟨hx, hn⟩ => ?_) n s ⟨rfl, h⟩).1
  rcases u.reference_cases with ⟨-, e⟩ | ⟨q, hq, hxpw, -⟩ | ⟨q, d, -, -, e⟩
  · rw [e]
    exact ⟨hx, hn⟩
  · exact absurd hxpw (hn q hq)
  · rw [e]
    refine ⟨hx, fun q' hq' => ?_⟩
    rw [State.referenceX_exchanging] at hq'
    split at hq' <;> cases hq'
    simp

theorem ExchangeSequence.addr_xpw {e : ExchangeSequence} (h : e.next = .xpw) : e.addr = 32 * e.package.toNat + 16 := by
  rw [ExchangeSequence.addr, h, Config.packageAlign, Nat.mul_comm]

/-- The first reference of a sequence loads the XPW, and those after it leave it (60_exceptions.md R414). -/
theorem State.references_xpw_cases (n : Nat) (s : State) : (State.references n s).xpw = s.xpw ∨
    ∃ e, s.exchanging = some e ∧ e.next = .xpw ∧ (State.references n s).xpw = Xpw.unpack (s.view (32 * e.package.toNat + 16)) := by
  by_cases h : ∃ e, s.exchanging = some e ∧ e.next = .xpw
  · obtain ⟨e, he, hn⟩ := h
    cases n with
    | zero => exact .inl rfl
    | succ n =>
      refine .inr ⟨e, he, hn, ?_⟩
      rw [State.references, State.reference_of_xpw he hn, State.references_xpw n (by simp), State.referenceXpw_xpw,
        ExchangeSequence.addr_xpw hn]
  · exact .inl (State.references_xpw n fun e he hn => h ⟨e, he, hn⟩)

/-- Settles O55: a step is an instruction, an exchange, references of a sequence, or leaves the XPW (`Stepped`); an instruction leaves
the XPW as `xpwAfter` says or makes an exchange. -/
theorem modesChangeOnlyByExchange : Obligations.ModesChangeOnlyByExchange := by
  refine ⟨fun s t ht => ?_, fun i s t ht => ?_⟩
  · cases stepped_of_step ht with
    | left run => exact .inl (sameModes_of_xpw run.xpw)
    | @ran u _ i same idle answer =>
      obtain h | h | h := (exec_ran answer).xpw
      · exact .inl ((sameModes_xpwAfter h).of_xpw same.xpw)
      · exact .inl (sameModes_of_xpw (h.trans same.xpw))
      · exact .inr (.inl ⟨idle, h.of_view same.xpw same.view⟩)
    | @exchanged u same idle f a =>
      obtain h | h := u.exchange_xpw f a
      · exact .inl (sameModes_of_xpw (h.trans same.xpw))
      · exact .inr (.inl ⟨idle, h.of_view same.xpw same.view⟩)
    | @referred u same n =>
      obtain h | ⟨e, he, hn, h⟩ := State.references_xpw_cases n u
      · exact .inl (sameModes_of_xpw (h.trans same.xpw))
      · exact .inr (.inr ⟨e, same.exchanging ▸ he, hn, by rw [h, same.view]⟩)
  · obtain h | h | h := (exec_ran ht).xpw
    · rw [h]
      exact ⟨(xpwAfter_prf s i).imp_right .inr, (xpwAfter_xa s i).imp_right .inr⟩
    · exact ⟨.inl (by rw [h]), .inl (by rw [h])⟩
    · exact ⟨.inr (.inl h), .inr (.inl h)⟩

end Sys2Proof.Machine
end

section
/-! What an exchange leaves outside of the package, and the words that an instruction can change (60_exceptions.md R412, R424). -/

namespace Sys2Proof.Machine

/-- What is read of a word depends on memory at that word alone. -/
theorem Memory.view_of_read {m n : Memory} {a : Nat} (h : m.read a = n.read a) (w : List Ref) : m.view w a = n.view w a := by
  induction w with
  | nil => exact h
  | cons r w ih => rw [Memory.view, Memory.view, ih]

/-- What is read of a word depends on the waiting references to that word alone. -/
theorem Memory.view_filter_of {p : Ref → Bool} {a : Nat} (hp : ∀ r : Ref, r.addr = a → p r = true) (m : Memory) (w : List Ref) :
    m.view (w.filter p) a = m.view w a := by
  induction w with
  | nil => rfl
  | cons r w ih =>
    by_cases hr : p r = true
    · rw [List.filter_cons_of_pos hr, Memory.view, Memory.view, ih]
    · rw [List.filter_cons_of_neg hr, ih, Memory.view, if_neg (mt (hp r) hr)]

theorem outside_of_not_inPackage {s : State} {a : Nat} (h : ¬ InPackage s a) :
    a < 32 * s.xpw.xa.toNat ∨ 32 * s.xpw.xa.toNat + 16 < a := by
  unfold InPackage at h
  omega

/-- An exchange leaves what the processor reads of the words outside of the package. -/
theorem Exchanged.view {f : BitVec 8} {p : Addr} {s t : State} (h : Exchanged f p s t) {a : Nat} (ha : ¬ InPackage s a) :
    t.view a = s.view a := by
  have hout := outside_of_not_inPackage ha
  rw [State.view, h.waiting, Memory.view_filter_of (fun r hr => by simpa [hr] using hout), Memory.view_of_read (h.otherWords a hout),
    State.view]

/-- Memory at a word is as before, or a reference to the word waited. -/
theorem State.clearRegs_read (s : State) (a : Nat) : s.clearRegs.mem.read a = s.mem.read a ∨ ∃ r ∈ s.sws, r.addr = a := by
  by_cases h : ∃ r ∈ s.sws, r.addr = a
  · exact .inr h
  · exact .inl (s.await_read allRegs fun r hr e => h ⟨r, hr, e⟩)

theorem State.view_or_waits (s : State) (a : Nat) : s.view a = s.mem.read a ∨ ∃ r ∈ s.sws, r.addr = a := by
  by_cases h : ∃ r ∈ s.sws, r.addr = a
  · exact .inr h
  · exact .inl (Memory.view_of_forall_ne fun r hr e => h ⟨r, hr, e⟩)

/-- From `s` to `t` the word at `a` may have changed only if `own`; in memory, besides, if a reference to it waited. -/
structure ChangesOnly (own : Prop) (a : Nat) (s t : State) : Prop where
  view : t.view a = s.view a ∨ own
  read : t.mem.read a = s.mem.read a ∨ own ∨ ∃ r ∈ s.sws, r.addr = a

theorem SameQueue.changesOnly {s t : State} (h : SameQueue s t) (own : Prop) (a : Nat) : ChangesOnly own a s t :=
  ⟨.inl (State.view_congr h.mem h.sws a), .inl (by rw [h.mem])⟩

theorem ChangesOnly.mono {own own' : Prop} {a : Nat} {s t : State} (h : ChangesOnly own a s t) (g : own → own') :
    ChangesOnly own' a s t := ⟨h.view.imp_right g, h.read.imp_right (·.imp_left g)⟩

/-- What was changed after a state with the same memory and the same waiting references was changed after the state itself. -/
theorem SameQueue.changesOnly_after {own : Prop} {a : Nat} {s u t : State} (h : SameQueue s u) (g : ChangesOnly own a u t) :
    ChangesOnly own a s t := by
  obtain ⟨hview, hread⟩ := g
  rw [State.view_congr h.mem h.sws] at hview
  rw [h.mem, h.sws] at hread
  exact ⟨hview, hread⟩

/-- A reference changes the word that it writes. -/
theorem Twin.issue_changesOnly {s u : State} (h : Twin s u) (r : Ref) (n a : Nat) :
    ChangesOnly (r.data ≠ none ∧ r.addr = a) a s ((u.issue r).advance n) := by
  have hissued := issued_issue h r n
  by_cases hown : r.data ≠ none ∧ r.addr = a
  · exact ⟨.inr hown, .inr (.inl hown)⟩
  · refine ⟨.inl ?_, ?_⟩
    · rw [State.advance_view, State.issue_view, h.view]
      split
      · rename_i e
        rw [not_ne_iff.mp fun hd => hown ⟨hd, e⟩, Option.getD_none]
      · rfl
    · by_cases hs : s.script = []
      · have hother : a ≠ r.addr ∨ r.data = none := by
          by_contra hc
          exact hown (by simpa [not_or, eq_comm, and_comm] using hc)
        rw [(hissued.performed hs).1.others a hother, State.performAll_mem, Memory.read_perform]
        exact (s.view_or_waits a).imp_right .inr
      · exact .inl ((hissued.waits hs).memory a)

/-- An exchange, whole or only begun, changes the words of the package, and loads the XPW from there if it does. -/
theorem State.exchange_changesOnly (s : State) (f : BitVec 8) (p : Addr) (a : Nat) :
    ChangesOnly (InPackage s a ∧ LoadsXpw s (s.exchange f p)) a s (s.exchange f p) := by
  obtain ⟨hwhole, hbegun⟩ := s.exchange_exchanges f p
  by_cases h : .reference ∈ s.script
  · obtain ⟨hread, hsws⟩ := (hbegun h).memory
    refine ⟨.inl ((State.view_eq hread hsws a).trans (s.clearRegs_view a)), ?_⟩
    rw [hread a]
    exact (s.clearRegs_read a).imp_right .inr
  · have g := hwhole h
    by_cases ha : InPackage s a
    · exact ⟨.inr ⟨ha, State.exchange_loadsXpw h f p⟩, .inr (.inl ⟨ha, State.exchange_loadsXpw h f p⟩)⟩
    · have hout : ¬ InPackage s.clearRegs a := by rwa [InPackage, State.clearRegs_xpw]
      refine ⟨.inl ((g.view hout).trans (s.clearRegs_view a)), ?_⟩
      rw [g.otherWords a (outside_of_not_inPackage hout)]
      exact (s.clearRegs_read a).imp_right .inr

/-- Settles O57: of what an instruction can do (`Ran`), a reference that writes is inside the field, and an exchange stays inside the
package. -/
theorem writesStayInField : Obligations.WritesStayInField := by
  intro i s t a ht
  have h : ChangesOnly ((InField s a ∧ a < 262144) ∨ (InPackage s a ∧ LoadsXpw s t)) a s t := by
    cases exec_ran ht with
    | updates queue => exact queue.changesOnly _ a
    | refers twin r n _ field => exact (twin.issue_changesOnly r n a).mono fun ⟨hdata, haddr⟩ => .inl (haddr ▸ field hdata)
    | @exchanges u queue xpw f p =>
      refine queue.changesOnly_after ((u.exchange_changesOnly f p a).mono fun ⟨hin, hloads⟩ => .inr ⟨?_, ?_⟩)
      · rwa [InPackage, xpw] at hin
      · exact hloads.of_view xpw (State.view_congr queue.mem queue.sws)
  exact ⟨fun hne => h.view.resolve_left hne, fun hne => h.read.resolve_left hne⟩

end Sys2Proof.Machine
end

section
/-! Floating results while OVF is set (60_exceptions.md R407). -/

namespace Sys2Proof.Machine

theorem Twin.setX {s u : State} (h : Twin s u) (d : Reg) (v : Word) : Twin (s.setX d v) (u.setX d v) where
  x := by simp [h.x]
  xres := by simp [h.xres]
  p := h.p
  pp := h.pp
  xpw := h.xpw
  mem := h.mem
  sws := h.sws
  system := ⟨h.system.il, h.system.scf, h.system.rtc, h.system.io, h.system.ioFlag, h.system.timeFlag, h.system.script⟩
  stack := h.stack
  sequence := h.sequence

/-- A floating result in range is delivered; any other is written, and then raises Condition(52). -/
theorem Twin.deliverFloat_traps {s u : State} (h : Twin s u) (hovf : s.xpw.ovf = true) (d : Reg) (r : Word) :
    ∃ t, u.deliverFloat d r = .next t ∧ (inRange r = true → Delivered d r 1 s t) ∧
      (inRange r = false → Exchanges 0x01#8 (s.p + 1) (s.setX d r) t) := by
  cases hr : inRange r with
  | true => exact ⟨_, State.deliverFloat_next (.inr hr), fun _ => delivered_setX h d r 1, nofun⟩
  | false =>
    obtain ⟨t, ht, hexchanges⟩ := (h.setX d r).raise_exchanges (c := .overflow) fun _ => rfl
    exact ⟨t, (State.deliverFloat_raise (h.xpw ▸ hovf) hr).trans ht, nofun, fun _ => hexchanges⟩

/-- Settles O32: each of the seven draws the word its function leaves open, and its result is in range or not. -/
theorem floatingTraps : Obligations.FloatingTraps := by
  intro i j k s hovf
  have traps := (Twin.drawn s).deliverFloat_traps hovf
  exact ⟨⟨s.freeWord, traps j _⟩, ⟨s.freeWord, traps j _⟩, ⟨s.freeWord, traps j _⟩, ⟨s.freeWord, traps j _⟩,
    ⟨s.freeWord, traps i _⟩, ⟨s.freeWord, traps i _⟩, ⟨s.freeWord, traps i _⟩⟩

end Sys2Proof.Machine
end

section
/-! The ends of runs: what completed exchange sequences stored (60_exceptions.md R443, D43; log 42). -/

namespace Sys2Proof.Machine

/-- At most one exchange sequence was completed. -/
def CompletesAtMostOne (s t : State) : Prop := t.exits = s.exits ∨ ∃ w, t.exits = w :: s.exits

theorem Act.run_exits (a : Act) (s : State) : (a.run s).exits = s.exits := by cases a <;> simp [Act.run]

theorem Act.runAll_exits (l : List Act) (s : State) : (Act.runAll l s).exits = s.exits :=
  Act.runAll_induction (P := fun u => u.exits = s.exits) (fun a _ u h => (a.run_exits u).trans h) rfl

theorem State.exchange_completes (s : State) (f : BitVec 8) (a : Addr) : CompletesAtMostOne s (s.exchange f a) := by
  obtain ⟨hwhole, hbegun⟩ := s.exchange_exchanges f a
  by_cases h : .reference ∈ s.script
  · exact .inl ((hbegun h).exits.trans s.clearRegs_exits)
  · exact .inr ⟨_, (hwhole h).complete.2.trans (by rw [State.clearRegs_exits])⟩

theorem Effect.run_completes {e : Effect} {s t : State} (ht : e.run s = .next t) : CompletesAtMostOne s t := by
  cases e with
  | next l =>
    cases ht
    exact .inl (Act.runAll_exits l s)
  | refer l r n =>
    cases ht
    exact .inl (by simp [Act.runAll_exits])
  | raise l c =>
    cases ht
    have h := (Act.runAll l s).exchange_completes c.flag (savedP c (Act.runAll l s).p)
    rwa [CompletesAtMostOne, Act.runAll_exits] at h
  | fault f => cases ht
  | refused r => cases ht

theorem exec_completes {i : Instr} {s t : State} (ht : exec i s = .next t) : CompletesAtMostOne s t := by
  obtain ⟨e, -, he⟩ := exec_described i s
  exact Effect.run_completes ((he s (Agrees.refl _ s)).symm.trans ht)

/-- With the last reference of a sequence none is in progress, so no number of references completes two. -/
theorem State.references_completes (n : Nat) (s : State) : CompletesAtMostOne s (State.references n s) := by
  refine (State.references_induction (P := fun u => u.exits = s.exits ∨ (u.exchanging = none ∧ ∃ w, u.exits = w :: s.exits))
    (fun u hu => ?_) n s (.inl rfl)).imp_right And.right
  obtain hu | hu := hu
  · rcases u.reference_cases with ⟨-, e⟩ | ⟨q, -, -, e⟩ | ⟨q, d, -, -, e⟩ <;> rw [e]
    · exact .inl hu
    · exact .inl hu
    · by_cases hd : d = 0
      · exact .inr ⟨by simp [hd], q.out, by simp [hd, hu]⟩
      · exact .inl (by rw [State.referenceX_exits, if_neg hd, hu])
  · rw [State.reference_of_none hu.1]
    exact .inr hu

theorem step_completes {s t : State} (ht : step s = .next t) : CompletesAtMostOne s t := by
  have of_context : ∀ {u : State}, SameContext s u → CompletesAtMostOne u t → CompletesAtMostOne s t := fun same h => by
    rwa [CompletesAtMostOne, same.exits] at h
  cases stepped_of_step ht with
  | left run => exact .inl run.exits
  | ran same _ answer => exact of_context same (exec_completes answer)
  | exchanged same _ f a => exact of_context same (State.exchange_completes _ f a)
  | referred same n => exact of_context same (State.references_completes n _)

/-- What END_OF_RUN says of a word whose condition flags are `f`. -/
theorem endOfRun_of_flags {w : Word} {f : BitVec 8} (h : w.extractLsb' 52 8 = f) : Config.endOfRun w =
    if f &&& 0x0F#8 ≠ 0 then some .fault
    else if f = 0x80#8 then some .normal
    else if f &&& 0x80#8 = 0 ∧ f ≠ 0 then some .interrupted
    else none := by
  rw [← h]
  rfl

/-- Flags of Conditions(58) to (56) alone. -/
theorem asynchronous_flags {f : BitVec 8} (h : f &&& 0x8F#8 = 0) : f &&& 0x0F#8 = 0 ∧ f &&& 0x80#8 = 0 := by
  have hpart : ∀ m : BitVec 8, 0x8F#8 &&& m = m → f &&& m = 0 := fun m hm => by
    rw [← hm, ← BitVec.and_assoc, h]
    exact BitVec.zero_and
  exact ⟨hpart 0x0F#8 rfl, hpart 0x80#8 rfl⟩

/-- Settles O54: a sequence adds the word it stored to the ends of runs, and that word holds the flags raised when none had arrived. -/
theorem runEnds : Obligations.RunEnds := by
  refine ⟨fun s t => step_completes, fun s t raised resume h hcond => ⟨_, h.complete.2, rfl, ?_⟩⟩
  rw [endOfRun_of_flags (h.xpwStored.cond.1 hcond)]
  refine ⟨fun hnormal => ?_, fun hfault => if_pos hfault, fun hasync hne => ?_⟩
  · rw [hnormal]
    rfl
  · obtain ⟨hnofault, hnocall⟩ := asynchronous_flags hasync
    have hcall : raised ≠ 0x80#8 := by
      rintro rfl
      exact absurd hasync (by decide)
    rw [if_neg (not_not.mpr hnofault), if_neg hcall, if_pos ⟨hnocall, hne⟩]

end Sys2Proof.Machine
end

section
/-! Two contexts that exchange through one package alternate (60_exceptions.md R417, R422). -/

namespace Sys2Proof.Machine

/-- 0333 makes one exchange, whole where the schedule names no single references. -/
theorem exec_xj_exchanged {s t : State} (h : .reference ∉ s.script) (ht : exec .xj s = .next t) :
    Exchanged 0x80#8 (s.p + 1) s.clearRegs t := by
  cases ht
  exact (s.exchange_exchanges Cond.programCall.flag (savedP .programCall s.p)).1 h

section
variable {f : BitVec 8} {p : Addr} {s t : State} (h : Exchanged f p s t)
include h

/-- After an exchange no reference to the package waits. -/
theorem Exchanged.view_inPackage {a : Nat} (ha : InPackage s a) : t.view a = t.mem.read a := by
  obtain ⟨hlow, hhigh⟩ := ha
  refine Memory.view_of_forall_ne fun r hr e => ?_
  rw [h.waiting, List.mem_filter, decide_eq_true_iff] at hr
  omega

/-- If no register waited before an exchange, none waits after it. -/
theorem Exchanged.clearRegs_eq (hs : ∀ r ∈ s.sws, r.dest = none) : t.clearRegs = t :=
  State.await_of_none _ fun r hr => hs r (List.mem_filter.mp (h.waiting ▸ hr)).1

/-- The XPW stored is read back with the flags raised, if none had arrived, and with the resume address. -/
theorem Exchanged.view_xpw : DepartsAs s f p (t.view (32 * s.xpw.xa.toNat + 16)) := by
  rw [h.view_inPackage ⟨by omega, le_rfl⟩]
  exact h.xpwStored

theorem Exchanged.view_register (d : Reg) : t.view (32 * s.xpw.xa.toNat + d.toNat) = s.getX d := by
  have hd : d.toNat < 16 := d.isLt
  rw [h.view_inPackage ⟨by omega, by omega⟩, h.registersStored]

/-- The context that an exchange stored, exchanged again through the same package, comes back. -/
theorem Exchanged.twice {f' : BitVec 8} {p' : Addr} {u : State} (g : Exchanged f' p' t u) (hxa : t.xpw.xa = s.xpw.xa) :
    (∀ d, u.getX d = s.getX d) ∧ u.p = p ∧ u.pp.val = 0 ∧ SameModes s u ∧ u.xpw.prf = s.xpw.prf ∧ u.xpw.xa = s.xpw.xa ∧
    (s.xpw.cond = 0 → u.xpw.cond = f) ∧
    (∀ d : Reg, u.mem.read (32 * s.xpw.xa.toNat + d.toNat) = s.view (32 * s.xpw.xa.toNat + d.toNat)) ∧
    (∀ a, ¬ InPackage s a → u.mem.read a = s.mem.read a ∧ u.view a = s.view a) ∧ SameSystem s u := by
  have hstored := h.view_xpw
  have hloaded := g.xpwLoaded
  rw [hxa] at hloaded
  refine ⟨fun d => ?_, hloaded.p.trans hstored.p, hloaded.pp, ⟨hloaded.mtf.trans hstored.mtf, hloaded.ipf.trans hstored.ipf,
    hloaded.ovf.trans hstored.ovf, hloaded.ra.trans hstored.ra, hloaded.fl.trans hstored.fl⟩, hloaded.prf.trans hstored.prf,
    hloaded.xa.trans hstored.xa, fun hc => hloaded.cond.trans (hstored.cond.1 hc), fun d => ?_, fun a ha => ?_,
    h.system.trans g.system⟩
  · rw [g.registersLoaded, hxa, h.view_register]
  · rw [← hxa, g.registersStored, h.registersLoaded, hxa]
  · have ha' : ¬ InPackage t a := by rwa [InPackage, hxa]
    exact ⟨(g.otherWords a (outside_of_not_inPackage ha')).trans (h.otherWords a (outside_of_not_inPackage ha)),
      (g.view ha').trans (h.view ha)⟩

end

/-- Settles O52: both exchanges are whole, and the second begins with no register waiting. -/
theorem exchangeTwiceResumes : Obligations.ExchangeTwiceResumes := by
  intro s t u hs ht hxa hu
  have h := exec_xj_exchanged hs ht
  have g := exec_xj_exchanged (s := t) (by rwa [h.system.script, State.clearRegs_script]) hu
  rw [h.clearRegs_eq s.clearRegs_done] at g
  obtain ⟨hregs, hp, hpp, hmodes, hprf, hxa', hcond, hpackage, hout, hsystem⟩ := h.twice g (by rwa [State.clearRegs_xpw])
  rw [State.clearRegs_xpw] at hprf hxa' hcond hpackage
  exact ⟨hregs, hp, hpp, hmodes.of_xpw s.clearRegs_xpw, hprf, hxa', hcond, fun d => (hpackage d).trans (s.clearRegs_view _),
    fun a ha => (hout a (by rwa [InPackage, State.clearRegs_xpw])).imp_right (·.trans (s.clearRegs_view a)),
    (sameSystem_clearRegs s).trans hsystem⟩

end Sys2Proof.Machine
end

section
/-! An exchange sequence reference by reference (60_exceptions.md R412, R414, R441 a; log 23). -/

namespace Sys2Proof.Machine

/-- A turn other than the processor's and an interruption is delivered. -/
theorem step_of_deliver {s : State} {turn : Turn} {ts : List Turn} (hs : s.script = turn :: ts) (hexecute : turn ≠ .execute)
    (hinterrupt : ∀ io time sys, turn ≠ .interrupt io time sys) : step s = deliver turn { s with script := ts } := by
  rw [step, hs]
  cases turn with
  | execute => exact absurd rfl hexecute
  | interrupt io time sys => exact absurd rfl (hinterrupt io time sys)
  | _ => rfl

/-- The turn that names one reference. -/
theorem step_of_reference {s : State} {ts : List Turn} (hs : s.script = .reference :: ts) :
    step s = .next (State.reference { s with script := ts }) := step_of_deliver hs nofun nofun

/-- One reference swaps the word with what is written. -/
theorem swappedAt_swapWord (s : State) (a : Nat) (v : Word) : SwappedAt a v s (s.swapWord a v) where
  word := by simp
  others b hb := by rw [State.swapWord_mem, Memory.read_write_ne _ _ hb]
  waits := List.filter_congr fun r _ => by simp [bne, beq_eq_decide]

theorem SwappedAt.of_queue {a : Nat} {v : Word} {s u t : State} (h : SwappedAt a v s u) (g : SameQueue u t) : SwappedAt a v s t :=
  ⟨g.mem ▸ h.word, g.mem ▸ h.others, g.sws.trans h.waits⟩

section
variable (s : State) (e : ExchangeSequence)

theorem arrivesAs_referenceXpw : ArrivesAs (s.view e.addr) (s.referenceXpw e) := ⟨rfl, rfl, rfl, rfl, rfl, rfl, rfl, rfl, rfl, rfl⟩

theorem swappedAt_referenceXpw : SwappedAt e.addr e.out s (s.referenceXpw e) := (swappedAt_swapWord s _ _).of_queue ⟨rfl, rfl⟩

theorem swappedAt_referenceX (d : Reg) : SwappedAt e.addr (s.getX d) s (s.referenceX e d) :=
  (swappedAt_swapWord s _ _).of_queue ⟨rfl, rfl⟩

end

/-- What one reference leaves: the stack, the schedule, the channels, IL and SCF. -/
theorem State.reference_rest (s : State) : SameStack s s.reference ∧ s.reference.script = s.script ∧ s.reference.io = s.io ∧
    s.reference.il = s.il ∧ s.reference.scf = s.scf := by
  rcases s.reference_cases with ⟨-, e⟩ | ⟨q, -, -, e⟩ | ⟨q, d, -, -, e⟩ <;> rw [e] <;> exact ⟨⟨rfl, rfl⟩, rfl, rfl, rfl, rfl⟩

/-- A reference does not look at the schedule. -/
theorem State.reference_setScript (s : State) (ts : List Turn) :
    State.reference { s with script := ts } = { s.reference with script := ts } := by
  rcases s.reference_cases with ⟨hx, e⟩ | ⟨q, hx, hn, e⟩ | ⟨q, d, hx, hn, e⟩ <;> rw [e]
  · exact State.reference_of_none hx
  · exact State.reference_of_xpw hx hn
  · exact State.reference_of_x hx hn

/-- References named by the schedule, one step each. -/
theorem steps_references (n : Nat) {s : State} {ts : List Turn} (hs : s.script = List.replicate n .reference ++ ts) :
    Steps n s (State.references n { s with script := ts }) := by
  induction n generalizing s with
  | zero =>
    have hts : s.script = ts := hs
    subst hts
    rfl
  | succ n ih =>
    rw [List.replicate_succ, List.cons_append] at hs
    refine ⟨_, step_of_reference hs, ?_⟩
    rw [State.references, s.reference_setScript ts, s.reference_setScript (List.replicate n Turn.reference ++ ts)]
    exact ih (s := { s.reference with script := List.replicate n .reference ++ ts }) rfl

/-- With a sequence in progress the processor's turn is what is left of it (R418 d). -/
theorem cpuStep_of_exchanging {s : State} (h : s.exchanging.isSome = true) : cpuStep s = .next s.finishExchange := if_pos h

/-- During a sequence no asynchronous condition can be taken (R418 d). -/
theorem State.not_interruptible_of_exchanging {s : State} (h : s.exchanging.isSome = true) : s.interruptible = false := by
  simp [State.interruptible, Option.isNone_eq_false_iff.mpr h]

theorem step_of_interrupt {s : State} {io time sys : Bool} {ts : List Turn} (hs : s.script = .interrupt io time sys :: ts) :
    step s = .next (interruptTurn io time sys { s with script := ts }) := by
  rw [step, hs]

theorem interruptTurn_of_not_interruptible {s : State} (h : s.interruptible = false) (io time sys : Bool) :
    interruptTurn io time sys s = s := by
  simp [interruptTurn, h]

/-- What goes to a register depends on what is read. -/
theorem Memory.arriving_of_read {m n : Memory} (h : ∀ a, m.read a = n.read a) (d : Reg) (w : List Ref) :
    m.arriving d w = n.arriving d w := by
  induction w with
  | nil => rfl
  | cons r w ih => rw [Memory.arriving, Memory.arriving, ih, Memory.view_of_read (h r.addr)]

theorem DepartsAs.of_xpw {f : BitVec 8} {p : Addr} {w : Word} {s u : State} (h : DepartsAs s f p w) (hx : u.xpw = s.xpw) :
    DepartsAs u f p w :=
  ⟨hx ▸ h.mtf, hx ▸ h.prf, hx ▸ h.ipf, hx ▸ h.ovf, hx ▸ h.cond, hx ▸ h.ra, hx ▸ h.xa, hx ▸ h.fl, h.p⟩

section
variable {f : BitVec 8} {p : Addr} {s t : State} (h : Begun f p s t)
include h

theorem Begun.exchanging_isSome : t.exchanging.isSome = true := by
  obtain ⟨w, -, hw⟩ := h.sequence
  simp [hw]

theorem Begun.setScript (ts : List Turn) : Begun f p { s with script := ts } { t with script := ts } where
  sequence := by
    obtain ⟨w, hw, hx⟩ := h.sequence
    exact ⟨w, hw.of_xpw rfl, hx⟩
  exits := h.exits
  registers := h.registers
  xpw := h.xpw
  place := h.place
  memory := h.memory
  reservations := h.reservations
  stackEmpty := h.stackEmpty
  system := ⟨h.system.il, h.system.scf, h.system.rtc, h.system.io, h.system.ioFlag, h.system.timeFlag, rfl⟩

/-- References that reach memory at the beginning of a sequence might as well have done so before it. -/
theorem Begun.performAll : Begun f p s.performAll t.performAll where
  sequence := by
    obtain ⟨w, hw, hx⟩ := h.sequence
    exact ⟨w, hw.of_xpw s.performAll_xpw, by simp [hx]⟩
  exits := by simp [h.exits]
  registers r := by
    rw [State.performAll_getX, State.performAll_getX, State.seen, h.memory.2, Memory.arriving_of_read h.memory.1, h.registers, State.seen]
  xpw := by simp [h.xpw]
  place := by simp [h.place]
  memory := ⟨fun a => by simpa [State.view] using State.view_eq h.memory.1 h.memory.2 a, by simp⟩
  reservations := by
    rw [eq_zero_iff_getLsbD_reg]
    intro d hd
    have := ((State.performList_reserved { t with sws := [] } t.sws d).mp hd).1
    exact (eq_zero_iff_getLsbD_reg _).mp h.reservations d this
  stackEmpty := by simp [h.stackEmpty]
  system := ⟨by simp [h.system.il], by simp [h.system.scf], by simp [h.system.rtc], by simp [h.system.io], by simp [h.system.ioFlag],
    by simp [h.system.timeFlag], by simp [h.system.script]⟩

/-! The beginning of a sequence, and how the schedule goes on with it. -/

theorem Begun.steps {ts : List Turn} (hs : t.script = List.replicate 17 .reference ++ ts) :
    ∃ u, Steps 17 t u ∧ Exchanged f p { s with script := ts } u :=
  ⟨_, steps_references 17 hs, State.finish_exchanged (h.setScript ts) 0⟩

theorem Begun.step_execute {ts : List Turn} (hs : t.script = .execute :: ts) :
    ∃ u, step t = .next u ∧ Exchanged f p { s with script := ts } u :=
  ⟨_, (step_of_execute hs).trans (cpuStep_of_exchanging h.exchanging_isSome), State.finish_exchanged (h.setScript ts) 0⟩

theorem Begun.step_exhausted (hs : t.script = []) : ∃ u, step t = .next u ∧ Exchanged f p s.performAll u := by
  have hpending : t.interruptPending = false := by
    rw [State.interruptPending, State.not_interruptible_of_exchanging h.exchanging_isSome, Bool.false_and]
  exact ⟨_, (step_of_exhausted hs hpending).trans (cpuStep_of_exchanging (by simp [h.exchanging_isSome])),
    State.finish_exchanged h.performAll 0⟩

theorem Begun.step_interrupt {io time sys : Bool} {ts : List Turn} (hs : t.script = .interrupt io time sys :: ts) :
    step t = .next { t with script := ts } := by
  rw [step_of_interrupt hs, interruptTurn_of_not_interruptible]
  exact State.not_interruptible_of_exchanging (s := { t with script := ts }) h.exchanging_isSome

end

/-- Settles O53: a turn `reference` is one reference of the sequence, and 17 of them, or one turn of the processor, are the whole. -/
theorem exchangeInSteps : Obligations.ExchangeInSteps := by
  refine ⟨fun s e ts he hs => ?_, fun s t raised resume ts h =>
    ⟨h.steps, h.step_execute, h.step_exhausted, fun _ _ _ => h.step_interrupt⟩⟩
  obtain ⟨hstack, hscript, hio, hil, hscf⟩ := State.reference_rest { s with script := ts }
  refine ⟨_, step_of_reference hs, hstack, hscript, hio, hil, hscf, fun hn => ?_, fun d hn => ?_⟩
  · rw [State.reference_of_xpw (s := { s with script := ts }) he hn, ← ExchangeSequence.addr_xpw hn]
    obtain ⟨hword, hothers, hwaits⟩ := swappedAt_referenceXpw { s with script := ts } e
    exact ⟨⟨hword, hothers, hwaits⟩, arrivesAs_referenceXpw { s with script := ts } e, ⟨fun _ => rfl, rfl⟩, rfl, rfl⟩
  · have haddr : 32 * e.package.toNat + d.toNat = e.addr := by rw [ExchangeSequence.addr_x e hn, Config.packageAlign, Nat.mul_comm]
    rw [State.reference_of_x (s := { s with script := ts }) he hn, haddr]
    obtain ⟨hword, hothers, hwaits⟩ := swappedAt_referenceX { s with script := ts } e d
    refine ⟨⟨hword, hothers, hwaits⟩, by rw [State.referenceX_getX, if_pos rfl]; rfl, fun r hr => ?_, rfl, rfl, rfl, fun hd => ?_,
      fun hd => ?_⟩
    · rw [State.referenceX_getX, if_neg hr]
      rfl
    · have hd' : d ≠ 0 := fun c => hd (by rw [c]; rfl)
      rw [State.referenceX_exchanging, State.referenceX_exits, if_neg hd', if_neg hd']
      exact ⟨rfl, rfl⟩
    · have hd' : d = 0 := BitVec.eq_of_toNat_eq hd
      rw [State.referenceX_exchanging, State.referenceX_exits, if_pos hd', if_pos hd']
      exact ⟨rfl, rfl⟩

end Sys2Proof.Machine
end

section
/-! Asynchronous conditions at a word boundary (60_exceptions.md R408 to R410, R413 c, R418, R420, R433; logs 2, 25, 28). -/

namespace Sys2Proof.Machine

theorem State.interruptible_iff (s : State) : s.interruptible = true ↔ s.pp.val = 0 ∧ s.xpw.mtf = false ∧ s.exchanging = none := by
  simp only [State.interruptible, Bool.and_eq_true, decide_eq_true_iff, Bool.not_eq_true', Option.isNone_iff_eq_none, Fin.ext_iff,
    and_assoc]
  rfl

/-- One of the conditions named is present. -/
def State.presents (s : State) (io time sys : Bool) : Bool := io && s.ioFlag.isSome || time && s.timeFlag || sys && s.scf

/-- The flags of the conditions named that are present. -/
def State.presentFlags (s : State) (io time sys : Bool) : BitVec 8 :=
  asyncFlags (io && s.ioFlag.isSome) (time && s.timeFlag) (sys && s.scf)

/-- The channels after Condition(58) has been taken, if it is named and present: the channel resume has been sent (log 28). -/
def State.ioTaken (s : State) (io : Bool) : IoSection :=
  if io then match s.ioFlag with
    | some c => { s.io with wire := .acknowledge c :: s.io.wire }
    | none => s.io else s.io

/-- The conditions named that are present no longer wait. -/
def State.taken (s : State) (io time : Bool) : State :=
  { s with ioFlag := if io then none else s.ioFlag, timeFlag := s.timeFlag && !time, io := s.ioTaken io }

/-- The conditions named that are present are taken in one exchange with the resume address P. -/
theorem State.takeAsync_present (s : State) (io time sys : Bool) :
    s.takeAsync (io && s.ioFlag.isSome) (time && s.timeFlag) (sys && s.scf) =
      (s.taken io time).exchange (s.presentFlags io time sys) s.p := by
  have htime : (s.timeFlag && !(time && s.timeFlag)) = (s.timeFlag && !time) := by
    cases s.timeFlag <;> simp
  have hstate : { (if (io && s.ioFlag.isSome) = true then s.takeChannelRequest else s) with
      timeFlag := s.timeFlag && !(time && s.timeFlag) } = s.taken io time := by
    rw [htime]
    cases io with
    | false => rfl
    | true =>
      cases h : s.ioFlag with
      | none => simp [State.taken, State.ioTaken, h]
      | some c => simp [State.taken, State.ioTaken, State.takeChannelRequest, h]
  rw [State.takeAsync, hstate]
  rfl

theorem interruptTurn_of_presents {s : State} {io time sys : Bool} (hb : s.interruptible = true) (hp : s.presents io time sys = true) :
    interruptTurn io time sys s = (s.taken io time).exchange (s.presentFlags io time sys) s.p := by
  rw [← State.takeAsync_present]
  exact if_pos (Bool.and_eq_true_iff.mpr ⟨hb, hp⟩)

theorem interruptTurn_of_absent {s : State} {io time sys : Bool} (h : s.interruptible = false ∨ s.presents io time sys = false) :
    interruptTurn io time sys s = s := by
  refine if_neg fun hc => ?_
  obtain ⟨hb, hp⟩ := Bool.and_eq_true_iff.mp hc
  obtain h | h := h
  · exact absurd (hb.symm.trans h) (by decide)
  · exact absurd (hp.symm.trans h) (by decide)

theorem State.interruptPending_eq (s : State) : s.interruptPending = (s.interruptible && s.presents true true true) := by
  simp [State.interruptPending, State.presents]

/-- With the schedule exhausted every condition that is present is taken at a word boundary (log 25). -/
theorem step_of_pending {s : State} (hs : s.script = []) (hp : s.interruptPending = true) :
    step s = .next (interruptTurn true true true s.performAll) := by
  rw [step, hs]
  exact if_pos hp

/-- At a boundary with the schedule exhausted everything present is taken in one whole exchange, once every waiting reference has reached
memory. -/
theorem step_exhausted_exchanged {s : State} (hs : s.script = []) (hb : s.interruptible = true) (hp : s.presents true true true = true) :
    ∃ t, step s = .next t ∧ Exchanged (s.presentFlags true true true) s.p
      { s.performAll with ioFlag := none, timeFlag := false, io := s.ioTaken true } t := by
  have hpending : s.interruptPending = true := by rw [s.interruptPending_eq, hb, hp]; rfl
  have hb' : s.performAll.interruptible = true := by simpa [State.interruptible] using hb
  have hp' : s.performAll.presents true true true = true := by simpa [State.presents] using hp
  have htaken : s.performAll.taken true true = { s.performAll with ioFlag := none, timeFlag := false, io := s.ioTaken true } := by
    simp [State.taken, State.ioTaken]
  have hflags : s.performAll.presentFlags true true true = s.presentFlags true true true := by simp [State.presentFlags]
  refine ⟨_, step_of_pending hs hpending, ?_⟩
  rw [interruptTurn_of_presents hb' hp', htaken, hflags, State.performAll_p]
  have hwhole := (State.exchange_exchanges { s.performAll with ioFlag := none, timeFlag := false, io := s.ioTaken true }
    (s.presentFlags true true true) s.p).1 (by simp [hs])
  rwa [State.clearRegs, State.await_of_none _ (by simp)] at hwhole

/-- Settles O58: at a boundary with something present the turn is one exchange; otherwise it does nothing. -/
theorem asynchronousConditions : Obligations.AsynchronousConditions := by
  intro s io time sys ts
  dsimp only
  rw [← s.interruptible_iff]
  refine ⟨fun hs => ⟨fun hb hp => ?_, fun h => ?_⟩, fun hs => ⟨step_exhausted_exchanged hs, fun h => ?_⟩⟩
  · refine ⟨_, step_of_interrupt hs, ?_⟩
    rw [interruptTurn_of_presents (s := { s with script := ts }) hb hp]
    exact State.exchange_exchanges _ _ _
  · rw [step_of_interrupt hs, interruptTurn_of_absent (s := { s with script := ts }) (h.imp_left Bool.eq_false_of_not_eq_true)]
  · refine step_of_exhausted hs ?_
    rw [s.interruptPending_eq, Bool.and_eq_false_iff]
    exact h.imp_left Bool.eq_false_of_not_eq_true

end Sys2Proof.Machine
end

section
/-! Channel input: what a path does with the words that arrive, its own writes, and the record flag that ends the block (60_exceptions.md
R430, R432, R433, R441 b; log 45). -/

namespace Sys2Proof.Machine

/-! The turns of an input path. -/

section
variable {s : State} {c : Channel} {ts : List Turn}

theorem step_of_inWord {v : BitVec 12} (hs : s.script = .inWord c v :: ts) : step s = deliverInWord { s with script := ts } c v :=
  step_of_deliver hs nofun nofun

theorem step_of_writeInput (hs : s.script = .writeInput c :: ts) : step s = writeInput { s with script := ts } c :=
  step_of_deliver hs nofun nofun

theorem writeInput_of_nil (h : (s.io.inp c).waiting = []) : writeInput s c = .next s := by
  rw [writeInput, h]

theorem writeInput_of_waiting {a : Addr} {w : Word} {ws : List (Addr × Word)} (h : (s.io.inp c).waiting = (a, w) :: ws) :
    writeInput s c =
      s.atWord a.toNat fun a s => .next ((s.setIo (s.io.setInp c { s.io.inp c with waiting := ws })).poke a w) := by
  rw [writeInput, h]

theorem step_of_recordFlag {h : Half} (hs : s.script = .recordFlag h c :: ts) :
    step s = .next (deliverRecordFlag { s with script := ts } h c) := step_of_deliver hs nofun nofun

end

/-- Too few bits for a word are kept. -/
theorem InPath.receive_of_lt {q : InPath} {v : BitVec 12} (h : (q.bits ++ bitsOf q.width.bits v).length < 64) :
    q.receive v = { q with bits := q.bits ++ bitsOf q.width.bits v } := if_pos h

/-- 64 bits are an assembled word, which waits with the path's address. -/
theorem InPath.receive_of_ge {q : InPath} {v : BitVec 12} (h : 64 ≤ (q.bits ++ bitsOf q.width.bits v).length) :
    q.receive v = q.assemble (q.bits ++ bitsOf q.width.bits v) := if_neg (Nat.not_lt.mpr h)

/-- A channel word received with nothing waiting: its bits join those that the path holds, and 64 bits are a word, bit 63 first. -/
theorem InPath.receive_bits {q : InPath} (hw : q.waiting = []) (v : BitVec 12) {stream : List Bool}
    (hstream : stream = q.bits ++ (List.range q.width.bits).map fun i => v.getLsbD (q.width.bits - 1 - i)) :
    (stream.length < 64 → q.receive v = { q with bits := stream }) ∧
    (64 ≤ stream.length → ∃ w : Word,
      q.receive v = { q with bits := stream.drop 64, addr := q.addr + 1, waiting := [(q.addr, w)] } ∧
      ∀ i, i < 64 → w.getLsbD (63 - i) = stream.getD i false) := by
  rw [← bitsOf_eq] at hstream
  subst hstream
  refine ⟨InPath.receive_of_lt, fun h => ⟨_, ?_, wordOfBits_getLsbD _⟩⟩
  rw [InPath.receive_of_ge h, InPath.assemble, hw, List.nil_append]

/-- The end of a block with nothing left to write. -/
theorem InPath.finish_of_nil {q : InPath} (h : q.bits = []) : q.finish = { q with active := false } := by
  rw [InPath.finish, if_pos h, ← h]

/-- The end of a block fills what is left out with zeros. -/
theorem InPath.finish_of_ne_nil {q : InPath} (h : q.bits ≠ []) : q.finish =
    { q with active := false, bits := [], addr := q.addr + 1, waiting := q.waiting ++ [(q.addr, wordOfBits q.bits)] } := by
  rw [InPath.finish, if_neg h]
  rfl

/-- What the write of an assembled word leaves as it was: everything but memory at that word, the path, and what the stack may read. -/
theorem poke_written (s : State) (io : IoSection) (a : Nat) (w : Word) :
    ((s.setIo io).poke a w).mem.read a = w ∧ (∀ b, b ≠ a → ((s.setIo io).poke a w).mem.read b = s.mem.read b) ∧
    ((s.setIo io).poke a w).sws = s.sws ∧ StackAfterWrite a s ((s.setIo io).poke a w) ∧ SameRegisters s ((s.setIo io).poke a w) ∧
    ((s.setIo io).poke a w).xpw = s.xpw ∧ ((s.setIo io).poke a w).p = s.p ∧ ((s.setIo io).poke a w).pp = s.pp ∧
    SameSequence s ((s.setIo io).poke a w) ∧ SameSystem { s with io := io } ((s.setIo io).poke a w) := by
  refine ⟨by simp, fun b hb => Memory.read_write_ne _ _ hb, by simp, ?_, ⟨fun r => by simp, by simp⟩, by simp, by simp, by simp,
    by simp [SameSequence], by constructor <;> simp⟩
  exact stackAfterWrite_of (Twin.refl (s.setIo io)) (by simp) (by simp)

/-- Settles O59: a word arrives by `InPath.receive`, a block ends by `InPath.finish`, and the path's step writes the oldest word. -/
theorem channelInput : Obligations.ChannelInput := by
  intro s c v ts
  dsimp only
  refine ⟨fun hs hactive => ⟨fun hw => ?_, fun hw => ?_⟩, fun hs => ⟨fun hw => ?_, fun a w ws hw => ⟨fun ha => ?_, fun ha => ?_⟩⟩,
    fun hs hactive => ?_⟩
  · rw [step_of_inWord hs, step_of_writeInput (s := { s with script := .writeInput c :: .inWord c v :: ts }) rfl]
    obtain ⟨hnil, -⟩ | ⟨-, e⟩ := deliverInWord_cases { s with script := ts } c v hactive
    · exact absurd hnil hw
    · exact e
  · obtain ⟨-, e⟩ | ⟨hne, -⟩ := deliverInWord_cases { s with script := ts } c v hactive
    · exact ⟨_, (step_of_inWord hs).trans e, InPath.receive_bits hw v rfl⟩
    · exact absurd hw hne
  · rw [step_of_writeInput hs, writeInput_of_nil (s := { s with script := ts }) hw]
  · rw [step_of_writeInput hs, writeInput_of_waiting (s := { s with script := ts }) hw]
    exact State.atWord_of_ge ha
  · refine ⟨_, ?_, poke_written { s with script := ts } (s.io.setInp c { s.io.inp c with waiting := ws }) a.toNat w⟩
    rw [step_of_writeInput hs, writeInput_of_waiting (s := { s with script := ts }) hw]
    exact State.atWord_of_lt ha
  · refine ⟨(s.io.inp c).finish, _, ?_, fun d => ChannelRequest.mem_request s.io.req c d, InPath.finish_of_nil,
      fun h => ⟨_, InPath.finish_of_ne_nil h, wordOfBits_getLsbD _⟩⟩
    rw [step_of_recordFlag hs]
    exact congrArg _ (if_pos hactive)

end Sys2Proof.Machine
end

section
/-! Channel output, record flags, and the request mechanism (60_exceptions.md R408, R431 to R436; logs 28, 29, 41, 44). -/

namespace Sys2Proof.Machine

/-! The output path. -/

/-- The path as it is when it sends: the next memory word has been read if too few bits were left (R431). -/
def OutPath.supplied (q : OutPath) (m : Memory) : OutPath :=
  if q.bits.length < q.width.bits then q.fill (m.read q.addr.toNat) else q

/-- The path after it has sent one word. -/
def OutPath.sent (q : OutPath) : OutPath := { q with bits := q.bits.drop q.width.bits, first := false }

/-- The word that the path sends. -/
def OutPath.nextWord (q : OutPath) : BitVec 12 := BitVec.ofNat 12 (natOfBits (q.bits.take q.width.bits))

section
variable (q : OutPath) (m : Memory)

theorem OutPath.supplied_width : (q.supplied m).width = q.width := by
  unfold OutPath.supplied
  split <;> rfl

theorem OutPath.supplied_first : (q.supplied m).first = q.first := by
  unfold OutPath.supplied
  split <;> rfl

theorem OutPath.supplied_bits : (q.supplied m).bits = if decide (q.bits.length < q.width.bits) = true then
    q.bits ++ (List.range 64).map (fun i => (m.read q.addr.toNat).getLsbD (63 - i)) else q.bits := by
  unfold OutPath.supplied
  simp only [decide_eq_true_iff]
  split
  · rw [OutPath.fill, bitsOfWord_eq]
  · rfl

theorem OutPath.supplied_addr :
    (q.supplied m).addr = if decide (q.bits.length < q.width.bits) = true then q.addr + 1 else q.addr := by
  unfold OutPath.supplied
  simp only [decide_eq_true_iff]
  split <;> rfl

/-- A path that has been supplied has the bits of a word. -/
theorem OutPath.supplied_enough : (q.supplied m).width.bits ≤ (q.supplied m).bits.length := by
  have := q.width.bits_le
  rw [OutPath.supplied_width]
  unfold OutPath.supplied
  split
  · simp only [OutPath.fill, List.length_append, bitsOfWord_length]
    omega
  · omega

end

/-- The word sent, from its highest bit down. -/
theorem OutPath.nextWord_getLsbD {q : OutPath} (h : q.width.bits ≤ q.bits.length) {i : Nat} (hi : i < q.width.bits) :
    q.nextWord.getLsbD (q.width.bits - 1 - i) = q.bits.getD i false :=
  channelWord_getLsbD q.bits q.width.bits q.width.bits_le h i hi

/-- What a path sends, and what it is left with: the first bits of what it holds once it has been supplied, and the rest. -/
theorem OutPath.supplied_sends (q : OutPath) (m : Memory) {n : Nat} {stream : List Bool} (hn : n = q.width.bits)
    (hstream : stream = if decide (q.bits.length < n) = true then
      q.bits ++ (List.range 64).map (fun i => (m.read q.addr.toNat).getLsbD (63 - i)) else q.bits) :
    (q.supplied m).sent.bits = stream.drop n ∧
    (q.supplied m).sent.addr = (if decide (q.bits.length < n) = true then q.addr + 1 else q.addr) ∧
    ∀ i, i < n → (q.supplied m).nextWord.getLsbD (n - 1 - i) = stream.getD i false := by
  subst hn
  rw [← OutPath.supplied_bits] at hstream
  subst hstream
  rw [← OutPath.supplied_width q m]
  refine ⟨rfl, ?_, fun i => OutPath.nextWord_getLsbD (q.supplied_enough m)⟩
  rw [OutPath.supplied_width]
  exact q.supplied_addr m

theorem deliverOutWord_of_active {s : State} {c : Channel} (hactive : (s.io.out c).active = true)
    (ha : (s.io.out c).addr.toNat < Config.memWords) : deliverOutWord s c = .next (s.setIo
      ((s.io.setOut c ((s.io.out c).supplied s.mem).sent).send
        (.word c ((s.io.out c).supplied s.mem).first ((s.io.out c).supplied s.mem).nextWord))) := by
  unfold deliverOutWord
  dsimp only
  rw [if_pos hactive]
  by_cases hshort : (s.io.out c).bits.length < (s.io.out c).width.bits
  · rw [if_pos hshort, State.atWord_of_lt ha, OutPath.supplied, if_pos hshort]
    rfl
  · rw [if_neg hshort, OutPath.supplied, if_neg hshort]
    rfl

theorem readAhead_of_active {s : State} {c : Channel} (hactive : (s.io.out c).active = true)
    (ha : (s.io.out c).addr.toNat < Config.memWords) :
    readAhead s c = .next (s.setIo (s.io.setOut c ((s.io.out c).fill (s.mem.read (s.io.out c).addr.toNat)))) := by
  rw [readAhead, if_pos hactive, State.atWord_of_lt ha]

theorem readAhead_of_idle {s : State} {c : Channel} (h : (s.io.out c).active = false) : readAhead s c = .next s := by
  rw [readAhead, if_neg (by simp [h])]

/-- A record flag on a half with no block in progress only makes the request (log 28). -/
theorem deliverRecordFlag_of_idle {s : State} {h : Half} {c : Channel} (hinput : h = .input → (s.io.inp c).active = false)
    (houtput : h = .output → (s.io.out c).active = false) :
    deliverRecordFlag s h c = s.setIo { s.io with req := s.io.req.request c } := by
  cases h with
  | input => exact if_neg (by simp [hinput rfl])
  | output => exact if_neg (by simp [houtput rfl])

/-- A record flag on an output half ends its block: the request is made, and the parity status word is sent. -/
theorem deliverRecordFlag_output {s : State} {c : Channel} (hactive : (s.io.out c).active = true) :
    deliverRecordFlag s .output c = endOutput (s.setIo { s.io with req := s.io.req.request c }) c := if_pos hactive

theorem endOutput_active (s : State) (c : Channel) : ((endOutput s c).io.out c).active = false := by
  rw [endOutput, State.setIo_io, IoSection.out_send, IoSection.out_setOut, if_pos rfl]

/-! The request mechanism. -/

theorem ChannelRequest.select_of_mem {r : ChannelRequest} {c : Channel} (hnone : r.current = none) (hc : c ∈ r.pending) :
    r.select c = { r with current := some c } := if_pos ⟨hnone, hc⟩

theorem ChannelRequest.waiting_of_free {r : ChannelRequest} {c : Channel} (h : r.current = some c ∧ r.held = false) :
    r.waiting = true := by
  rw [ChannelRequest.waiting, h.1, h.2]
  rfl

theorem ChannelRequest.waiting_of_busy {r : ChannelRequest} (h : r.current = none ∨ r.held = true) : r.waiting = false := by
  obtain h | h := h <;> simp [ChannelRequest.waiting, h]

/-- This processor can be flagged: a request waits for a processor, MTF is clear, and no exchange sequence is in progress. -/
theorem flagThis_of_free {s : State} {c : Channel} (h : s.io.req.current = some c ∧ s.io.req.held = false) (hmtf : s.xpw.mtf = false)
    (hex : s.exchanging = none) : flagThis s = { s with ioFlag := some c, io := s.io.hold } := by
  rw [flagThis, if_pos (by simp [ChannelRequest.waiting_of_free h, hmtf, hex]), h.1]

theorem flagThis_of_busy {s : State}
    (h : (s.io.req.current = none ∨ s.io.req.held = true) ∨ s.xpw.mtf = true ∨ s.exchanging ≠ none) : flagThis s = s := by
  refine if_neg ?_
  obtain h | h | h := h
  · simp [ChannelRequest.waiting_of_busy h]
  · simp [h]
  · simp [h]

theorem IoSection.otherTakes_of_some {io : IoSection} {q : Other} {c : Channel} (h : io.others[q.val]'q.isLt = some c) :
    io.otherTakes q = (io.setOther q none).send (.acknowledge c) := by
  rw [IoSection.otherTakes, h]

theorem IoSection.otherTakes_of_none {io : IoSection} {q : Other} (h : io.others[q.val]'q.isLt = none) : io.otherTakes q = io := by
  rw [IoSection.otherTakes, h]

/-- Settles O60: each turn is delivered by the function whose cases are said above. -/
theorem channelOutputAndRequests : Obligations.ChannelOutputAndRequests := by
  intro s c q ts
  refine ⟨fun hs hactive ha => ?_, fun hs => ⟨fun hactive ha => ?_, fun hidle => ?_⟩, fun hs hactive => ?_, fun h hs hidle => ?_,
    fun hs hnone hc => ?_, ⟨fun hs => ⟨fun hfree hmtf hex => ?_, fun hbusy => ?_⟩, fun hs => ⟨fun hfree => ?_, fun hbusy => ?_⟩⟩,
    fun hs => ⟨fun hq => ?_, fun hq => ?_⟩, fun hs => ⟨fun hq => ?_, fun hq => ?_⟩⟩
  · have hpath : (s.io.setOut c ((s.io.out c).supplied s.mem).sent).out c = ((s.io.out c).supplied s.mem).sent := by
      rw [IoSection.out_setOut, if_pos rfl]
    have hstep : step s = _ :=
      (step_of_deliver hs nofun nofun).trans (deliverOutWord_of_active (s := { s with script := ts }) hactive ha)
    refine ⟨_, hstep, ⟨fun _ => rfl, rfl⟩, fun _ => rfl, rfl, congrArg OutPath.first hpath, ?_⟩
    obtain ⟨hbits, haddr, hword⟩ := (s.io.out c).supplied_sends s.mem rfl rfl
    exact ⟨(congrArg OutPath.bits hpath).trans hbits, (congrArg OutPath.addr hpath).trans haddr, _,
      congrArg (Signal.word c · _ :: s.io.wire) (OutPath.supplied_first _ _), hword⟩
  · rw [step_of_deliver hs nofun nofun, deliver, readAhead_of_active (s := { s with script := ts }) hactive ha, OutPath.fill,
      bitsOfWord_eq]
    rfl
  · rw [step_of_deliver hs nofun nofun, deliver, readAhead_of_idle (s := { s with script := ts }) hidle]
  · refine ⟨endOutput { s with script := ts, io := { s.io with req := s.io.req.request c } } c, ?_, ⟨fun _ => rfl, rfl⟩,
      endOutput_active _ c, (ChannelRequest.mem_request _ c c).mpr (.inl rfl), rfl⟩
    rw [step_of_recordFlag hs, deliverRecordFlag_output (s := { s with script := ts }) hactive]
    rfl
  · refine ⟨_, ?_, fun d => ChannelRequest.mem_request s.io.req c d⟩
    rw [step_of_recordFlag hs, deliverRecordFlag_of_idle (s := { s with script := ts }) (fun e => by subst e; exact hidle)
      fun e => by subst e; exact hidle]
    rfl
  · rw [step_of_deliver hs nofun nofun, deliver, ChannelRequest.select_of_mem hnone hc]
    rfl
  · rw [step_of_deliver hs nofun nofun, deliver, flagThis_of_free (s := { s with script := ts }) hfree hmtf hex]
    rfl
  · rw [step_of_deliver hs nofun nofun, deliver, flagThis_of_busy (s := { s with script := ts }) hbusy]
  · rw [step_of_deliver hs nofun nofun, deliver, if_pos (ChannelRequest.waiting_of_free hfree), hfree.1]
    rfl
  · rw [step_of_deliver hs nofun nofun, deliver, if_neg (by simp [ChannelRequest.waiting_of_busy hbusy])]
  · rw [step_of_deliver hs nofun nofun, deliver, IoSection.otherTakes_of_some hq]
    rfl
  · rw [step_of_deliver hs nofun nofun, deliver, IoSection.otherTakes_of_none hq]
    rfl
  · rw [step_of_deliver hs nofun nofun, deliver, ChannelRequest.release_of_current hq]
    rfl
  · rw [step_of_deliver hs nofun nofun, deliver, ChannelRequest.release_of_none hq]
    rfl

end Sys2Proof.Machine
end

section
/-! The words of the encoding tables and their instructions (30_encoding.md R113 to R116, R127; 95_test_vectors.md 2.1). -/

namespace Sys2Proof

/-- Words that are the encoding of an instruction decode to it. -/
theorem decode_of_encode_eq {i : Instr} {ps : List Parcel} (h : encode i = ps) : decode ps = .ok (i, []) := by
  simpa [h] using decodeEncode i []

/-- Code 0033 is a pass whatever its two ignored fields hold (R122). -/
theorem decode_pass (j k : Reg) : decode [f8 0x0F#8 j k] = .ok (.pass, []) := by
  have hcode := decode_f8 (c := 0x0F#8) (by decide) (by decide) j k []
  simpa [decodeParcel, decode00xx, f8_hi, f8_i] using hcode

/-- Settles O2: every word but one is what the encoder writes for its instruction; the pass has ones in the fields it ignores. -/
theorem decodesWords : Obligations.DecodesWords :=
  ⟨decode_of_encode_eq rfl, decode_pass 0xF 0xF, decode_of_encode_eq rfl, decode_of_encode_eq rfl, decode_of_encode_eq rfl,
    decode_of_encode_eq rfl, decode_of_encode_eq rfl, decode_of_encode_eq rfl, decode_of_encode_eq rfl, decode_of_encode_eq rfl,
    decode_of_encode_eq rfl⟩

end Sys2Proof
end
